-- ==== Sys2Proof/Word.lean ====
section
/-! DEFINITION. The widths of the values HCAE stores (spec/00_scope.md R7, R9). -/

namespace Sys2Proof

/-- A byte: the unit of the aperture (spec/20_memory.md R72). -/
abbrev Byte := BitVec 8

/-- A 16-bit stored value: `u16` or `i16` (spec/00_scope.md R9). -/
abbrev Half := BitVec 16

/-- A 32-bit value: a register, a command word or a binary32 bit pattern (spec/00_scope.md R7, R11). -/
abbrev Word := BitVec 32

end Sys2Proof
end

