-- ==== Sys2Proof/Syntax.lean ====
section
/-! DEFINITION. The commands of HCAE: one constructor for each row of spec/opcode_table.json (spec/30_encoding.md R97). -/

namespace Sys2Proof

/-- A command (spec/30_encoding.md R90, R97). `ch` and `sub` are the fields `CH` and `SUB`, unsigned as they stand (R91); the
Boolean operands are `ALLCH`, `ALLSF` and `DRY`. -/
inductive Instr where
  /-- NOP (spec/40_control.md R140). -/
  | nop
  /-- RESET_OVL (spec/40_control.md R141). -/
  | resetOvl (ch : Nat) (allCh : Bool)
  /-- KEYGEN0 (spec/42_cipher.md R162). -/
  | keygen0
  /-- KEYGEN1 (spec/42_cipher.md R164). -/
  | keygen1
  /-- KEYGEN56 (spec/42_cipher.md R170). -/
  | keygen56
  /-- DECRYPT (spec/42_cipher.md R171). -/
  | decrypt
  /-- ENCRYPT (spec/42_cipher.md R172). -/
  | encrypt
  /-- CRC_CALC (spec/41_crc.md R152). -/
  | crcCalc
  /-- CRC_GEN (spec/41_crc.md R153). -/
  | crcGen
  /-- CRC_CHECK (spec/41_crc.md R154). -/
  | crcCheck
  /-- UNPACK (spec/44_bitstream.md R216). -/
  | unpack
  /-- PACK (spec/44_bitstream.md R232). -/
  | pack (dry : Bool)
  /-- DEQUANT (spec/45_spectral.md R250). -/
  | dequant (ch : Nat) (allCh : Bool)
  /-- HFR_RECON (spec/45_spectral.md R252). -/
  | hfrRecon (ch : Nat) (allCh : Bool)
  /-- ISTEREO (spec/45_spectral.md R255). -/
  | istereo (sub : Nat) (allSf : Bool)
  /-- IMDCT (spec/43_transform.md R184). -/
  | imdct (ch : Nat) (allCh : Bool) (sub : Nat) (allSf : Bool)
  /-- MDCT (spec/43_transform.md R186). -/
  | mdct (ch : Nat) (allCh : Bool) (sub : Nat) (allSf : Bool)
  /-- PCM_OUT (spec/43_transform.md R190). -/
  | pcmOut (ch : Nat) (allCh : Bool) (sub : Nat) (allSf : Bool)
  /-- PCM_IN (spec/43_transform.md R191). -/
  | pcmIn (ch : Nat) (allCh : Bool) (sub : Nat) (allSf : Bool)
  /-- DECODE_FRAME (spec/46_composite.md R270). -/
  | decodeFrame
deriving DecidableEq, Repr

end Sys2Proof
end

