-- ==== Sys2Proof/WellFormed.lean ====
section
/-! DEFINITION. Which terms of `Instr` a command word can hold (spec/30_encoding.md R90): `CH` is a channel slot 0 to 15 and
`SUB` a subframe 0 to 7. -/

namespace Sys2Proof

/-- The field checks of a command: `CH` fits its four bits and `SUB` its three (R90). -/
def Instr.wellFormed : Instr → Bool
  | .nop | .keygen0 | .keygen1 | .keygen56 | .decrypt | .encrypt | .crcCalc | .crcGen | .crcCheck | .unpack
  | .pack _ | .decodeFrame => true
  | .resetOvl ch _ => decide (ch < 16)
  | .dequant ch _ => decide (ch < 16)
  | .hfrRecon ch _ => decide (ch < 16)
  | .istereo sub _ => decide (sub < 8)
  | .imdct ch _ sub _ => decide (ch < 16) && decide (sub < 8)
  | .mdct ch _ sub _ => decide (ch < 16) && decide (sub < 8)
  | .pcmOut ch _ sub _ => decide (ch < 16) && decide (sub < 8)
  | .pcmIn ch _ sub _ => decide (ch < 16) && decide (sub < 8)

end Sys2Proof
end

