-- ==== Sys2Proof/Decode.lean ====
section
/-! DEFINITION. Decoding and encoding a command word (spec/30_encoding.md R90 to R97). Decoding is total: a word is one row of
the opcode table, or it is illegal for a reason that has a name (R94, R95). -/

namespace Sys2Proof

/-- Field `v[lo+len-1 : lo]` of a word, as a number (spec/00_scope.md R7). -/
def wordField (w : Word) (lo len : Nat) : Nat := (w.toNat >>> lo) % 2 ^ len

/-- One bit of a word. -/
def wordBit (w : Word) (i : Nat) : Bool := w.toNat.testBit i

/-- Field `OP` (R90). -/
def opField (w : Word) : Nat := wordField w 0 8

/-- Field `CH` (R90). -/
def chField (w : Word) : Nat := wordField w 8 4

/-- Field `SUB` (R90). -/
def subField (w : Word) : Nat := wordField w 12 3

/-- Field `ALLCH` (R90). -/
def allChField (w : Word) : Bool := wordBit w 15

/-- Field `ALLSF` (R90). -/
def allSfField (w : Word) : Bool := wordBit w 16

/-- Field `DRY` (R90). -/
def dryField (w : Word) : Bool := wordBit w 17

/-- The forms of R93: which fields an opcode uses. -/
inductive Form where
  /-- `X`: the opcode alone (with `ARG` as part of the match). -/
  | exact
  /-- `C`: `CH`, `ALLCH`. -/
  | channel
  /-- `S`: `SUB`, `ALLSF`. -/
  | subframe
  /-- `CS`: `CH`, `ALLCH`, `SUB`, `ALLSF`. -/
  | channelSubframe
  /-- `D`: `DRY`. -/
  | dry
deriving DecidableEq, Repr

/-- The bits of a word that must match, for each form (R93). -/
def formMask : Form → Word
  | .exact => 0xFFFFFFFF#32
  | .channel => 0xFFFF70FF#32
  | .subframe => 0xFFFE8FFF#32
  | .channelSubframe => 0xFFFE00FF#32
  | .dry => 0xFFFDFFFF#32

/-- A row of the opcode table of R97: the form, the word with every variable field 0, and the command its fields make. -/
structure OpRow where
  form : Form
  pattern : Word
  build : Word → Instr

/-- A word matches a row when it agrees with the row's pattern on the form's mask (R94). -/
def OpRow.matchesWord (r : OpRow) (w : Word) : Bool := w &&& formMask r.form == r.pattern

/-- The opcode table (R97), in its order. -/
def opcodeTable : List OpRow :=
  [ ⟨.exact, 0x00000000#32, fun _ => .nop⟩,
    ⟨.channel, 0x00000001#32, fun w => .resetOvl (chField w) (allChField w)⟩,
    ⟨.exact, 0x00000002#32, fun _ => .keygen0⟩,
    ⟨.exact, 0x01000002#32, fun _ => .keygen1⟩,
    ⟨.exact, 0x38000002#32, fun _ => .keygen56⟩,
    ⟨.exact, 0x00000003#32, fun _ => .decrypt⟩,
    ⟨.exact, 0x00000004#32, fun _ => .encrypt⟩,
    ⟨.exact, 0x00000005#32, fun _ => .crcCalc⟩,
    ⟨.exact, 0x00000006#32, fun _ => .crcGen⟩,
    ⟨.exact, 0x00000007#32, fun _ => .crcCheck⟩,
    ⟨.exact, 0x00000010#32, fun _ => .unpack⟩,
    ⟨.dry, 0x00000011#32, fun w => .pack (dryField w)⟩,
    ⟨.channel, 0x00000020#32, fun w => .dequant (chField w) (allChField w)⟩,
    ⟨.channel, 0x00000021#32, fun w => .hfrRecon (chField w) (allChField w)⟩,
    ⟨.subframe, 0x00000022#32, fun w => .istereo (subField w) (allSfField w)⟩,
    ⟨.channelSubframe, 0x00000030#32, fun w => .imdct (chField w) (allChField w) (subField w) (allSfField w)⟩,
    ⟨.channelSubframe, 0x00000031#32, fun w => .mdct (chField w) (allChField w) (subField w) (allSfField w)⟩,
    ⟨.channelSubframe, 0x00000032#32, fun w => .pcmOut (chField w) (allChField w) (subField w) (allSfField w)⟩,
    ⟨.channelSubframe, 0x00000033#32, fun w => .pcmIn (chField w) (allChField w) (subField w) (allSfField w)⟩,
    ⟨.exact, 0x00000040#32, fun _ => .decodeFrame⟩ ]

/-- Why a word is illegal (R94): each case the rule names. The hardware reports all of them as the one error `ILLEGAL`. -/
inductive IllegalWord where
  /-- `OP` is the opcode of no row. -/
  | unassignedOp (op : Nat)
  /-- A KEYGEN word whose `ARG` is not 0, 1 or 56, its other bits being 0. -/
  | unknownKeygenTag (tag : Nat)
  /-- A reserved bit, or a field the form does not use, is set. -/
  | fieldNotUsed
deriving DecidableEq, Repr

/-- The reason a word that matches no row is illegal (R94). -/
def illegalReason (w : Word) : IllegalWord :=
  if opcodeTable.all (fun r => opField r.pattern != opField w) then .unassignedOp (opField w)
  else if opField w = 2 ∧ wordField w 8 16 = 0 then .unknownKeygenTag (wordField w 24 8)
  else .fieldNotUsed

/-- Decoding: the row that matches, or the reason why none does (R94). -/
def decode (w : Word) : Except IllegalWord Instr :=
  match opcodeTable.find? (fun r => r.matchesWord w) with
  | some r => .ok (r.build w)
  | none => .error (illegalReason w)

/-- `decode` as an option: `none` for every illegal word. -/
def decode? (w : Word) : Option Instr :=
  match decode w with
  | .ok i => some i
  | .error _ => none

/-- A command word read from its four bytes as the bus stores them, the byte at the lowest offset first (spec/20_memory.md
R74). A command is exactly one 32-bit word (R96): any other number of bytes is no command. -/
def decodeBytes : List Byte → Option Instr
  | [b0, b1, b2, b3] => decode? (b3 ++ b2 ++ b1 ++ b0)
  | _ => none

/-- The instruction the decoder reads from an opcode-table word of `nbits` bits, the bits above them being 0. A command is
one 32-bit word (R96), so a wider one is none. -/
def decodeTableWord (nbits w : Nat) : Option Instr :=
  if nbits ≤ 32 then
    let v := BitVec.ofNat 32 (w % 2 ^ nbits)
    decodeBytes [v.extractLsb' 0 8, v.extractLsb' 8 8, v.extractLsb' 16 8, v.extractLsb' 24 8]
  else none

/-! ### Encoding -/

/-- `CH` and `ALLCH` in their places (R90). -/
def channelBits (ch : Nat) (allCh : Bool) : Nat := ch <<< 8 + allCh.toNat <<< 15

/-- `SUB` and `ALLSF` in their places (R90). -/
def subframeBits (sub : Nat) (allSf : Bool) : Nat := sub <<< 12 + allSf.toNat <<< 16

/-- The word of a command: the opcode of R97 with the fields of R90. -/
def encode : Instr → Word
  | .nop => 0x00000000#32
  | .resetOvl ch a => BitVec.ofNat 32 (0x01 + channelBits ch a)
  | .keygen0 => 0x00000002#32
  | .keygen1 => 0x01000002#32
  | .keygen56 => 0x38000002#32
  | .decrypt => 0x00000003#32
  | .encrypt => 0x00000004#32
  | .crcCalc => 0x00000005#32
  | .crcGen => 0x00000006#32
  | .crcCheck => 0x00000007#32
  | .unpack => 0x00000010#32
  | .pack dry => BitVec.ofNat 32 (0x11 + dry.toNat <<< 17)
  | .dequant ch a => BitVec.ofNat 32 (0x20 + channelBits ch a)
  | .hfrRecon ch a => BitVec.ofNat 32 (0x21 + channelBits ch a)
  | .istereo sub f => BitVec.ofNat 32 (0x22 + subframeBits sub f)
  | .imdct ch a sub f => BitVec.ofNat 32 (0x30 + channelBits ch a + subframeBits sub f)
  | .mdct ch a sub f => BitVec.ofNat 32 (0x31 + channelBits ch a + subframeBits sub f)
  | .pcmOut ch a sub f => BitVec.ofNat 32 (0x32 + channelBits ch a + subframeBits sub f)
  | .pcmIn ch a sub f => BitVec.ofNat 32 (0x33 + channelBits ch a + subframeBits sub f)
  | .decodeFrame => 0x00000040#32

end Sys2Proof
end

