-- ==== Sys2Proof/Config.lean ====
section
/-! DEFINITION. What an implementation of HCAE fixes (spec/00_scope.md R6) and the free values: the constants without a body
stand for every value the spec leaves open, so that no proof can know one. -/

namespace Sys2Proof

/-- `N = 2^NB`: samples of a subframe, and spectral bins of a subframe (R6). -/
abbrev Config.blockSize : Nat := 128

/-- `SUBFRAMES`: subframes of a frame (R6). -/
abbrev Config.subframes : Nat := 8

/-- `BANDS`: scale factors and resolutions of a channel (R6). -/
abbrev Config.bands : Nat := 128

/-- `NCH_MAX`: channel slots (R6). -/
abbrev Config.channelSlots : Nat := 16

/-- `FRAME_BUF_BYTES` (R6). -/
abbrev Config.frameBufBytes : Nat := 65536

/-- `V3`: the version threshold of the version-gated rules (R6). -/
abbrev Config.v3 : Nat := 0x0300

/-- The size of the host aperture (spec/20_memory.md R70). -/
abbrev Config.apertureBytes : Nat := 0x80000

/-- `BASE_ADDR`, the platform's bus address of the aperture: OPEN (R6, spec/20_memory.md R70). A host operation of the model
carries an aperture offset, as R10 and R72 do (log 22). -/
opaque Config.baseAddr : Nat

/-- `RES_CURVE_INIT`, the reset contents of the resolution curve: OPEN (R6, spec/10_state.md R46; log 4). -/
opaque Config.resCurveInit : Nat → BitVec 4

/-- The byte that a reset leaves at an aperture offset the spec calls unspecified (spec/70_reset_and_hazards.md R310), keyed by
the reset (`State.epoch`) and the offset: a free value (log 3). -/
opaque Config.ramReset : Nat → Nat → Byte

/-- A value the spec leaves unspecified, keyed by the counter `State.draws` and the place it is for: a free value (log 24). -/
opaque Config.freeWord : Nat → Nat → Word

/-- How many host accesses may land while a command runs, keyed by the counter: a command's duration is finite and
unspecified (spec/70_reset_and_hazards.md R327; log 2). -/
opaque Config.duration : Nat → Nat

/-- `TRANSFORM_ARITH` other than `exact`: an element's binary32 result from the element's number and the operands its sum
reads (spec/43_transform.md R189). The model uses its value only where R189's constraint admits it (log 5). -/
opaque Config.transformArith : Nat → List Word → Word

end Sys2Proof
end

