-- ==== Sys2Proof/Machine/Bytes.lean ====
section
/-! DEFINITION. Bit fields, byte order and bit sequences: `v[hi:lo]` (spec/00_scope.md R7), the little-endian images of RAM
elements (spec/20_memory.md R74), and the bit order of the frame, most significant bit first (spec/00_scope.md R8). -/

namespace Sys2Proof.Machine

/-- The field of `len` bits of `v` whose lowest bit is `lo`: `v[lo+len-1 : lo]` (R7). -/
def field (v : Word) (lo len : Nat) : Nat := (v.toNat >>> lo) % 2 ^ len

/-- The four bytes of a 32-bit element, the byte of bits 7:0 first (R74). -/
def wordBytes (v : Word) : List Byte :=
  [v.extractLsb' 0 8, v.extractLsb' 8 8, v.extractLsb' 16 8, v.extractLsb' 24 8]

/-- The two bytes of a 16-bit element, the byte of bits 7:0 first (R74). -/
def halfBytes (v : Half) : List Byte := [v.extractLsb' 0 8, v.extractLsb' 8 8]

/-- The 32-bit elements of a byte image (R74). -/
def bytesToWords : List Byte → List Word
  | b0 :: b1 :: b2 :: b3 :: rest => (b3 ++ b2 ++ b1 ++ b0 : BitVec 32) :: bytesToWords rest
  | _ => []

/-- The 16-bit elements of a byte image (R74). -/
def bytesToHalves : List Byte → List Half
  | b0 :: b1 :: rest => (b1 ++ b0 : BitVec 16) :: bytesToHalves rest
  | _ => []

/-- A little-endian value of at most four bytes, zero-extended: what a read of those bytes answers (R74). -/
def bytesValue : List Byte → Word
  | [] => 0
  | b :: rest => b.setWidth 32 ||| (bytesValue rest <<< 8)

/-- The number whose bits are given, most significant first (R8). -/
def valueOf (bits : List Bool) : Nat := bits.foldl (fun a b => 2 * a + b.toNat) 0

/-- The `n` low bits of `v`, most significant first (R8). -/
def bitsOf (n v : Nat) : List Bool := (List.range n).map (fun i => v.testBit (n - 1 - i))

/-- The bits of a byte sequence: byte 0 first, each byte's most significant bit first (R8). -/
def bytesToBits (bytes : List Byte) : List Bool := bytes.flatMap (fun b => bitsOf 8 b.toNat)

/-- The bytes of a bit sequence whose length is a multiple of eight (R8). -/
def bitsToBytes : List Bool → List Byte
  | b7 :: b6 :: b5 :: b4 :: b3 :: b2 :: b1 :: b0 :: rest =>
    BitVec.ofNat 8 (valueOf [b7, b6, b5, b4, b3, b2, b1, b0]) :: bitsToBytes rest
  | _ => []

/-- `clamp(v, lo, hi) = min(max(v, lo), hi)` (R9), on the naturals. It is written so that a range of one value (or an empty one) gives
`hi` whatever `v` is, as the formula does. -/
def clampNat (v lo hi : Nat) : Nat := if hi ≤ lo then hi else min (max v lo) hi

/-- `clamp(v, lo, hi)` (R9), on the integers. -/
def clampInt (v lo hi : Int) : Int := min (max v lo) hi

end Sys2Proof.Machine
end

