-- ==== Sys2Proof/Machine/State.lean ====
section
/-! DEFINITION. The state of HCAE (spec/10_state.md) as plain data, with the reset state (spec/70_reset_and_hazards.md R310). -/

namespace Sys2Proof.Machine

/-- The error codes of spec/60_exceptions.md R281. No other value is ever written to `STATUS.ERR_CODE`. -/
inductive ErrCode where
  /-- 0x00: the command completed without error. -/
  | none
  /-- 0x01: the word is no command. -/
  | illegal
  /-- 0x02: a required configuration check does not hold. -/
  | badConfig
  /-- 0x03: `ALLCH = 0` and `CH >= CH_COUNT`. -/
  | badChannel
  /-- 0x04: HFR active at version 0x0300 or later. -/
  | unsupported
  /-- 0x10: the sync word is not 0xFFFF. -/
  | sync
  /-- 0x11: a scale-factor delta sum outside 0 to 63. -/
  | sfRange
  /-- 0x12: an intensity delta sum outside 0 to 15. -/
  | intensityRange
  /-- 0x13: a field read passes the frame end. -/
  | overrun
  /-- 0x14: the frame fails the validity check of DECODE_FRAME. -/
  | invalid
  /-- 0x20: a value PACK cannot code. -/
  | codeRange
  /-- 0x21: the frame content does not fit. -/
  | frameFull
deriving DecidableEq, Repr

/-- The register `STATUS` (spec/10_state.md R40), one field each; its reserved bits have no place and read 0 (log 32). -/
structure Status where
  /-- Bit 0: a command is accepted and not yet complete. -/
  busy : Bool := false
  /-- Bit 1 (W1C): the last accepted command has completed. -/
  done : Bool := false
  /-- Bit 2: the last command completed with an error. -/
  err : Bool := false
  /-- Bit 3: the validity result of the last UNPACK or PACK. -/
  valid : Bool := false
  /-- Bit 4: every delta-bits code of the last UNPACK or PACK was 0. -/
  empty : Bool := false
  /-- Bit 5: the result of the last CRC_CHECK. -/
  crcOk : Bool := false
  /-- Bit 6 (W1C): a host write was rejected. -/
  conflict : Bool := false
  /-- Bits 15:8: the last command's error code. -/
  errCode : ErrCode := .none
deriving DecidableEq, Repr

/-- `TRANSFORM_ARITH` (spec/00_scope.md R6, spec/43_transform.md R189): fixed for a machine, never changed by a step. -/
inductive TransformArith where
  /-- The default: each stored result is the exact real value rounded once. -/
  | exact
  /-- Another implementation, known only by R189's constraint. -/
  | implementation
deriving DecidableEq, Repr

/-- An operation of the host (spec/20_memory.md R72, spec/30_encoding.md R98). -/
inductive HostOp where
  /-- `MemRead(offset, bytes)`. -/
  | read (offset bytes : Nat)
  /-- `MemWrite(offset, bytes, value)`; a narrow write takes the value's low bytes (log 23). -/
  | write (offset bytes : Nat) (value : Word)
  /-- `WAIT`: poll `STATUS` until `BUSY = 0`. -/
  | wait
  /-- The hardware reset input (spec/70_reset_and_hazards.md R310). -/
  | hardReset
deriving DecidableEq, Repr

/-- What the bus answers a host access (spec/20_memory.md R73). -/
inductive BusResponse where
  /-- A read's value, zero-extended. -/
  | data (value : Word)
  /-- A write was made (or ignored, as the rules say). -/
  | done
  /-- The host bus fault of R73: the access was not performed, and a read returns no value. -/
  | fault
deriving DecidableEq, Repr

/-- Memory: the (address, byte) pairs, addresses strictly rising, that differ from what reset left there. -/
abbrev Memory := List Host.Cell

/-- The state of HCAE: the registers of spec/10_state.md section 2 (as 32-bit values whose reserved bits are 0), the engine
state of section 5, the RAM of sections 3 and 4 in `mem`, and, below the line, the model's own fields. -/
structure State where
  /-- `CTRL` (R23): bit 0 `IRQ_EN`. -/
  ctrl : Word
  /-- `STATUS` (R40). -/
  status : Status
  /-- `CMD` (R33): the last accepted command word. -/
  cmd : Word
  /-- `ERR_INFO` (R34). -/
  errInfo : Word
  /-- `CFG_STREAM` (R24). -/
  cfgStream : Word
  /-- `CFG_FRAME` (R25). -/
  cfgFrame : Word
  /-- `CFG_BANDS` (R26). -/
  cfgBands : Word
  /-- `CFG_RES` (R28). -/
  cfgRes : Word
  /-- `CFG_ROLES` (R27). -/
  cfgRoles : Word
  /-- `KEY_LO` (R31). -/
  keyLo : Word
  /-- `KEY_HI` (R31). -/
  keyHi : Word
  /-- `KEY_TYPE` (R32). -/
  keyType : Word
  /-- `FRAME_HDR` (R35). -/
  frameHdr : Word
  /-- `BITPOS` (R36). -/
  bitPos : Word
  /-- `BITS_LEFT` (R37). -/
  bitsLeft : Word
  /-- `CRC_VALUE` (R38). -/
  crcValue : Word
  /-- `CRC_LEN` (R38). -/
  crcLen : Word
  /-- `DELTA_BITS0` (R39). -/
  deltaBits0 : Word
  /-- `DELTA_BITS1` (R39). -/
  deltaBits1 : Word
  /-- `pending` (R61): the accepted command word, or none. -/
  pending : Option Word
  /-- The RAM windows and channel slots (sections 3 and 4). -/
  mem : Memory
  /-- MODEL: `draws` at the last reset, which keys the unspecified RAM contents (log 3). -/
  epoch : Nat
  /-- MODEL: the counter of free values (log 24). -/
  draws : Nat
  /-- MODEL: which `TRANSFORM_ARITH` this machine has (log 5). -/
  arith : TransformArith
  /-- MODEL: host accesses that may still land before the running command completes (log 2). -/
  busyFor : Nat
  /-- MODEL: host operations not yet made, oldest first (log 1). -/
  inbox : List HostOp
  /-- MODEL: bus responses given so far, oldest first (log 1). -/
  outbox : List BusResponse
deriving DecidableEq, Repr

/-- How a step could stop with a fault. HCAE has no stop: no step ends in one. -/
inductive Fault where
  /-- The host bus fault of spec/20_memory.md R73, raised by the bus access functions `busRead` and `busWrite`. The access
  changes no state and the machine goes on (spec/60_exceptions.md R291), so the step records it as a `BusResponse.fault`
  (log 19). Safe: the record is what the rule says the host sees. -/
  | hostBus
deriving DecidableEq, Repr

/-- Why a step could have no meaning. -/
inductive Refusal where
  /-- The instruction has no meaning in the model. Raised only by an arm of `exec` that rejects its instruction by name; no arm
  does. Safe: the model stops where the hardware goes on. -/
  | notModelled (mnemonic : String)
deriving DecidableEq, Repr

/-- The state right after reset (spec/70_reset_and_hazards.md R310). Memory lists nothing: an unlisted address reads what
reset left there. The model's own fields have the values of log 1, 2, 3, 5 and 24. -/
def State.reset : State where
  ctrl := 0
  status := {}
  cmd := 0
  errInfo := 0
  cfgStream := 0
  cfgFrame := 0
  cfgBands := 0
  cfgRes := 0x000000F0
  cfgRoles := 0
  keyLo := 0
  keyHi := 0
  keyType := 0
  frameHdr := 0
  bitPos := 0
  bitsLeft := 0
  crcValue := 0
  crcLen := 0
  deltaBits0 := 0
  deltaBits1 := 0
  pending := none
  mem := []
  epoch := 0
  draws := 1
  arith := .exact
  busyFor := 0
  inbox := []
  outbox := []

end Sys2Proof.Machine
end

