-- ==== Sys2Proof/Machine/Flags.lean ====
section
/-! DEFINITION. The status flags: the word of `STATUS` (spec/10_state.md R40), the error codes (spec/60_exceptions.md R281), the
validity result (spec/44_bitstream.md R215), the delta-bits registers (spec/10_state.md R39) and the interrupt output
(spec/60_exceptions.md R287). -/

namespace Sys2Proof.Machine

/-- The number of an error code (R281). -/
def errCodeNumber : ErrCode → Nat
  | .none => 0x00
  | .illegal => 0x01
  | .badConfig => 0x02
  | .badChannel => 0x03
  | .unsupported => 0x04
  | .sync => 0x10
  | .sfRange => 0x11
  | .intensityRange => 0x12
  | .overrun => 0x13
  | .invalid => 0x14
  | .codeRange => 0x20
  | .frameFull => 0x21

/-- `STATUS` as a word: each field in its place, the reserved bits 0 (R40). -/
def statusWord (t : Status) : Word :=
  BitVec.ofNat 32
    (t.busy.toNat + 2 * t.done.toNat + 4 * t.err.toNat + 8 * t.valid.toNat + 16 * t.empty.toNat + 32 * t.crcOk.toNat
      + 64 * t.conflict.toNat + 256 * errCodeNumber t.errCode)

/-- A host write of `STATUS`: a 1 written to `DONE` or `CONFLICT` clears it, nothing else changes (R40). -/
def statusWriteOneToClear (t : Status) (v : Word) : Status :=
  { t with done := t.done && !v.toNat.testBit 1, conflict := t.conflict && !v.toNat.testBit 6 }

/-- `valid(rem, empty, noise)` (spec/44_bitstream.md R215). -/
def validResult (rem : Int) (empty : Bool) (noise : Nat) : Bool :=
  decide (16 ≤ rem ∧ rem ≤ 128) || empty || decide (noise = 0 ∧ 16 ≤ rem)

/-- A delta-bits register: eight 3-bit codes, one in the low bits of each nibble (R39). -/
def deltaWord (codes : List Nat) : Word :=
  BitVec.ofNat 32 (codes.foldr (fun d acc => d % 8 + 16 * acc) 0)

/-- `DELTA_BITS(ch)` (R39). -/
def deltaBits (s : State) (ch : Nat) : Nat :=
  if ch < 8 then field s.deltaBits0 (4 * ch) 3 else field s.deltaBits1 (4 * (ch - 8)) 3

/-- The interrupt output: `IRQ = CTRL.IRQ_EN and STATUS.DONE`, a level (spec/60_exceptions.md R287; log 21). -/
def irq (s : State) : Bool := s.ctrl.toNat.testBit 0 && s.status.done

end Sys2Proof.Machine
end

