-- ==== Sys2Proof/Machine/Float.lean ====
section
/-! DEFINITION. binary32 arithmetic (spec/00_scope.md R11). A finite binary32 value is an integer multiple of `2^-149`, so the
exact results are integers; `roundUnits` rounds once, to nearest with ties to even. A NaN result's sign and payload are a free
value that the caller supplies (log 11). -/

namespace Sys2Proof.Machine

/-- Everything but the sign bit. -/
def magOf (w : Word) : Nat := w.toNat % 2 ^ 31

/-- The sign bit. -/
def signOf (w : Word) : Bool := w.toNat.testBit 31

/-- A NaN: all-ones exponent, nonzero fraction. -/
def isNaN (w : Word) : Bool := decide (0x7F800000 < magOf w)

/-- An infinity. -/
def isInf (w : Word) : Bool := magOf w == 0x7F800000

/-- Neither NaN nor infinity. -/
def isFinite (w : Word) : Bool := decide (magOf w < 0x7F800000)

/-- The magnitude of a finite value in units of `2^-149`. -/
def magUnits (w : Word) : Nat :=
  let e := magOf w / 2 ^ 23
  let f := magOf w % 2 ^ 23
  if e = 0 then f else (2 ^ 23 + f) * 2 ^ (e - 1)

/-- A finite value in units of `2^-149`. -/
def units (w : Word) : Int := if signOf w then -(magUnits w : Int) else (magUnits w : Int)

/-- A bit pattern from its sign and magnitude. -/
def withSign (neg : Bool) (mag : Nat) : Word := BitVec.ofNat 32 ((if neg then 2 ^ 31 else 0) + mag)

/-- Bit length of a number. -/
def bitLength (m : Nat) : Nat := if m = 0 then 0 else m.log2 + 1

/-- The magnitude pattern of the binary32 value nearest to `m * 2^-(149+k)`, ties to even, subnormals kept, overflow to
infinity (R11). With `s` bits dropped the quotient has at most 24 bits; the pattern of `q * 2^(s-k)` units is
`(s-k) * 2^23 + q`, a carry of the rounding moving into the exponent as it should. -/
def roundUnits (m k : Nat) : Nat :=
  let s := max k (bitLength m - 24)
  let q := m / 2 ^ s
  let r := m % 2 ^ s
  let up := if 2 ^ s < 2 * r ∨ (2 * r = 2 ^ s ∧ q % 2 = 1) then 1 else 0
  min ((s - k) * 2 ^ 23 + q + up) 0x7F800000

/-- `rnd32(v * 2^-(149+k))`, a zero being +0 (R11). -/
def roundInt (v : Int) (k : Nat) : Word := withSign (decide (v < 0)) (roundUnits v.natAbs k)

/-- A NaN with the sign and payload of a free value. Every NaN is the image of itself. -/
def nanOf (free : Word) : Word :=
  withSign (signOf free) (if magOf free % 2 ^ 23 = 0 then 0x7F800001 else 0x7F800000 + magOf free % 2 ^ 23)

/-- `mul32(a, b)` (R11). -/
def mul32 (free a b : Word) : Word :=
  let sign := xor (signOf a) (signOf b)
  if isNaN a ∨ isNaN b then nanOf free
  else if isInf a ∨ isInf b then
    if magOf a = 0 ∨ magOf b = 0 then nanOf free else withSign sign 0x7F800000
  else withSign sign (roundUnits (magUnits a * magUnits b) 149)

/-- `-x`: the sign bit flipped. -/
def neg32 (w : Word) : Word := w ^^^ 0x80000000#32

/-- `add32(a, b)` (R11): an exact zero sum is -0 only when both operands are -0. -/
def add32 (free a b : Word) : Word :=
  if isNaN a ∨ isNaN b then nanOf free
  else if isInf a then
    if isInf b ∧ signOf a ≠ signOf b then nanOf free else a
  else if isInf b then b
  else
    let v := units a + units b
    if v = 0 then withSign (signOf a && signOf b) 0 else roundInt v 0

/-- `sub32(a, b)` (R11). -/
def sub32 (free a b : Word) : Word := add32 free a (neg32 b)

/-- `i2f(q) * 2^-p` for an integer `q` of magnitude below `2^24` and `p` at most 149: exact (R11). -/
def i2fScaled (q : Int) (p : Nat) : Word := roundInt (q * 2 ^ (149 - p)) 0

/-- `i2f(q)` (R11). -/
def i2f (q : Int) : Word := i2fScaled q 0

/-- The order of the non-NaN binary32 values, both zeros equal. -/
def orderKey (w : Word) : Int := if signOf w then -(magOf w : Int) else (magOf w : Int)

/-- `2.0`. -/
def two32 : Word := 0x40000000#32

end Sys2Proof.Machine
end

