-- ==== Sys2Proof/Machine/Tables.lean ====
section
/-! DEFINITION. The constant tables of HCAE, each in rows of eight as spec/95_test_vectors.md prints them (sections 5.1 and
7.1; log 8), and the cosines of the transform kernel (log 7). -/

namespace Sys2Proof.Machine

/-- Entry `i` of a table kept in rows of eight. -/
def rowEntry (rows : List (List Nat)) (i : Nat) : Nat := (rows.getD (i / 8) []).getD (i % 8) 0

/-- `DEQ_SCALE[0..63]` (spec/10_state.md R44): `rnd32(sqrt(128) * (2^(53/128))^(x-63))`. -/
def deqScaleRows : List (List Nat) :=
  [ [0x342A8D26, 0x34633F89, 0x3497657D, 0x34C9B9BE, 0x35066491, 0x353311C4, 0x356E9910, 0x359EF532],
    [0x35D3CCF1, 0x360D1ADF, 0x363C034A, 0x367A83B3, 0x36A6E595, 0x36DE60F5, 0x371426FF, 0x3745672A],
    [0x37838359, 0x37AF3B79, 0x37E97C38, 0x381B8D3A, 0x384F4319, 0x388A14D5, 0x38B7FBF0, 0x38F5257D],
    [0x3923520F, 0x39599D16, 0x3990FA4D, 0x39C12C4D, 0x3A00B1ED, 0x3A2B7A3A, 0x3A647B6D, 0x3A9837F0],
    [0x3ACAD226, 0x3B071F62, 0x3B340AAF, 0x3B6FE4BA, 0x3B9FD228, 0x3BD4F35B, 0x3C0DDF04, 0x3C3D08A4],
    [0x3C7BDFED, 0x3CA7CD94, 0x3CDF9613, 0x3D14F4F0, 0x3D467991, 0x3D843A29, 0x3DB02F0E, 0x3DEAC0C7],
    [0x3E1C6573, 0x3E506334, 0x3E8AD4C6, 0x3EB8FBAF, 0x3EF67A41, 0x3F243516, 0x3F5ACB94, 0x3F91C3D3],
    [0x3FC238D2, 0x400164D2, 0x402C6897, 0x4065B907, 0x40990B88, 0x40CBEC15, 0x4107DB35, 0x413504F3] ]

/-- `DEQ_RANGE[0..15]` (spec/10_state.md R45). -/
def deqRangeRows : List (List Nat) :=
  [ [0x00000000, 0x3F2AAAAB, 0x3ECCCCCD, 0x3E924925, 0x3E638E39, 0x3E3A2E8C, 0x3E1D89D9, 0x3E088889],
    [0x3D842108, 0x3D020821, 0x3C810204, 0x3C008081, 0x3B804020, 0x3B002008, 0x3A801002, 0x3A000801] ]

/-- `INT_RATIO_INIT[0..15]` (spec/45_spectral.md R256): `rnd32((14 - i) / 7)`, entry 15 zero. -/
def intRatioRows : List (List Nat) :=
  [ [0x40000000, 0x3FEDB6DB, 0x3FDB6DB7, 0x3FC92492, 0x3FB6DB6E, 0x3FA49249, 0x3F924925, 0x3F800000],
    [0x3F5B6DB7, 0x3F36DB6E, 0x3F124925, 0x3EDB6DB7, 0x3E924925, 0x3E124925, 0x00000000, 0x00000000] ]

/-- `HFR_RATIO_INIT[0..127]` (spec/45_spectral.md R253): entries 0 and 1 zero, then `rnd32(2^((i-64) * 53/128))`. -/
def hfrRatioRows : List (List Nat) :=
  [ [0x00000000, 0x00000000, 0x32A0B051, 0x32D61B5E, 0x330EA43A, 0x333E0F68, 0x337D3E0C, 0x33A8B6D5],
    [0x33E0CCDF, 0x3415C3FF, 0x34478D75, 0x3484F1F6, 0x34B123F6, 0x34EC0719, 0x351D3EDA, 0x355184DF],
    [0x358B95C2, 0x35B9FCD2, 0x35F7D0DF, 0x36251958, 0x365BFBB8, 0x36928E72, 0x36C346CD, 0x370218AF],
    [0x372D583F, 0x3766F85B, 0x3799E046, 0x37CD078C, 0x3808980F, 0x38360094, 0x38728177, 0x38A18FAF],
    [0x38D744FD, 0x390F6A81, 0x393F179A, 0x397E9E11, 0x39A9A15B, 0x39E2055B, 0x3A16942D, 0x3A48A2D8],
    [0x3A85AAC3, 0x3AB21A32, 0x3AED4F30, 0x3B1E196E, 0x3B52A81E, 0x3B8C57CA, 0x3BBAFF5B, 0x3BF9295A],
    [0x3C25FED7, 0x3C5D2D82, 0x3C935A2B, 0x3CC4563F, 0x3D02CD87, 0x3D2E4934, 0x3D68396A, 0x3D9AB62B],
    [0x3DCE248C, 0x3E0955EE, 0x3E36FD92, 0x3E73D290, 0x3EA27043, 0x3ED87039, 0x3F1031DC, 0x3F40213B],
    [0x3F800000, 0x3FAA8D26, 0x3FE33F89, 0x4017657D, 0x4049B9BE, 0x40866491, 0x40B311C4, 0x40EE9910],
    [0x411EF532, 0x4153CCF1, 0x418D1ADF, 0x41BC034A, 0x41FA83B3, 0x4226E595, 0x425E60F5, 0x429426FF],
    [0x42C5672A, 0x43038359, 0x432F3B79, 0x43697C38, 0x439B8D3A, 0x43CF4319, 0x440A14D5, 0x4437FBF0],
    [0x4475257D, 0x44A3520F, 0x44D99D16, 0x4510FA4D, 0x45412C4D, 0x4580B1ED, 0x45AB7A3A, 0x45E47B6D],
    [0x461837F0, 0x464AD226, 0x46871F62, 0x46B40AAF, 0x46EFE4BA, 0x471FD228, 0x4754F35B, 0x478DDF04],
    [0x47BD08A4, 0x47FBDFED, 0x4827CD94, 0x485F9613, 0x4894F4F0, 0x48C67991, 0x49043A29, 0x49302F0E],
    [0x496AC0C7, 0x499C6573, 0x49D06334, 0x4A0AD4C6, 0x4A38FBAF, 0x4A767A41, 0x4AA43516, 0x4ADACB94],
    [0x4B11C3D3, 0x4B4238D2, 0x4B8164D2, 0x4BAC6897, 0x4BE5B907, 0x4C190B88, 0x4C4BEC15, 0x4C87DB35] ]

/-- `WIN_INIT[0..127]` (spec/43_transform.md R181): `rnd32(sin(pi/2 * sin^2(pi * (n + 1/2) / 256)))`. -/
def winRows : List (List Nat) :=
  [ [0x38780C0F, 0x3A0B8332, 0x3AC1BA76, 0x3B3DCBE2, 0x3B9CCF26, 0x3BEA208B, 0x3C2366F5, 0x3C59643F],
    [0x3C8B7FB8, 0x3CAE173B, 0x3CD472EF, 0x3CFE8C60, 0x3D162E2D, 0x3D2EED72, 0x3D497F9B, 0x3D65DFDC],
    [0x3D82047B, 0x3D91FA9F, 0x3DA2CF47, 0x3DB47F26, 0x3DC706AD, 0x3DDA6210, 0x3DEE8D3F, 0x3E01C1F4],
    [0x3E0CA0B9, 0x3E17E080, 0x3E237EB6, 0x3E2F78A6, 0x3E3BCB74, 0x3E487422, 0x3E556F8D, 0x3E62BA6B],
    [0x3E705153, 0x3E7E30B4, 0x3E862A6E, 0x3E8D5CFC, 0x3E94AE09, 0x3E9C1B8A, 0x3EA3A364, 0x3EAB4370],
    [0x3EB2F977, 0x3EBAC336, 0x3EC29E5D, 0x3ECA8893, 0x3ED27F76, 0x3EDA809A, 0x3EE2898E, 0x3EEA97D9],
    [0x3EF2A902, 0x3EFABA8B, 0x3F0164FB, 0x3F056A63, 0x3F096C41, 0x3F0D6959, 0x3F116074, 0x3F15505E],
    [0x3F1937E7, 0x3F1D15E7, 0x3F20E93A, 0x3F24B0C5, 0x3F286B74, 0x3F2C183E, 0x3F2FB623, 0x3F33442B],
    [0x3F36C16D, 0x3F3A2D0A, 0x3F3D8630, 0x3F40CC1A, 0x3F43FE11, 0x3F471B6B, 0x3F4A238E, 0x3F4D15EE],
    [0x3F4FF20F, 0x3F52B784, 0x3F5565EF, 0x3F57FD03, 0x3F5A7C81, 0x3F5CE43C, 0x3F5F3415, 0x3F616BFE],
    [0x3F638BF6, 0x3F65940E, 0x3F678462, 0x3F695D21, 0x3F6B1E85, 0x3F6CC8D5, 0x3F6E5C67, 0x3F6FD99B],
    [0x3F7140E0, 0x3F7292AC, 0x3F73CF83, 0x3F74F7F1, 0x3F760C8B, 0x3F770DEF, 0x3F77FCC1, 0x3F78D9AC],
    [0x3F79A563, 0x3F7A609B, 0x3F7B0C0F, 0x3F7BA87C, 0x3F7C36A3, 0x3F7CB747, 0x3F7D2B29, 0x3F7D930D],
    [0x3F7DEFB7, 0x3F7E41E5, 0x3F7E8A59, 0x3F7EC9CD, 0x3F7F00FB, 0x3F7F3096, 0x3F7F594E, 0x3F7F7BCD],
    [0x3F7F98B6, 0x3F7FB0A7, 0x3F7FC435, 0x3F7FD3EF, 0x3F7FE05B, 0x3F7FE9F5, 0x3F7FF133, 0x3F7FF67F],
    [0x3F7FFA3B, 0x3F7FFCBE, 0x3F7FFE54, 0x3F7FFF40, 0x3F7FFFBA, 0x3F7FFFEE, 0x3F7FFFFE, 0x3F800000] ]

/-- The fraction bits of the stored cosines. -/
abbrev cosBits : Nat := 256

/-- `cos(pi * m / 512) * 2^256` for odd `m` = 1, 3, ..., 255, each the nearest integer (log 7). -/
def cosRows : List (List Nat) :=
  [ [0xFFFEC42C7454926B38E310779EDFEC68315B99D9065E7168C011651D61F1B35A,
     0xFFF4E5A25A8D095B43366DF666FD54FEF6D5C39F91A409E0301D184DBF43C9DB,
     0xFFE128EF8E9FC17A7D209F32D42D864E74C6E93CD4FBDCECFD131ED51813C24D,
     0xFFC38ED6DC0EF98B1C676208AA3BE544E719EB146C1BAE35FA3A804F58619CC3,
     0xFF9C187C6ABADE6A1E1862CCA089938B591867EAB6ADFA897F85C4E648330658,
     0xFF6AC765B39E1E191B9D5851979F28FB2A4A79837C42E8C0C211540626F5514D,
     0xFF2F9D7971CA036427E31939E2EEC09BA89DAA52E210EEC5668BD6F987BB6759,
     0xFEEA9CFF8FA2AE54EC34413E87EF273FCFD448165F6776FB5B2861AFC4DE621F],
    [0xFE9BC8A1105C22A5D3AF6EE4F2101C1F863B1311A6E72EDD5C9D2A41BC7B0D33,
     0xFE432367F5B90A6287B8875373A818A3E58267530560C0E892E594B9822295DD,
     0xFDE0B0BF220C2FD4E276D247626A23FC90F2C78067879BC66EB83B97946D3FB3,
     0xFD747472367DD6C561BEB8CD2696FC77DF4F5ED3DB5B4611A939AE18C64462CD,
     0xFCFE72AD6D9641F2A06FAB9F9D106708F136A91140C95404FBCCDFBEAFF5BDA7,
     0xFC7EAFFD720ED67302880268F2E62955067CC3FBE29E1C141E7E63926C538EDC,
     0xFBF5314F31EB737525AAFD7FDBA12C5F08D07D69C6933E2E5FFCA9698214E0B4,
     0xFB61FBEFADDDB98561CE9D5EF5A81486D92A05726669B91B4CCE2A83D9124066],
    [0xFAC5158BC4F4211F4A188AA367F90AB15A6C1CCDB98A7740F648ACEA77C16365,
     0xFA1E842FFC96E4E0431C393C7F62DA65367861225C8794C1B3125A548A5B4140,
     0xF96E4E4844D4E82A80E8C17BF80E8F01E950B12911E9315E7D478C22155A229A,
     0xF8B47A9FB902E76CAC9F07F54FF5BC1430739074414899C9F37DEC2B5EC4FBEF,
     0xF7F110605CAF6390A76F7EFC19AED41B821DBF69178D42D2F67A3BFB02899000,
     0xF7241712D4EDDE49F99107E50D6313305FFE722D117AA053DA54B7669A6AF345,
     0xF64D969E1DFC2119119D358DE04939559B3CE7A19D903DAF00E46C5360403EE4,
     0xF56D97473D446CDA275A2BBB2BAB6C8A7B08D6A4D8838B0F99D0FACCB063B7DF],
    [0xF48421B0EFBF939BF8F9D3B87D11FD51E6D661DA25CC1A887A67BAEAC00AD4B9,
     0xF3913EDB54BA224250F29B4B49F31C36B101741783923B8AAD4D4CEEEF01BF6A,
     0xF294F82394FFE320EBADCDBF915E8F6C3B8AF09EA21596769D59C4B373122349,
     0xF18F5743867126438F6BAC72988088B03026EAEC7F1FE3B358542CA54B728B4D,
     0xF08066514C055F7E973EA9903ED5125F65F2B3AB6D4EC052227F4447C59EA8C5,
     0xEF682FBEF23ECDA6767C0E8AD33BC084BC40CDB594D1754DB60AFC5B6D342259,
     0xEE46BE5A0813016B7872773830D368BE492DF2719F456A5365C2ED35606666AE,
     0xED1C1D4B344C3D4FDDFFE98C4F8AA0316A04AC9EB3C03B66AFF05348A456D674],
    [0xEBE85815C767CB001E99CCB9ADC62CA6496A3F0787CE397B3A63852D5A1A9655,
     0xEAAB7A9749F584FE24DB98AD3A0647A0A166050B92777414432EEB3CFCB653F7,
     0xE9659107077CF60F89A92B199ADFBAF9C856863A786C9920626BAB49C61661F8,
     0xE816A7F595EC9232BFE8378ABFB87B6EB8FCCD67C712DEEFB1362376135FA5E4,
     0xE6BECC4C5997AF0682FCEDB4C6434D75CD12FF820D8DE54784729E7B7F6D83D3,
     0xE55E0B4D05C803885A7C210A3A15E7EA69428FDCC021B8D9237E25529FE097EF,
     0xE3F4729119E798D956992551AE074E996E7002837C723FE5D3F1D38A70D3C683,
     0xE28210095B483751FD39138AA2D508EC824D243F46D4F92F85B202529C5911DE],
    [0xE106F1FD4B8D7C966BA8A9D9BA87789883F39B88751E284899C58A47F1A89F6E,
     0xDF83270A9BBEE890AB01350F013D78DD79CBB3DAF776B3D6458183DCCF32AB27,
     0xDDF6BE249C075037D597B10A0167665944A2CECB17CCAE15F6EB00A5E26CF40A,
     0xDC61C693A82745D5ACA8017E375B64E480258EDF459D3963B71BAC26FB7FD2F7,
     0xDAC44FF490A027105B267C1BCFF0AB61FE33B3CB47DD0887215F69BC5923ED9F,
     0xD91E6A38009DA15A1BB35AD6D2E74B66FBBD2EF076AD988BD281E8779E6349F1,
     0xD77025A1E0A39D8B0CB78E80E67BA1B7BC1F6E6FED7FE4200A7C1D710028C7A8,
     0xD5B992C8B606A3517190B755535D4F186ADAA7A55D5CB166A2FE87C1950F5C33],
    [0xD3FAC294FF34E4D0B77D4F6BD0EE859120044CF22587936F2E0422EC37A4EDEB,
     0xD233C6408CD64236981BA7E42537275F34220FA756488DAF1453A7848B99B703,
     0xD064AF55D7C9B43E6B8A685F6CB61C215B23263DC0A15194E4CC7AC5CA8BC7AC,
     0xCE8D8FAF5406AB8BF5BABFF66DEF7891EA61960438F2961382706F22C899DAA6,
     0xCCAE7976C069117783E907FBD7AAF0AFE41CB32E803358AB93F72FAAD6EE9529,
     0xCAC77F24736EB553D9944BE1631846D8728BB6068AF89840E172CC8EB12845BF,
     0xC8D8B37EA4ED0F620B562C00B34EE7712A03D284B9AE3A815132B3C93E6CD9AF,
     0xC6E22998B4C6608ECFE6C1B1A6B4E2A47507DBE9AB6FB194F5381C46CDD50768],
    [0xC4E3F4D26EA553B6DD40950CF1ED92FA64502D16C3646AF66E760CDE155FEB26,
     0xC2DE28D74AC6628B74C8F010D986A9DFA26B09DF20425F7066C89E45FB23EE9C,
     0xC0D0D99DABD65D442BDA5328933C854A59FBAE76BD7D093EA017A155F04618D7,
     0xBEBC1B6619ED91162715EF03F8543354FD0E8CD81EEEF9A671ACA87B3F14A158,
     0xBCA002BA7AAF25EA4A48496734BE336C8B40683A79158A012FE9B75DBE3131A5,
     0xBA7CA46D4694680233201477347447D7BAF8ADAADC8BAA0F0A52535E5516AE3A,
     0xB8521598BB6BCE261C041D1EA5FB3FDAED79346F509D0989867E80C6CA9B7A85,
     0xB6206B9E0C13A892EA7C015F12B987F74784D184865ADCC91E6B8C699B4FB745],
    [0xB3E7BC248D78802EA156468EF6C18C6058EB7D5315DF01F18E729D88EAB0E8C1,
     0xB1A81D18E0DF488924784F32C3E3E5BD253BF9825A0A66920C463D6A816DA868,
     0xAF61A4AC1B83A1DEA89A9B8F726B95BF5FEA45E0E5F85169598C2933553E6907,
     0xAD146952EB9282AF44BF16268608DB95E8F4DE96246A031AA50CFD0926190DEA,
     0xAAC081C4BA89BA8AE1B3DFC4DBDA9BFCE62E3D1A5B9DDB863C1762713EEBC3D3,
     0xA86604FACD04D9693463A2C2E6E9CC5579FE4ED00AAF28F46B8783E1A98F0A1B,
     0xA6050A2F600020498C33EBF3AA8501FB52E4A7516E0FDEA464B79520E6BB254D,
     0xA39DA8DCC39A38E50CA9A8A720D4C69C3C812AF76A6313E0A9D60DDD7C868B6D],
    [0xA12FF8BC735D8AF671ACEA2819360C34AC16C54A299955A39E9052D760053A94,
     0x9EBC11C62C1A1DFBCC141E10C6460C8B4ABFD4A7AB98316D0E71A7D1CC82D89D,
     0x9C420C2EFF590E5FC7FD954194E6D8A9DE0E25E29ECC5F66906D7615A0F6E995,
     0x99C200686472B4A81AB42D43235757B66EFF79EB1372F7251DD4E417894F2D2E,
     0x973C071F4750B49CC0A03934F0CCE19AB4D9E0EA04B6BC5138E23FB284C18476,
     0x94B0393B14E54156D6C7AF02D5C16FD935579DE1A755D1C61F1D5040D713F317,
     0x921EAFDCC560F9C533D0A284A8C954ACF3B115CEF940567DF3446EB2A291C32A,
     0x8F87845DE430D7779311A82459AA0F7227AFD15B2BF89A7715D0DE51BA844AE2],
    [0x8CEAD04F95CDBF664D49CBAF15AECD802596C35E57EA0CB352B227AF2685DBAD,
     0x8A48AD799B6759F3660558A021361309868861D629E3DAF1B4F4BFBF4D35D5CF,
     0x87A135D95473EC894E091160E2430711B2EC953FDCA4744B02FDD8E8037237FB,
     0x84F483A0BE2F040351917CAC857FD5F56BE67BADC5193EA80AF8DA1DA1F193EB,
     0x8242B1357110D3726FB2123FEDFA6E22532497104A37B7EA26F007AA0807D4BB,
     0x7F8BD92F9C483ED6854E35D2824829CF51517916842250053E2B5829EA646C98,
     0x7CD01658FF419D06846D44A238EF0D0C18E7439DB76E556085606FE083B5C75E,
     0x7A0F83ABE1444F421E3F886DA2C619BDC05A45895684E675F20F31C20F7E5DCF],
    [0x774A3C5207315FC315120B26D7642E65723523C25D4A4A2AC59FBF8F4E3AAFAB,
     0x74805BA3A76D6B1BA18B13608242DEED0FEF09231CCE332D9706436BBF831AB2,
     0x71B1FD265C002A413D99639718C127287C2E15BC3372758BF5E76064B89E326D,
     0x6EDF3C8C12F404CF0D2DEC934EA046BF1A5B9327820482A3BB7053E1D2A8C5A6,
     0x6C0835B1FD00245052B9F9554821A5D2431A536C0AEBF0ED8B96EA9C202C3209,
     0x692D049F7A879241390FE43DD0EA122ADE55954B7824E6E754AC0536566FF8CE,
     0x664DC58506F7FAEA17331D9E3AAAD361882EB901EA7A43AFCBC08710C4BE8FFE,
     0x636A94BB2292BF468A69239CEF13F174A2A7FE07540A138EA28C1C7E80FDCA82],
    [0x60838EC13AAB0FCDB90C29FC72945499CFA3110CDC4F8B78B36A5B939A60A897,
     0x5D98D03C9063D92B2ADC9041B2C5DC4BB11E3AFB2520811454A64F43650A6365,
     0x5AAA75F71DF85AC74B8FA6D384D6A1BBEDC8D05E7363D195F399EFB078E36F52,
     0x57B89CDE7A9A4D634FF2FA75244B2F15D98BD1CB1FF7869F7A54510283E858FE,
     0x54C36202BCF08E05471DEFC042990AAB3B63152AD884B2240C7CA9702E4627D2,
     0x51CAE2955C414EFE15F01B200DD43E60C7E6497922F09642D01870366BC99F2A,
     0x4ECF3BE81052DDF36DC4A9C2294686B014FEDA261B497AE72A892E8AE28A1B83,
     0x4BD08B6BB00E1A8AFE45B8C2590F96A7DE99DC7A9AEA534F6C21589005C591C5],
    [0x48CEEEAF0EEDC599B04E23259EEB3B76326241BE2C78EA6BD2E019E41C6C8475,
     0x45CA835DD945DC912BAF999B35F057F7ADD2A0E936F73BCC1FA621347AFE966B,
     0x42C3673F6F6E404ECE9EE34480344B79F4E09A65192D060F8D8F5F44F4F9312A,
     0x3FB9B835BFDBF16922DD3F89422AE3F08F8BF6E4EE3F627B857B60E24E6893AD,
     0x3CAD943C203436A3561FCFE81138B49F34456FB97BE24DEE7A0A7F531A78D968,
     0x399F196625650C48E0AC2BB2B7E02048C6ACA5CA623645AD722D9BEE68235AB4,
     0x368E65DE7ACE44DDF2EAEBAE5EBE3A2A69CB9C7AAB58D7B9520703F8D76656B1,
     0x337B97E5B886CCCB1968C4CAB7EDF7F55DF2C710E0E6AFE2F14596F1607CFA22],
    [0x3066CDD138C98B736B569077923DAC9BB4B803426F7C8838DE558DED0C5B9078,
     0x2D502609EC95647C335CFED7635174C07CEDBA798160592FFF1E3163BD764E84,
     0x2A37BF0B2F8BE3F303344A87DAADAC25277DEC5BF45301C776223181CEE945E2,
     0x271DB7619B1A277339EF02044742FF28EA2B7044B1E213522F6B3061B6E99025,
     0x24022DA9D8F79D6DE9B8F7D65D732A768B5AFA3CE93103D960FF5D473141117B,
     0x20E5408F75063A4676C7DC0463270865E5AB74DD27172C8FF4DB0B8D793B329F,
     0x1DC70ECBAE9FC912FDA2D73295ED8315B6E80ECFB80CF6BAE17D5745AE6B1413,
     0x1AA7B724495C03794E66E8259EE0E2D96D2998FB5625E3F812A26205953D2414],
    [0x1787586A5D5B2157DD627C20CE64D0FE2B84019BDE2FCE42D9BCE38F0C82DA50,
     0x14661179272095AD3BD836FE4ED17B5F45D893493110E4955D11A5F65096679E,
     0x11440134D709B2804EEE4945654CD3787F05CE2AD50CF7FC11105876D3DA8B66,
     0x0E214689606BF1676438B4A73AECD2540AF44B23307216D25A71B2BCB02CF007,
     0x0AFE00694866A1B44CD34D2751C2E1DA6E340DD7428B9094C79C88ABAE4DEF8B,
     0x07DA4DCC7473C03FB00590E675E4E55616F59F5B68706B38278EA4708D60F375,
     0x04B64DAEF8C3BF4DAFC8F71B8EB233EE504B6D37F822DB9DCD6CCC83689BA5FC,
     0x01921F0FE6700711AB967FE6B7A9B037548E66218B87E81853F145827349AD90] ]

/-- `DEQ_SCALE[x]`. -/
def deqScale (x : Nat) : Word := BitVec.ofNat 32 (rowEntry deqScaleRows x)

/-- `DEQ_RANGE[x]`. -/
def deqRange (x : Nat) : Word := BitVec.ofNat 32 (rowEntry deqRangeRows x)

/-- `INT_RATIO_INIT[i]`. -/
def intRatioInit (i : Nat) : Word := BitVec.ofNat 32 (rowEntry intRatioRows i)

/-- `HFR_RATIO_INIT[i]`. -/
def hfrRatioInit (i : Nat) : Word := BitVec.ofNat 32 (rowEntry hfrRatioRows i)

/-- `WIN_INIT[n]`, the second half mirroring the first (R181). -/
def winInit (n : Nat) : Word := BitVec.ofNat 32 (rowEntry winRows (if n < 128 then n else 255 - n))

/-- `cos(pi * m / 512)` for an odd `m`, in units of `2^-256`, by the cosine's period 1024 and its symmetries about 512 and
256. -/
def cosUnit (m : Nat) : Int :=
  let r := m % 1024
  let q := if r > 512 then 1024 - r else r
  if q ≤ 256 then (rowEntry cosRows ((q - 1) / 2) : Int) else -(rowEntry cosRows ((511 - q) / 2) : Int)

end Sys2Proof.Machine
end

