-- ==== Sys2Proof/Machine/Memory.lean ====
section
/-! DEFINITION. The aperture's RAM (spec/20_memory.md R70, R71, R75; spec/10_state.md sections 3 and 4): what lies at each
offset, which bits it stores, what reset leaves there, and reading and writing bytes. -/

namespace Sys2Proof.Machine

/-- The arrays of a channel slot (spec/10_state.md R50). -/
inductive SlotArray where
  | sf
  | res
  | intensity
  | hfrScale
  | qspec
  | imdctCarry
  | mdctPrev
  | spec
  | tbuf
  | pcm
deriving DecidableEq, Repr

/-- What lies at an aperture offset (spec/20_memory.md R71). The number is the byte's place in its window; for a slot, the
channel and the byte's place in the array. -/
inductive Region where
  /-- The register file, the reserved offsets, and every offset outside the aperture: no RAM. -/
  | none
  | frameBuf (i : Nat)
  | ath (i : Nat)
  | keyDec (i : Nat)
  | keyEnc (i : Nat)
  | deqScale (i : Nat)
  | deqRange (i : Nat)
  | intRatio (i : Nat)
  | hfrRatio (i : Nat)
  | resCurve (i : Nat)
  | win (i : Nat)
  | slot (ch : Nat) (array : SlotArray) (i : Nat)
deriving DecidableEq, Repr

/-- The place of a slot array in its slot (spec/10_state.md R50). -/
def slotArrayOffset : SlotArray → Nat
  | .sf => 0x0000
  | .res => 0x0080
  | .intensity => 0x0100
  | .hfrScale => 0x0108
  | .qspec => 0x0200
  | .imdctCarry => 0x0A00
  | .mdctPrev => 0x0C00
  | .spec => 0x1000
  | .tbuf => 0x2000
  | .pcm => 0x3000

/-- The bytes of a slot array (spec/10_state.md R50). -/
def slotArrayBytes : SlotArray → Nat
  | .sf => 128
  | .res => 128
  | .intensity => 8
  | .hfrScale => 8
  | .qspec => 2048
  | .imdctCarry => 512
  | .mdctPrev => 512
  | .spec => 4096
  | .tbuf => 4096
  | .pcm => 2048

/-- The slot arrays in the order of their places. -/
def slotArrays : List SlotArray :=
  [.sf, .res, .intensity, .hfrScale, .qspec, .imdctCarry, .mdctPrev, .spec, .tbuf, .pcm]

/-- The array of slot `ch` that holds slot offset `off`, if one does (spec/10_state.md R50). -/
def slotRegion (ch off : Nat) : Region :=
  match slotArrays.find? (fun a => slotArrayOffset a ≤ off ∧ off < slotArrayOffset a + slotArrayBytes a) with
  | some a => .slot ch a (off - slotArrayOffset a)
  | none => .none

/-- The aperture map (spec/20_memory.md R71). -/
def regionOf (a : Nat) : Region :=
  if a < 0x10000 then .none
  else if a < 0x20000 then .frameBuf (a - 0x10000)
  else if a < 0x40000 then
    if a < 0x20080 then .ath (a - 0x20000)
    else if a < 0x20100 then .none
    else if a < 0x20200 then .keyDec (a - 0x20100)
    else if a < 0x20300 then .keyEnc (a - 0x20200)
    else if a < 0x20400 then .none
    else if a < 0x20500 then .deqScale (a - 0x20400)
    else if a < 0x20540 then .deqRange (a - 0x20500)
    else if a < 0x20600 then .none
    else if a < 0x20640 then .intRatio (a - 0x20600)
    else if a < 0x20800 then .none
    else if a < 0x20A00 then .hfrRatio (a - 0x20800)
    else if a < 0x20A3B then .resCurve (a - 0x20A00)
    else if a < 0x20C00 then .none
    else if a < 0x21000 then .win (a - 0x20C00)
    else .none
  else if a < 0x80000 then slotRegion ((a - 0x40000) / 0x4000) ((a - 0x40000) % 0x4000)
  else .none

/-- The bits of a byte that the RAM stores at an offset (spec/10_state.md R46, R51 to R54; spec/20_memory.md R75): none where
there is no RAM or the contents are fixed, the low bits of a narrow element, else all. -/
def cellMask (a : Nat) : Byte :=
  match regionOf a with
  | .none | .deqScale _ | .deqRange _ => 0x00
  | .resCurve _ => 0x0F
  | .slot _ .sf _ | .slot _ .hfrScale _ => 0x3F
  | .slot _ .res _ | .slot _ .intensity _ => 0x0F
  | _ => 0xFF

/-- Byte `i` of the image of a table of 32-bit values (spec/20_memory.md R74). -/
def tableByte (table : Nat → Word) (i : Nat) : Byte := (table (i / 4)).extractLsb' (8 * (i % 4)) 8

/-- What reset leaves at an offset where the spec gives it (spec/70_reset_and_hazards.md R310): the fixed tables, the table
defaults, the identity key tables, +0.0 in the overlap buffers, and 0 where nothing is stored (spec/20_memory.md R75); `none`
where the contents are unspecified or an OPEN parameter. -/
def resetByte? (a : Nat) : Option Byte :=
  match regionOf a with
  | .none => some 0
  | .deqScale i => some (tableByte deqScale i)
  | .deqRange i => some (tableByte deqRange i)
  | .keyDec i => some (BitVec.ofNat 8 i)
  | .keyEnc i => some (BitVec.ofNat 8 i)
  | .intRatio i => some (tableByte intRatioInit i)
  | .hfrRatio i => some (tableByte hfrRatioInit i)
  | .win i => some (tableByte winInit i)
  | .slot _ .imdctCarry _ => some 0
  | .slot _ .mdctPrev _ => some 0
  | _ => none

/-- A value of the RAM's element type where the spec leaves the reset contents open: `RES_CURVE_INIT` (log 4), or a free value
(log 3). -/
def openResetByte (epoch a : Nat) : Byte :=
  match regionOf a with
  | .resCurve i => (Config.resCurveInit i).setWidth 8
  | _ => Config.ramReset epoch a &&& cellMask a

/-- What an unlisted address reads as: what the last reset left there. -/
def unlistedByte (epoch a : Nat) : Byte := (resetByte? a).getD (openResetByte epoch a)

/-- A cell that memory may list: it is RAM, its byte has only the bits stored there, and it differs from what reset is known
to leave there. -/
abbrev cellOk (c : Host.Cell) : Prop :=
  cellMask c.1 ≠ 0 ∧ c.2 &&& cellMask c.1 = c.2 ∧ resetByte? c.1 ≠ some c.2

/-- The canonical form of memory: addresses strictly rising, every cell one that memory may list. -/
abbrev Memory.wf (m : Memory) : Prop := m.Pairwise (fun c d => c.1 < d.1) ∧ ∀ c ∈ m, cellOk c

/-- The cells that storing bytes from an address on leaves listed. -/
def newCells : Nat → List Byte → Memory
  | _, [] => []
  | a, v :: vs =>
    if cellMask a = 0 ∨ resetByte? a = some (v &&& cellMask a) then newCells (a + 1) vs
    else (a, v &&& cellMask a) :: newCells (a + 1) vs

/-- Memory after storing bytes from `base` on: each byte's stored bits replace what was there (spec/20_memory.md R75). -/
def Memory.store (m : Memory) (base : Nat) (bytes : List Byte) : Memory :=
  m.filter (fun c => c.1 < base) ++ newCells base bytes ++ m.filter (fun c => base + bytes.length ≤ c.1)

/-- The byte at an offset. -/
def Memory.byteAt (m : Memory) (epoch a : Nat) : Byte := (m.lookup a).getD (unlistedByte epoch a)

/-- The `n` bytes from `base` on; the cells outside are set aside first. -/
def Memory.block (m : Memory) (epoch base n : Nat) : List Byte :=
  let near := m.filter (fun c => base ≤ c.1 ∧ c.1 < base + n)
  (List.range n).map (fun i => (near.lookup (base + i)).getD (unlistedByte epoch (base + i)))

/-- The aperture offset of a byte of a slot array (spec/10_state.md R50). -/
def slotAddr (ch : Nat) (array : SlotArray) (i : Nat) : Nat := 0x40000 + 0x4000 * ch + slotArrayOffset array + i

/-- The windows' first offsets (spec/20_memory.md R71). -/
def frameBufBase : Nat := 0x10000
/-- `ATH`. -/
def athBase : Nat := 0x20000
/-- `KEY_DEC`. -/
def keyDecBase : Nat := 0x20100
/-- `KEY_ENC`. -/
def keyEncBase : Nat := 0x20200
/-- `INT_RATIO`. -/
def intRatioBase : Nat := 0x20600
/-- `HFR_RATIO`. -/
def hfrRatioBase : Nat := 0x20800
/-- `RES_CURVE`. -/
def resCurveBase : Nat := 0x20A00
/-- `WIN`. -/
def winBase : Nat := 0x20C00

end Sys2Proof.Machine
end

