-- ==== Sys2Proof/Machine/Ops.lean ====
section
/-! DEFINITION. The named operations over memory and registers, the completion of a command, with or without an error
(spec/60_exceptions.md R283, R284: HCAE's only form of taking an exception), and reset (spec/70_reset_and_hazards.md R310). -/

namespace Sys2Proof.Machine

/-! ### RAM -/

/-- The byte at an aperture offset. -/
def State.byte (s : State) (a : Nat) : Byte := s.mem.byteAt s.epoch a

/-- `n` bytes from an offset on. -/
def State.bytes (s : State) (base n : Nat) : List Byte := s.mem.block s.epoch base n

/-- `n` 32-bit elements from an offset on (spec/20_memory.md R74). -/
def State.words (s : State) (base n : Nat) : List Word := bytesToWords (s.bytes base (4 * n))

/-- `n` 16-bit elements from an offset on (spec/20_memory.md R74). -/
def State.halves (s : State) (base n : Nat) : List Half := bytesToHalves (s.bytes base (2 * n))

/-- Store bytes from an offset on. -/
def State.putBytes (s : State) (base : Nat) (bytes : List Byte) : State := { s with mem := s.mem.store base bytes }

/-- Store 32-bit elements from an offset on. -/
def State.putWords (s : State) (base : Nat) (ws : List Word) : State := s.putBytes base (ws.flatMap wordBytes)

/-- Store 16-bit elements from an offset on. -/
def State.putHalves (s : State) (base : Nat) (hs : List Half) : State := s.putBytes base (hs.flatMap halfBytes)

/-- Small numbers as the bytes of `u4`, `u6` or `u8` elements. -/
def numBytes (ns : List Nat) : List Byte := ns.map (BitVec.ofNat 8)

/-- The bytes of an array as numbers. -/
def State.nums (s : State) (base n : Nat) : List Nat := (s.bytes base n).map BitVec.toNat

/-! ### Free values -/

/-- The free value for a place, at this point of the run (log 24). -/
def State.free (s : State) (site : Nat) : Word := Config.freeWord s.draws site

/-- The free bytes of an array whose contents become unspecified, one for each place. -/
def State.freeBytes (s : State) (base n : Nat) : List Byte :=
  (List.range n).map (fun i => (s.free (base + i)).setWidth 8)

/-- Move on to fresh free values. -/
def State.tick (s : State) : State := { s with draws := s.draws + 1 }

/-- The places of free values that are for no RAM location. -/
def siteReg (offset : Nat) : Nat := 0x80000 + offset
/-- A free value for the intermediate `r2` of ISTEREO. -/
def siteRatio (p sub : Nat) : Nat := 0x90000 + 8 * p + sub

/-! ### Completion -/

/-- What a command's own effect ends in: a state, or `raise Error(code, info)` with the state the command's rule leaves
(spec/60_exceptions.md R283). -/
inductive Effect where
  | ok (s : State)
  | error (code : ErrCode) (info : Word) (s : State)
deriving DecidableEq, Repr

/-- Completion with an error, HCAE's taking of an exception (R283, R284): `ERR`, `ERR_CODE` and `ERR_INFO` record it, `pending`
is emptied, `BUSY` falls and `DONE` rises; nothing else changes. The host is the handler, and there is no return (R286, R288). -/
def raiseError (code : ErrCode) (info : Word) (s : State) : State :=
  { s with
    status := { s.status with busy := false, done := true, err := true, errCode := code }
    errInfo := info
    pending := none
    busyFor := 0 }

/-- Completion without an error (R284; `ERR` and `ERR_CODE` are 0 as R40 says, log 20). -/
def completeOk (s : State) : State :=
  { s with
    status := { s.status with busy := false, done := true, err := false, errCode := .none }
    errInfo := 0
    pending := none
    busyFor := 0 }

/-- The state a command completes in. -/
def complete : Effect → State
  | .ok s => completeOk s
  | .error code info s => raiseError code info s

/-- A command's outcome: it always completes, so there is always a next state. -/
def finish (e : Effect) : Host.Outcome State Fault Refusal := .next (complete e)

/-- Run one effect after another; an error ends both. -/
def Effect.andThen (e : Effect) (k : State → Effect) : Effect :=
  match e with
  | .ok s => k s
  | .error code info s => .error code info s

/-! ### Reset -/

/-- Reset (R310), by the hardware input or by `CTRL.SOFT_RESET` (R311): every piece of HCAE's state takes its reset value, and
the unspecified RAM takes fresh values (the new `epoch`). What is not HCAE's stays: the host's queue, the bus responses, the
counter of free values and the machine's `TRANSFORM_ARITH` (log 18). -/
def State.resetAgain (s : State) : State :=
  { State.reset with
    epoch := s.draws
    draws := s.draws + 1
    arith := s.arith
    inbox := s.inbox
    outbox := s.outbox }

end Sys2Proof.Machine
end

