-- ==== Sys2Proof/Machine/Operands.lean ====
section
/-! DEFINITION. What a command reads of the configuration, and its operand forms: the fields of the configuration registers
(spec/10_state.md R24 to R28, R35), the derived values (R29), configuration legality (R30), roles (R27), coded bands
(spec/44_bitstream.md R205), and the channel and subframe sets with their checks (spec/30_encoding.md R91, R92). -/

namespace Sys2Proof.Machine

/-! ### Configuration fields -/

/-- `CFG_STREAM.CH_COUNT` (R24). -/
def chCount (s : State) : Nat := field s.cfgStream 0 5
/-- `CFG_STREAM.VERSION` (R24). -/
def version (s : State) : Nat := field s.cfgStream 16 16
/-- `CFG_FRAME.FRAME_BYTES` (R25). -/
def frameBytes (s : State) : Nat := field s.cfgFrame 0 16
/-- `FRAME_BITS` (R25). -/
def frameBits (s : State) : Nat := 8 * frameBytes s
/-- `CFG_BANDS.BASE` (R26). -/
def baseBands (s : State) : Nat := field s.cfgBands 0 8
/-- `CFG_BANDS.STEREO` (R26). -/
def stereoBands (s : State) : Nat := field s.cfgBands 8 8
/-- `CFG_BANDS.HFR_BANDS` (R26). -/
def hfrBands (s : State) : Nat := field s.cfgBands 16 8
/-- `CFG_BANDS.BPG` (R26). -/
def bandsPerGroup (s : State) : Nat := field s.cfgBands 24 8
/-- `CFG_RES.MIN_RES` (R28). -/
def minRes (s : State) : Nat := field s.cfgRes 0 4
/-- `CFG_RES.MAX_RES` (R28). -/
def maxRes (s : State) : Nat := field s.cfgRes 4 4
/-- `FRAME_HDR.NOISE` (R35). -/
def noiseOf (s : State) : Nat := field s.frameHdr 0 9
/-- `FRAME_HDR.EVAL` (R35). -/
def evalOf (s : State) : Nat := field s.frameHdr 16 7
/-- `KEY = {KEY_HI[23:0], KEY_LO}` (R31). -/
def keyOf (s : State) : Nat := field s.keyHi 0 24 * 2 ^ 32 + s.keyLo.toNat
/-- `CRC_LEN` (R38). -/
def crcLenOf (s : State) : Nat := field s.crcLen 0 16

/-- `TOTAL = BASE + STEREO + HFR_BANDS` (R29). -/
def totalBands (s : State) : Nat := baseBands s + stereoBands s + hfrBands s

/-- `HFR_GROUPS = ceil(HFR_BANDS / BPG)` if `BPG > 0`, else 0 (R29). -/
def hfrGroups (s : State) : Nat :=
  if bandsPerGroup s = 0 then 0 else (hfrBands s + bandsPerGroup s - 1) / bandsPerGroup s

/-- `FRAME_HDR` from its two fields (R35). -/
def frameHdrWord (noise eval : Nat) : Word := BitVec.ofNat 32 (noise + eval * 2 ^ 16)

/-! ### Roles -/

/-- A channel's role (R27). -/
inductive Role where
  | discrete
  | stereoPrimary
  | stereoSecondary
  /-- The field value 3, illegal for a channel below `CH_COUNT`. -/
  | reserved
deriving DecidableEq, Repr

/-- The role a 2-bit field holds (R27). -/
def roleOfField : Nat → Role
  | 0 => .discrete
  | 1 => .stereoPrimary
  | 2 => .stereoSecondary
  | _ => .reserved

/-- `role(ch)` (R27). -/
def role (s : State) (ch : Nat) : Role := roleOfField (field s.cfgRoles (2 * ch) 2)

/-- The role check of one channel, R30 (e). -/
def roleOk (s : State) (ch : Nat) : Bool :=
  match role s ch with
  | .discrete => true
  | .stereoPrimary => decide (ch + 1 < chCount s) && role s (ch + 1) == .stereoSecondary
  | .stereoSecondary => decide (1 ≤ ch) && role s (ch - 1) == .stereoPrimary
  | .reserved => false

/-- `CFG_OK` (R30). -/
def cfgOk (s : State) : Bool :=
  decide (1 ≤ chCount s ∧ chCount s ≤ 16) && decide (totalBands s ≤ 128) && decide (hfrGroups s ≤ 8)
    && decide (minRes s ≤ maxRes s) && (List.range (chCount s)).all (roleOk s)

/-- `FRAME_OK` (R30). -/
def frameOk (s : State) : Bool := decide (6 ≤ frameBytes s)

/-- `CODED(ch)` (spec/44_bitstream.md R205). -/
def coded (s : State) (ch : Nat) : Nat :=
  if role s ch = .stereoSecondary then baseBands s else baseBands s + stereoBands s

/-- HFR active at a version that carries no HFR codes (spec/45_spectral.md R254). -/
def hfrUnsupported (s : State) : Bool := decide (0 < hfrGroups s ∧ Config.v3 ≤ version s)

/-! ### Operand sets and their checks -/

/-- The channel set of a per-channel command (spec/30_encoding.md R91). -/
def channelSet (s : State) (ch : Nat) (allCh : Bool) : List Nat := if allCh then List.range (chCount s) else [ch]

/-- The subframe set of a per-subframe command (spec/30_encoding.md R91). -/
def subframeSet (sub : Nat) (allSf : Bool) : List Nat := if allSf then List.range 8 else [sub]

/-- The slots of RESET_OVL: all sixteen, or the one named (spec/40_control.md R141). -/
def slotSet (ch : Nat) (allCh : Bool) : List Nat := if allCh then List.range 16 else [ch]

/-- `BAD_CHANNEL` applies (spec/30_encoding.md R92). -/
def badChannel (s : State) (ch : Nat) (allCh : Bool) : Bool := !allCh && decide (chCount s ≤ ch)

/-- `require CFG_OK`, else `Error(BAD_CONFIG, 0)` (spec/10_state.md R30). -/
def requireCfg (s : State) (k : Effect) : Effect := if cfgOk s then k else .error .badConfig 0 s

/-- `require FRAME_OK`, else `Error(BAD_CONFIG, 0)` (spec/10_state.md R30). -/
def requireFrame (s : State) (k : Effect) : Effect := if frameOk s then k else .error .badConfig 0 s

/-- The channel check, else `Error(BAD_CHANNEL, 0)` (spec/30_encoding.md R92). -/
def requireChannel (s : State) (ch : Nat) (allCh : Bool) (k : Effect) : Effect :=
  if badChannel s ch allCh then .error .badChannel 0 s else k

/-- The version check of HFR, else `Error(UNSUPPORTED, 0)` (spec/45_spectral.md R254). -/
def requireHfrVersion (s : State) (k : Effect) : Effect := if hfrUnsupported s then .error .unsupported 0 s else k

/-- Run a change for each member of a list, in order. -/
def forEach (xs : List Nat) (f : Nat → State → State) (s : State) : State := xs.foldl (fun t x => f x t) s

end Sys2Proof.Machine
end

