-- ==== Sys2Proof/Machine/Cipher.lean ====
section
/-! DEFINITION. The substitution cipher: KEYGEN0, KEYGEN1, KEYGEN56, DECRYPT, ENCRYPT (spec/42_cipher.md). -/

namespace Sys2Proof.Machine

/-- The values after 1, 2, ..., `n` steps of `f` from `x`. -/
def orbit (f : Nat → Nat) : Nat → Nat → List Nat
  | 0, _ => []
  | n + 1, x => f x :: orbit f n (f x)

/-- A decryption table from values in the order they are met: 0 and 255 are left out, written to places 0 and 255 (R163,
R169). -/
def tableFrom (values : List Nat) : List Nat := 0 :: (values.filter (fun v => v ≠ 0 ∧ v ≠ 255) ++ [255])

/-- The Type 0 table: the identity (R162). -/
def type0Table : List Nat := List.range 256

/-- The Type 1 table (R163). Its 256 steps meet every value once. -/
def type1Table : List Nat := tableFrom (orbit (fun x => (13 * x + 11) % 256) 256 0)

/-- `kc[i]`: byte `i` of the decremented key (R165). -/
def keyByte (key i : Nat) : Nat := ((key - 1) >>> (8 * i)) % 256

/-- `seed[0..15]` (R166). -/
def columnSeeds (key : Nat) : List Nat :=
  let kc := keyByte key
  [ kc 1, kc 1 ^^^ kc 6, kc 2 ^^^ kc 3, kc 2, kc 2 ^^^ kc 1, kc 3 ^^^ kc 4, kc 3, kc 3 ^^^ kc 2,
    kc 4 ^^^ kc 5, kc 4, kc 4 ^^^ kc 3, kc 5 ^^^ kc 6, kc 5, kc 5 ^^^ kc 4, kc 6 ^^^ kc 1, kc 6 ]

/-- `row(k)` (R167). -/
def keyRow (k : Nat) : List Nat :=
  let mult := ((k &&& 1) <<< 3) ||| 5
  let inc := (k &&& 0x0E) ||| 1
  orbit (fun x => (x * mult + inc) % 16) 16 (k >>> 4)

/-- `base[0..255]` (R168): the selected row gives the high nibbles, the column seeds' rows the low ones. -/
def combinationTable (key : Nat) : List Nat :=
  ((keyRow (keyByte key 0)).zip (columnSeeds key)).flatMap (fun p => (keyRow p.2).map (fun lo => 16 * p.1 + lo))

/-- The Type 56 table (R165 to R169). -/
def type56Table (key : Nat) : List Nat :=
  let base := combinationTable key
  tableFrom ((orbit (fun x => (x + 17) % 256) 256 0).map (fun x => base.getD x 0))

/-- The inverse permutation: entry `v` is the place of `v` (R160). -/
def inverseTable (d : List Nat) : List Nat := (List.range 256).map (fun v => d.idxOf v)

/-- `store(D, tag)` (R160): both tables, then the tag. -/
def storeKey (d : List Nat) (tag : Word) (s : State) : State :=
  { (s.putBytes keyDecBase (numBytes d)).putBytes keyEncBase (numBytes (inverseTable d)) with keyType := tag }

/-- The frame's bytes replaced by their images under a table (R171, R172). -/
def substituteFrame (tableBase : Nat) (s : State) : State :=
  let table := s.bytes tableBase 256
  s.putBytes frameBufBase ((s.bytes frameBufBase (frameBytes s)).map (fun x => table.getD x.toNat 0))

/-- KEYGEN0 (R162). -/
def execKeygen0 (s : State) : Host.Outcome State Fault Refusal := finish (.ok (storeKey type0Table 0 s))

/-- KEYGEN1 (R164). -/
def execKeygen1 (s : State) : Host.Outcome State Fault Refusal := finish (.ok (storeKey type1Table 1 s))

/-- KEYGEN56 (R170). -/
def execKeygen56 (s : State) : Host.Outcome State Fault Refusal :=
  finish (.ok (storeKey (type56Table (keyOf s)) 56 s))

/-- DECRYPT (R171). -/
def execDecrypt (s : State) : Host.Outcome State Fault Refusal :=
  finish (requireFrame s (.ok (substituteFrame keyDecBase s)))

/-- ENCRYPT (R172). -/
def execEncrypt (s : State) : Host.Outcome State Fault Refusal :=
  finish (requireFrame s (.ok (substituteFrame keyEncBase s)))

end Sys2Proof.Machine
end

