-- ==== Sys2Proof/Machine/Exact.lean ====
section
/-! DEFINITION. Exact real arithmetic for the transform (spec/43_transform.md R182, R183, R189): the sign of a real number
`r + sum a * cos(pi * m / 512)` with integers `r`, `a`, `m`, and from it the number's rounding (spec/00_scope.md R11).

With `z = exp(i * pi / 512)` such a number is a polynomial in `z` with `z^512 = -1`, kept as the list of its 512 coefficients,
and its sign is found by halving that list eight times (`signAt`), with integers only. -/

namespace Sys2Proof.Machine

/-! ### Polynomials in `z` modulo `z^n + 1`, as lists of `n` coefficients -/

/-- The product with `z`. -/
def polyTurn (p : List Int) : List Int := -(p.getLastD 0) :: p.dropLast

/-- The sum. -/
def polyAdd (p q : List Int) : List Int := p.zipWith (fun a b => a + b) q

/-- The product with an integer. -/
def polyScale (a : Int) (p : List Int) : List Int := p.map (fun b => a * b)

/-- The product, by Horner's rule. -/
def polyMul (p q : List Int) : List Int :=
  p.foldr (fun a acc => if a = 0 then polyTurn acc else polyAdd (polyScale a q) (polyTurn acc)) (List.replicate q.length 0)

/-- The coefficients of the even powers. -/
def polyEven : List Int → List Int
  | a :: _ :: rest => a :: polyEven rest
  | [a] => [a]
  | [] => []

/-- The coefficients of the odd powers. -/
def polyOdd : List Int → List Int
  | _ :: b :: rest => b :: polyOdd rest
  | _ => []

/-- The sign of the real number that a polynomial of `2^(level+1)` coefficients has at `z = exp(i * pi / 2^(level+1))`.
The number is `E + O`, the even and the odd powers' part. `E` and, as `z + 1/z` is positive, `O * (z + 1/z)` say the signs of
the two parts at half the length, for `z^2`; when they differ, `E^2 - O^2 = (E + O)(E - O)` says which part is larger. -/
def signAt : Nat → List Int → Int
  | 0, p => (p.headD 0).sign
  | level + 1, p =>
    let e := polyEven p
    let o := polyOdd p
    let se := signAt level e
    let so := signAt level (polyAdd o (polyTurn o))
    if se * so < 0 then se * signAt level (polyAdd (polyMul e e) (polyScale (-1) (polyTurn (polyMul o o))))
    else (se + so).sign

/-! ### Sums of cosines -/

/-- The real number `rational + sum a * cos(pi * m / 512)` over the terms `(a, m)`. -/
structure TrigSum where
  rational : Int
  terms : List (Int × Nat)
deriving DecidableEq, Repr

/-- `a * z^m` in 512 coefficients. -/
def monomial (a : Int) (m : Nat) : List Int :=
  (List.range 512).map (fun j => if j = m % 1024 then a else if j + 512 = m % 1024 then -a else 0)

/-- `2 * q * x - t` as a polynomial: `2 cos(pi * m / 512) = z^m + z^(-m)`, and `z^1024 = 1`. -/
def TrigSum.poly (x : TrigSum) (q t : Int) : List Int :=
  x.terms.foldr (fun p acc => polyAdd acc (polyAdd (monomial (q * p.1) p.2) (monomial (q * p.1) (1023 * p.2))))
    (monomial (2 * q * x.rational - t) 0)

/-- The sign of `2 * q * x - t`. -/
def TrigSum.compare (x : TrigSum) (q t : Int) : Int := signAt 8 (x.poly q t)

/-! ### Rounding -/

/-- The finite value of the pattern with an order key, in units of `2^-149`; past the largest finite value, `2^128`. -/
def keyUnits (k : Int) : Int := k.sign * (magUnits (BitVec.ofNat 32 k.natAbs) : Int)

/-- The pattern with an order key, a zero being +0. -/
def keyWord (k : Int) : Word := withSign (decide (k < 0)) k.natAbs

/-- `rnd32(x * 2^-(149+shift))` has an order key of at least `k`: `x` lies above the midpoint between the values of `k - 1` and
`k`, or on it with `k` even (R11). -/
def TrigSum.reaches (x : TrigSum) (shift : Nat) (k : Int) : Bool :=
  let c := x.compare 1 ((keyUnits (k - 1) + keyUnits k) * 2 ^ shift)
  decide (0 < c) || (decide (c = 0) && decide (k % 2 = 0))

/-- The largest of `lo` to `hi` that satisfies `p`, which holds up to it and fails above, or `lo`; `fuel` bounds the halvings. -/
def bisect (p : Int → Bool) : Nat → Int → Int → Int
  | 0, lo, _ => lo
  | fuel + 1, lo, hi =>
    if hi ≤ lo then lo
    else if p ((lo + hi + 1) / 2) then bisect p fuel ((lo + hi + 1) / 2) hi
    else bisect p fuel lo ((lo + hi + 1) / 2 - 1)

end Sys2Proof.Machine
end

