-- ==== Sys2Proof/Machine/Transform.lean ====
section
/-! DEFINITION. The transform pair IMDCT and MDCT (spec/43_transform.md R180 to R189, R196). The arithmetic is exact: binary32
values are integers in units of `2^-149`, so an element is an integer sum of cosines, rounded once. With the cosines in units of
`2^-256`, each with a known bound on its error, the sum is known within a bound, which settles nearly every rounding; the exact
sum settles the others (log 6). -/

namespace Sys2Proof.Machine

/-- The exponent of a sum's unit: an element's value is `x * 2^-(149 + sumShift)`: one factor `2^-149` of the window, and the
gain 1/8 (`IMDCT_SCALE` and `MDCT_SCALE`, spec/00_scope.md R6). -/
abbrev sumShift : Nat := 149 + 3

/-- The exponent of the unit of a sum with the cosines in units of `2^-256`. -/
abbrev elementShift : Nat := sumShift + cosBits

/-! ### Rounding an element -/

/-- `rnd32(x * 2^-(149+sumShift))` (R182), `x` being a sum of cosines that lies within `e` of `v`, in units of `2^-cosBits`.
Both ends of that interval round alike unless it straddles a midpoint; then the exact sum decides (log 6). -/
def roundSum (x : TrigSum) (v e : Int) : Word :=
  keyWord (bisect (x.reaches sumShift) 32 (orderKey (roundInt (v - e) elementShift)) (orderKey (roundInt (v + e) elementShift)))

/-- R189's constraint on an implementation's result `g` for the exact value `x`, `m` being the largest operand in units of
`2^-149`: `g` is finite, has the sign of `x` or is zero, and differs from `x` by at most `2^-16 * (1 + |x| + M)`. -/
def admissible (g : Word) (x : TrigSum) (m : Nat) : Bool :=
  let s := x.compare 1 0
  let gx := units g * 2 ^ sumShift
  let bound := (2 ^ 149 + (m : Int)) * 2 ^ sumShift
  isFinite g && (decide (units g = 0) || decide ((units g).sign = s))
    && decide (0 ≤ x.compare (2 ^ 16 + s) (2 * (2 ^ 16 * gx - bound)))
    && decide (x.compare (2 ^ 16 - s) (2 * (2 ^ 16 * gx + bound)) ≤ 0)

/-- The sign of a zero result is unspecified (R189; log 9). -/
def freeZeroSign (free w : Word) : Word := if magOf w = 0 then withSign (signOf free) 0 else w

/-- One element that IMDCT or MDCT writes (R182, R183, R189, R196): an unspecified value when its sum reads an infinity or a
NaN; else the exact sum `x`, which lies within `e` of `v`, rounded as `TRANSFORM_ARITH` says. -/
def element (arith : TransformArith) (free : Word) (index : Nat) (operands window : List Word) (x : TrigSum) (v e : Int) :
    Word :=
  if !(operands.all isFinite && window.all isFinite) then free
  else
    let exactResult := roundSum x v e
    freeZeroSign free
      (match arith with
       | .exact => exactResult
       | .implementation =>
         let g := Config.transformArith index (operands ++ window)
         if isInf exactResult then exactResult
         else if admissible g x (operands.foldl (fun m w => max m (magUnits w)) 0) then g
         else exactResult)

/-! ### The kernel -/

/-- The DCT-IV sum `sum_k c[k] * cos(pi/N * (n + 1/2) * (k + 1/2))` (R180), in the cosines' units. -/
def dctSum (c : List Int) (n : Nat) : Int := (c.zipIdx.map (fun p => p.1 * cosUnit ((2 * n + 1) * (2 * p.2 + 1)))).sum

/-- A bound on the error of `dctSum`: each stored cosine is within one unit of the real one. -/
def dctError (c : List Int) : Int := (c.map (fun x => |x|)).sum

/-- Where the unfolded signal `u[n]` comes from in `y`, and with which sign (R180). -/
def foldSource (n : Nat) : Nat × Int := if n < 64 then (64 + n, 1) else if n < 192 then (191 - n, -1) else (n - 192, -1)

/-- The terms of the kernel's sum `sum_j a[j] * cos(pi/N * (n + 1/2 + N/2) * (k + 1/2))` (R180, R183) over `k` for a fixed
`n`, or over `n` for a fixed `k`: `angle j` is the angle of term `j` in units of `pi / 512`. -/
def kernelTerms (a : List Int) (angle : Nat → Nat) : List (Int × Nat) := a.zipIdx.map (fun p => (p.1, angle p.2))

/-! ### The inverse transform -/

/-- The 128 sums `y[n]` (R180). -/
def dctSums (c : List Int) : List Int := (List.range 128).map (dctSum c)

/-- `out[n]` for `n` below 128 and the new carry `C'[n - 128]` for the others (R182). -/
def inverseElement (arith : TransformArith) (free : Word) (win spec : List Word) (ys : List Int) (err : Int) (n : Nat)
    (carry : Option Word) : Word :=
  let w := win.getD n 0
  let src := foldSource n
  let u := src.2 * ys.getD src.1 0
  let c := carry.getD 0
  let x := ⟨units c * 2 ^ sumShift, kernelTerms (spec.map (fun a => units w * units a)) (fun k => (2 * n + 129) * (2 * k + 1))⟩
  element arith free n (spec ++ carry.toList) [w] x (units w * u + units c * 2 ^ elementShift) (|units w| * err)

/-- The inverse transform of one block: `out` and the new carry, in that order, 256 elements (R182). `free` gives each
element its free value. -/
def inverseBlock (arith : TransformArith) (free : Nat → Word) (win spec carry : List Word) : List Word :=
  let x := spec.map units
  let ys := dctSums x
  let err := dctError x
  (List.range 256).map (fun n =>
    inverseElement arith (free n) win spec ys err n (if n < 128 then some (carry.getD n 0) else none))

/-! ### The forward transform -/

/-- The windowed samples folded onto the 128 places of the DCT-IV (R183; log 25): the kernel of R183 is the unfolded kernel of
R180, so samples with the same cosine are added before any cosine is used. -/
def foldForward (p : List Int) : List Int :=
  (List.range 128).map (fun j =>
    if j < 64 then -(p.getD (191 - j) 0) - p.getD (192 + j) 0 else p.getD (j - 64) 0 - p.getD (191 - j) 0)

/-- The forward transform of one block: `X[0..127]` (R183). -/
def forwardBlock (arith : TransformArith) (free : Nat → Word) (win prev block : List Word) : List Word :=
  let z := prev ++ block
  let p := (win.zip z).map (fun q => units q.1 * units q.2)
  let t := foldForward p
  let err := dctError t
  (List.range 128).map (fun k =>
    element arith (free k) (256 + k) z win ⟨0, kernelTerms p (fun n => (2 * n + 129) * (2 * k + 1))⟩ (dctSum t k) err)

/-! ### The commands -/

/-- The offset of `TBUF[ch][128 * sub]` (spec/10_state.md R57). -/
def tbufAddr (ch sub : Nat) : Nat := slotAddr ch .tbuf (512 * sub)

/-- The offset of `SPEC[ch][sub][0]` (spec/10_state.md R56). -/
def specRowAddr (ch sub : Nat) : Nat := slotAddr ch .spec (512 * sub)

/-- IMDCT of one subframe of a channel (R184): 128 samples to `TBUF`, the new carry to `IMDCT_CARRY`. -/
def imdctBlock (ch sub : Nat) (s : State) : State :=
  let out := inverseBlock s.arith
    (fun n => s.free (if n < 128 then tbufAddr ch sub + 4 * n else slotAddr ch .imdctCarry (4 * (n - 128))))
    (s.words winBase 256) (s.words (specRowAddr ch sub) 128) (s.words (slotAddr ch .imdctCarry 0) 128)
  ((s.putWords (tbufAddr ch sub) (out.take 128)).putWords (slotAddr ch .imdctCarry 0) (out.drop 128)).tick

/-- MDCT of one subframe of a channel (R186): `SPEC` from the previous and the current samples, which become the previous. -/
def mdctBlock (ch sub : Nat) (s : State) : State :=
  let block := s.words (tbufAddr ch sub) 128
  let out := forwardBlock s.arith (fun k => s.free (specRowAddr ch sub + 4 * k))
    (s.words winBase 256) (s.words (slotAddr ch .mdctPrev 0) 128) block
  ((s.putWords (specRowAddr ch sub) out).putWords (slotAddr ch .mdctPrev 0) block).tick

/-- Run a block operation over channels and, within each, subframes, in increasing order (spec/30_encoding.md R91). -/
def forBlocks (block : Nat → Nat → State → State) (chans subs : List Nat) (s : State) : State :=
  forEach chans (fun ch => forEach subs (block ch)) s

/-- IMDCT (R184). -/
def execImdct (ch : Nat) (allCh : Bool) (sub : Nat) (allSf : Bool) (s : State) : Host.Outcome State Fault Refusal :=
  finish (requireCfg s (requireChannel s ch allCh
    (.ok (forBlocks imdctBlock (channelSet s ch allCh) (subframeSet sub allSf) s))))

/-- MDCT (R186). -/
def execMdct (ch : Nat) (allCh : Bool) (sub : Nat) (allSf : Bool) (s : State) : Host.Outcome State Fault Refusal :=
  finish (requireCfg s (requireChannel s ch allCh
    (.ok (forBlocks mdctBlock (channelSet s ch allCh) (subframeSet sub allSf) s))))

end Sys2Proof.Machine
end

