-- ==== Sys2Proof/Machine/Pcm.lean ====
section
/-! DEFINITION. PCM conversion: PCM_OUT and PCM_IN (spec/43_transform.md R190, R191). -/

namespace Sys2Proof.Machine

/-- `clamp(floor(v * 32768 + 1/2), -32768, 32767)` on the exact value of a finite sample (R190). -/
def pcmOfFinite (w : Word) : Int := clampInt ((units w * 2 ^ 16 + 2 ^ 149) / 2 ^ 150) (-32768) 32767

/-- The PCM sample of a binary32 sample (R190): an infinity clamps; a NaN gives an unspecified value (log 12). -/
def pcmSample (free v : Word) : Half :=
  if isNaN v then free.setWidth 16
  else if isInf v then (if signOf v then 0x8000#16 else 0x7FFF#16)
  else BitVec.ofInt 16 (pcmOfFinite v)

/-- The offset of `PCM[ch][128 * sub]` (spec/10_state.md R58). -/
def pcmAddr (ch sub : Nat) : Nat := slotAddr ch .pcm (256 * sub)

/-- PCM_OUT of one subframe of a channel (R190). -/
def pcmOutBlock (ch sub : Nat) (s : State) : State :=
  (s.putHalves (pcmAddr ch sub)
    ((s.words (tbufAddr ch sub) 128).zipIdx.map (fun p => pcmSample (s.free (pcmAddr ch sub + 2 * p.2)) p.1))).tick

/-- PCM_IN of one subframe of a channel (R191): `i2f(q) * 2^-15`. -/
def pcmInBlock (ch sub : Nat) (s : State) : State :=
  s.putWords (tbufAddr ch sub) ((s.halves (pcmAddr ch sub) 128).map (fun q => i2fScaled q.toInt 15))

/-- PCM_OUT (R190). -/
def execPcmOut (ch : Nat) (allCh : Bool) (sub : Nat) (allSf : Bool) (s : State) : Host.Outcome State Fault Refusal :=
  finish (requireCfg s (requireChannel s ch allCh
    (.ok (forBlocks pcmOutBlock (channelSet s ch allCh) (subframeSet sub allSf) s))))

/-- PCM_IN (R191). -/
def execPcmIn (ch : Nat) (allCh : Bool) (sub : Nat) (allSf : Bool) (s : State) : Host.Outcome State Fault Refusal :=
  finish (requireCfg s (requireChannel s ch allCh
    (.ok (forBlocks pcmInBlock (channelSet s ch allCh) (subframeSet sub allSf) s))))

end Sys2Proof.Machine
end

