-- ==== Sys2Proof/Machine/Spectral.lean ====
section
/-! DEFINITION. The spectral stages DEQUANT, HFR_RECON and ISTEREO (spec/45_spectral.md), in binary32 with the products in the
order each rule gives. -/

namespace Sys2Proof.Machine

/-- The offset of `SPEC[ch][sub][b]` (spec/10_state.md R50). -/
def specAddr (ch sub b : Nat) : Nat := slotAddr ch .spec (4 * (128 * sub + b))

/-! ### DEQUANT -/

/-- The per-band factors of a channel, `F` (R250). Both tables are finite, so no factor is a NaN. -/
def dequantFactors (s : State) (ch : Nat) : List Word :=
  ((s.nums (slotAddr ch .sf 0) 128).zip (s.nums (slotAddr ch .res 0) 128)).map
    (fun p => mul32 0 (deqScale p.1) (deqRange p.2))

/-- The new spectrum of one subframe (R250). -/
def dequantRow (s : State) (ch sub : Nat) (factors : List Word) : List Word :=
  ((s.halves (slotAddr ch .qspec (256 * sub)) 128).zip factors).zipIdx.map
    (fun p => mul32 (s.free (specAddr ch sub p.2)) (i2f p.1.1.toInt) p.1.2)

/-- DEQUANT of one channel (R250). -/
def dequantChannel (ch : Nat) (s : State) : State :=
  let factors := dequantFactors s ch
  (s.putWords (specAddr ch 0 0) ((List.range 8).flatMap (fun sub => dequantRow s ch sub factors))).tick

/-- DEQUANT over a channel set. -/
def dequantBody (chans : List Nat) (s : State) : State := forEach chans dequantChannel s

/-- DEQUANT (R250). -/
def execDequant (ch : Nat) (allCh : Bool) (s : State) : Host.Outcome State Fault Refusal :=
  finish (requireCfg s (requireChannel s ch allCh (.ok (dequantBody (channelSet s ch allCh) s))))

/-! ### HFR_RECON -/

/-- The pairs `j` the loop of R252 runs: it stops at `TOTAL`, or when the mirror passes band 0. -/
def hfrSteps (s : State) : List Nat :=
  let start := baseBands s + stereoBands s
  (List.range (hfrGroups s * bandsPerGroup s)).takeWhile (fun j => decide (start + j < totalBands s ∧ j + 1 ≤ start))

/-- The ratio of pair `j` (R252): index `HFR_SCALE[ch][g] - SF[ch][low] + 64`. -/
def hfrRatioOf (s : State) (ch j : Nat) : Word :=
  let start := baseBands s + stereoBands s
  let scales := s.nums (slotAddr ch .hfrScale 0) 8
  let sf := s.nums (slotAddr ch .sf 0) 128
  (s.words hfrRatioBase 128).getD (scales.getD (j / bandsPerGroup s) 0 + 64 - sf.getD (start - 1 - j) 0) 0

/-- HFR_RECON of one subframe of a channel (R252): the mirrored bands, then bin 127. The bands read lie below `start`, the
bands written at or above it. -/
def hfrSubframe (ch : Nat) (ratios : List Word) (sub : Nat) (s : State) : State :=
  let start := baseBands s + stereoBands s
  let low := s.words (specAddr ch sub 0) start
  let high := (hfrSteps s).map (fun j =>
    mul32 (s.free (specAddr ch sub (start + j))) (low.getD (start - 1 - j) 0) (ratios.getD j 0))
  (s.putWords (specAddr ch sub start) high).putWords (specAddr ch sub 127) [0]

/-- HFR_RECON of one channel (R252): a StereoSecondary channel is skipped. -/
def hfrChannel (ch : Nat) (s : State) : State :=
  if role s ch = .stereoSecondary then s
  else (forEach (List.range 8) (hfrSubframe ch ((hfrSteps s).map (hfrRatioOf s ch))) s).tick

/-- HFR_RECON over a channel set: skipped entirely if there are no HFR groups (R252). -/
def hfrBody (chans : List Nat) (s : State) : State := if hfrGroups s = 0 then s else forEach chans hfrChannel s

/-- HFR_RECON (R252, R254). -/
def execHfrRecon (ch : Nat) (allCh : Bool) (s : State) : Host.Outcome State Fault Refusal :=
  finish (requireCfg s (requireChannel s ch allCh (requireHfrVersion s (.ok (hfrBody (channelSet s ch allCh) s)))))

/-! ### ISTEREO -/

/-- ISTEREO of one subframe of the pair `p`, `p + 1` (R255): both new values use the primary's old value. -/
def istereoSubframe (p sub : Nat) (s : State) : State :=
  let code := (s.nums (slotAddr (p + 1) .intensity sub) 1).headD 0
  let r := (s.words intRatioBase 16).getD code 0
  let r2 := sub32 (s.free (siteRatio p sub)) r two32
  let x := (s.words (specAddr p sub (baseBands s)) (totalBands s - baseBands s)).zipIdx
  let scaled (ch : Nat) (ratio : Word) : List Word :=
    x.map (fun e => mul32 (s.free (specAddr ch sub (baseBands s + e.2))) e.1 ratio)
  ((s.putWords (specAddr (p + 1) sub (baseBands s)) (scaled (p + 1) r2)).putWords
    (specAddr p sub (baseBands s)) (scaled p r)).tick

/-- ISTEREO of one channel: a StereoPrimary leads its pair; any other channel is passed over (R255). -/
def istereoChannel (subs : List Nat) (p : Nat) (s : State) : State :=
  if role s p = .stereoPrimary then forEach subs (istereoSubframe p) s else s

/-- ISTEREO over a subframe set (R255). -/
def istereoBody (subs : List Nat) (s : State) : State := forEach (List.range (chCount s)) (istereoChannel subs) s

/-- ISTEREO (R255). -/
def execIstereo (sub : Nat) (allSf : Bool) (s : State) : Host.Outcome State Fault Refusal :=
  finish (requireCfg s (.ok (istereoBody (subframeSet sub allSf) s)))

end Sys2Proof.Machine
end

