-- ==== Sys2Proof/Machine/Codes.lean ====
section
/-! DEFINITION. The bit cursor (spec/44_bitstream.md R200 to R204), the coefficient codes (spec/30_encoding.md R109 to R113) and
the resolution derivation (spec/44_bitstream.md R206, R207). -/

namespace Sys2Proof.Machine

/-! ### The bit cursor -/

/-- A structural error of the bitstream with its bit position (spec/60_exceptions.md R281). -/
structure BitError where
  code : ErrCode
  pos : Nat
deriving DecidableEq, Repr

/-- The cursor `p` (R200) with the frame's bits from `p` on. -/
structure Cursor where
  pos : Nat
  rest : List Bool
deriving DecidableEq, Repr

/-- A bitstream reader: from a cursor to a value and the cursor after it, or to an error. -/
abbrev Reader := StateT Cursor (Except BitError)

/-- Raise a structural error at a position. -/
def failAt {α : Type} (code : ErrCode) (pos : Nat) : Reader α := fun _ => .error ⟨code, pos⟩

/-- The cursor's position. -/
def cursorPos : Reader Nat := fun c => .ok (c.pos, c)

/-- `readUint(n)` (R201): reading past the frame end is `OVERRUN` at the read's start. -/
def readUint (n : Nat) : Reader Nat := fun c =>
  let bits := c.rest.take n
  if bits.length < n then .error ⟨.overrun, c.pos⟩ else .ok (valueOf bits, ⟨c.pos + n, c.rest.drop n⟩)

/-- `peekUint(n)` (R202): bits past the frame end read as 0; the cursor stays. -/
def peekUint (n : Nat) : Reader Nat := fun c => .ok (valueOf ((c.rest ++ List.replicate n false).take n), c)

/-- Run a reader `n` times. -/
def readMany {α : Type} (r : Reader α) : Nat → Reader (List α)
  | 0 => pure []
  | n + 1 => do
    let a ← r
    let as ← readMany r n
    pure (a :: as)

/-- Run a reader for each member of a list, in order. -/
def readEach {α β : Type} (f : β → Reader α) : List β → Reader (List α)
  | [] => pure []
  | x :: xs => do
    let a ← f x
    let as ← readEach f xs
    pure (a :: as)

/-- `count` delta-coded values after `prev`: a `w`-bit field is the escape, followed by a raw field of `raw` bits, or a delta
in offset binary (R204) whose sum must lie in 0 to `top` (R209, R210; spec/30_encoding.md R104, R106). -/
def readDeltas (w raw top : Nat) (code : ErrCode) : Nat → Nat → Reader (List Nat)
  | 0, _ => pure []
  | count + 1, prev => do
    let q ← cursorPos
    let u ← readUint w
    let v ←
      if u = 2 ^ w - 1 then readUint raw
      else
        let sum : Int := (prev : Int) + u - (2 ^ (w - 1) - 1)
        if sum < 0 ∨ (top : Int) < sum then failAt code q else pure sum.toNat
    let rest ← readDeltas w raw top code count v
    pure (v :: rest)

/-! ### Coefficient codes -/

/-- `MAXBITS[r]` (spec/30_encoding.md R113). -/
def maxBits : Nat → Nat
  | 0 => 0
  | 1 => 2
  | 2 => 3
  | 3 => 3
  | 4 => 4
  | 5 => 4
  | 6 => 4
  | 7 => 4
  | r => r - 3

/-- `BITS[r][p]` and `VAL[r][p]`, listed from `p = 0` (spec/30_encoding.md R111). -/
def codeTable : Nat → List (Nat × Int)
  | 1 => [(1, 0), (1, 0), (2, 1), (2, -1)]
  | 2 => [(2, 0), (2, 0), (2, 1), (2, 1), (2, -1), (2, -1), (3, 2), (3, -2)]
  | 3 => [(2, 0), (2, 0), (3, 1), (3, -1), (3, 2), (3, -2), (3, 3), (3, -3)]
  | 4 => [(3, 0), (3, 0), (3, 1), (3, 1), (3, -1), (3, -1), (3, 2), (3, 2), (3, -2), (3, -2), (3, 3), (3, 3), (3, -3),
      (3, -3), (4, 4), (4, -4)]
  | 5 => [(3, 0), (3, 0), (3, 1), (3, 1), (3, -1), (3, -1), (3, 2), (3, 2), (3, -2), (3, -2), (4, 3), (4, -3), (4, 4),
      (4, -4), (4, 5), (4, -5)]
  | 6 => [(3, 0), (3, 0), (3, 1), (3, 1), (3, -1), (3, -1), (4, 2), (4, -2), (4, 3), (4, -3), (4, 4), (4, -4), (4, 5),
      (4, -5), (4, 6), (4, -6)]
  | 7 => [(3, 0), (3, 0), (4, 1), (4, -1), (4, 2), (4, -2), (4, 3), (4, -3), (4, 4), (4, -4), (4, 5), (4, -5), (4, 6),
      (4, -6), (4, 7), (4, -7)]
  | _ => []

/-- The largest absolute value of each resolution (spec/30_encoding.md R113). -/
def maxAbs (r : Nat) : Nat := if r ≤ 7 then r else 2 ^ (r - 4) - 1

/-- A value lies in its resolution's range (spec/30_encoding.md R113). -/
def coefInRange (r : Nat) (v : Int) : Bool := decide (v.natAbs ≤ maxAbs r)

/-- `decodeCoef(r)` (R212). -/
def readCoef (r : Nat) : Reader Int :=
  if r = 0 then pure 0
  else if r ≤ 7 then do
    let p ← peekUint (maxBits r)
    let entry := (codeTable r).getD p (0, 0)
    let _ ← readUint entry.1
    pure entry.2
  else do
    let m ← readUint (r - 4)
    if m = 0 then pure 0
    else do
      let sgn ← readUint 1
      pure (if sgn = 1 then -(m : Int) else (m : Int))

/-- The first pattern that decodes to a value: its codeword is the pattern's leading `BITS` bits (R230). -/
def codePattern (r : Nat) (v : Int) : Nat := (codeTable r).findIdx (fun e => e.2 == v)

/-- The codeword of a value at resolution 1 to 7 (R230). -/
def codeword (r : Nat) (v : Int) : List Bool :=
  (bitsOf (maxBits r) (codePattern r v)).take ((codeTable r).getD (codePattern r v) (0, 0)).1

/-- `encodeCoef(r, v)` (R230). -/
def coefBits (r : Nat) (v : Int) : List Bool :=
  if r = 0 then []
  else if r ≤ 7 then codeword r v
  else bitsOf (r - 4) v.natAbs ++ (if v = 0 then [] else [decide (v < 0)])

/-- `len(r, v)` (R230). -/
def coefLength (r : Nat) (v : Int) : Nat :=
  if r = 0 then 0
  else if r ≤ 7 then ((codeTable r).getD (codePattern r v) (0, 0)).1
  else r - 4 + (if v = 0 then 0 else 1)

/-! ### Resolution derivation -/

/-- `nz(b) = ATH[b] + NOISE - (if b < EVAL then 1 else 0)` (R206). -/
def noiseAt (ath : List Nat) (noise eval b : Nat) : Int :=
  (ath.getD b 0 : Int) + noise - (if b < eval then 1 else 0)

/-- The curve position of a scale factor and a noise value (R206). -/
def curvePosition (sf : Nat) (nz : Int) : Int := nz - ((5 * sf / 2 : Nat) : Int) + 2

/-- `resolve(sf, nz)` (R206, R207), with the resolution curve as a list of its 59 entries. -/
def resolve (s : State) (curve : List Nat) (sf : Nat) (nz : Int) : Nat :=
  if sf = 0 then 0
  else
    let entry := curve.getD (clampInt (curvePosition sf nz) 0 58).toNat 0
    if version s < Config.v3 then entry
    else clampNat (if 67 ≤ curvePosition sf nz then 0 else entry) (minRes s) (maxRes s)

/-- The 128 resolutions of a channel (R206): 0 from `CODED(ch)` up. -/
def resolutions (s : State) (noise eval ch : Nat) (sf : List Nat) : List Nat :=
  let ath := s.nums athBase 128
  let curve := s.nums resCurveBase 59
  (List.range 128).map (fun b =>
    if b < coded s ch then resolve s curve (sf.getD b 0) (noiseAt ath noise eval b) else 0)

end Sys2Proof.Machine
end

