-- ==== Sys2Proof/Machine/Unpack.lean ====
section
/-! DEFINITION. UNPACK (spec/44_bitstream.md R209 to R216). -/

namespace Sys2Proof.Machine

/-- A channel's side information as read (R209 to R211). -/
structure SideInfo where
  /-- The delta-bits code, `DBITS[ch]`. -/
  dbits : Nat
  /-- The 128 scale factors. -/
  sf : List Nat
  /-- The 8 intensity codes. -/
  intensity : List Nat
  /-- The 8 HFR scale codes. -/
  hfr : List Nat
deriving DecidableEq, Repr

/-- A frame as read. -/
structure Frame where
  noise : Nat
  eval : Nat
  /-- One entry for each channel below `CH_COUNT`. -/
  side : List SideInfo
  /-- The 128 resolutions of each channel. -/
  res : List (List Nat)
  /-- For each subframe, for each channel, the coefficients of the coded bands. -/
  coefs : List (List (List Int))
deriving DecidableEq, Repr

/-- A list lengthened with zeros to 128 entries. -/
def padBands (xs : List Nat) : List Nat := xs ++ List.replicate (128 - xs.length) 0

/-- `decodeSF(ch)` for `n` coded bands (R209): the delta-bits code and the 128 scale factors. -/
def readScaleFactors (n : Nat) : Reader (Nat × List Nat) := do
  let d ← readUint 3
  if d = 0 then pure (d, padBands [])
  else if 6 ≤ d then do
    let f ← readMany (readUint 6) n
    pure (d, padBands f)
  else
    match n with
    | 0 => pure (d, padBands [])
    | k + 1 => do
      let f0 ← readUint 6
      let f ← readDeltas d 6 63 .sfRange k f0
      pure (d, padBands (f0 :: f))

/-- `decodeIntensity(ch)` at a version (R210). -/
def readIntensity (ver : Nat) : Reader (List Nat) :=
  if ver < Config.v3 then readMany (readUint 4) 8
  else do
    let i0 ← readUint 4
    if i0 = 15 then pure (List.replicate 8 7)
    else do
      let q ← readUint 2
      if q = 3 then do
        let rest ← readMany (readUint 4) 7
        pure (i0 :: rest)
      else do
        let rest ← readDeltas (q + 1) 4 15 .intensityRange 7 i0
        pure (i0 :: rest)

/-- The HFR codes of a channel are in the frame (R211, spec/30_encoding.md R102). -/
def hfrCoded (s : State) (ch : Nat) : Bool :=
  decide (role s ch ≠ .stereoSecondary ∧ 0 < hfrGroups s ∧ version s < Config.v3)

/-- `decodeHFR(ch)` (R211). -/
def readHfr (s : State) (ch : Nat) : Reader (List Nat) :=
  if hfrCoded s ch then do
    let g ← readMany (readUint 6) (hfrGroups s)
    pure (g ++ List.replicate (8 - g.length) 0)
  else pure (List.replicate 8 0)

/-- The side information of a channel (R216). -/
def readSide (s : State) (ch : Nat) : Reader SideInfo := do
  let (d, sf) ← readScaleFactors (coded s ch)
  let intensity ← if role s ch = .stereoSecondary then readIntensity (version s) else pure (List.replicate 8 0)
  let hfr ← readHfr s ch
  pure ⟨d, sf, intensity, hfr⟩

/-- The header (R213): `NOISE` and `EVAL`. -/
def readHeader : Reader (Nat × Nat) := do
  let sync ← readUint 16
  if sync ≠ 0xFFFF then failAt .sync 0
  else do
    let noise ← readUint 9
    let eval ← readUint 7
    pure (noise, eval)

/-- The whole frame, side information first (R216, R218). -/
def readFrame (s : State) : Reader Frame := do
  let (noise, eval) ← readHeader
  let side ← readEach (readSide s) (List.range (chCount s))
  let res := side.zipIdx.map (fun p => resolutions s noise eval p.2 p.1.sf)
  let coefs ← readMany (readEach (fun p => readEach readCoef (p.1.take (coded s p.2))) res.zipIdx) 8
  pure ⟨noise, eval, side, res, coefs⟩

/-- The bits of the frame, `FB[0 .. FRAME_BYTES-1]` (spec/30_encoding.md R100). -/
def frameBitList (s : State) : List Bool := bytesToBits (s.bytes frameBufBase (frameBytes s))

/-- The cursor at the frame's first bit (R200). -/
def frameCursor (s : State) : Cursor := ⟨0, frameBitList s⟩

/-- The 128 coefficients of a row: the coded bands', and 0 above (R216). -/
def coefRow (xs : List Int) : List Half := xs.map (BitVec.ofInt 16) ++ List.replicate (128 - xs.length) 0

/-- Store what UNPACK read for one channel: `SF`, `RES`, `INTENSITY`, `HFR_SCALE`, `QSPEC`. -/
def storeFrameChannel (f : Frame) (ch : Nat) (s : State) : State :=
  let side := f.side.getD ch ⟨0, [], [], []⟩
  (((s.putBytes (slotAddr ch .sf 0) (numBytes side.sf)).putBytes (slotAddr ch .res 0)
      (numBytes (f.res.getD ch []))).putBytes (slotAddr ch .intensity 0)
        (numBytes side.intensity ++ numBytes side.hfr)).putHalves (slotAddr ch .qspec 0)
          (f.coefs.flatMap (fun row => coefRow (row.getD ch [])))

/-- `DELTA_BITS(ch)` for every channel, 0 at and above `CH_COUNT` (spec/10_state.md R39). -/
def withDeltaBits (codes : List Nat) (s : State) : State :=
  { s with deltaBits0 := deltaWord (codes.take 8), deltaBits1 := deltaWord ((codes.drop 8).take 8) }

/-- `BITPOS <- p; BITS_LEFT <- FRAME_BITS - p` (R216, R232). -/
def withBitPos (p : Nat) (s : State) : State :=
  { s with bitPos := BitVec.ofNat 32 p, bitsLeft := BitVec.ofInt 32 ((frameBits s : Int) - p) }

/-- `STATUS.EMPTY` and `STATUS.VALID`. -/
def withValidity (valid empty : Bool) (s : State) : State :=
  { s with status := { s.status with valid := valid, empty := empty } }

/-- The end of a UNPACK that read a whole frame up to position `p` (R216). -/
def storeFrame (f : Frame) (p : Nat) (s : State) : State :=
  let codes := f.side.map SideInfo.dbits
  let empty := codes.all (fun d => d == 0)
  withValidity (validResult ((frameBits s : Int) - p) empty f.noise) empty
    (withBitPos p
      (withDeltaBits codes
        { forEach (List.range (chCount s)) (storeFrameChannel f) s with frameHdr := frameHdrWord f.noise f.eval }))

/-- One channel's UNPACK outputs become unspecified (R214; log 13). -/
def scrambleChannel (ch : Nat) (s : State) : State :=
  ((s.putBytes (slotAddr ch .sf 0) (s.freeBytes (slotAddr ch .sf 0) 256)).putBytes (slotAddr ch .intensity 0)
      (s.freeBytes (slotAddr ch .intensity 0) 16)).putBytes (slotAddr ch .qspec 0)
        (s.freeBytes (slotAddr ch .qspec 0) 2048)

/-- The state a UNPACK that met a structural error leaves (R214): its outputs unspecified, each of its element's type (free
values), and `VALID = 0`. -/
def unpackFailed (s : State) : State :=
  State.tick
    { forEach (List.range (chCount s)) scrambleChannel s with
      frameHdr := s.free (siteReg 0x44) &&& 0x007F01FF#32
      bitPos := s.free (siteReg 0x48) &&& 0x000FFFFF#32
      bitsLeft := s.free (siteReg 0x4C)
      deltaBits0 := s.free (siteReg 0x58) &&& 0x77777777#32
      deltaBits1 := s.free (siteReg 0x5C) &&& 0x77777777#32
      status := { s.status with valid := false, empty := (s.free (siteReg 0x08)).toNat.testBit 4 } }

/-- UNPACK's effect, its configuration checks passed. -/
def unpackBody (s : State) : Effect :=
  match readFrame s (frameCursor s) with
  | .error e => .error e.code (BitVec.ofNat 32 e.pos) (unpackFailed s)
  | .ok (f, c) => .ok (storeFrame f c.pos s)

/-- UNPACK (R216). -/
def execUnpack (s : State) : Host.Outcome State Fault Refusal :=
  finish (requireCfg s (requireFrame s (unpackBody s)))

end Sys2Proof.Machine
end

