-- ==== Sys2Proof/Machine/Composite.lean ====
section
/-! DEFINITION. The composite command DECODE_FRAME (spec/46_composite.md). -/

namespace Sys2Proof.Machine

/-- The heuristic validity failure as DECODE_FRAME's error (R270, R271). -/
def requireValid (s : State) : Effect := if s.status.valid then .ok s else .error .invalid s.bitPos s

/-- The stages after UNPACK, over every channel and subframe (R270). None of them can fail. -/
def decodeStages (s : State) : State :=
  let chans := List.range (chCount s)
  let subs := List.range 8
  forBlocks pcmOutBlock chans subs
    (forBlocks imdctBlock chans subs (istereoBody subs (hfrBody chans (dequantBody chans s))))

/-- DECODE_FRAME's effect (R270). -/
def decodeFrameEffect (s : State) : Effect :=
  requireCfg s (requireFrame s (requireHfrVersion s
    (((unpackBody s).andThen requireValid).andThen (fun t => .ok (decodeStages t)))))

/-- DECODE_FRAME (R270). -/
def execDecodeFrame (s : State) : Host.Outcome State Fault Refusal := finish (decodeFrameEffect s)

end Sys2Proof.Machine
end

