-- ==== Sys2Proof/Machine/Control.lean ====
section
/-! DEFINITION. The control commands NOP and RESET_OVL (spec/40_control.md). -/

namespace Sys2Proof.Machine

/-- Both overlap buffers of a slot set to +0.0 (spec/40_control.md R141). -/
def clearOverlap (ch : Nat) (s : State) : State :=
  (s.putWords (slotAddr ch .imdctCarry 0) (List.replicate 128 0)).putWords (slotAddr ch .mdctPrev 0) (List.replicate 128 0)

/-- NOP (R140): no effect but completion. -/
def execNop (s : State) : Host.Outcome State Fault Refusal := finish (.ok s)

/-- RESET_OVL (R141): no configuration check; every slot 0 to 15 is accepted. -/
def execResetOvl (ch : Nat) (allCh : Bool) (s : State) : Host.Outcome State Fault Refusal :=
  finish (.ok (forEach (slotSet ch allCh) clearOverlap s))

end Sys2Proof.Machine
end

