-- ==== Sys2Proof/Machine/Crc.lean ====
section
/-! DEFINITION. The CRC-16 unit: CRC_CALC, CRC_GEN, CRC_CHECK (spec/41_crc.md). -/

namespace Sys2Proof.Machine

/-- One shift of the CRC register by the generator 0x8005 (R150). -/
def crcShift (c : Half) : Half := if c.msb then (c <<< 1) ^^^ 0x8005#16 else c <<< 1

/-- `n` shifts. -/
def crcShifts : Nat → Half → Half
  | 0, c => c
  | n + 1, c => crcShifts n (crcShift c)

/-- The CRC register after one more byte, most significant bit first (R150). -/
def crcByte (c : Half) (x : Byte) : Half := crcShifts 8 (c ^^^ (x.setWidth 16 <<< 8))

/-- `crc16(bytes)` (R150). -/
def crc16 (bytes : List Byte) : Half := bytes.foldl crcByte 0

/-- The two bytes of a CRC in a frame, high byte first (spec/30_encoding.md R116). -/
def crcBytes (c : Half) : List Byte := [c.extractLsb' 8 8, c.extractLsb' 0 8]

/-- The CRC of the frame's bytes before the trailing two. -/
def frameCrc (s : State) : Half := crc16 (s.bytes frameBufBase (frameBytes s - 2))

/-- `CRC_VALUE <- zext_32(c)`. -/
def withCrcValue (c : Half) (s : State) : State := { s with crcValue := c.setWidth 32 }

/-- CRC_CALC's effect (R152). -/
def crcCalcEffect (s : State) : Effect := .ok (withCrcValue (crc16 (s.bytes frameBufBase (crcLenOf s))) s)

/-- CRC_GEN's effect (R153). -/
def crcGenEffect (s : State) : Effect :=
  requireFrame s
    (.ok (withCrcValue (frameCrc s) (s.putBytes (frameBufBase + (frameBytes s - 2)) (crcBytes (frameCrc s)))))

/-- CRC_CHECK's effect (R154). -/
def crcCheckEffect (s : State) : Effect :=
  requireFrame s
    (.ok (withCrcValue (frameCrc s)
      { s with status :=
          { s.status with
            crcOk := s.bytes (frameBufBase + (frameBytes s - 2)) 2 == crcBytes (frameCrc s) } }))

/-- CRC_CALC (R152). -/
def execCrcCalc (s : State) : Host.Outcome State Fault Refusal := finish (crcCalcEffect s)

/-- CRC_GEN (R153). -/
def execCrcGen (s : State) : Host.Outcome State Fault Refusal := finish (crcGenEffect s)

/-- CRC_CHECK (R154). -/
def execCrcCheck (s : State) : Host.Outcome State Fault Refusal := finish (crcCheckEffect s)

end Sys2Proof.Machine
end

