-- ==== Sys2Proof/Machine/Pack.lean ====
section
/-! DEFINITION. PACK (spec/44_bitstream.md R225 to R233). -/

namespace Sys2Proof.Machine

/-- What PACK reads and derives of one channel (R225, R232). -/
structure PackChannel where
  /-- The scale factors of the coded bands. -/
  sf : List Nat
  /-- The 128 derived resolutions, `RES'`. -/
  res : List Nat
  /-- The delta width, `d[ch]`. -/
  delta : Nat
  /-- The bits of the intensity or HFR section. -/
  extra : List Bool
  /-- For each subframe, the coefficients of the coded bands. -/
  coefs : List (List Int)
deriving DecidableEq, Repr

/-! ### Scale factors -/

/-- The bits of the delta-coded bands after the first, at width `d` (R226): an escape costs six more. -/
def deltaCosts (d : Nat) : List Nat → Nat
  | a :: b :: rest =>
    (if ((b : Int) - a).natAbs ≤ 2 ^ (d - 1) - 1 then d else d + 6) + deltaCosts d (b :: rest)
  | _ => 0

/-- `cost(d)`; 3 bits for `d = 0` (R226, spec/30_encoding.md R103). -/
def sfCost (d : Nat) (f : List Nat) : Nat :=
  if d = 0 then 3 else if d = 6 then 3 + 6 * f.length else 9 + deltaCosts d f

/-- The delta width PACK chooses (R226): 0 when there is nothing but zeros, else the cheapest of 1 to 6, ties to the smaller. -/
def chooseDelta (f : List Nat) : Nat :=
  if f.all (fun x => x == 0) then 0
  else [2, 3, 4, 5, 6].foldl (fun best d => if sfCost d f < sfCost best f then d else best) 1

/-- The fields of the delta-coded bands after the first (R227). -/
def deltaFields (d : Nat) : List Nat → List Bool
  | a :: b :: rest =>
    (if ((b : Int) - a).natAbs ≤ 2 ^ (d - 1) - 1 then bitsOf d ((b : Int) - a + (2 ^ (d - 1) - 1)).toNat
     else bitsOf d (2 ^ d - 1) ++ bitsOf 6 b) ++ deltaFields d (b :: rest)
  | _ => []

/-- `encodeSF(ch, d)` (R227). -/
def sfBits (d : Nat) (f : List Nat) : List Bool :=
  bitsOf 3 d ++
    (if d = 0 then []
     else if d = 6 then f.flatMap (bitsOf 6)
     else bitsOf 6 (f.headD 0) ++ deltaFields d f)

/-! ### Intensity and HFR -/

/-- `encodeIntensity(ch)` (R228). -/
def intensityBits (ver : Nat) (codes : List Nat) : List Bool :=
  if ver < Config.v3 then codes.flatMap (bitsOf 4)
  else if codes.all (fun c => c == 7) then bitsOf 4 15
  else bitsOf 4 (codes.headD 0) ++ bitsOf 2 3 ++ codes.tail.flatMap (bitsOf 4)

/-- The length of a channel's intensity or HFR section (R232). -/
def extraCost (s : State) (ch : Nat) (codes : List Nat) : Nat :=
  if role s ch = .stereoSecondary then
    if version s < Config.v3 then 32 else if codes.all (fun c => c == 7) then 4 else 34
  else if hfrCoded s ch then 6 * hfrGroups s
  else 0

/-- `INTENSITY[ch][0..7]`. -/
def intensityCodes (s : State) (ch : Nat) : List Nat := s.nums (slotAddr ch .intensity 0) 8

/-- The bits of a channel's intensity or HFR section (R228, R229). -/
def extraBits (s : State) (ch : Nat) : List Bool :=
  if role s ch = .stereoSecondary then intensityBits (version s) (intensityCodes s ch)
  else if hfrCoded s ch then (s.nums (slotAddr ch .hfrScale 0) (hfrGroups s)).flatMap (bitsOf 6)
  else []

/-! ### Inputs, checks and length -/

/-- PACK's inputs and derivations for one channel (R225, R232). -/
def packChannel (s : State) (ch : Nat) : PackChannel :=
  let sf := s.nums (slotAddr ch .sf 0) 128
  let f := sf.take (coded s ch)
  { sf := f
    res := resolutions s (noiseOf s) (evalOf s) ch sf
    delta := chooseDelta f
    extra := extraBits s ch
    coefs := (List.range 8).map (fun sub =>
      ((s.halves (slotAddr ch .qspec (256 * sub)) (coded s ch)).map BitVec.toInt)) }

/-- PACK's inputs for every channel below `CH_COUNT`. -/
def packChannels (s : State) : List PackChannel := (List.range (chCount s)).map (packChannel s)

/-- The `ERR_INFO` of `CODE_RANGE` (spec/60_exceptions.md R282). -/
def codeRangeInfo (kind ch sub b : Nat) : Word := BitVec.ofNat 32 (kind * 2 ^ 28 + ch * 2 ^ 24 + sub * 2 ^ 16 + b)

/-- The representability checks of one channel (R231): the first that fails, as its `ERR_INFO`. -/
def packCheckChannel (s : State) (ch : Nat) (c : PackChannel) : Option Word :=
  let codes := intensityCodes s ch
  if role s ch = .stereoSecondary ∧ Config.v3 ≤ version s ∧ codes.all (fun x => x == 7) = false ∧ codes.headD 0 = 15 then
    some (codeRangeInfo 3 ch 0 0)
  else
    c.coefs.zipIdx.findSome? (fun row =>
      row.1.zipIdx.findSome? (fun v =>
        if coefInRange (c.res.getD v.2 0) v.1 then none else some (codeRangeInfo 5 ch row.2 v.2)))

/-- The representability checks of every channel, in order (R231). -/
def packCheck (s : State) (cs : List PackChannel) : Option Word :=
  cs.zipIdx.findSome? (fun p => packCheckChannel s p.2 p.1)

/-- The length of a row of coefficients. -/
def rowLength (res : List Nat) (row : List Int) : Nat := ((res.zip row).map (fun p => coefLength p.1 p.2)).sum

/-- The content length `L` in bits (R232). -/
def contentLength (s : State) (cs : List PackChannel) : Nat :=
  32 + (cs.zipIdx.map (fun p => sfCost p.1.delta p.1.sf + extraCost s p.2 (intensityCodes s p.2))).sum
    + (cs.map (fun c => (c.coefs.map (rowLength c.res)).sum)).sum

/-! ### The frame -/

/-- The codes of a row of coefficients. -/
def rowBits (res : List Nat) (row : List Int) : List Bool := (res.zip row).flatMap (fun p => coefBits p.1 p.2)

/-- The content of the frame, in the layout's order (spec/30_encoding.md R100 to R108). -/
def contentBits (s : State) (cs : List PackChannel) : List Bool :=
  bitsOf 16 0xFFFF ++ bitsOf 9 (noiseOf s) ++ bitsOf 7 (evalOf s)
    ++ cs.flatMap (fun c => sfBits c.delta c.sf ++ c.extra)
    ++ (List.range 8).flatMap (fun sub => cs.flatMap (fun c => rowBits c.res (c.coefs.getD sub [])))

/-- The frame's bytes before the CRC: the content, then zero bits up to byte `FRAME_BYTES-3` (spec/30_encoding.md R115). -/
def frameBody (s : State) (cs : List PackChannel) : List Byte :=
  let bits := contentBits s cs
  bitsToBytes (bits ++ List.replicate (8 * (frameBytes s - 2) - bits.length) false)

/-- The frame write of a PACK that is not dry (R232): the body, the CRC, `CRC_VALUE`. -/
def writeFrame (cs : List PackChannel) (s : State) : State :=
  let body := frameBody s cs
  withCrcValue (crc16 body) (s.putBytes frameBufBase (body ++ crcBytes (crc16 body)))

/-- `RES[ch][b] <- RES'[ch][b]` for every band of a channel (R232). -/
def storeResolutions (cs : List PackChannel) (ch : Nat) (s : State) : State :=
  s.putBytes (slotAddr ch .res 0) (numBytes (cs.getD ch ⟨[], [], 0, [], []⟩).res)

/-- The content fits before the CRC (R232). -/
def packFits (s : State) (len : Nat) : Bool := decide ((len + 7) / 8 ≤ frameBytes s - 2)

/-- The end of a PACK without error (R232, R233). -/
def packStore (dry : Bool) (cs : List PackChannel) (s : State) : State :=
  let len := contentLength s cs
  let codes := cs.map PackChannel.delta
  let empty := codes.all (fun d => d == 0)
  withValidity (packFits s len && validResult ((frameBits s : Int) - len) empty (noiseOf s)) empty
    (withBitPos len
      (withDeltaBits codes
        (forEach (List.range (chCount s)) (storeResolutions cs) (if dry then s else writeFrame cs s))))

/-- The state of a PACK that ends with a data error: only `VALID` is written (R232). -/
def packFailed (s : State) : State := { s with status := { s.status with valid := false } }

/-- PACK's effect, its configuration checks passed (R232). -/
def packBody (dry : Bool) (s : State) : Effect :=
  let cs := packChannels s
  match packCheck s cs with
  | some info => .error .codeRange info (packFailed s)
  | none =>
    if !dry && !packFits s (contentLength s cs) then
      .error .frameFull (BitVec.ofNat 32 (contentLength s cs)) (packFailed s)
    else .ok (packStore dry cs s)

/-- PACK (R232, R233). -/
def execPack (dry : Bool) (s : State) : Host.Outcome State Fault Refusal :=
  finish (requireCfg s (requireFrame s (packBody dry s)))

end Sys2Proof.Machine
end

