-- ==== Sys2Proof/Machine/Dispatch.lean ====
section
/-! DEFINITION. The meaning of each command, one arm per constructor. -/

namespace Sys2Proof.Machine

def exec (i : Instr) (s : State) : Host.Outcome State Fault Refusal :=
  match i with
  | .nop => Sys2Proof.Machine.execNop s
  | .resetOvl ch allCh => Sys2Proof.Machine.execResetOvl ch allCh s
  | .keygen0 => Sys2Proof.Machine.execKeygen0 s
  | .keygen1 => Sys2Proof.Machine.execKeygen1 s
  | .keygen56 => Sys2Proof.Machine.execKeygen56 s
  | .decrypt => Sys2Proof.Machine.execDecrypt s
  | .encrypt => Sys2Proof.Machine.execEncrypt s
  | .crcCalc => Sys2Proof.Machine.execCrcCalc s
  | .crcGen => Sys2Proof.Machine.execCrcGen s
  | .crcCheck => Sys2Proof.Machine.execCrcCheck s
  | .unpack => Sys2Proof.Machine.execUnpack s
  | .pack dry => Sys2Proof.Machine.execPack dry s
  | .dequant ch allCh => Sys2Proof.Machine.execDequant ch allCh s
  | .hfrRecon ch allCh => Sys2Proof.Machine.execHfrRecon ch allCh s
  | .istereo sub allSf => Sys2Proof.Machine.execIstereo sub allSf s
  | .imdct ch allCh sub allSf => Sys2Proof.Machine.execImdct ch allCh sub allSf s
  | .mdct ch allCh sub allSf => Sys2Proof.Machine.execMdct ch allCh sub allSf s
  | .pcmOut ch allCh sub allSf => Sys2Proof.Machine.execPcmOut ch allCh sub allSf s
  | .pcmIn ch allCh sub allSf => Sys2Proof.Machine.execPcmIn ch allCh sub allSf s
  | .decodeFrame => Sys2Proof.Machine.execDecodeFrame s

end Sys2Proof.Machine
end

