-- ==== Sys2Proof/Machine/Footprint.lean ====
section
/-! DEFINITION. The places a command writes when nothing stops it, from its rule: what every command leaves alone, and, with the
command's outcome, what a host read finds unspecified while the command runs (spec/20_memory.md R80, spec/60_exceptions.md R290;
log 15). -/

namespace Sys2Proof.Machine

/-- The registers of spec/10_state.md section 2. -/
inductive Reg where
  | id
  | ctrl
  | status
  | cmd
  | errInfo
  | cfgStream
  | cfgFrame
  | cfgBands
  | cfgRes
  | cfgDerived
  | cfgRoles
  | keyLo
  | keyHi
  | keyType
  | frameHdr
  | bitPos
  | bitsLeft
  | crcValue
  | crcLen
  | deltaBits0
  | deltaBits1
deriving DecidableEq, Repr

/-- A property of the slot array that holds an offset: its channel, the array, and the byte's place in it. -/
def inSlot (a : Nat) (p : Nat → SlotArray → Nat → Bool) : Bool :=
  match regionOf a with
  | .slot ch array i => p ch array i
  | _ => false

/-- A property of a frame buffer offset. -/
def inFrameBuf (a : Nat) (p : Nat → Bool) : Bool :=
  match regionOf a with
  | .frameBuf i => p i
  | _ => false

/-- The offset lies in a key table. -/
def inKeyTables (a : Nat) : Bool :=
  match regionOf a with
  | .keyDec _ | .keyEnc _ => true
  | _ => false

/-- The arrays UNPACK writes (spec/44_bitstream.md R214, R216). -/
def unpackArray (array : SlotArray) : Bool :=
  array == .sf || array == .res || array == .intensity || array == .hfrScale || array == .qspec

/-- HFR_RECON writes the band from a mirror band: it is a band `start + j` of the loop (spec/45_spectral.md R252), which stops
after the groups' bands, at `TOTAL`, and when the mirror passes band 0. -/
def hfrWritesBand (s : State) (b : Nat) : Bool :=
  let start := baseBands s + stereoBands s
  decide (start ≤ b ∧ b < start + hfrGroups s * bandsPerGroup s ∧ b < totalBands s ∧ b < 2 * start)

/-- The byte of the aperture's RAM at an offset is one the command writes, in a state, when nothing stops it. -/
def writesByte (i : Instr) (s : State) (a : Nat) : Bool :=
  match i with
  | .nop | .crcCalc | .crcCheck => false
  | .resetOvl ch all =>
    inSlot a (fun c array _ => (slotSet ch all).contains c && (array == .imdctCarry || array == .mdctPrev))
  | .keygen0 | .keygen1 | .keygen56 => inKeyTables a
  | .decrypt | .encrypt => inFrameBuf a (fun i => decide (i < frameBytes s))
  | .crcGen => inFrameBuf a (fun i => decide (frameBytes s - 2 ≤ i ∧ i < frameBytes s))
  | .unpack => inSlot a (fun c array _ => decide (c < chCount s) && unpackArray array)
  | .pack dry =>
    inSlot a (fun c array _ => decide (c < chCount s) && array == .res)
      || (!dry && inFrameBuf a (fun i => decide (i < frameBytes s)))
  | .dequant ch all => inSlot a (fun c array _ => (channelSet s ch all).contains c && array == .spec)
  | .hfrRecon ch all =>
    inSlot a (fun c array i =>
      (channelSet s ch all).contains c && array == .spec && decide (role s c ≠ .stereoSecondary ∧ 0 < hfrGroups s)
        && (hfrWritesBand s (i / 4 % 128) || decide (i / 4 % 128 = 127)))
  | .istereo sub all =>
    inSlot a (fun c array i =>
      array == .spec && (subframeSet sub all).contains (i / 512)
        && decide (baseBands s ≤ i / 4 % 128 ∧ i / 4 % 128 < totalBands s)
        && decide ((c < chCount s ∧ role s c = .stereoPrimary)
            ∨ (1 ≤ c ∧ c - 1 < chCount s ∧ role s (c - 1) = .stereoPrimary)))
  | .imdct ch all sub allSf =>
    inSlot a (fun c array i =>
      (channelSet s ch all).contains c
        && (array == .imdctCarry || (array == .tbuf && (subframeSet sub allSf).contains (i / 512))))
  | .mdct ch all sub allSf =>
    inSlot a (fun c array i =>
      (channelSet s ch all).contains c
        && (array == .mdctPrev || (array == .spec && (subframeSet sub allSf).contains (i / 512))))
  | .pcmOut ch all sub allSf =>
    inSlot a (fun c array i =>
      (channelSet s ch all).contains c && array == .pcm && (subframeSet sub allSf).contains (i / 256))
  | .pcmIn ch all sub allSf =>
    inSlot a (fun c array i =>
      (channelSet s ch all).contains c && array == .tbuf && (subframeSet sub allSf).contains (i / 512))
  | .decodeFrame =>
    inSlot a (fun c array _ =>
      decide (c < chCount s)
        && (unpackArray array || array == .spec || array == .tbuf || array == .imdctCarry || array == .pcm))

/-- The command writes the register, when nothing stops it. `STATUS` and `CMD` are left out: a read while busy returns their
values (R80). Every completion writes `ERR_INFO` (spec/60_exceptions.md R284). -/
def writesReg (i : Instr) (r : Reg) : Bool :=
  match i with
  | .nop | .resetOvl _ _ | .decrypt | .encrypt | .dequant _ _ | .hfrRecon _ _ | .istereo _ _ | .imdct _ _ _ _
  | .mdct _ _ _ _ | .pcmOut _ _ _ _ | .pcmIn _ _ _ _ => r == .errInfo
  | .keygen0 | .keygen1 | .keygen56 => r == .errInfo || r == .keyType
  | .crcCalc | .crcGen | .crcCheck => r == .errInfo || r == .crcValue
  | .unpack | .decodeFrame =>
    r == .errInfo || r == .frameHdr || r == .bitPos || r == .bitsLeft || r == .deltaBits0 || r == .deltaBits1
  | .pack dry =>
    r == .errInfo || r == .bitPos || r == .bitsLeft || r == .deltaBits0 || r == .deltaBits1 || (!dry && r == .crcValue)

end Sys2Proof.Machine
end

