-- ==== Sys2Proof/Machine/Bus.lean ====
section
/-! DEFINITION. The host's accesses (spec/20_memory.md R72 to R76; spec/60_exceptions.md R284, R289 to R291), and which of the
host and the engine moves next (spec/20_memory.md R80, spec/70_reset_and_hazards.md R327). -/

namespace Sys2Proof.Machine

/-! ### The register map -/

/-- The register at an offset (spec/10_state.md section 2). -/
def regAt : Nat → Option Reg
  | 0x0000 => some .id
  | 0x0004 => some .ctrl
  | 0x0008 => some .status
  | 0x000C => some .cmd
  | 0x0010 => some .errInfo
  | 0x0020 => some .cfgStream
  | 0x0024 => some .cfgFrame
  | 0x0028 => some .cfgBands
  | 0x002C => some .cfgRes
  | 0x0030 => some .cfgDerived
  | 0x0034 => some .cfgRoles
  | 0x0038 => some .keyLo
  | 0x003C => some .keyHi
  | 0x0040 => some .keyType
  | 0x0044 => some .frameHdr
  | 0x0048 => some .bitPos
  | 0x004C => some .bitsLeft
  | 0x0050 => some .crcValue
  | 0x0054 => some .crcLen
  | 0x0058 => some .deltaBits0
  | 0x005C => some .deltaBits1
  | _ => none

/-- The bits of a register that are fields; the others read 0 and ignore writes (spec/10_state.md section 2). -/
def regMask : Reg → Word
  | .ctrl => 0x00000001#32
  | .status => 0x0000FF7F#32
  | .cfgStream => 0xFFFF001F#32
  | .cfgFrame => 0x0000FFFF#32
  | .cfgRes => 0x000000FF#32
  | .cfgDerived => 0x00FF03FF#32
  | .keyHi => 0x00FFFFFF#32
  | .keyType => 0x000000FF#32
  | .frameHdr => 0x007F01FF#32
  | .bitPos => 0x000FFFFF#32
  | .crcValue => 0x0000FFFF#32
  | .crcLen => 0x0000FFFF#32
  | .deltaBits0 => 0x77777777#32
  | .deltaBits1 => 0x77777777#32
  | .id | .cmd | .errInfo | .cfgBands | .cfgRoles | .keyLo | .bitsLeft => 0xFFFFFFFF#32

/-- `ID` (spec/10_state.md R22). -/
def idValue : Word := 0x48434507#32

/-- A register's value (spec/10_state.md R22 to R40). -/
def regValue (s : State) : Reg → Word
  | .id => idValue
  | .ctrl => s.ctrl
  | .status => statusWord s.status
  | .cmd => s.cmd
  | .errInfo => s.errInfo
  | .cfgStream => s.cfgStream
  | .cfgFrame => s.cfgFrame
  | .cfgBands => s.cfgBands
  | .cfgRes => s.cfgRes
  | .cfgDerived => BitVec.ofNat 32 (totalBands s + hfrGroups s * 2 ^ 16)
  | .cfgRoles => s.cfgRoles
  | .keyLo => s.keyLo
  | .keyHi => s.keyHi
  | .keyType => s.keyType
  | .frameHdr => s.frameHdr
  | .bitPos => s.bitPos
  | .bitsLeft => s.bitsLeft
  | .crcValue => s.crcValue
  | .crcLen => s.crcLen
  | .deltaBits0 => s.deltaBits0
  | .deltaBits1 => s.deltaBits1

/-- A host write of a register that only stores (spec/10_state.md R24 to R38): a read-write register takes the bits that are
fields; a write to any other register is ignored (spec/20_memory.md R75). -/
def storeReg (r : Reg) (v : Word) (s : State) : State :=
  match r with
  | .cfgStream => { s with cfgStream := v &&& regMask .cfgStream }
  | .cfgFrame => { s with cfgFrame := v &&& regMask .cfgFrame }
  | .cfgBands => { s with cfgBands := v &&& regMask .cfgBands }
  | .cfgRes => { s with cfgRes := v &&& regMask .cfgRes }
  | .cfgRoles => { s with cfgRoles := v &&& regMask .cfgRoles }
  | .keyLo => { s with keyLo := v &&& regMask .keyLo }
  | .keyHi => { s with keyHi := v &&& regMask .keyHi }
  | .frameHdr => { s with frameHdr := v &&& regMask .frameHdr }
  | .crcLen => { s with crcLen := v &&& regMask .crcLen }
  | .id | .ctrl | .status | .cmd | .errInfo | .cfgDerived | .keyType | .bitPos | .bitsLeft | .crcValue | .deltaBits0
  | .deltaBits1 => s

/-! ### Accesses -/

/-- Rule R72: the widths and alignments an access may have. -/
def accessLegal (offset bytes : Nat) : Bool :=
  decide (offset < Config.apertureBytes)
    && (if offset < 0x10000 then decide (bytes = 4 ∧ offset % 4 = 0)
        else decide ((bytes = 1 ∨ bytes = 2 ∨ bytes = 4) ∧ offset % bytes = 0))

/-- The error code a command ends with. -/
def outcomeCode (i : Instr) (s : State) : ErrCode :=
  match exec i s with
  | .next t => t.status.errCode
  | .fault _ => .none
  | .refused _ => .none

/-- The command whose writes a command makes, as it ends: all its own; UNPACK's when a DECODE_FRAME ends with one of UNPACK's
errors or with INVALID (spec/46_composite.md R271); none when its checks, or PACK's data errors, stop it before it changes
anything (spec/60_exceptions.md R283; spec/44_bitstream.md R232). -/
def writingCommand (i : Instr) (s : State) : Option Instr :=
  match outcomeCode i s with
  | .none => some i
  | .sync | .sfRange | .intensityRange | .overrun | .invalid => some .unpack
  | .illegal | .badConfig | .badChannel | .unsupported | .codeRange | .frameFull => none

/-- The pending command writes the byte (R80). -/
def pendingWritesByte (s : State) (a : Nat) : Bool :=
  match (s.pending.bind decode?).bind (fun i => writingCommand i s) with
  | some i => writesByte i s a
  | none => false

/-- The pending command writes the register (R80). Every completion writes `ERR_INFO` (spec/60_exceptions.md R284). -/
def pendingWritesReg (s : State) (r : Reg) : Bool :=
  s.pending.isSome
    && (r == .errInfo
      || match (s.pending.bind decode?).bind (fun i => writingCommand i s) with
        | some i => writesReg i r
        | none => false)

/-- The place of the free value that a host reads, while a command runs, where the command writes. The counter stands still until
the command completes, so every read of the run finds the same value (spec/93_implementation_defined.md, `any value`). -/
def siteBusy (site : Nat) : Nat := 0x100000 + site

/-- A register as the host reads it: 0 at a reserved offset (R75), a free value where the running command writes (R290). -/
def readReg (s : State) (offset : Nat) : Word :=
  match regAt offset with
  | none => 0
  | some r => if pendingWritesReg s r then s.free (siteBusy (siteReg offset)) &&& regMask r else regValue s r

/-- A RAM byte as the host reads it: a free value where the running command writes (R290). -/
def readByte (s : State) (a : Nat) : Byte :=
  if pendingWritesByte s a then (s.free (siteBusy a)).setWidth 8 &&& cellMask a else s.byte a

/-- `MemRead(offset, bytes)` (R72 to R74): the value, zero-extended, or the host bus fault. -/
def busRead (s : State) (offset bytes : Nat) : Except Fault Word :=
  if accessLegal offset bytes then
    .ok (if offset < 0x10000 then readReg s offset
      else bytesValue ((List.range bytes).map (fun i => readByte s (offset + i))))
  else .error .hostBus

/-- The host may write the byte (R75). -/
def hostWritable (a : Nat) : Bool :=
  match regionOf a with
  | .none | .keyDec _ | .keyEnc _ | .deqScale _ | .deqRange _ | .slot _ .res _ => false
  | _ => true

/-- A host store of a RAM window: each byte the host may write takes its byte of the value (R74, R75). -/
def storeRam (offset bytes : Nat) (v : Word) (s : State) : State :=
  forEach (List.range bytes)
    (fun i t => if hostWritable (offset + i) then t.putBytes (offset + i) [v.extractLsb' (8 * i) 8] else t) s

/-- `STATUS.CONFLICT <- 1` (spec/60_exceptions.md R289, R290). -/
def setConflict (s : State) : State := { s with status := { s.status with conflict := true } }

/-- Acceptance of a command word (spec/60_exceptions.md R284), with the number of host accesses that may land before it
completes (log 2). -/
def accept (w : Word) (s : State) : State :=
  { s with
    cmd := w
    status := { s.status with busy := true, done := false, err := false, errCode := .none }
    pending := some w
    busyFor := Config.duration s.draws
    draws := s.draws + 1 }

/-- A host write of `CMD` (R284, R289). -/
def writeCmd (w : Word) (s : State) : State := if s.status.busy then setConflict s else accept w s

/-- A host write of `CTRL` (spec/10_state.md R23): `IRQ_EN`, then a soft reset if that bit is 1 (log 17). -/
def writeCtrl (v : Word) (s : State) : State :=
  let t := { s with ctrl := v &&& regMask .ctrl }
  if v.toNat.testBit 1 then t.resetAgain else t

/-- A host write of a register (R76, R284, R289, R290); a reserved offset ignores it (R75). While a command runs every write but
one of `CTRL` or `STATUS` is ignored and sets `CONFLICT`, at a reserved offset too (log 16). -/
def writeReg (offset : Nat) (v : Word) (s : State) : State :=
  match regAt offset with
  | none => if s.status.busy then setConflict s else s
  | some .cmd => writeCmd v s
  | some .ctrl => writeCtrl v s
  | some .status => { s with status := statusWriteOneToClear s.status v }
  | some r => if s.status.busy then setConflict s else storeReg r v s

/-- A host write of RAM (R75, R290; log 16). -/
def writeRam (offset bytes : Nat) (v : Word) (s : State) : State :=
  if s.status.busy then setConflict s else storeRam offset bytes v s

/-- `MemWrite(offset, bytes, v)` (R72, R73): the state after it, or the host bus fault. -/
def busWrite (s : State) (offset bytes : Nat) (v : Word) : Except Fault State :=
  if accessLegal offset bytes then
    .ok (if offset < 0x10000 then writeReg offset v s else writeRam offset bytes v s)
  else .error .hostBus

/-- Record a bus response. -/
def respond (r : BusResponse) (s : State) : State := { s with outbox := s.outbox ++ [r] }

/-- One host operation. A `wait` is only met here when no command is pending, so it ends at once. -/
def hostOp (op : HostOp) (s : State) : State :=
  match op with
  | .read offset bytes =>
    match busRead s offset bytes with
    | .ok v => respond (.data v) s
    | .error _ => respond .fault s
  | .write offset bytes v =>
    match busWrite s offset bytes v with
    | .ok t => respond .done t
    | .error _ => respond .fault s
  | .wait => s
  | .hardReset => s.resetAgain

/-- The host's move: its next operation, or nothing (HCAE is idle, spec/70_reset_and_hazards.md R312). An operation that lands
while a command runs uses up one of the accesses that may. -/
def hostStep (s : State) : State :=
  match s.inbox with
  | [] => s
  | op :: rest => hostOp op { s with inbox := rest, busyFor := s.busyFor - 1 }

/-- The pending command completes now: no more accesses may land before it, or the host makes none (it waits, or has no
operation left). So a command's duration is finite (spec/70_reset_and_hazards.md R327). -/
def completesNow (s : State) : Bool :=
  match s.inbox with
  | [] => true
  | .wait :: _ => true
  | _ => s.busyFor == 0

/-- The completion of a word that is no command (spec/30_encoding.md R94). -/
def completeIllegal (s : State) : Host.Outcome State Fault Refusal := finish (.error .illegal 0 s)

/-- `s` with a word accepted and about to run. -/
def acceptNow (w : Word) (s : State) : State := { accept w s with busyFor := 0 }

end Sys2Proof.Machine
end

