-- ==== Sys2Proof/Machine/Step.lean ====
section
/-! DEFINITION. One step of the machine: the pending command's execution and completion, or one operation of the host. -/

namespace Sys2Proof.Machine

/-- One step (spec/60_exceptions.md R284, spec/20_memory.md R80): a pending command, when it completes now, is decoded, executed
and completed in one transition, an illegal word ending in the error `ILLEGAL`; otherwise the host moves. -/
def step (s : State) : Host.Outcome State Fault Refusal :=
  match s.pending with
  | none => .next (hostStep s)
  | some w =>
    if completesNow s then
      match decode? w with
      | some i => exec i s
      | none => completeIllegal s
    else .next (hostStep s)

/-- `s` with an instruction's word where the next step takes it: accepted as a host write of `CMD` would, and about to run
(log 1). The word's bits above `nbits` are 0. -/
def State.withFetchWord (s : State) (nbits w : Nat) : State := acceptNow (BitVec.ofNat 32 (w % 2 ^ nbits)) s

end Sys2Proof.Machine
end

