-- ==== Sys2Proof/Safety.lean ====
section
/-! DEFINITION. What holds in every state HCAE can be in, and the terms the claims use. -/

namespace Sys2Proof.Machine

/-! ### Invariants -/

/-- Every register's reserved bits are 0 (spec/10_state.md section 2). -/
def RegistersInFields (s : State) : Prop := ∀ r : Reg, regValue s r &&& regMask r = regValue s r

/-- The two key tables are inverse permutations of each other (spec/10_state.md R43). -/
def KeyTablesInverse (s : State) : Prop :=
  ∀ i : Nat, i < 256 →
    (s.byte (keyEncBase + (s.byte (keyDecBase + i)).toNat)).toNat = i
      ∧ (s.byte (keyDecBase + (s.byte (keyEncBase + i)).toNat)).toNat = i

/-- `pending` is empty when `STATUS.BUSY = 0` and a word when it is 1 (spec/10_state.md R61). -/
def PendingMatchesBusy (s : State) : Prop := s.pending.isSome = s.status.busy

/-- While a command runs `DONE` and `ERR` are clear, and `ERR` tells whether `ERR_CODE` is an error (spec/10_state.md R40). -/
def StatusConsistent (s : State) : Prop :=
  (s.status.busy = true → s.status.done = false ∧ s.status.err = false)
    ∧ (s.status.err = false ↔ s.status.errCode = .none)

/-- The tag of the key tables is one of the three schemes' (spec/10_state.md R32). -/
def KeyTypeLegal (s : State) : Prop := s.keyType = 0 ∨ s.keyType = 1 ∨ s.keyType = 56

/-! ### Elements of the RAM -/

/-- The 32-bit element at an offset (spec/20_memory.md R74). -/
def State.wordAt (s : State) (a : Nat) : Word := s.byte (a + 3) ++ s.byte (a + 2) ++ s.byte (a + 1) ++ s.byte a

/-- The 16-bit element at an offset (spec/20_memory.md R74). -/
def State.halfAt (s : State) (a : Nat) : Half := s.byte (a + 1) ++ s.byte a

/-- The number in the byte at an offset. -/
def State.numAt (s : State) (a : Nat) : Nat := (s.byte a).toNat

/-- The real value of a finite binary32 pattern (spec/00_scope.md R11). -/
def realOf (w : Word) : ℚ := (units w : ℚ) / 2 ^ 149

/-- `w` is `rnd32(v)` (spec/00_scope.md R11), up to the sign of a zero: the nearest finite value, of two equally near ones the
one with an even pattern, or the infinity of `v`'s sign from the midpoint past the largest finite value on. -/
def IsRnd32 (v : ℝ) (w : Word) : Prop :=
  (|v| < (2 ^ 25 - 1) * 2 ^ 103 ∧ isFinite w = true
      ∧ ∀ p : Word, isFinite p = true → |v - realOf w| ≤ |v - realOf p|
          ∧ (|v - realOf w| = |v - realOf p| → realOf p = realOf w ∨ magOf w % 2 = 0))
    ∨ ((2 ^ 25 - 1) * 2 ^ 103 ≤ |v| ∧ isInf w = true ∧ (signOf w = true ↔ v < 0))

/-- `w` is a result that `TRANSFORM_ARITH` admits for the exact value `v` of a sum over finite operands (spec/43_transform.md
R189): its rounding under `exact`; under another implementation a finite value of `v`'s sign, or zero, within the tolerance.
A `v` that rounds to an infinity gives that infinity in both (spec/43_transform.md R195; log 26). -/
def IsTransformResult (arith : TransformArith) (v : ℝ) (operands : List Word) (w : Word) : Prop :=
  match arith with
  | .exact => IsRnd32 v w
  | .implementation =>
    if (2 ^ 25 - 1) * 2 ^ 103 ≤ |v| then IsRnd32 v w
    else
      isFinite w = true ∧ (realOf w = 0 ∨ 0 < realOf w * v)
        ∧ ∀ m : ℝ, (∀ x ∈ operands, |(realOf x : ℝ)| ≤ m) → |realOf w - v| ≤ 2⁻¹ ^ 16 * (1 + |v| + m)

/-! ### The bitstream's sections -/

/-- The bits of delta-coded codes after `prev`, each with a flag that it is written raw after the escape
(spec/30_encoding.md R104, R106). -/
def deltaSectionBits (w raw : Nat) : Nat → List (Nat × Bool) → List Bool
  | _, [] => []
  | prev, (code, escaped) :: rest =>
    (if escaped then bitsOf w (2 ^ w - 1) ++ bitsOf raw code else bitsOf w (code + (2 ^ (w - 1) - 1) - prev))
      ++ deltaSectionBits w raw code rest

/-- Each code is at most `top`, and one that is not written raw differs from the one before by what a delta can say. -/
def DeltaSectionCodable (w top : Nat) : Nat → List (Nat × Bool) → Prop
  | _, [] => True
  | prev, (code, escaped) :: rest =>
    code ≤ top
      ∧ (escaped = false → prev ≤ code + (2 ^ (w - 1) - 1) ∧ code + (2 ^ (w - 1) - 1) - prev < 2 ^ w - 1)
      ∧ DeltaSectionCodable w top code rest

/-- PACK cannot code the value with number `n`, in the order of its checks (spec/44_bitstream.md R231): for each channel first
its intensity codes, then its coefficients by subframe and band. -/
def PackProblem (s : State) (n : Nat) : Prop :=
  let ch := n / 1025
  let b := (n % 1025 - 1) % 128
  ch < chCount s
    ∧ if n % 1025 = 0 then
        0x0300 ≤ version s ∧ role s ch = .stereoSecondary ∧ (∃ k, k < 8 ∧ s.numAt (slotAddr ch .intensity k) ≠ 7)
          ∧ s.numAt (slotAddr ch .intensity 0) = 15
      else
        b < coded s ch
          ∧ coefInRange ((resolutions s (noiseOf s) (evalOf s) ch (s.nums (slotAddr ch .sf 0) 128)).getD b 0)
            (s.halfAt (slotAddr ch .qspec (2 * (n % 1025 - 1)))).toInt = false

/-- `ERR_INFO` of that value's CODE_RANGE: kind, channel, subframe and band in their fields (spec/60_exceptions.md R282). -/
def packProblemInfo (n : Nat) : Word :=
  let ch := BitVec.ofNat 4 (n / 1025)
  if n % 1025 = 0 then 3#4 ++ ch ++ 0#24
  else 5#4 ++ ch ++ 0#5 ++ BitVec.ofNat 3 ((n % 1025 - 1) / 128) ++ 0#9 ++ BitVec.ofNat 7 ((n % 1025 - 1) % 128)

/-! ### What a command leaves -/

/-- A command that has completed with a code and an `ERR_INFO` (spec/60_exceptions.md R283, R284). -/
def Completed (code : ErrCode) (info : Word) (t : State) : Prop :=
  t.pending = none ∧ t.status.busy = false ∧ t.status.done = true ∧ t.status.err = (code != .none)
    ∧ t.status.errCode = code ∧ t.errInfo = info

/-- The flags that only some commands write are as before (spec/10_state.md R63). -/
def FlagsKept (s t : State) : Prop :=
  t.status.valid = s.status.valid ∧ t.status.empty = s.status.empty ∧ t.status.crcOk = s.status.crcOk
    ∧ t.status.conflict = s.status.conflict

/-- Nothing but the places that the command's rule names has changed: every other byte of the aperture, every other register,
and what is not HCAE's. `STATUS` is for `Completed` and the flags. -/
def UnchangedOutside (i : Instr) (s t : State) : Prop :=
  (∀ a : Nat, writesByte i s a = false → t.byte a = s.byte a)
    ∧ (∀ r : Reg, r ≠ .status → writesReg i r = false → regValue t r = regValue s r)
    ∧ t.status.conflict = s.status.conflict
    ∧ t.epoch = s.epoch ∧ t.arith = s.arith ∧ t.inbox = s.inbox ∧ t.outbox = s.outbox

/-- The channel `c` is one that the command works on (spec/30_encoding.md R91). -/
def Selects (s : State) (ch : Nat) (allCh : Bool) (c : Nat) : Prop := if allCh = true then c < chCount s else c = ch

/-- The subframe `q` is one that the command works on (spec/30_encoding.md R91). -/
def SelectsSub (sub : Nat) (allSf : Bool) (q : Nat) : Prop := if allSf = true then q < 8 else q = sub

/-- The channel check passes (spec/30_encoding.md R92). -/
def ChannelOk (s : State) (ch : Nat) (allCh : Bool) : Prop := allCh = true ∨ ch < chCount s

/-- The commands that require `CFG_OK` (spec/10_state.md R30). -/
def requiresCfg : Instr → Bool
  | .unpack | .pack _ | .dequant _ _ | .hfrRecon _ _ | .istereo _ _ | .imdct _ _ _ _ | .mdct _ _ _ _ | .pcmOut _ _ _ _
  | .pcmIn _ _ _ _ | .decodeFrame => true
  | .nop | .resetOvl _ _ | .keygen0 | .keygen1 | .keygen56 | .decrypt | .encrypt | .crcCalc | .crcGen | .crcCheck => false

/-- The commands that require `FRAME_OK` (spec/10_state.md R30). -/
def requiresFrame : Instr → Bool
  | .decrypt | .encrypt | .crcGen | .crcCheck | .unpack | .pack _ | .decodeFrame => true
  | .nop | .resetOvl _ _ | .keygen0 | .keygen1 | .keygen56 | .crcCalc | .dequant _ _ | .hfrRecon _ _ | .istereo _ _
  | .imdct _ _ _ _ | .mdct _ _ _ _ | .pcmOut _ _ _ _ | .pcmIn _ _ _ _ => false

/-- Commands run one after another, each from the state the one before completed in. -/
def runCommands : List Instr → State → Option State
  | [], s => some s
  | i :: rest, s =>
    match exec i s with
    | .next t => runCommands rest t
    | .fault _ => none
    | .refused _ => none

end Sys2Proof.Machine
end

