-- ==== Sys2Proof/Certificates/Slice0/Obligations.lean ====
section
/-! DEFINITION. The statements for the provers. Each docstring names the rule it formalises; a clause that rests on a choice of
the model names its log entry. -/

section

open Sys2Proof Sys2Proof.Machine

/-! ### Encoding -/

/-- R90, R93, R94, R97: decoding the word of a well-formed command gives the command back, whatever its operands. -/
def Obligations.DecodeOfEncode : Prop := ∀ i : Instr, i.wellFormed = true → decode (encode i) = .ok i

/-- R90, R94, R95: a word that decodes holds a well-formed command and is that command's word: no bit of it is dropped. -/
def Obligations.EncodeOfDecode : Prop :=
  ∀ (w : Word) (i : Instr), decode w = .ok i → i.wellFormed = true ∧ encode i = w

/-- R94: at most one row matches a word; the row that matches is what the word decodes to; a word that matches no row ends in
the error ILLEGAL and changes nothing else; in particular a reserved bit, a field the form does not use, an unassigned `OP` or a
KEYGEN `ARG` other than 0, 1 and 56 makes a word illegal. -/
def Obligations.WordIsOneRowOrIllegal : Prop :=
  (∀ (w : Word) (r q : OpRow), r ∈ opcodeTable → q ∈ opcodeTable → w &&& formMask r.form = r.pattern →
      w &&& formMask q.form = q.pattern → r.pattern = q.pattern)
    ∧ (∀ (w : Word) (r : OpRow), r ∈ opcodeTable → w &&& formMask r.form = r.pattern → decode w = .ok (r.build w))
    ∧ (∀ w : Word, (∀ r ∈ opcodeTable, w &&& formMask r.form ≠ r.pattern) →
        decode? w = none
          ∧ ∀ s : State, s.pending = some w → completesNow s = true → step s = .next (raiseError .illegal 0 s))
    ∧ (∀ (w : Word) (i : Instr), decode? w = some i →
        wordField w 18 6 = 0
          ∧ (∃ r ∈ opcodeTable, opField w = opField r.pattern)
          ∧ (opField w = 2 → wordField w 24 8 = 0 ∨ wordField w 24 8 = 1 ∨ wordField w 24 8 = 56)
          ∧ (opField w ≠ 2 → wordField w 24 8 = 0)
          ∧ (dryField w = true → i = .pack true)
          ∧ (subField w ≠ 0 ∨ allSfField w = true → opField w = 0x22 ∨ (0x30 ≤ opField w ∧ opField w ≤ 0x33))
          ∧ (chField w ≠ 0 ∨ allChField w = true →
              opField w = 0x01 ∨ opField w = 0x20 ∨ opField w = 0x21 ∨ (0x30 ≤ opField w ∧ opField w ≤ 0x33)))

/-- R97, R98: words written out from the encoding, one of each form and the rule's own examples. -/
def Obligations.WrittenWordsDecode : Prop :=
  decode 0x00000000#32 = .ok .nop ∧ decode 0x00008001#32 = .ok (.resetOvl 0 true)
    ∧ decode 0x38000002#32 = .ok .keygen56 ∧ decode 0x00000003#32 = .ok .decrypt ∧ decode 0x00000007#32 = .ok .crcCheck
    ∧ decode 0x00020011#32 = .ok (.pack true) ∧ decode 0x00000320#32 = .ok (.dequant 3 false)
    ∧ decode 0x00003022#32 = .ok (.istereo 3 false) ∧ decode 0x00010130#32 = .ok (.imdct 1 false 0 true)
    ∧ decode 0x00000040#32 = .ok .decodeFrame

/-! ### The step -/

/-- R284, R80: when the pending command completes, the step is its execution. -/
def Obligations.StepRunsDecodedCommand : Prop :=
  ∀ (s : State) (w : Word) (i : Instr), s.pending = some w → completesNow s = true → decode? w = some i →
    step s = exec i s

/-- R327, R293: a running command completes, or a reset abandons it, after finitely many steps: no more than the host operations
still queued, and no more than the accesses that may land while it runs (log 2). -/
def Obligations.EveryCommandEnds : Prop :=
  ∀ (s : State) (w : Word), s.pending = some w → s.status.busy = true →
    ∃ (n : Nat) (t : State), n ≤ s.inbox.length + 1 ∧ n ≤ s.busyFor + 1 ∧ Sys2Proof.core.run n s = .next t
      ∧ t.pending = none ∧ t.status.busy = false

/-- R284, R281, R234, R271: what completion leaves, for every command and outcome, and the errors each command can end with.
That a completion
without error leaves `ERR` and `ERR_CODE` 0 even in states no run reaches is the model's choice (log 20). -/
def Obligations.CompletionProtocol : Prop :=
  ∀ (i : Instr) (s t : State), exec i s = .next t →
    t.pending = none ∧ t.status.busy = false ∧ t.status.done = true ∧ t.cmd = s.cmd ∧ t.ctrl = s.ctrl
      ∧ (t.status.err = false → t.errInfo = 0 ∧ t.status.errCode = .none)
      ∧ (t.status.err = true → t.status.errCode ≠ .none)
      ∧ match i with
        | .nop | .resetOvl _ _ | .keygen0 | .keygen1 | .keygen56 | .crcCalc => t.status.errCode = .none
        | .decrypt | .encrypt | .crcGen | .crcCheck | .istereo _ _ => t.status.errCode ∈ [.none, .badConfig]
        | .dequant _ _ | .imdct _ _ _ _ | .mdct _ _ _ _ | .pcmOut _ _ _ _ | .pcmIn _ _ _ _ =>
          t.status.errCode ∈ [.none, .badConfig, .badChannel]
        | .hfrRecon _ _ => t.status.errCode ∈ [.none, .badConfig, .badChannel, .unsupported]
        | .unpack => t.status.errCode ∈ [.none, .badConfig, .sync, .sfRange, .intensityRange, .overrun]
        | .pack dry =>
          t.status.errCode ∈ [.none, .badConfig, .codeRange] ∨ (dry = false ∧ t.status.errCode = .frameFull)
        | .decodeFrame =>
          t.status.errCode ∈ [.none, .badConfig, .unsupported, .sync, .sfRange, .intensityRange, .overrun, .invalid]

/-! ### Frames -/

/-- R50, R87, R141, R153, R160, R171, R214, R216, R232, R250, R252, R255, R184, R186, R190, R191, R270: whatever a command ends
with, every byte and register its rule does not name, and what is not HCAE's, is as before. What a failed UNPACK leaves alone is
log 13's reading. -/
def Obligations.CommandsWriteOnlyTheirPlaces : Prop :=
  ∀ (i : Instr) (s t : State), i.wellFormed = true → exec i s = .next t → UnchangedOutside i s t

/-- R155, R63, R40: `VALID` and `EMPTY` are written by UNPACK, PACK and DECODE_FRAME only, `CRC_OK` by CRC_CHECK only, `CRC_VALUE`
by the CRC commands and a PACK that is not dry only; a command that ends with BAD_CONFIG writes none of them (log 14's reading
of R283 against R232). -/
def Obligations.FlagWriters : Prop :=
  ∀ (i : Instr) (s t : State), exec i s = .next t →
    (i ≠ .unpack → (∀ dry, i ≠ .pack dry) → i ≠ .decodeFrame →
        t.status.valid = s.status.valid ∧ t.status.empty = s.status.empty)
      ∧ (i ≠ .crcCheck → t.status.crcOk = s.status.crcOk)
      ∧ (i ≠ .crcCalc → i ≠ .crcGen → i ≠ .crcCheck → i ≠ .pack false → t.crcValue = s.crcValue)
      ∧ (t.status.errCode = .badConfig → FlagsKept s t ∧ t.crcValue = s.crcValue)

/-- R142: no command but RESET_OVL, IMDCT and DECODE_FRAME's IMDCT writes `IMDCT_CARRY`, none but RESET_OVL and MDCT writes
`MDCT_PREV`; a command that ends with an error changes neither; no register write, `CTRL`'s included, changes a byte of RAM, but
one that sets `SOFT_RESET`; a reset clears both. (The host may write both through their windows, R59, R60.) -/
def Obligations.OverlapBufferWriters : Prop :=
  (∀ (i : Instr) (s t : State) (ch n : Nat), i.wellFormed = true → exec i s = .next t → ch < 16 → n < 512 →
      ((∀ c a, i ≠ .resetOvl c a) → (∀ c a q f, i ≠ .imdct c a q f) → i ≠ .decodeFrame →
          t.byte (slotAddr ch .imdctCarry n) = s.byte (slotAddr ch .imdctCarry n))
        ∧ ((∀ c a, i ≠ .resetOvl c a) → (∀ c a q f, i ≠ .mdct c a q f) →
          t.byte (slotAddr ch .mdctPrev n) = s.byte (slotAddr ch .mdctPrev n))
        ∧ (t.status.err = true →
          t.byte (slotAddr ch .imdctCarry n) = s.byte (slotAddr ch .imdctCarry n)
            ∧ t.byte (slotAddr ch .mdctPrev n) = s.byte (slotAddr ch .mdctPrev n)))
    ∧ (∀ (s t : State) (offset : Nat) (v : Word) (a : Nat), offset < 0x10000 →
        ¬(offset = 0x0004 ∧ v.getLsbD 1 = true) → busWrite s offset 4 v = .ok t → t.byte a = s.byte a)
    ∧ (∀ (s : State) (ch n : Nat), ch < 16 → n < 512 →
        s.resetAgain.byte (slotAddr ch .imdctCarry n) = 0 ∧ s.resetAgain.byte (slotAddr ch .mdctPrev n) = 0)

/-! ### Invariants -/

/-- R43, R32: every step keeps the two key tables inverse permutations of each other and the tag one of the three. -/
def Obligations.StepKeepsKeyTables : Prop :=
  ∀ s t : State, KeyTablesInverse s → KeyTypeLegal s → step s = .next t → KeyTablesInverse t ∧ KeyTypeLegal t

/-- R71, R75: every step keeps memory in its canonical form (the model's, log 3): only RAM is listed, each byte with only the
bits stored there. -/
def Obligations.StepKeepsMemoryCanonical : Prop := ∀ s t : State, s.mem.wf → step s = .next t → t.mem.wf

/-- R23 to R40: every step keeps the reserved bits of every register 0 (with canonical memory, from which the resolutions and so
`BITPOS` come). -/
def Obligations.StepKeepsRegisterFields : Prop :=
  ∀ s t : State, s.mem.wf → RegistersInFields s → step s = .next t → RegistersInFields t

/-- R61, R40: every step keeps `pending` a word exactly while `BUSY = 1`, `DONE` and `ERR` clear while busy, and `ERR` the sign
of an error code. -/
def Obligations.StepKeepsStatusConsistent : Prop :=
  ∀ s t : State, PendingMatchesBusy s → StatusConsistent s → step s = .next t → PendingMatchesBusy t ∧ StatusConsistent t

/-- R310: the invariants hold at reset. -/
def Obligations.InvariantsAtReset : Prop :=
  State.reset.mem.wf ∧ RegistersInFields State.reset ∧ KeyTablesInverse State.reset ∧ KeyTypeLegal State.reset
    ∧ PendingMatchesBusy State.reset ∧ StatusConsistent State.reset

/-! ### The host's accesses -/

/-- R73, R72: an access at or above the aperture's end, with a width other than 4 or misaligned at a register, or with a width
other than 1, 2, 4 or misaligned in RAM is not performed: the host sees the bus fault and nothing else changes. -/
def Obligations.IllegalAccessNotPerformed : Prop :=
  ∀ (s : State) (offset n : Nat) (v : Word),
    (0x80000 ≤ offset ∨ (offset < 0x10000 ∧ (n ≠ 4 ∨ offset % 4 ≠ 0))
        ∨ (0x10000 ≤ offset ∧ ((n ≠ 1 ∧ n ≠ 2 ∧ n ≠ 4) ∨ offset % n ≠ 0))) →
      hostOp (.read offset n) s = { s with outbox := s.outbox ++ [.fault] }
        ∧ hostOp (.write offset n v) s = { s with outbox := s.outbox ++ [.fault] }

/-- R74, R75, R77: a host write of RAM that is wholly writable stores each byte of the value, little-endian, with the bits the
place holds; it reads back; no other byte and no register changes. -/
def Obligations.RamWriteReadsBack : Prop :=
  ∀ (s : State) (offset n : Nat) (v : Word), s.status.busy = false → s.pending = none → accessLegal offset n = true →
    0x10000 ≤ offset → (∀ i, i < n → hostWritable (offset + i) = true) →
      ∃ t, busWrite s offset n v = .ok t
        ∧ (∀ i, i < n → t.byte (offset + i) = v.extractLsb' (8 * i) 8 &&& cellMask (offset + i))
        ∧ (∀ a, a < offset ∨ offset + n ≤ a → t.byte a = s.byte a)
        ∧ (∀ r, regValue t r = regValue s r)
        ∧ busRead t offset n = .ok (bytesValue ((List.range n).map (fun i => t.byte (offset + i))))
        ∧ (n = 4 → busRead t offset n = .ok (t.wordAt offset))

/-- R75, R40: reserved offsets read 0 and ignore writes; the key tables, the dequantizer tables, `RES` and the read-only registers
ignore writes; a byte written to `SF`, `INTENSITY`, `HFR_SCALE` or `RES_CURVE` keeps only the bits of the element; a
write of `STATUS` clears `DONE` and `CONFLICT` where it has a 1 and changes no other field. No command runs here (R290 says what a
write does then). -/
def Obligations.ReservedAndReadOnlyPlaces : Prop :=
  ∀ s : State, s.mem.wf → s.status.busy = false → s.pending = none →
    (∀ offset, offset < 0x10000 → offset % 4 = 0 → regAt offset = none →
        busRead s offset 4 = .ok 0 ∧ ∀ v, busWrite s offset 4 v = .ok s)
      ∧ (∀ a, 0x10000 ≤ a → a < 0x80000 → regionOf a = .none → busRead s a 1 = .ok 0 ∧ ∀ v, busWrite s a 1 v = .ok s)
      ∧ (∀ a v, (0x20100 ≤ a ∧ a < 0x20300) ∨ (0x20400 ≤ a ∧ a < 0x20540)
          ∨ (0x40000 ≤ a ∧ a < 0x80000 ∧ 0x80 ≤ a % 0x4000 ∧ a % 0x4000 < 0x100) → busWrite s a 1 v = .ok s)
      ∧ (∀ offset v, offset ∈ [0x0000, 0x0010, 0x0030, 0x0040, 0x0048, 0x004C, 0x0050, 0x0058, 0x005C] →
          busWrite s offset 4 v = .ok s)
      ∧ (∀ v : Word, busWrite s 0x0008 4 v = .ok { s with status :=
          { s.status with done := s.status.done && !v.getLsbD 1, conflict := s.status.conflict && !v.getLsbD 6 } })
      ∧ (∀ ch i v, ch < 16 → i < 128 →
          ∃ t, busWrite s (slotAddr ch .sf i) 1 v = .ok t ∧ t.numAt (slotAddr ch .sf i) = v.toNat % 64)
      ∧ (∀ ch i v, ch < 16 → i < 8 →
          (∃ t, busWrite s (slotAddr ch .intensity i) 1 v = .ok t ∧ t.numAt (slotAddr ch .intensity i) = v.toNat % 16)
            ∧ ∃ t, busWrite s (slotAddr ch .hfrScale i) 1 v = .ok t ∧ t.numAt (slotAddr ch .hfrScale i) = v.toNat % 64)
      ∧ (∀ i v, i < 59 →
          ∃ t, busWrite s (resCurveBase + i) 1 v = .ok t ∧ t.numAt (resCurveBase + i) = v.toNat % 16)

/-- R24 to R28, R31, R35, R38, R29: a host write of a read-write register stores the bits of its fields, which read back; no other
register but `CFG_DERIVED` and no memory changes. `CFG_DERIVED` reads, at any time, `TOTAL` and `HFR_GROUPS` of what `CFG_BANDS`
holds, each in its field. -/
def Obligations.RegisterWriteReadsBack : Prop :=
  (∀ (s : State) (offset : Nat) (r : Reg) (v : Word), s.status.busy = false → s.pending = none → regAt offset = some r →
    r ∈ [.cfgStream, .cfgFrame, .cfgBands, .cfgRes, .cfgRoles, .keyLo, .keyHi, .frameHdr, .crcLen] →
      ∃ t, busWrite s offset 4 v = .ok t ∧ regValue t r = v &&& regMask r
        ∧ busRead t offset 4 = .ok (v &&& regMask r) ∧ t.mem = s.mem ∧ t.status = s.status
        ∧ ∀ q, q ≠ r → q ≠ .cfgDerived → regValue t q = regValue s q)
    ∧ ∀ (s : State) (b : Nat → Nat), (∀ j, b j = (s.cfgBands.extractLsb' (8 * j) 8).toNat) →
      ∃ w : Word, busRead s 0x0030 4 = .ok w ∧ (w.extractLsb' 0 10).toNat = b 0 + b 1 + b 2
        ∧ (w.extractLsb' 16 8).toNat = (if b 3 = 0 then 0 else ⌈(b 2 : ℚ) / b 3⌉₊) ∧ w &&& 0x00FF03FF = w

/-- R284, R33: a word written to `CMD` while idle is accepted: `CMD`, `pending`, `BUSY`, `DONE`, `ERR` and `ERR_CODE` as the rule
says, and nothing else of HCAE's state. -/
def Obligations.CommandAcceptance : Prop :=
  ∀ (s : State) (w : Word), s.status.busy = false →
    ∃ t, busWrite s 0x000C 4 w = .ok t ∧ t.cmd = w ∧ t.pending = some w ∧ t.status.busy = true ∧ t.status.done = false
      ∧ t.status.err = false ∧ t.status.errCode = .none ∧ FlagsKept s t ∧ t.mem = s.mem ∧ t.epoch = s.epoch
      ∧ ∀ r, r ≠ .status → r ≠ .cmd → regValue t r = regValue s r

/-- R289, R290: while busy a write to `CMD` is ignored, no command is queued and `CONFLICT` is set; a legal write anywhere but at
`CTRL` and `STATUS` only sets `CONFLICT` (at a read-only place or a reserved offset too: log 16's reading); a write to `STATUS`
clears what it clears; a write to `CTRL` that is no soft reset sets `IRQ_EN`. -/
def Obligations.BusyWritesRefused : Prop :=
  ∀ s : State, s.status.busy = true →
    (∀ w : Word, busWrite s 0x000C 4 w = .ok { s with status := { s.status with conflict := true } })
      ∧ (∀ offset n v, accessLegal offset n = true → offset ≠ 0x0004 → offset ≠ 0x0008 →
        busWrite s offset n v = .ok { s with status := { s.status with conflict := true } })
      ∧ (∀ v : Word, busWrite s 0x0008 4 v = .ok { s with status :=
          { s.status with done := s.status.done && !v.getLsbD 1, conflict := s.status.conflict && !v.getLsbD 6 } })
      ∧ (∀ v : Word, v.getLsbD 1 = false → busWrite s 0x0004 4 v = .ok { s with ctrl := v &&& 1 })

/-- R80, R290: what a host reads, while a command runs, of a byte or register that the command does not write is its value, and
`ID`, `CTRL`, `STATUS`, `CMD` and the configuration registers always read their values. An illegal word and a command that its
checks or PACK's data errors stop write nothing but `ERR_INFO`, and a DECODE_FRAME that ends with an error writes UNPACK's places
only (log 15's reading of R290's "may write"). Once the
command has completed every place reads its value, and what it did not write is as before. A read changes nothing, so a second
read finds what the first did. -/
def Obligations.BusyReadOfOtherPlaces : Prop :=
  (∀ (s : State) (w : Word) (i : Instr), s.pending = some w → decode? w = some i →
      (∀ a, writesByte i s a = false → readByte s a = s.byte a)
        ∧ (∀ offset r, regAt offset = some r → writesReg i r = false → readReg s offset = regValue s r)
        ∧ ∀ t, exec i s = .next t →
          (t.status.errCode ∈ [.badConfig, .badChannel, .unsupported, .codeRange, .frameFull] →
              (∀ a, readByte s a = s.byte a)
                ∧ ∀ offset r, regAt offset = some r → r ≠ .errInfo → readReg s offset = regValue s r)
            ∧ (i = .decodeFrame → t.status.err = true → ∀ a, writesByte .unpack s a = false → readByte s a = s.byte a))
    ∧ (∀ (s : State) (w : Word), s.pending = some w → decode? w = none →
        (∀ a, readByte s a = s.byte a) ∧ ∀ offset r, regAt offset = some r → r ≠ .errInfo → readReg s offset = regValue s r)
    ∧ (∀ (s : State) (offset : Nat) (r : Reg), regAt offset = some r →
        r ∈ [.id, .ctrl, .status, .cmd, .cfgStream, .cfgFrame, .cfgBands, .cfgRes, .cfgDerived, .cfgRoles, .keyLo,
            .keyHi, .crcLen] →
          readReg s offset = regValue s r)
    ∧ (∀ (s t : State) (w : Word), s.pending = some w → completesNow s = true → step s = .next t →
        (∀ a, readByte t a = t.byte a) ∧ (∀ offset r, regAt offset = some r → readReg t offset = regValue t r)
          ∧ ∀ i a, i.wellFormed = true → decode? w = some i → writesByte i s a = false → t.byte a = s.byte a)
    ∧ ∀ (s : State) (o n offset m : Nat), busRead (hostOp (.read o n) s) offset m = busRead s offset m

/-- R287: the interrupt output is `IRQ_EN and DONE`; a completion raises it when enabled; acceptance, a 1 written to `DONE`,
clearing `IRQ_EN` and reset lower it; setting `IRQ_EN` while done raises it; `CONFLICT` does not matter. -/
def Obligations.InterruptOutput : Prop :=
  (∀ s : State, irq s = (s.ctrl.getLsbD 0 && s.status.done))
    ∧ (∀ (i : Instr) (s t : State), exec i s = .next t → irq t = s.ctrl.getLsbD 0)
    ∧ (∀ (s t : State) (w : Word), s.status.busy = false → busWrite s 0x000C 4 w = .ok t → irq t = false)
    ∧ (∀ (s t : State) (v : Word), busWrite s 0x0008 4 v = .ok t → irq t = (irq s && !v.getLsbD 1))
    ∧ (∀ (s t : State) (v : Word), busWrite s 0x0004 4 v = .ok t → irq t = (v.getLsbD 0 && !v.getLsbD 1 && s.status.done))
    ∧ (∀ s : State, irq s.resetAgain = false)
    ∧ (∀ s : State, irq (setConflict s) = irq s)

/-- R311: a 1 written to `SOFT_RESET` resets at once, busy or not: no command is left, `DONE` does not rise and the interrupt is
low. That `IRQ_EN` is 0 afterwards even if the same write sets it is log 17's reading. -/
def Obligations.SoftReset : Prop :=
  ∀ (s : State) (v : Word), v.getLsbD 1 = true →
    ∃ t, busWrite s 0x0004 4 v = .ok t ∧ t = hostOp .hardReset s ∧ t.pending = none ∧ t.status.busy = false
      ∧ t.status.done = false ∧ irq t = false

/-- R310: the state that reset leaves, from any state: the registers, no command, the interrupt low, the key tables the identity,
the tables at their contents, both overlap buffers +0.0, and every other RAM byte a value of its element's type. -/
def Obligations.HardwareReset : Prop :=
  ∀ s t : State, t = hostOp .hardReset s ∨ t = State.reset →
    (∀ r, regValue t r = if r = .id then 0x48434507 else if r = .cfgRes then 0x000000F0 else 0)
      ∧ t.pending = none ∧ irq t = false
      ∧ (∀ i, i < 256 → t.numAt (keyDecBase + i) = i ∧ t.numAt (keyEncBase + i) = i)
      ∧ (∀ i, i < 64 → t.wordAt (0x20400 + 4 * i) = deqScale i) ∧ (∀ i, i < 16 → t.wordAt (0x20500 + 4 * i) = deqRange i)
      ∧ (∀ i, i < 59 → t.byte (resCurveBase + i) = (Config.resCurveInit i).setWidth 8)
      ∧ (∀ i, i < 256 → t.wordAt (winBase + 4 * i) = winInit i)
      ∧ (∀ i, i < 16 → t.wordAt (intRatioBase + 4 * i) = intRatioInit i)
      ∧ (∀ i, i < 128 → t.wordAt (hfrRatioBase + 4 * i) = hfrRatioInit i)
      ∧ (∀ ch n, ch < 16 → n < 128 →
          t.wordAt (slotAddr ch .imdctCarry (4 * n)) = 0 ∧ t.wordAt (slotAddr ch .mdctPrev (4 * n)) = 0)
      ∧ (∀ a, cellMask a ≠ 0 → t.byte a &&& cellMask a = t.byte a)

/-- R313: after reset `CFG_OK` and `FRAME_OK` fail; the commands that require neither work at once and every other command ends
with BAD_CONFIG. -/
def Obligations.CommandsAfterReset : Prop :=
  ∀ s : State, s = State.reset ∨ (∃ u : State, s = u.resetAgain) →
    chCount s = 0 ∧ frameBytes s = 0 ∧ cfgOk s = false ∧ frameOk s = false
      ∧ ∀ i : Instr, ∃ t, exec i s = .next t
        ∧ t.status.errCode =
          match i with
          | .nop | .resetOvl _ _ | .keygen0 | .keygen1 | .keygen56 | .crcCalc => .none
          | _ => .badConfig

/-! ### Checks before execution -/

/-- R30: what `CFG_OK` and `FRAME_OK` mean; a command that requires one that does not hold ends with BAD_CONFIG before
it changes any state (`STATUS.VALID` too, for PACK: log 14's reading of R283 against R232). -/
def Obligations.ConfigurationLegality : Prop :=
  (∀ s : State, cfgOk s = true ↔
      1 ≤ chCount s ∧ chCount s ≤ 16 ∧ totalBands s ≤ 128 ∧ hfrGroups s ≤ 8 ∧ minRes s ≤ maxRes s
        ∧ ∀ ch, ch < chCount s →
          role s ch ≠ .reserved
            ∧ (role s ch = .stereoPrimary → ch + 1 < chCount s ∧ role s (ch + 1) = .stereoSecondary)
            ∧ (role s ch = .stereoSecondary → 1 ≤ ch ∧ role s (ch - 1) = .stereoPrimary))
    ∧ (∀ s : State, frameOk s = true ↔ 6 ≤ frameBytes s)
    ∧ (∀ (i : Instr) (s : State),
        (requiresCfg i = true ∧ cfgOk s = false) ∨ (requiresFrame i = true ∧ frameOk s = false) →
          exec i s = .next (raiseError .badConfig 0 s))

/-- R92: a per-channel command with `ALLCH = 0` and `CH >= CH_COUNT` ends with BAD_CHANNEL before it changes any state;
RESET_OVL accepts every slot. R254, R270: with HFR groups at version 0x0300 or later HFR_RECON and DECODE_FRAME end with
UNSUPPORTED and change nothing. -/
def Obligations.ChannelAndVersionChecks : Prop :=
  (∀ (s : State) (ch sub : Nat) (allSf : Bool), ch < 16 → chCount s ≤ ch →
    (cfgOk s = true → ∀ i ∈ [Instr.dequant ch false, .hfrRecon ch false, .imdct ch false sub allSf, .mdct ch false sub allSf,
        .pcmOut ch false sub allSf, .pcmIn ch false sub allSf], exec i s = .next (raiseError .badChannel 0 s))
      ∧ ∃ t, exec (.resetOvl ch false) s = .next t ∧ Completed .none 0 t)
    ∧ ∀ (s : State) (ch : Nat) (allCh : Bool), cfgOk s = true → 0 < hfrGroups s → 0x0300 ≤ version s →
      (ChannelOk s ch allCh → exec (.hfrRecon ch allCh) s = .next (raiseError .unsupported 0 s))
        ∧ (frameOk s = true → exec .decodeFrame s = .next (raiseError .unsupported 0 s))

/-! ### Control -/

/-- R140: NOP changes nothing but the completion fields. R141: RESET_OVL completes in every configuration, with both overlap
buffers of its slots +0.0 and nothing else changed. -/
def Obligations.NopAndResetOvlComplete : Prop :=
  (∀ s : State, ∃ t, exec .nop s = .next t ∧ Completed .none 0 t ∧ FlagsKept s t ∧ t.mem = s.mem
    ∧ (∀ r, r ≠ .status → r ≠ .errInfo → regValue t r = regValue s r))
    ∧ ∀ (s : State) (ch : Nat) (allCh : Bool), ch < 16 →
      ∃ t, exec (.resetOvl ch allCh) s = .next t ∧ Completed .none 0 t ∧ FlagsKept s t
        ∧ UnchangedOutside (.resetOvl ch allCh) s t
        ∧ ∀ c, (if allCh = true then c < 16 else c = ch) → ∀ n, n < 128 →
            t.wordAt (slotAddr c .imdctCarry (4 * n)) = 0 ∧ t.wordAt (slotAddr c .mdctPrev (4 * n)) = 0

/-! ### Cipher -/

/-- R160, R162, R164, R170, R32: each KEYGEN completes with its decryption table, the inverse table and its tag, and changes
nothing else. -/
def Obligations.KeygenBuildsTables : Prop :=
  ∀ (s : State) (i : Instr) (d : List Nat) (tag : Word),
    (i = .keygen0 ∧ d = List.range 256 ∧ tag = 0) ∨ (i = .keygen1 ∧ d = type1Table ∧ tag = 1)
        ∨ (i = .keygen56 ∧ d = type56Table (keyOf s) ∧ tag = 56) →
      ∃ t, exec i s = .next t ∧ Completed .none 0 t ∧ FlagsKept s t ∧ UnchangedOutside i s t ∧ t.keyType = tag
        ∧ ∀ j, j < 256 → t.numAt (keyDecBase + j) = d.getD j 0 ∧ t.numAt (keyEncBase + d.getD j 0) = j

/-- R163, R168, R169, R165: every table a scheme builds is a permutation of 0 to 255 that fixes 0 and 255, for every key; keys 0
and 1 build the same one. -/
def Obligations.TablesArePermutations : Prop :=
  type1Table.Perm (List.range 256) ∧ type1Table.getD 0 1 = 0 ∧ type1Table.getD 255 0 = 255
    ∧ (∀ key : Nat, (type56Table key).Perm (List.range 256) ∧ (type56Table key).getD 0 1 = 0
        ∧ (type56Table key).getD 255 0 = 255)
    ∧ type56Table 0 = type56Table 1

/-- R171, R172: DECRYPT and ENCRYPT replace every byte of the frame by its image under their table and change nothing else. -/
def Obligations.SubstitutionOfFrame : Prop :=
  ∀ (s : State) (i : Instr) (table : Nat), frameOk s = true →
    (i = .decrypt ∧ table = keyDecBase) ∨ (i = .encrypt ∧ table = keyEncBase) →
      ∃ t, exec i s = .next t ∧ Completed .none 0 t ∧ FlagsKept s t ∧ UnchangedOutside i s t
        ∧ ∀ j, j < frameBytes s → t.byte (frameBufBase + j) = s.byte (table + s.numAt (frameBufBase + j))

/-- R172: ENCRYPT then DECRYPT, and DECRYPT then ENCRYPT, leave every byte of the aperture as it was. -/
def Obligations.EncryptDecryptInverse : Prop :=
  ∀ s : State, KeyTablesInverse s → frameOk s = true →
    (∃ t u, exec .encrypt s = .next t ∧ exec .decrypt t = .next u ∧ ∀ a, u.byte a = s.byte a)
      ∧ ∃ t u, exec .decrypt s = .next t ∧ exec .encrypt t = .next u ∧ ∀ a, u.byte a = s.byte a

/-! ### CRC -/

/-- R151: a sequence followed by its CRC, high byte first, has CRC 0, and no other two bytes give it. -/
def Obligations.CrcResidue : Prop :=
  ∀ (m : List Byte) (x : Half), crc16 (m ++ crcBytes x) = 0 ↔ x = crc16 m

/-- R152, R153: CRC_CALC covers `CRC_LEN` bytes and writes only `CRC_VALUE`; CRC_GEN covers the frame's bytes before the trailing
two and writes the CRC there, high byte first, and to `CRC_VALUE`. -/
def Obligations.CrcOfFrameBuffer : Prop :=
  ∀ s : State,
    (∃ t, exec .crcCalc s = .next t ∧ Completed .none 0 t ∧ FlagsKept s t ∧ UnchangedOutside .crcCalc s t
        ∧ t.crcValue = (crc16 ((List.range (crcLenOf s)).map (fun j => s.byte (frameBufBase + j)))).setWidth 32)
      ∧ (frameOk s = true → ∃ t c, exec .crcGen s = .next t ∧ Completed .none 0 t ∧ FlagsKept s t
          ∧ UnchangedOutside .crcGen s t
          ∧ c = crc16 ((List.range (frameBytes s - 2)).map (fun j => s.byte (frameBufBase + j)))
          ∧ t.crcValue = c.setWidth 32 ∧ t.byte (frameBufBase + (frameBytes s - 2)) = c.extractLsb' 8 8
          ∧ t.byte (frameBufBase + (frameBytes s - 1)) = c.extractLsb' 0 8)

/-- R154, R151: CRC_CHECK reports a mismatch in `CRC_OK` and not as an error; `CRC_OK = 1` exactly when the CRC of all the
frame's bytes is 0; the frame is unchanged. -/
def Obligations.CrcCheckReports : Prop :=
  ∀ s : State, frameOk s = true →
    ∃ t, exec .crcCheck s = .next t ∧ Completed .none 0 t ∧ UnchangedOutside .crcCheck s t
      ∧ t.status.valid = s.status.valid ∧ t.status.empty = s.status.empty
      ∧ t.crcValue = (crc16 ((List.range (frameBytes s - 2)).map (fun j => s.byte (frameBufBase + j)))).setWidth 32
      ∧ (t.status.crcOk = true ↔ crc16 ((List.range (frameBytes s)).map (fun j => s.byte (frameBufBase + j))) = 0)

/-! ### The bitstream -/

/-- R227: for every delta width 1 to 6 and every sequence of scale factors, reading what was written gives the sequence back, and
what was written has the length that R226's cost says. -/
def Obligations.ScaleFactorRoundTrip : Prop :=
  ∀ (d : Nat) (f : List Nat) (pos : Nat) (rest : List Bool), 1 ≤ d → d ≤ 6 → f ≠ [] → f.length ≤ 128 →
    (∀ x ∈ f, x < 64) →
      (sfBits d f).length = sfCost d f
        ∧ readScaleFactors f.length ⟨pos, sfBits d f ++ rest⟩ = .ok ((d, padBands f), ⟨pos + sfCost d f, rest⟩)

/-- R106, R210: the intensity section at every version and in every form: eight raw codes below version 0x0300; from it on the
code 15 for eight codes 7, selector 3 for raw codes, selectors 0 to 2 for delta codes of `q + 1` bits with the escape to a raw
code; a delta whose sum leaves 0 to 15 is INTENSITY_RANGE at the delta field. -/
def Obligations.IntensityForms : Prop :=
  ∀ (ver pos : Nat) (rest : List Bool),
    (ver < 0x0300 → ∀ codes : List Nat, codes.length = 8 → (∀ x ∈ codes, x < 16) →
        readIntensity ver ⟨pos, codes.flatMap (bitsOf 4) ++ rest⟩ = .ok (codes, ⟨pos + 32, rest⟩))
      ∧ (0x0300 ≤ ver →
        readIntensity ver ⟨pos, bitsOf 4 15 ++ rest⟩ = .ok (List.replicate 8 7, ⟨pos + 4, rest⟩)
          ∧ ∀ i0 : Nat, i0 < 15 →
            (∀ codes : List Nat, codes.length = 7 → (∀ x ∈ codes, x < 16) →
                readIntensity ver ⟨pos, bitsOf 4 i0 ++ bitsOf 2 3 ++ codes.flatMap (bitsOf 4) ++ rest⟩
                  = .ok (i0 :: codes, ⟨pos + 34, rest⟩))
              ∧ ∀ (q : Nat) (fields : List (Nat × Bool)), q < 3 → DeltaSectionCodable (q + 1) 15 i0 fields →
                (fields.length = 7 →
                    readIntensity ver
                        ⟨pos, bitsOf 4 i0 ++ bitsOf 2 q ++ deltaSectionBits (q + 1) 4 i0 fields ++ rest⟩
                      = .ok (i0 :: fields.map Prod.fst,
                          ⟨pos + 6 + (deltaSectionBits (q + 1) 4 i0 fields).length, rest⟩))
                  ∧ ∀ u : Nat, fields.length < 7 → u < 2 ^ (q + 1) - 1 →
                    ((i0 :: fields.map Prod.fst).getLastD 0 + u < 2 ^ q - 1
                        ∨ 15 + (2 ^ q - 1) < (i0 :: fields.map Prod.fst).getLastD 0 + u) →
                      readIntensity ver
                          ⟨pos, bitsOf 4 i0 ++ bitsOf 2 q ++ deltaSectionBits (q + 1) 4 i0 fields ++ bitsOf (q + 1) u ++ rest⟩
                        = .error ⟨.intensityRange, pos + 6 + (deltaSectionBits (q + 1) 4 i0 fields).length⟩)

/-- R230, R212, R113: for every resolution and every value in its range, reading the value's code gives the value back and
consumes exactly the code, whatever follows it. -/
def Obligations.CoefficientRoundTrip : Prop :=
  ∀ (r : Nat) (v : Int) (pos : Nat) (rest : List Bool), r ≤ 15 → coefInRange r v = true →
    (coefBits r v).length = coefLength r v
      ∧ readCoef r ⟨pos, coefBits r v ++ rest⟩ = .ok (v, ⟨pos + coefLength r v, rest⟩)

/-- R226: the delta width PACK chooses is 0 exactly when every scale factor is 0, and else the cheapest of 1 to 6, the smaller
of equals. -/
def Obligations.DeltaWidthIsCheapest : Prop :=
  ∀ f : List Nat,
    (chooseDelta f = 0 ↔ ∀ x ∈ f, x = 0)
      ∧ ((∃ x ∈ f, x ≠ 0) → 1 ≤ chooseDelta f ∧ chooseDelta f ≤ 6
          ∧ ∀ d, 1 ≤ d → d ≤ 6 →
            sfCost (chooseDelta f) f ≤ sfCost d f ∧ (sfCost (chooseDelta f) f = sfCost d f → chooseDelta f ≤ d))

/-- R216, R209 to R213: an UNPACK whose reading of the frame meets no error completes with what was read in the arrays of the
channels below `CH_COUNT`, the header, the cursor, the delta-bits codes and the flags; nothing else changes. -/
def Obligations.UnpackStoresFrame : Prop :=
  ∀ (s : State) (f : Frame) (c : Cursor), cfgOk s = true → frameOk s = true →
    readFrame s (frameCursor s) = .ok (f, c) → s.mem.wf →
      ∃ t, exec .unpack s = .next t ∧ Completed .none 0 t ∧ UnchangedOutside .unpack s t
        ∧ t.status.crcOk = s.status.crcOk
        ∧ noiseOf t = f.noise ∧ evalOf t = f.eval
        ∧ t.bitPos.toNat = c.pos ∧ t.bitsLeft.toInt = (frameBits s : Int) - c.pos
        ∧ t.status.empty = f.side.all (fun x => x.dbits == 0)
        ∧ t.status.valid = validResult ((frameBits s : Int) - c.pos) t.status.empty f.noise
        ∧ (∀ ch, ch < 16 → deltaBits t ch = if ch < chCount s then (f.side.map SideInfo.dbits).getD ch 0 else 0)
        ∧ ∀ ch, ch < chCount s →
            (∀ b, b < 128 → t.numAt (slotAddr ch .sf b) = ((f.side.map SideInfo.sf).getD ch []).getD b 0)
            ∧ (∀ b, b < 128 → t.numAt (slotAddr ch .res b) =
                (resolutions s f.noise f.eval ch ((f.side.map SideInfo.sf).getD ch [])).getD b 0)
            ∧ (∀ k, k < 8 → t.numAt (slotAddr ch .intensity k) = ((f.side.map SideInfo.intensity).getD ch []).getD k 0)
            ∧ (∀ k, k < 8 → t.numAt (slotAddr ch .hfrScale k) = ((f.side.map SideInfo.hfr).getD ch []).getD k 0)
            ∧ (∀ q b, q < 8 → b < 128 → (t.halfAt (slotAddr ch .qspec (2 * (128 * q + b)))).toInt =
                ((f.coefs.getD q []).getD ch []).getD b 0)

/-- R201, R209, R213, R214, R281, R283: an UNPACK whose reading of the frame meets an error completes with that error, its
bit position in `ERR_INFO`, and `VALID = 0`, and changes nothing but UNPACK's outputs (log 13's reading). A frame that does not
start with 0xFF 0xFF is SYNC at position 0; a field that passes the frame's end is OVERRUN where its read starts; a scale-factor
delta whose sum leaves 0 to 63 is SF_RANGE at the delta field (INTENSITY_RANGE stands in IntensityForms). -/
def Obligations.UnpackErrors : Prop :=
  (∀ s : State, cfgOk s = true → frameOk s = true →
      (∀ e : BitError, readFrame s (frameCursor s) = .error e →
          e.code ∈ [.sync, .sfRange, .intensityRange, .overrun] ∧ e.pos ≤ frameBits s
            ∧ ∃ t, exec .unpack s = .next t ∧ Completed e.code (BitVec.ofNat 32 e.pos) t ∧ t.errInfo.toNat = e.pos
              ∧ t.status.valid = false ∧ t.status.crcOk = s.status.crcOk ∧ UnchangedOutside .unpack s t)
        ∧ (s.byte frameBufBase ≠ 0xFF ∨ s.byte (frameBufBase + 1) ≠ 0xFF →
          ∃ t, exec .unpack s = .next t ∧ Completed .sync 0 t ∧ t.status.valid = false ∧ t.status.crcOk = s.status.crcOk
            ∧ UnchangedOutside .unpack s t))
    ∧ (∀ (n : Nat) (c : Cursor) (e : BitError),
        readUint n c = .error e ↔ c.rest.length < n ∧ e = ⟨.overrun, c.pos⟩)
    ∧ ∀ (d n u pos : Nat) (f : List Nat) (rest : List Bool), 1 ≤ d → d ≤ 5 → f ≠ [] → (∀ x ∈ f, x < 64) → f.length < n →
        u < 2 ^ d - 1 →
        (f.getLastD 0 + u < 2 ^ (d - 1) - 1 ∨ 63 + (2 ^ (d - 1) - 1) < f.getLastD 0 + u) →
          readScaleFactors n ⟨pos, sfBits d f ++ bitsOf d u ++ rest⟩ = .error ⟨.sfRange, pos + sfCost d f⟩

/-- R217: what UNPACK writes is in range. -/
def Obligations.UnpackValuesInRange : Prop :=
  ∀ (s t : State), s.mem.wf → exec .unpack s = .next t → t.status.err = false → ∀ ch, ch < chCount s →
    (∀ b, b < 128 → t.numAt (slotAddr ch .sf b) ≤ 63 ∧ t.numAt (slotAddr ch .res b) ≤ 15)
      ∧ (∀ k, k < 8 → t.numAt (slotAddr ch .intensity k) ≤ 15 ∧ t.numAt (slotAddr ch .hfrScale k) ≤ 63)
      ∧ (∀ q b, q < 8 → b < 128 → coefInRange (t.numAt (slotAddr ch .res b))
          (t.halfAt (slotAddr ch .qspec (2 * (128 * q + b)))).toInt = true)

/-- R232, R233: a PACK whose values can be coded, and whose content fits unless it is dry, completes with the derived
resolutions, `BITPOS = L`, `BITS_LEFT`, the delta widths and the flags; if it is not dry the frame is the content, zero padding
and the CRC; nothing else changes. R231, R282: the first value it cannot code ends it with
CODE_RANGE and that value's `ERR_INFO`; content that does not fit ends a PACK that is not dry with FRAME_FULL and the length;
either only clears `VALID`. -/
def Obligations.PackOutcomes : Prop :=
  (∀ (s : State) (dry : Bool), s.mem.wf → cfgOk s = true → frameOk s = true → packCheck s (packChannels s) = none →
    (dry = true ∨ (contentLength s (packChannels s) + 7) / 8 ≤ frameBytes s - 2) →
      ∃ t, exec (.pack dry) s = .next t ∧ Completed .none 0 t ∧ UnchangedOutside (.pack dry) s t
        ∧ t.status.crcOk = s.status.crcOk
        ∧ t.bitPos.toNat = contentLength s (packChannels s)
        ∧ t.bitsLeft.toInt = (frameBits s : Int) - contentLength s (packChannels s)
        ∧ (t.status.empty = true ↔ ∀ ch, ch < chCount s → deltaBits t ch = 0)
        ∧ t.status.valid = (decide ((contentLength s (packChannels s) + 7) / 8 ≤ frameBytes s - 2)
            && validResult t.bitsLeft.toInt t.status.empty (noiseOf s))
        ∧ (∀ ch, ch < 16 → deltaBits t ch =
            if ch < chCount s then chooseDelta (s.nums (slotAddr ch .sf 0) (coded s ch)) else 0)
        ∧ (∀ ch b, ch < chCount s → b < 128 → t.numAt (slotAddr ch .res b) =
            (resolutions s (noiseOf s) (evalOf s) ch (s.nums (slotAddr ch .sf 0) 128)).getD b 0)
        ∧ (dry = false →
            t.crcValue = (crc16 ((List.range (frameBytes s - 2)).map (fun j => t.byte (frameBufBase + j)))).setWidth 32
              ∧ frameBitList t = contentBits s (packChannels s)
                ++ List.replicate (8 * (frameBytes s - 2) - contentLength s (packChannels s)) false
                ++ bytesToBits (crcBytes (t.crcValue.setWidth 16))))
    ∧ ∀ (s : State) (dry : Bool), cfgOk s = true → frameOk s = true →
      (∀ n, PackProblem s n → (∀ m, m < n → ¬PackProblem s m) →
          exec (.pack dry) s
            = .next (raiseError .codeRange (packProblemInfo n) { s with status := { s.status with valid := false } }))
        ∧ ((∀ n, ¬PackProblem s n) → dry = false →
            frameBytes s - 2 < (contentLength s (packChannels s) + 7) / 8 →
              exec (.pack dry) s
                = .next (raiseError .frameFull (BitVec.ofNat 32 (contentLength s (packChannels s)))
                    { s with status := { s.status with valid := false } }))

/-- R235: an UNPACK after a PACK that is not dry and met no error completes without error, restores what PACK read, agrees with
what PACK derived, and the frame's CRC checks. -/
def Obligations.PackUnpackRoundTrip : Prop :=
  ∀ s t : State, s.mem.wf → RegistersInFields s → exec (.pack false) s = .next t → t.status.err = false →
    ∃ u v, exec .unpack t = .next u ∧ u.status.err = false
      ∧ u.frameHdr = s.frameHdr
      ∧ (∀ ch b, ch < chCount s → b < 128 →
          u.numAt (slotAddr ch .sf b) = (if b < coded s ch then s.numAt (slotAddr ch .sf b) else 0)
            ∧ u.numAt (slotAddr ch .res b) = t.numAt (slotAddr ch .res b))
      ∧ (∀ ch k, ch < chCount s → k < 8 → role s ch = .stereoSecondary →
          u.numAt (slotAddr ch .intensity k) = s.numAt (slotAddr ch .intensity k))
      ∧ (∀ ch k, ch < chCount s → k < 8 → u.numAt (slotAddr ch .hfrScale k) =
          if role s ch ≠ .stereoSecondary ∧ version s < 0x0300 ∧ k < hfrGroups s then s.numAt (slotAddr ch .hfrScale k)
          else 0)
      ∧ (∀ ch q b, ch < chCount s → q < 8 → b < 128 → u.halfAt (slotAddr ch .qspec (2 * (128 * q + b))) =
          if b < coded s ch then s.halfAt (slotAddr ch .qspec (2 * (128 * q + b))) else 0)
      ∧ u.deltaBits0 = t.deltaBits0 ∧ u.deltaBits1 = t.deltaBits1 ∧ u.bitPos = t.bitPos ∧ u.bitsLeft = t.bitsLeft
      ∧ u.status.empty = t.status.empty ∧ u.status.valid = t.status.valid
      ∧ exec .crcCheck u = .next v ∧ v.status.crcOk = true

/-! ### The spectral stages -/

/-- R250, R251: DEQUANT writes, for every band of every subframe of its channels, the product of the coefficient with the band's
factor, each rounded once; nothing else changes. -/
def Obligations.DequantScales : Prop :=
  ∀ (s : State) (ch : Nat) (allCh : Bool), cfgOk s = true → ChannelOk s ch allCh →
    ∃ t, exec (.dequant ch allCh) s = .next t ∧ Completed .none 0 t ∧ FlagsKept s t
      ∧ UnchangedOutside (.dequant ch allCh) s t
      ∧ ∀ c, Selects s ch allCh c → ∀ q b, q < 8 → b < 128 → ∀ x y : Word,
          t.wordAt (specAddr c q b) =
            mul32 x (i2f (s.halfAt (slotAddr c .qspec (2 * (128 * q + b)))).toInt)
              (mul32 y (deqScale (s.numAt (slotAddr c .sf b))) (deqRange (s.numAt (slotAddr c .res b))))

/-- R252: HFR_RECON changes nothing without HFR groups; else each band above the coded ones, up to `TOTAL`, takes its mirror band
scaled by the ratio of its group's code and the mirror's scale factor, bin 127 is zeroed, every other band, the ones past the
groups, past `TOTAL` or whose mirror would pass band 0 among them, keeps its value, and StereoSecondary channels are skipped. A
NaN product is some NaN (R11). -/
def Obligations.HfrMirrorsBands : Prop :=
  ∀ (s : State) (ch : Nat) (allCh : Bool), s.mem.wf → cfgOk s = true → ChannelOk s ch allCh →
    (0 < hfrGroups s → version s < 0x0300) →
      ∃ t, exec (.hfrRecon ch allCh) s = .next t ∧ Completed .none 0 t ∧ FlagsKept s t
        ∧ UnchangedOutside (.hfrRecon ch allCh) s t
        ∧ (hfrGroups s = 0 → ∀ a, t.byte a = s.byte a)
        ∧ ∀ c, Selects s ch allCh c → 0 < hfrGroups s →
            (role s c = .stereoSecondary → ∀ i, i < 4096 → t.byte (slotAddr c .spec i) = s.byte (slotAddr c .spec i))
            ∧ (role s c ≠ .stereoSecondary → ∀ q, q < 8 →
                t.wordAt (specAddr c q 127) = 0
                ∧ (∀ b, b < 127 →
                    b < baseBands s + stereoBands s ∨ baseBands s + stereoBands s + hfrGroups s * bandsPerGroup s ≤ b
                        ∨ totalBands s ≤ b ∨ 2 * (baseBands s + stereoBands s) ≤ b →
                      t.wordAt (specAddr c q b) = s.wordAt (specAddr c q b))
                ∧ ∀ j, j < hfrGroups s * bandsPerGroup s → baseBands s + stereoBands s + j < totalBands s →
                    j + 1 ≤ baseBands s + stereoBands s → baseBands s + stereoBands s + j ≠ 127 →
                    ∃ x : Word, t.wordAt (specAddr c q (baseBands s + stereoBands s + j)) =
                      mul32 x (s.wordAt (specAddr c q (baseBands s + stereoBands s - 1 - j)))
                        (s.wordAt (hfrRatioBase + 4 * (s.numAt (slotAddr c .hfrScale (j / bandsPerGroup s)) + 64
                          - s.numAt (slotAddr c .sf (baseBands s + stereoBands s - 1 - j))))))

/-- R255: ISTEREO rescales, in every pair and selected subframe, the primary's bands from `BASE` to `TOTAL - 1` by the ratio of
the secondary's code, and gives the secondary the primary's old value scaled by the ratio less 2; nothing else changes. -/
def Obligations.IstereoRescalesPairs : Prop :=
  ∀ (s : State) (sub : Nat) (allSf : Bool), s.mem.wf → cfgOk s = true → sub < 8 →
    ∃ t, exec (.istereo sub allSf) s = .next t ∧ Completed .none 0 t ∧ FlagsKept s t
      ∧ UnchangedOutside (.istereo sub allSf) s t
      ∧ ∀ p, p < chCount s → role s p = .stereoPrimary → ∀ q b, SelectsSub sub allSf q → baseBands s ≤ b →
          b < totalBands s →
            ∃ x y z : Word,
              t.wordAt (specAddr p q b) = mul32 x (s.wordAt (specAddr p q b))
                (s.wordAt (intRatioBase + 4 * s.numAt (slotAddr (p + 1) .intensity q)))
              ∧ t.wordAt (specAddr (p + 1) q b) = mul32 y (s.wordAt (specAddr p q b))
                (sub32 z (s.wordAt (intRatioBase + 4 * s.numAt (slotAddr (p + 1) .intensity q))) two32)

/-! ### The transform -/

/-- R180, R183: the folded sums of the model are the kernel's sums over all 2N samples, with the cosine's table: inverse and
forward. -/
def Obligations.FoldedKernel : Prop :=
  (∀ (x : List Int) (n : Nat), n < 256 →
      (foldSource n).2 * dctSum x (foldSource n).1 =
        (x.zipIdx.map (fun p => p.1 * cosUnit ((2 * n + 129) * (2 * p.2 + 1)))).sum)
    ∧ ∀ (z : List Int) (k : Nat), z.length = 256 → k < 128 →
        dctSum (foldForward z) k = (z.zipIdx.map (fun p => p.1 * cosUnit ((2 * p.2 + 129) * (2 * k + 1)))).sum

/-- R11: the rounding is to the nearest binary32 magnitude, ties to the even pattern, subnormals kept, and overflow from the
midpoint past the largest finite value on. -/
def Obligations.RoundsToNearestEven : Prop :=
  ∀ m k : Nat,
    roundUnits m k ≤ 0x7F800000
      ∧ (roundUnits m k = 0x7F800000 ↔ (2 ^ 25 - 1) * 2 ^ 252 * 2 ^ k ≤ m)
      ∧ (roundUnits m k < 0x7F800000 → ∀ p, p < 0x7F800000 →
          |(magUnits (BitVec.ofNat 32 (roundUnits m k)) * 2 ^ k : Int) - m| ≤ |(magUnits (BitVec.ofNat 32 p) * 2 ^ k : Int) - m|
            ∧ (|(magUnits (BitVec.ofNat 32 (roundUnits m k)) * 2 ^ k : Int) - m|
                  = |(magUnits (BitVec.ofNat 32 p) * 2 ^ k : Int) - m| →
                p = roundUnits m k ∨ roundUnits m k % 2 = 0))

/-- R180, R182, R183, R189, R195: over finite operands each element of the inverse and of the forward transform is a result that
`TRANSFORM_ARITH` admits for the exact real value of its sum: the value's rounding under `exact`, within the constraint under
another implementation (that an overflow is an infinity there too is log 26's reading). -/
def Obligations.ElementsAreRoundedSums : Prop :=
  ∀ (arith : TransformArith) (free : Nat → Word) (win a b : List Word), win.length = 256 → a.length = 128 → b.length = 128 →
    (∀ x ∈ win ++ a ++ b, isFinite x = true) →
      (∀ (n : Nat) (v : ℝ), n < 256 →
          v = 1 / 8 * realOf (win.getD n 0)
                * ∑ k ∈ Finset.range 128, realOf (a.getD k 0) * Real.cos (Real.pi / 128 * (n + 1 / 2 + 64) * (k + 1 / 2))
              + (if n < 128 then (realOf (b.getD n 0) : ℝ) else 0) →
            IsTransformResult arith v (if n < 128 then a ++ [b.getD n 0] else a) ((inverseBlock arith free win a b).getD n 0))
        ∧ ∀ (k : Nat) (v : ℝ), k < 128 →
          v = 1 / 8 * ∑ n ∈ Finset.range 256, realOf (win.getD n 0) * realOf ((a ++ b).getD n 0)
              * Real.cos (Real.pi / 128 * (n + 1 / 2 + 64) * (k + 1 / 2)) →
            IsTransformResult arith v (a ++ b) ((forwardBlock arith free win a b).getD k 0)

/-- R184, R182: IMDCT completes, and nothing outside its places changes; of one subframe it writes the block's output to `TBUF`
and the new carry to `IMDCT_CARRY`, each the element that the inverse transform gives from the spectrum, the window and the old
carry (all subframes are the eight one after another, R192). -/
def Obligations.ImdctTransformsBlock : Prop :=
  ∀ (s : State) (ch : Nat) (allCh : Bool) (sub : Nat) (allSf : Bool), cfgOk s = true → ChannelOk s ch allCh → sub < 8 →
    ∃ t, exec (.imdct ch allCh sub allSf) s = .next t ∧ Completed .none 0 t ∧ FlagsKept s t
      ∧ UnchangedOutside (.imdct ch allCh sub allSf) s t
      ∧ ∀ c, Selects s ch allCh c → allSf = false → ∃ free : Nat → Word, ∀ n, n < 128 →
          t.wordAt (tbufAddr c sub + 4 * n) =
            (inverseBlock s.arith free ((List.range 256).map (fun k => s.wordAt (winBase + 4 * k)))
              ((List.range 128).map (fun k => s.wordAt (specRowAddr c sub + 4 * k)))
              ((List.range 128).map (fun k => s.wordAt (slotAddr c .imdctCarry (4 * k))))).getD n 0
          ∧ t.wordAt (slotAddr c .imdctCarry (4 * n)) =
            (inverseBlock s.arith free ((List.range 256).map (fun k => s.wordAt (winBase + 4 * k)))
              ((List.range 128).map (fun k => s.wordAt (specRowAddr c sub + 4 * k)))
              ((List.range 128).map (fun k => s.wordAt (slotAddr c .imdctCarry (4 * k))))).getD (128 + n) 0

/-- R185: under the exact arithmetic (log 5), with a finite window and carry, IMDCT of a spectrum of zeros emits the old carry,
a zero carry as some zero, and leaves a zero carry. -/
def Obligations.ZeroSpectrumEmitsCarry : Prop :=
  ∀ (s : State) (ch sub : Nat), cfgOk s = true → ch < chCount s → sub < 8 → s.arith = .exact →
    (∀ k, k < 256 → isFinite (s.wordAt (winBase + 4 * k)) = true) →
    (∀ k, k < 128 → isFinite (s.wordAt (slotAddr ch .imdctCarry (4 * k))) = true) →
    (∀ k, k < 128 → magOf (s.wordAt (specRowAddr ch sub + 4 * k)) = 0) →
      ∃ t, exec (.imdct ch false sub false) s = .next t
        ∧ ∀ n, n < 128 →
          (magOf (s.wordAt (slotAddr ch .imdctCarry (4 * n))) ≠ 0 →
              t.wordAt (tbufAddr ch sub + 4 * n) = s.wordAt (slotAddr ch .imdctCarry (4 * n)))
          ∧ (magOf (s.wordAt (slotAddr ch .imdctCarry (4 * n))) = 0 → magOf (t.wordAt (tbufAddr ch sub + 4 * n)) = 0)
          ∧ magOf (t.wordAt (slotAddr ch .imdctCarry (4 * n))) = 0

/-- R186, R183: MDCT completes, and nothing outside its places changes; of one subframe it writes the forward transform of the
previous and the current samples to `SPEC`, and the current samples become the previous ones. -/
def Obligations.MdctTransformsBlock : Prop :=
  ∀ (s : State) (ch : Nat) (allCh : Bool) (sub : Nat) (allSf : Bool), cfgOk s = true → ChannelOk s ch allCh → sub < 8 →
    ∃ t, exec (.mdct ch allCh sub allSf) s = .next t ∧ Completed .none 0 t ∧ FlagsKept s t
      ∧ UnchangedOutside (.mdct ch allCh sub allSf) s t
      ∧ ∀ c, Selects s ch allCh c → allSf = false → ∃ free : Nat → Word, ∀ n, n < 128 →
          t.wordAt (slotAddr c .mdctPrev (4 * n)) = s.wordAt (tbufAddr c sub + 4 * n)
          ∧ t.wordAt (specRowAddr c sub + 4 * n) =
            (forwardBlock s.arith free ((List.range 256).map (fun k => s.wordAt (winBase + 4 * k)))
              ((List.range 128).map (fun k => s.wordAt (slotAddr c .mdctPrev (4 * k))))
              ((List.range 128).map (fun k => s.wordAt (tbufAddr c sub + 4 * k)))).getD n 0

/-- R192: the eight single-subframe commands of a channel in increasing order are the one command for all subframes, for IMDCT
and for MDCT: the same state, free values included (as log 24 keys them). -/
def Obligations.EightSubframesAreOneCommand : Prop :=
  ∀ (s : State) (ch : Nat), cfgOk s = true → ch < chCount s →
    (∃ t, exec (.imdct ch false 0 true) s = .next t
        ∧ runCommands ((List.range 8).map (fun q => .imdct ch false q false)) s = some t)
      ∧ ∃ t, exec (.mdct ch false 0 true) s = .next t
        ∧ runCommands ((List.range 8).map (fun q => .mdct ch false q false)) s = some t

/-- R190: PCM_OUT writes floor(v * 32768 + 1/2) of the exact value of each finite sample, clamped to 16 bits, and the clamps of
the infinities; nothing else changes. -/
def Obligations.PcmOutRounds : Prop :=
  ∀ (s : State) (ch : Nat) (allCh : Bool) (sub : Nat) (allSf : Bool), cfgOk s = true → ChannelOk s ch allCh → sub < 8 →
    ∃ t, exec (.pcmOut ch allCh sub allSf) s = .next t ∧ Completed .none 0 t ∧ FlagsKept s t
      ∧ UnchangedOutside (.pcmOut ch allCh sub allSf) s t
      ∧ ∀ c q n, Selects s ch allCh c → SelectsSub sub allSf q → n < 128 →
          (isFinite (s.wordAt (tbufAddr c q + 4 * n)) = true →
              (t.halfAt (pcmAddr c q + 2 * n)).toInt =
                clampInt ⌊realOf (s.wordAt (tbufAddr c q + 4 * n)) * 32768 + 1 / 2⌋ (-32768) 32767)
          ∧ (s.wordAt (tbufAddr c q + 4 * n) = 0x7F800000 → (t.halfAt (pcmAddr c q + 2 * n)).toInt = 32767)
          ∧ (s.wordAt (tbufAddr c q + 4 * n) = 0xFF800000 → (t.halfAt (pcmAddr c q + 2 * n)).toInt = -32768)

/-- R191: PCM_IN writes, for each sample q, the finite binary32 value that is exactly q / 32768, and nothing else changes; PCM_OUT
after it returns every PCM sample unchanged. -/
def Obligations.PcmInIsExact : Prop :=
  ∀ (s : State) (ch : Nat) (allCh : Bool) (sub : Nat) (allSf : Bool), cfgOk s = true → ChannelOk s ch allCh → sub < 8 →
    ∃ t, exec (.pcmIn ch allCh sub allSf) s = .next t ∧ Completed .none 0 t ∧ FlagsKept s t
      ∧ UnchangedOutside (.pcmIn ch allCh sub allSf) s t
      ∧ (∀ c q n, Selects s ch allCh c → SelectsSub sub allSf q → n < 128 →
          isFinite (t.wordAt (tbufAddr c q + 4 * n)) = true
            ∧ realOf (t.wordAt (tbufAddr c q + 4 * n)) = ((s.halfAt (pcmAddr c q + 2 * n)).toInt : ℚ) / 32768)
      ∧ ∃ u, exec (.pcmOut ch allCh sub allSf) t = .next u
        ∧ ∀ c i, c < 16 → i < 2048 → u.byte (slotAddr c .pcm i) = s.byte (slotAddr c .pcm i)

/-- R294, R192, R193: a command on one channel does not depend on another channel's arrays: from two states that agree
outside slot `d`, and in the counter of free values, it leaves states that agree outside slot `d` (that equal counters give both
runs the same free values is log 24's choice). -/
def Obligations.ChannelsDoNotInteract : Prop :=
  ∀ (s u : State) (ch d sub : Nat) (allSf : Bool), cfgOk s = true → ch < chCount s → ch ≠ d → d < 16 → sub < 8 →
    u = { s with mem := u.mem } →
    (∀ a, ¬(slotAddr d .sf 0 ≤ a ∧ a < slotAddr d .sf 0 + 0x4000) → u.byte a = s.byte a) →
      ∀ i ∈ [Instr.dequant ch false, .hfrRecon ch false, .imdct ch false sub allSf, .mdct ch false sub allSf,
          .pcmOut ch false sub allSf,
          .pcmIn ch false sub allSf],
        ∃ t v, exec i s = .next t ∧ exec i u = .next v
          ∧ ∀ a, ¬(slotAddr d .sf 0 ≤ a ∧ a < slotAddr d .sf 0 + 0x4000) → v.byte a = t.byte a

/-! ### DECODE_FRAME -/

/-- R270: when the frame unpacks without error and is valid, DECODE_FRAME leaves the state that UNPACK, DEQUANT, HFR_RECON,
ISTEREO, IMDCT and PCM_OUT over every channel and subframe leave one after another, free values included (as log 24 keys them). -/
def Obligations.DecodeFrameIsItsStages : Prop :=
  ∀ (s : State) (f : Frame) (c : Cursor), cfgOk s = true → frameOk s = true →
    (0 < hfrGroups s → version s < 0x0300) → readFrame s (frameCursor s) = .ok (f, c) →
    validResult ((frameBits s : Int) - c.pos) (f.side.all (fun x => x.dbits == 0)) f.noise = true →
      ∃ t, exec .decodeFrame s = .next t ∧ Completed .none 0 t ∧ UnchangedOutside .decodeFrame s t
        ∧ runCommands [.unpack, .dequant 0 true, .hfrRecon 0 true, .istereo 0 true, .imdct 0 true 0 true,
            .pcmOut 0 true 0 true] s = some t

/-- R271: a DECODE_FRAME that ends with an error leaves `SPEC`, `TBUF`, `PCM` and both overlap buffers as they were; an invalid
frame ends with INVALID, the position UNPACK reached and UNPACK's outputs. -/
def Obligations.FailedDecodeKeepsSignal : Prop :=
  (∀ s t : State, exec .decodeFrame s = .next t → t.status.err = true →
      ∀ ch array i, ch < 16 → i < slotArrayBytes array →
        (array = .spec ∨ array = .tbuf ∨ array = .pcm ∨ array = .imdctCarry ∨ array = .mdctPrev) →
          t.byte (slotAddr ch array i) = s.byte (slotAddr ch array i))
    ∧ ∀ (s : State) (f : Frame) (c : Cursor), cfgOk s = true → frameOk s = true →
        (0 < hfrGroups s → version s < 0x0300) → readFrame s (frameCursor s) = .ok (f, c) →
        validResult ((frameBits s : Int) - c.pos) (f.side.all (fun x => x.dbits == 0)) f.noise = false →
          ∃ t u, exec .decodeFrame s = .next t ∧ exec .unpack s = .next u ∧ Completed .invalid u.bitPos t
            ∧ t.status.valid = false ∧ t.status.empty = u.status.empty ∧ t.mem = u.mem
            ∧ ∀ r, r ≠ .status → r ≠ .errInfo → regValue t r = regValue u r

end
end

