-- ==== Sys2Proof/Laws/Cosines.lean ====
section
/-! SUPPORT. The stored cosines are right: each lies within one unit of `2^256` times the real cosine it stands for. The cosines of
`pi / 256` and `pi / 512` come from halving `pi / 2`, and those of the odd multiples of `pi / 512` from the recurrence
`cos ((m + 2) x) = 2 cos (2 x) cos (m x) - cos ((m - 2) x)`, in units of `2^-512`. -/

namespace Sys2Proof.Machine

/-! ### Halving -/

/-- `a` is at most two units below `S * x`. -/
def JustBelow (S a : Int) (x : ℝ) : Prop := (a : ℝ) ≤ S * x ∧ S * x ≤ a + 2

/-- From `2 cos t` to `2 cos (t/2)`, the square root of `2 + 2 cos t`. -/
theorem half_angle_step (S : Int) (hS : 0 < S) (t : ℝ) (ht0 : 0 ≤ t) (ht : t ≤ Real.pi) (a b : Int) (hb : 0 ≤ b)
    (ha : JustBelow S a (2 * Real.cos t)) (h1 : b ^ 2 ≤ S * (2 * S + a)) (h2 : S * (2 * S + a + 2) ≤ (b + 2) ^ 2) :
    JustBelow S b (2 * Real.cos (t / 2)) := by
  have hc : 0 ≤ Real.cos (t / 2) := Real.cos_nonneg_of_mem_Icc ⟨by linarith [Real.pi_pos], by linarith⟩
  have hsq : ((S : ℝ) * (2 * Real.cos (t / 2))) ^ 2 = S * (2 * S + S * (2 * Real.cos t)) := by
    have : Real.cos t = 2 * Real.cos (t / 2) ^ 2 - 1 := by rw [← Real.cos_two_mul]; congr 1; ring
    rw [this]; ring
  have hS' : (0 : ℝ) < S := by exact_mod_cast hS
  have h1' : (b : ℝ) ^ 2 ≤ S * (2 * S + a) := by exact_mod_cast h1
  have h2' : (S : ℝ) * (2 * S + a + 2) ≤ (b + 2) ^ 2 := by exact_mod_cast h2
  have hb' : (0 : ℝ) ≤ b := by exact_mod_cast hb
  refine ⟨?_, ?_⟩
  · refine le_of_sq_le_sq ?_ (by positivity)
    rw [hsq]; nlinarith [ha.1]
  · refine le_of_sq_le_sq ?_ (by positivity)
    rw [hsq]; nlinarith [ha.2]

/-- The unit of the check. -/
def cosScale : Int := 2 ^ 256 * 2 ^ 256

/-- `2 cos (pi / 4)`. -/
def halfAngle0 : Int :=
  0x16A09E667F3BCC908B2FB1366EA957D3E3ADEC17512775099DA2F590B0667322A95F90608757145875163FCDFB907B6721EE950BC8738F694F0090E6C7BF44ED1

/-- `2 cos (pi / 8)`. -/
def halfAngle1 : Int :=
  0x1D906BCF328D4628AFCC20463583AC301E1507A79A1B5D36BB712F84708106E8D4C68196CB89623AB63D807D2E7333191B192F469D5022648B9F3CDB52DA732B2

/-- `2 cos (pi / 16)`. -/
def halfAngle2 : Int :=
  0x1F6297CFF75CB02AC42E546C3FA54E45D8BE81C7FB1E315C36332E643691D163728F4A6E66A788B491AB62BD54B06D1DD55AF5C6381D7BB8104AA26D5CD441FF6

/-- `2 cos (pi / 32)`. -/
def halfAngle3 : Int :=
  0x1FD88DA3D125259E082721DFB8E4DD3DEB4592EDA32D46ACF64D0368D1DF746C341D3DCF50A4B1C8A90A44953054F90B41DEE02FD3573F089E1C4EF0987D3DD22

/-- `2 cos (pi / 64)`. -/
def halfAngle4 : Int :=
  0x1FF621E3796D7DE3A843D1DB55EB28A7B9EA7C97548064A16AEA0E014DBE4CA4837EB1ED521AA41AB529FF208D869A9C716FF42B91C80746152C268D8D64A4F8C

/-- `2 cos (pi / 128)`. -/
def halfAngle5 : Int :=
  0x1FFD886084CD0CBB2ACAEAA46CD2C2E64AD1F6D2504305E65DEDE61B51FC60FD156BB834832F0AEC96E0FE42333FD24122C2F9A51C03227E17FF0F1332410BDDA

/-- `2 cos (pi / 256)`. -/
def halfAngle6 : Int :=
  0x1FFF62169B92DB57768F207EF433F1DC3FF1B12ACD44303B7564AB7EED0AF450F8FD3F1D3CFEAE4C7F852E2980644F361C13BF29ADC8E3DE0518FD393F0DC28BD

/-- `2 cos (pi / 512)`. -/
def halfAngle7 : Int :=
  0x1FFFD8858E8A924D671C620EF3DBFD8D062B733B20CBCE2D18022CA3AC3E366B3E8644835188D53D87BAD6D57C5126E1E163896CE696685F2A96C2072655ACC26

theorem half_angles :
    JustBelow cosScale halfAngle6 (2 * Real.cos (Real.pi / 256)) ∧ JustBelow cosScale halfAngle7 (2 * Real.cos (Real.pi / 512)) := by
  have h0 : JustBelow cosScale 0 (2 * Real.cos (Real.pi / 2)) := by simp [JustBelow]
  have h1 := half_angle_step cosScale (by decide +kernel) (Real.pi / 2) (by positivity) (by linarith [Real.pi_pos]) 0 halfAngle0
    (by decide +kernel) h0 (by decide +kernel) (by decide +kernel)
  rw [show Real.pi / 2 / 2 = Real.pi / 4 by ring] at h1
  have h2 := half_angle_step cosScale (by decide +kernel) (Real.pi / 4) (by positivity) (by linarith [Real.pi_pos]) halfAngle0 halfAngle1
    (by decide +kernel) h1 (by decide +kernel) (by decide +kernel)
  rw [show Real.pi / 4 / 2 = Real.pi / 8 by ring] at h2
  have h3 := half_angle_step cosScale (by decide +kernel) (Real.pi / 8) (by positivity) (by linarith [Real.pi_pos]) halfAngle1 halfAngle2
    (by decide +kernel) h2 (by decide +kernel) (by decide +kernel)
  rw [show Real.pi / 8 / 2 = Real.pi / 16 by ring] at h3
  have h4 := half_angle_step cosScale (by decide +kernel) (Real.pi / 16) (by positivity) (by linarith [Real.pi_pos]) halfAngle2 halfAngle3
    (by decide +kernel) h3 (by decide +kernel) (by decide +kernel)
  rw [show Real.pi / 16 / 2 = Real.pi / 32 by ring] at h4
  have h5 := half_angle_step cosScale (by decide +kernel) (Real.pi / 32) (by positivity) (by linarith [Real.pi_pos]) halfAngle3 halfAngle4
    (by decide +kernel) h4 (by decide +kernel) (by decide +kernel)
  rw [show Real.pi / 32 / 2 = Real.pi / 64 by ring] at h5
  have h6 := half_angle_step cosScale (by decide +kernel) (Real.pi / 64) (by positivity) (by linarith [Real.pi_pos]) halfAngle4 halfAngle5
    (by decide +kernel) h5 (by decide +kernel) (by decide +kernel)
  rw [show Real.pi / 64 / 2 = Real.pi / 128 by ring] at h6
  have h7 := half_angle_step cosScale (by decide +kernel) (Real.pi / 128) (by positivity) (by linarith [Real.pi_pos]) halfAngle5 halfAngle6
    (by decide +kernel) h6 (by decide +kernel) (by decide +kernel)
  rw [show Real.pi / 128 / 2 = Real.pi / 256 by ring] at h7
  have h8 := half_angle_step cosScale (by decide +kernel) (Real.pi / 256) (by positivity) (by linarith [Real.pi_pos]) halfAngle6 halfAngle7
    (by decide +kernel) h7 (by decide +kernel) (by decide +kernel)
  rw [show Real.pi / 256 / 2 = Real.pi / 512 by ring] at h8
  exact ⟨h7, h8⟩

/-! ### The recurrence -/

/-- The stored cosines of the odd numbers from `2 k + 1` on agree with the recurrence from `prev` and `cur`, whose error is at
most `err`. -/
def cosCheck (S d : Int) : Nat → Nat → Int → Int → Int → Bool
  | 0, _, _, _, _ => true
  | fuel + 1, k, prev, cur, err =>
    decide (|cur - cosUnit (2 * k + 1) * 2 ^ 256| + err ≤ 2 ^ 256) && cosCheck S d fuel (k + 1) cur (d * cur / S - prev) (3 * err + 3)

theorem cosCheck_correct (S d : Int) (hS : 0 < S) (hd : |d| ≤ 2 * S) (hd2 : JustBelow S d (2 * Real.cos (Real.pi / 256))) :
    ∀ (fuel k : Nat) (prev cur err : Int), cosCheck S d fuel k prev cur err = true →
      |(prev : ℝ) - S * Real.cos (Real.pi * (2 * k - 1) / 512)| ≤ err → |(cur : ℝ) - S * Real.cos (Real.pi * (2 * k + 1) / 512)| ≤ err →
      ∀ j, k ≤ j → j < k + fuel →
        |(cosUnit (2 * j + 1) : ℝ) * 2 ^ 256 - S * Real.cos (Real.pi * (2 * j + 1) / 512)| ≤ 2 ^ 256 := by
  intro fuel
  induction fuel with
  | zero => intro k prev cur err _ _ _ j h1 h2; omega
  | succ fuel ih =>
    intro k prev cur err h hp hc j h1 h2
    simp only [cosCheck, Bool.and_eq_true, decide_eq_true_eq] at h
    rcases Nat.eq_or_lt_of_le h1 with rfl | hlt
    · have h' : |(cur : ℝ) - (cosUnit (2 * k + 1) : ℝ) * 2 ^ 256| + (err : ℝ) ≤ 2 ^ 256 := by exact_mod_cast h.1
      rw [abs_sub_comm] at h'
      calc _ ≤ |(cosUnit (2 * k + 1) : ℝ) * 2 ^ 256 - cur| + |(cur : ℝ) - S * Real.cos (Real.pi * (2 * k + 1) / 512)| :=
            abs_sub_le _ _ _
        _ ≤ _ := le_trans (add_le_add le_rfl hc) h'
    · refine ih (k + 1) cur _ _ h.2 ?_ ?_ j hlt (by omega)
      · have : Real.pi * (2 * ((k + 1 : ℕ) : ℝ) - 1) / 512 = Real.pi * (2 * k + 1) / 512 := by push_cast; ring
        rw [this]
        have he : (0 : ℝ) ≤ err := le_trans (abs_nonneg _) hc
        push_cast; linarith
      · have hrec : Real.cos (Real.pi * (2 * ((k + 1 : ℕ) : ℝ) + 1) / 512)
            = 2 * Real.cos (Real.pi / 256) * Real.cos (Real.pi * (2 * k + 1) / 512) - Real.cos (Real.pi * (2 * k - 1) / 512) := by
          have e1 : Real.pi * (2 * ((k + 1 : ℕ) : ℝ) + 1) / 512 = Real.pi * (2 * k + 1) / 512 + Real.pi / 256 := by push_cast; ring
          have e2 : Real.pi * (2 * (k : ℝ) - 1) / 512 = Real.pi * (2 * k + 1) / 512 - Real.pi / 256 := by ring
          rw [e1, e2, Real.cos_add, Real.cos_sub]; ring
        rw [hrec]
        set c := Real.cos (Real.pi * (2 * k + 1) / 512)
        set b := Real.cos (Real.pi * (2 * k - 1) / 512)
        set w := 2 * Real.cos (Real.pi / 256)
        have hcabs : |c| ≤ 1 := Real.abs_cos_le_one _
        have hS' : (0 : ℝ) < S := by exact_mod_cast hS
        have hd' : |(d : ℝ) / S| ≤ 2 := by
          rw [abs_div, abs_of_pos hS', div_le_iff₀ hS']; exact_mod_cast hd
        have hfl : |((d * cur / S : Int) : ℝ) - d * cur / S| ≤ 1 := by
          have g1 := Int.ediv_mul_le (d * cur) hS.ne'
          have g2 := Int.lt_ediv_add_one_mul_self (d * cur) hS
          have g1' : ((d * cur / S : Int) : ℝ) * S ≤ d * cur := by exact_mod_cast g1
          have g2' : (d * cur : ℝ) < (((d * cur / S : Int) : ℝ) + 1) * S := by exact_mod_cast g2
          rw [abs_le]
          constructor
          · have : (d * cur : ℝ) / S ≤ ((d * cur / S : Int) : ℝ) + 1 := by rw [div_le_iff₀ hS']; linarith
            linarith
          · have : ((d * cur / S : Int) : ℝ) ≤ (d * cur : ℝ) / S := by rw [le_div_iff₀ hS']; linarith
            linarith
        have hdw : |(d : ℝ) - S * w| ≤ 2 := by rw [abs_le]; exact ⟨by linarith [hd2.2], by linarith [hd2.1]⟩
        have key : (((d * cur / S - prev : Int) : ℝ)) - S * (w * c - b)
            = (((d * cur / S : Int) : ℝ) - d * cur / S) + (d / S) * (cur - S * c) + (d - S * w) * c - (prev - S * b) := by
          push_cast; field_simp; ring
        rw [key]
        have t2 : |(d / S : ℝ) * (cur - S * c)| ≤ 2 * err := by
          rw [abs_mul]; exact mul_le_mul hd' hc (abs_nonneg _) (by norm_num)
        have t3 : |((d : ℝ) - S * w) * c| ≤ 2 := by
          rw [abs_mul]
          calc _ ≤ 2 * 1 := mul_le_mul hdw hcabs (abs_nonneg _) (by norm_num)
            _ = 2 := by norm_num
        rw [abs_le] at *
        push_cast
        constructor <;> linarith [hfl.1, hfl.2, t2.1, t2.2, t3.1, t3.2, hp.1, hp.2]

theorem cosCheck_table : cosCheck cosScale halfAngle6 128 0 (halfAngle7 / 2) (halfAngle7 / 2) 2 = true := by decide +kernel

/-- The first quadrant of the table. -/
theorem cosUnit_near_quadrant (j : Nat) (hj : j < 128) :
    |(cosUnit (2 * j + 1) : ℝ) - 2 ^ 256 * Real.cos (Real.pi * (2 * j + 1) / 512)| ≤ 1 := by
  have h7 := half_angles.2
  have hhalf : |((halfAngle7 / 2 : Int) : ℝ) - cosScale * Real.cos (Real.pi / 512)| ≤ 2 := by
    have g1 : ((halfAngle7 / 2 : Int) : ℝ) * 2 ≤ halfAngle7 := by exact_mod_cast Int.ediv_mul_le halfAngle7 (by norm_num : (2 : Int) ≠ 0)
    have g2 : (halfAngle7 : ℝ) < (((halfAngle7 / 2 : Int) : ℝ) + 1) * 2 := by
      exact_mod_cast Int.lt_ediv_add_one_mul_self halfAngle7 (by norm_num : (0 : Int) < 2)
    rw [abs_le]; exact ⟨by linarith [h7.2], by linarith [h7.1]⟩
  have h := cosCheck_correct cosScale halfAngle6 (by decide +kernel) (by decide +kernel) half_angles.1 128 0 _ _ _ cosCheck_table
    (by have e : Real.pi * (2 * ((0 : ℕ) : ℝ) - 1) / 512 = -(Real.pi / 512) := by push_cast; ring
        rw [e, Real.cos_neg]; exact_mod_cast hhalf)
    (by have e : Real.pi * (2 * ((0 : ℕ) : ℝ) + 1) / 512 = Real.pi / 512 := by push_cast; ring
        rw [e]; exact_mod_cast hhalf) j (Nat.zero_le _) (by omega)
  have hS : (cosScale : ℝ) = 2 ^ 256 * 2 ^ 256 := by norm_num [cosScale]
  rw [hS] at h
  have e : (cosUnit (2 * j + 1) : ℝ) * 2 ^ 256 - 2 ^ 256 * 2 ^ 256 * Real.cos (Real.pi * (2 * j + 1) / 512)
      = 2 ^ 256 * ((cosUnit (2 * j + 1) : ℝ) - 2 ^ 256 * Real.cos (Real.pi * (2 * j + 1) / 512)) := by ring
  rw [e, abs_mul, abs_of_pos (by positivity)] at h
  exact le_of_mul_le_mul_left (by linarith) (show (0 : ℝ) < 2 ^ 256 by positivity)

/-- The stored cosine of every odd multiple of `pi / 512`, by the cosine's symmetries. -/
theorem cosUnit_near (m : Nat) (hm : m % 2 = 1) : |(cosUnit m : ℝ) - 2 ^ 256 * Real.cos (Real.pi * m / 512)| ≤ 1 := by
  have hperiod : Real.cos (Real.pi * m / 512) = Real.cos (Real.pi * ((m % 1024 : ℕ) : ℝ) / 512) := by
    have : (m : ℝ) = ((m % 1024 : ℕ) : ℝ) + 1024 * ((m / 1024 : ℕ) : ℝ) := by exact_mod_cast (Nat.mod_add_div m 1024).symm
    rw [this, show Real.pi * (((m % 1024 : ℕ) : ℝ) + 1024 * ((m / 1024 : ℕ) : ℝ)) / 512
      = Real.pi * ((m % 1024 : ℕ) : ℝ) / 512 + ((m / 1024 : ℕ) : ℝ) * (2 * Real.pi) by ring, Real.cos_add_nat_mul_two_pi]
  have hunit : cosUnit m = cosUnit (m % 1024) := by simp only [cosUnit, Nat.mod_mod]
  have hodd : m % 1024 % 2 = 1 := by omega
  have hlt : m % 1024 < 1024 := Nat.mod_lt _ (by norm_num)
  rw [hperiod, hunit]
  generalize m % 1024 = r at *
  -- past 512 the angle turns back
  obtain ⟨q, hq, hqodd, hqc, hqu⟩ : ∃ q : Nat, q < 512 ∧ q % 2 = 1 ∧ Real.cos (Real.pi * r / 512) = Real.cos (Real.pi * q / 512)
      ∧ cosUnit r = cosUnit q := by
    by_cases h : r < 512
    · exact ⟨r, h, hodd, rfl, rfl⟩
    · refine ⟨1024 - r, by omega, by omega, ?_, ?_⟩
      · rw [Nat.cast_sub (by omega), show Real.pi * (((1024 : ℕ) : ℝ) - r) / 512 = 2 * Real.pi - Real.pi * r / 512 by push_cast; ring,
          Real.cos_two_pi_sub]
      · simp only [cosUnit, Nat.mod_eq_of_lt hlt, Nat.mod_eq_of_lt (show 1024 - r < 1024 by omega),
          if_pos (show r > 512 by omega), if_neg (show ¬(1024 - r > 512) by omega)]
  rw [hqc, hqu]
  by_cases h : q ≤ 256
  · have := cosUnit_near_quadrant (q / 2) (by omega)
    have e : 2 * (q / 2) + 1 = q := by omega
    have e' : 2 * ((q / 2 : ℕ) : ℝ) + 1 = q := by exact_mod_cast e
    rwa [e, e'] at this
  · have := cosUnit_near_quadrant ((511 - q) / 2) (by omega)
    have e : 2 * ((511 - q) / 2) + 1 = 512 - q := by omega
    have e' : 2 * (((511 - q) / 2 : ℕ) : ℝ) + 1 = 512 - q := by
      have : ((2 * ((511 - q) / 2) + 1 : ℕ) : ℝ) = ((512 - q : ℕ) : ℝ) := by rw [e]
      rw [Nat.cast_sub (by omega)] at this
      push_cast at this ⊢
      linarith
    have hneg : cosUnit q = -cosUnit (512 - q) := by
      simp only [cosUnit, Nat.mod_eq_of_lt (show q < 1024 by omega), Nat.mod_eq_of_lt (show 512 - q < 1024 by omega),
        if_neg (show ¬(q > 512) by omega), if_neg (show ¬(512 - q > 512) by omega), if_neg h, if_pos (show 512 - q ≤ 256 by omega)]
      rw [show 512 - q - 1 = 511 - q by omega]
    rw [e, e', show Real.pi * (512 - (q : ℝ)) / 512 = Real.pi - Real.pi * q / 512 by ring, Real.cos_pi_sub] at this
    rw [hneg, ← abs_neg]
    push_cast
    rw [show -(-(cosUnit (512 - q) : ℝ) - 2 ^ 256 * Real.cos (Real.pi * q / 512))
      = (cosUnit (512 - q) : ℝ) - 2 ^ 256 * -Real.cos (Real.pi * q / 512) by ring]
    exact this

end Sys2Proof.Machine
end

