-- ==== Sys2Proof/Laws/Exact.lean ====
section
/-! SUPPORT. What the exact arithmetic of the transform computes: `signAt` is the sign of the real number that a polynomial has at
`exp(i * pi / 2^(level+1))`, and so `TrigSum.compare` is the sign of the real number it names. -/

namespace Sys2Proof.Machine

/-! ### Lengths -/

@[simp] theorem polyTurn_length (p : List Int) (h : p ≠ []) : (polyTurn p).length = p.length := by
  have := List.length_pos_iff.2 h
  simp [polyTurn]; omega

@[simp] theorem polyScale_length (a : Int) (p : List Int) : (polyScale a p).length = p.length := by simp [polyScale]

theorem polyAdd_length (p q : List Int) (h : p.length = q.length) : (polyAdd p q).length = p.length := by simp [polyAdd, h]

theorem polyMul_length (p q : List Int) (hq : q ≠ []) : (polyMul p q).length = q.length := by
  induction p with
  | nil => simp [polyMul]
  | cons a p ih =>
    have hne : polyMul p q ≠ [] := by
      intro h; rw [h] at ih; exact hq (List.length_eq_zero_iff.1 ih.symm)
    have ht : (polyTurn (polyMul p q)).length = q.length := by rw [polyTurn_length _ hne, ih]
    show (if a = 0 then polyTurn (polyMul p q) else polyAdd (polyScale a q) (polyTurn (polyMul p q))).length = _
    split
    · exact ht
    · rw [polyAdd_length _ _ (by rw [polyScale_length, ht]), polyScale_length]

theorem polyEven_length : ∀ (p : List Int) (n : Nat), p.length = 2 * n → (polyEven p).length = n
  | [], n, h => by simp [polyEven] at *; omega
  | [_], n, h => by simp at h; omega
  | _ :: _ :: rest, n, h => by
    simp only [polyEven, List.length_cons] at *
    rw [polyEven_length rest (n - 1) (by omega)]; omega

theorem polyOdd_length : ∀ (p : List Int) (n : Nat), p.length = 2 * n → (polyOdd p).length = n
  | [], n, h => by simp [polyOdd] at *; omega
  | [_], n, h => by simp at h; omega
  | _ :: _ :: rest, n, h => by
    simp only [polyOdd, List.length_cons] at *
    rw [polyOdd_length rest (n - 1) (by omega)]; omega

/-! ### Values -/

/-- The value of a polynomial. -/
noncomputable def polyValue (z : ℂ) : List Int → ℂ
  | [] => 0
  | a :: p => a + z * polyValue z p

@[simp] theorem polyValue_add (z : ℂ) : ∀ p q : List Int, p.length = q.length →
    polyValue z (polyAdd p q) = polyValue z p + polyValue z q
  | [], [], _ => by simp [polyAdd, polyValue]
  | a :: p, b :: q, h => by
    have := polyValue_add z p q (by simpa using h)
    simp only [polyAdd, List.zipWith_cons_cons, polyValue] at this ⊢
    rw [this]; push_cast; ring

@[simp] theorem polyValue_scale (z : ℂ) (a : Int) : ∀ p : List Int, polyValue z (polyScale a p) = a * polyValue z p
  | [] => by simp [polyScale, polyValue]
  | b :: p => by
    have := polyValue_scale z a p
    simp only [polyScale, List.map_cons, polyValue] at this ⊢
    rw [this]; push_cast; ring

theorem polyValue_append (z : ℂ) : ∀ p q : List Int, polyValue z (p ++ q) = polyValue z p + z ^ p.length * polyValue z q
  | [], q => by simp [polyValue]
  | a :: p, q => by simp only [List.cons_append, polyValue, polyValue_append z p q, List.length_cons, pow_succ]; ring

/-- Modulo `z^n + 1` a turn is a product with `z`. -/
theorem polyValue_turn (z : ℂ) (p : List Int) (h : p ≠ []) (hz : z ^ p.length = -1) :
    polyValue z (polyTurn p) = z * polyValue z p := by
  obtain ⟨q, a, rfl⟩ := List.eq_nil_or_concat p |>.resolve_left h
  simp only [polyTurn, List.concat_eq_append, List.getLastD_concat, List.dropLast_concat, polyValue, polyValue_append,
    List.length_append, List.length_singleton, pow_succ] at hz ⊢
  push_cast
  linear_combination (-(a : ℂ)) * hz

theorem polyValue_zeros (z : ℂ) (n : Nat) : polyValue z (List.replicate n 0) = 0 := by
  induction n with
  | zero => rfl
  | succ n ih => simp [List.replicate_succ, polyValue, ih]

theorem polyValue_mul (z : ℂ) (p q : List Int) (hq : q ≠ []) (hz : z ^ q.length = -1) :
    polyValue z (polyMul p q) = polyValue z p * polyValue z q := by
  induction p with
  | nil => simp [polyMul, polyValue, polyValue_zeros]
  | cons a p ih =>
    have hl := polyMul_length p q hq
    have hne : polyMul p q ≠ [] := by
      intro h; rw [h] at hl; exact hq (List.length_eq_zero_iff.1 hl.symm)
    have ht : polyValue z (polyTurn (polyMul p q)) = z * (polyValue z p * polyValue z q) := by
      rw [polyValue_turn z _ hne (by rw [hl]; exact hz), ih]
    show polyValue z (if a = 0 then polyTurn (polyMul p q) else polyAdd (polyScale a q) (polyTurn (polyMul p q))) = _
    split
    · rename_i h0; rw [ht, h0]; simp [polyValue]; ring
    · rw [polyValue_add _ _ _ (by rw [polyScale_length, polyTurn_length _ hne, hl]), polyValue_scale, ht]
      simp only [polyValue]; ring

/-- A polynomial is its even part at `z^2` and `z` times its odd part at `z^2`. -/
theorem polyValue_split (z : ℂ) : ∀ p : List Int, polyValue z p = polyValue (z ^ 2) (polyEven p) + z * polyValue (z ^ 2) (polyOdd p)
  | [] => by simp [polyEven, polyOdd, polyValue]
  | [a] => by simp [polyEven, polyOdd, polyValue]
  | a :: b :: rest => by
    simp only [polyEven, polyOdd, polyValue, polyValue_split z rest]; ring

/-! ### The sign -/

/-- A polynomial of `2^(level+1)` coefficients is real at every root of `z^(2^(level+1)) = -1`. -/
def RealAtRoots (level : Nat) (p : List Int) : Prop := ∀ z : ℂ, z ^ 2 ^ (level + 1) = -1 → (polyValue z p).im = 0

/-- The root that `signAt` speaks of. -/
noncomputable def signRoot (level : Nat) : ℂ := Complex.exp (Complex.I * (Real.pi / 2 ^ (level + 1)))

theorem signRoot_sq (level : Nat) : signRoot (level + 1) ^ 2 = signRoot level := by
  rw [signRoot, signRoot, ← Complex.exp_nat_mul]
  congr 1
  rw [pow_succ (2 : ℂ) (level + 1)]
  push_cast
  field_simp

theorem signRoot_pow (level : Nat) : signRoot level ^ 2 ^ (level + 1) = -1 := by
  rw [signRoot, ← Complex.exp_nat_mul, ← Complex.exp_pi_mul_I]
  congr 1
  push_cast
  field_simp

theorem abs_of_root (z : ℂ) (n : Nat) (h : z ^ 2 ^ n = -1) : ‖z‖ = 1 := by
  have : ‖z‖ ^ 2 ^ n = 1 := by rw [← norm_pow, h]; simp
  exact (pow_eq_one_iff_of_nonneg (norm_nonneg z) (by positivity)).1 this

theorem add_inv_im (z : ℂ) (h : ‖z‖ = 1) : (z + z⁻¹).im = 0 := by
  rw [Complex.inv_eq_conj h]; simp

theorem ne_zero_of_root (z : ℂ) (n : Nat) (h : z ^ 2 ^ n = -1) : z ≠ 0 := by
  intro h0; have := abs_of_root z n h; simp [h0] at this

theorem signRoot_add_inv (level : Nat) : signRoot (level + 1) + (signRoot (level + 1))⁻¹ = ((2 * Real.cos (Real.pi / 2 ^ (level + 2)) : ℝ) : ℂ) := by
  rw [signRoot, ← Complex.exp_neg]
  push_cast
  rw [Complex.cos]
  have : Complex.I * (Real.pi / 2 ^ (level + 1 + 1)) = (Real.pi / 2 ^ (level + 2)) * Complex.I := by ring
  rw [this]
  ring_nf

theorem cos_root_pos (level : Nat) : 0 < 2 * Real.cos (Real.pi / 2 ^ (level + 2)) := by
  have hp := Real.pi_pos
  have h4 : (4 : ℝ) ≤ 2 ^ (level + 2) := by
    rw [pow_add]; nlinarith [one_le_pow₀ (n := level) (by norm_num : (1 : ℝ) ≤ 2)]
  have : Real.pi / 2 ^ (level + 2) < Real.pi / 2 := by
    apply div_lt_div_of_pos_left hp (by norm_num); linarith
  have h0 : 0 < Real.pi / 2 ^ (level + 2) := by positivity
  have := Real.cos_pos_of_mem_Ioo ⟨by linarith, this⟩
  linarith

/-- The parts of a polynomial that is real at every root, at a square root of the root: the even part's value, the odd part's
value times `z`, and that times `z + 1/z`. -/
theorem real_parts (level : Nat) (p : List Int) (hp : RealAtRoots (level + 1) p) (z : ℂ) (hz : z ^ 2 ^ (level + 2) = -1) :
    (polyValue (z ^ 2) (polyEven p)).im = 0 ∧ (z * polyValue (z ^ 2) (polyOdd p)).im = 0 := by
  have h1 := hp z hz
  have h2 := hp (-z) (by rw [Even.neg_pow ⟨2 ^ (level + 1), by ring⟩]; exact hz)
  rw [polyValue_split] at h1 h2
  rw [neg_sq] at h2
  simp only [Complex.add_im, neg_mul, Complex.neg_im] at h1 h2
  exact ⟨by linarith, by linarith⟩

theorem exists_sqrt (w : ℂ) (level : Nat) (h : w ^ 2 ^ (level + 1) = -1) : ∃ z : ℂ, z ^ 2 = w ∧ z ^ 2 ^ (level + 2) = -1 := by
  obtain ⟨z, hz⟩ := IsAlgClosed.exists_pow_nat_eq w (n := 2) (by norm_num)
  exact ⟨z, hz, by rw [pow_succ' 2 (level + 1), pow_mul, hz, h]⟩

/-- The three polynomials that `signAt` looks at, at half the length. -/
def signEven (p : List Int) : List Int := polyEven p
/-- The odd part times `z + 1/z`. -/
def signOdd (p : List Int) : List Int := polyAdd (polyOdd p) (polyTurn (polyOdd p))
/-- `E^2 - O^2`. -/
def signCross (p : List Int) : List Int :=
  polyAdd (polyMul (polyEven p) (polyEven p)) (polyScale (-1) (polyTurn (polyMul (polyOdd p) (polyOdd p))))

/-- What the three polynomials are at `z^2`, for a root `z`. -/
theorem half_values (level : Nat) (p : List Int) (hl : p.length = 2 ^ (level + 2)) (z : ℂ) (hz : z ^ 2 ^ (level + 2) = -1) :
    (signEven p).length = 2 ^ (level + 1) ∧ (signOdd p).length = 2 ^ (level + 1) ∧ (signCross p).length = 2 ^ (level + 1)
      ∧ polyValue (z ^ 2) (signOdd p) = (z * polyValue (z ^ 2) (polyOdd p)) * (z + z⁻¹)
      ∧ polyValue (z ^ 2) (signCross p)
          = polyValue (z ^ 2) (polyEven p) ^ 2 - (z * polyValue (z ^ 2) (polyOdd p)) ^ 2 := by
  have h2 : p.length = 2 * 2 ^ (level + 1) := by rw [hl, pow_succ']
  have he := polyEven_length p _ h2
  have ho := polyOdd_length p _ h2
  have hpos : 0 < 2 ^ (level + 1) := by positivity
  have hene : polyEven p ≠ [] := by intro h; rw [h] at he; simp only [List.length_nil] at he; omega
  have hone : polyOdd p ≠ [] := by intro h; rw [h] at ho; simp only [List.length_nil] at ho; omega
  have hz2 : (z ^ 2) ^ 2 ^ (level + 1) = -1 := by rw [← pow_mul, ← pow_succ']; exact hz
  have hm1 := polyMul_length (polyEven p) (polyEven p) hene
  have hm2 := polyMul_length (polyOdd p) (polyOdd p) hone
  have hm2ne : polyMul (polyOdd p) (polyOdd p) ≠ [] := by intro h; rw [h, ho] at hm2; simp only [List.length_nil] at hm2; omega
  have hz0 := ne_zero_of_root z _ hz
  have hturn : (polyTurn (polyOdd p)).length = (polyOdd p).length := polyTurn_length _ hone
  have hcl : (polyMul (polyEven p) (polyEven p)).length
      = (polyScale (-1) (polyTurn (polyMul (polyOdd p) (polyOdd p)))).length := by
    rw [polyScale_length, polyTurn_length _ hm2ne, hm1, hm2, he, ho]
  refine ⟨he, ?_, ?_, ?_, ?_⟩
  · rw [signOdd, polyAdd_length _ _ hturn.symm, ho]
  · rw [signCross, polyAdd_length _ _ hcl, hm1, he]
  · rw [signOdd, polyValue_add _ _ _ hturn.symm, polyValue_turn _ _ hone (by rw [ho]; exact hz2)]
    field_simp
    ring
  · rw [signCross, polyValue_add _ _ _ hcl, polyValue_mul _ _ _ hene (by rw [he]; exact hz2), polyValue_scale,
      polyValue_turn _ _ hm2ne (by rw [hm2, ho]; exact hz2), polyValue_mul _ _ _ hone (by rw [ho]; exact hz2)]
    push_cast
    ring

theorem sq_im_zero (x : ℂ) (h : x.im = 0) : (x ^ 2).im = 0 := by rw [sq, Complex.mul_im, h]; simp

/-- The three polynomials are real at every root of half the degree. -/
theorem half_real (level : Nat) (p : List Int) (hl : p.length = 2 ^ (level + 2)) (hp : RealAtRoots (level + 1) p) :
    RealAtRoots level (signEven p) ∧ RealAtRoots level (signOdd p) ∧ RealAtRoots level (signCross p) := by
  refine ⟨fun w hw => ?_, fun w hw => ?_, fun w hw => ?_⟩ <;> obtain ⟨z, rfl, hz⟩ := exists_sqrt w level hw <;>
    obtain ⟨hE, hO⟩ := real_parts level p hp z hz <;> obtain ⟨-, -, -, hodd, hcross⟩ := half_values level p hl z hz
  · exact hE
  · rw [hodd, Complex.mul_im, hO, add_inv_im z (abs_of_root z _ hz)]; simp
  · rw [hcross, Complex.sub_im, sq_im_zero _ hE, sq_im_zero _ hO, sub_zero]

/-- The sign of a sum from the signs of its parts and, when they differ, of the difference of their squares. -/
theorem sign_of_parts (e o : ℝ) :
    (if (SignType.sign e : ℤ) * SignType.sign o < 0 then (SignType.sign e : ℤ) * SignType.sign ((e - o) * (e + o))
      else ((SignType.sign e : ℤ) + SignType.sign o).sign) = SignType.sign (e + o) := by
  rw [sign_mul]
  have key : ∀ x y d t : SignType, (x = 1 → y = -1 → d = 1) → (x = -1 → y = 1 → d = -1) → (x = 0 → t = y) → (y = 0 → t = x) →
      (x = y → t = x) →
      (if (x : ℤ) * y < 0 then (x : ℤ) * ((d * t : SignType) : ℤ) else ((x : ℤ) + y).sign) = (t : ℤ) := by decide
  refine key _ _ _ _ (fun hx hy => ?_) (fun hx hy => ?_) (fun hx => ?_) (fun hy => ?_) (fun h => ?_)
  · rw [sign_eq_one_iff] at *; rw [sign_eq_neg_one_iff] at hy; linarith
  · rw [sign_eq_neg_one_iff] at *; rw [sign_eq_one_iff] at hy; linarith
  · rw [sign_eq_zero_iff.1 hx, zero_add]
  · rw [sign_eq_zero_iff.1 hy, add_zero]
  · rcases lt_trichotomy e 0 with he | he | he
    · have ho := h.symm.trans (sign_neg he)
      rw [sign_neg he, sign_eq_neg_one_iff] at *; linarith
    · rw [he, sign_zero] at h; rw [he, zero_add, sign_zero]; exact h.symm
    · have ho := h.symm.trans (sign_pos he)
      rw [sign_pos he, sign_eq_one_iff] at *; linarith

/-- `signAt` is the sign of the real number that the polynomial has at `exp(i * pi / 2^(level+1))`. -/
theorem signAt_correct (level : Nat) : ∀ p : List Int, p.length = 2 ^ (level + 1) → RealAtRoots level p →
    signAt level p = SignType.sign (polyValue (signRoot level) p).re := by
  induction level with
  | zero =>
    intro p hl hp
    match p, hl with
    | [a, b], _ =>
      have hr := hp Complex.I (by simp)
      simp only [polyValue, mul_zero, add_zero, Complex.add_im, Complex.intCast_im, Complex.mul_im, Complex.I_re,
        Complex.I_im, Complex.intCast_re, one_mul, zero_add] at hr
      have hb : b = 0 := by exact_mod_cast hr
      subst hb
      simp only [signAt, List.headD_cons, polyValue]
      simp
      rcases lt_trichotomy a 0 with h | h | h
      · rw [Int.sign_eq_neg_one_of_neg h, sign_neg (by exact_mod_cast h)]; rfl
      · subst h; simp
      · rw [Int.sign_eq_one_of_pos h, sign_pos (by exact_mod_cast h)]; rfl
  | succ level ih =>
    intro p hl hp
    obtain ⟨hrE, hrO, hrX⟩ := half_real level p hl hp
    have hz := signRoot_pow (level + 1)
    obtain ⟨hlE, hlO, hlX, hodd, hcross⟩ := half_values level p hl _ hz
    obtain ⟨hE, hO⟩ := real_parts level p hp _ hz
    have hE' := ih _ hlE hrE
    have hO' := ih _ hlO hrO
    have hX' := ih _ hlX hrX
    have hsplit := polyValue_split (signRoot (level + 1)) p
    rw [← signRoot_sq] at hE' hO' hX'
    rw [hodd, signRoot_add_inv] at hO'
    rw [hcross] at hX'
    set E := polyValue (signRoot (level + 1) ^ 2) (polyEven p)
    set O := signRoot (level + 1) * polyValue (signRoot (level + 1) ^ 2) (polyOdd p)
    have hc := cos_root_pos level
    have hEv : E = (E.re : ℂ) := Complex.ext rfl (by simpa using hE)
    have hOv : O = (O.re : ℂ) := Complex.ext rfl (by simpa using hO)
    have hpv : (polyValue (signRoot (level + 1)) p).re = E.re + O.re := by rw [hsplit, Complex.add_re]
    have hOs : (O * ((2 * Real.cos (Real.pi / 2 ^ (level + 2)) : ℝ) : ℂ)).re
        = O.re * (2 * Real.cos (Real.pi / 2 ^ (level + 2))) := by rw [hOv, ← Complex.ofReal_mul, Complex.ofReal_re]; simp
    have hXs : (E ^ 2 - O ^ 2).re = (E.re - O.re) * (E.re + O.re) := by
      rw [hEv, hOv, ← Complex.ofReal_pow, ← Complex.ofReal_pow, ← Complex.ofReal_sub, Complex.ofReal_re]; simp; ring
    rw [hOs, sign_mul, sign_pos hc, mul_one] at hO'
    rw [hXs] at hX'
    have hE'' : signAt level (polyEven p) = SignType.sign E.re := hE'
    rw [hpv]
    show (if signAt level (polyEven p) * signAt level (signOdd p) < 0 then signAt level (polyEven p) * signAt level (signCross p)
      else (signAt level (polyEven p) + signAt level (signOdd p)).sign) = _
    rw [hE'', hO', hX']
    exact sign_of_parts _ _

/-! ### Sums of cosines -/

/-- The real number that a sum of cosines names. -/
noncomputable def TrigSum.value (x : TrigSum) : ℝ :=
  x.rational + (x.terms.map (fun p => (p.1 : ℝ) * Real.cos (Real.pi * p.2 / 512))).sum

theorem polyValue_map_range (z : ℂ) (f : Nat → Int) : ∀ n : Nat,
    polyValue z ((List.range n).map f) = ∑ j ∈ Finset.range n, (f j : ℂ) * z ^ j := by
  intro n
  induction n with
  | zero => simp [polyValue]
  | succ n ih =>
    rw [List.range_succ, List.map_append, polyValue_append, ih, Finset.sum_range_succ]
    simp [polyValue]; ring

@[simp] theorem monomial_length (a : Int) (m : Nat) : (monomial a m).length = 512 := by simp [monomial]

theorem polyValue_monomial (z : ℂ) (hz : z ^ 512 = -1) (a : Int) (m : Nat) : polyValue z (monomial a m) = a * z ^ m := by
  have h1024 : z ^ 1024 = 1 := by rw [show 1024 = 512 * 2 from rfl, pow_mul, hz]; norm_num
  have hm : z ^ m = z ^ (m % 1024) := by
    conv_lhs => rw [← Nat.div_add_mod m 1024, pow_add, pow_mul, h1024, one_pow, one_mul]
  rw [monomial, polyValue_map_range, hm]
  have hlt : m % 1024 < 1024 := Nat.mod_lt _ (by norm_num)
  generalize m % 1024 = r at *
  by_cases h : r < 512
  · rw [Finset.sum_eq_single r]
    · simp
    · intro j hj hne
      have := Finset.mem_range.1 hj
      rw [if_neg hne, if_neg (by omega)]; simp
    · intro hr; exact absurd (Finset.mem_range.2 h) hr
  · rw [Finset.sum_eq_single (r - 512)]
    · rw [if_neg (by omega), if_pos (by omega)]
      have : z ^ r = z ^ (r - 512) * z ^ 512 := by rw [← pow_add]; congr 1; omega
      rw [this, hz]; push_cast; ring
    · intro j hj hne
      have := Finset.mem_range.1 hj
      rw [if_neg (by omega), if_neg (by omega)]; simp
    · intro hr; exact absurd (Finset.mem_range.2 (by omega)) hr

theorem TrigSum.poly_length (x : TrigSum) (q t : Int) : (x.poly q t).length = 512 := by
  obtain ⟨r, ts⟩ := x
  induction ts with
  | nil => simp [TrigSum.poly]
  | cons p ts ih =>
    simp only [TrigSum.poly, List.foldr_cons] at ih ⊢
    rw [polyAdd_length _ _ (by rw [ih, polyAdd_length _ _ (by simp)]; simp), ih]

theorem TrigSum.polyValue_poly (x : TrigSum) (q t : Int) (z : ℂ) (hz : z ^ 512 = -1) :
    polyValue z (x.poly q t)
      = ((2 * q * x.rational - t : ℤ) : ℂ) + (x.terms.map (fun p => (q * p.1 : ℂ) * (z ^ p.2 + (z ^ p.2)⁻¹))).sum := by
  have h1024 : z ^ 1024 = 1 := by rw [show 1024 = 512 * 2 from rfl, pow_mul, hz]; norm_num
  have hz0 : z ≠ 0 := by rintro rfl; norm_num at hz
  obtain ⟨r, ts⟩ := x
  induction ts with
  | nil => simp [TrigSum.poly, polyValue_monomial z hz]
  | cons p ts ih =>
    have hl := TrigSum.poly_length ⟨r, ts⟩ q t
    simp only [TrigSum.poly, List.foldr_cons, List.map_cons, List.sum_cons] at ih hl ⊢
    have hinv : z ^ (1023 * p.2) = (z ^ p.2)⁻¹ := by
      refine eq_inv_of_mul_eq_one_left ?_
      rw [← pow_add, show 1023 * p.2 + p.2 = 1024 * p.2 by ring, pow_mul, h1024,
        one_pow]
    rw [polyValue_add _ _ _ (by rw [hl, polyAdd_length _ _ (by simp)]; simp), ih, polyValue_add _ _ _ (by simp),
      polyValue_monomial z hz, polyValue_monomial z hz, hinv]
    push_cast
    ring

theorem TrigSum.poly_real (x : TrigSum) (q t : Int) : RealAtRoots 8 (x.poly q t) := by
  intro z hz
  have hz' : z ^ 512 = -1 := by simpa using hz
  rw [x.polyValue_poly q t z hz', Complex.add_im, Complex.intCast_im, zero_add]
  have : ∀ ts : List (Int × Nat), ((ts.map (fun p => (q * p.1 : ℂ) * (z ^ p.2 + (z ^ p.2)⁻¹))).sum).im = 0 := by
    intro ts
    induction ts with
    | nil => simp
    | cons p ts ih =>
      have hn : ‖z ^ p.2‖ = 1 := by rw [norm_pow, abs_of_root z _ hz, one_pow]
      rw [List.map_cons, List.sum_cons, Complex.add_im, ih, Complex.mul_im, add_inv_im _ hn]
      simp
  exact this _

/-- `compare` is the sign of `2 * q * x - t`. -/
theorem TrigSum.compare_correct (x : TrigSum) (q t : Int) :
    x.compare q t = SignType.sign (2 * q * x.value - t : ℝ) := by
  rw [TrigSum.compare, signAt_correct 8 _ (by rw [x.poly_length]; norm_num) (x.poly_real q t)]
  have hz : signRoot 8 ^ 512 = -1 := by simpa using signRoot_pow 8
  rw [x.polyValue_poly q t _ hz, TrigSum.value, Complex.add_re, Complex.intCast_re]
  have : ∀ ts : List (Int × Nat),
      ((ts.map (fun p => (q * p.1 : ℂ) * (signRoot 8 ^ p.2 + (signRoot 8 ^ p.2)⁻¹))).sum).re
        = 2 * q * (ts.map (fun p => (p.1 : ℝ) * Real.cos (Real.pi * p.2 / 512))).sum := by
    intro ts
    induction ts with
    | nil => simp
    | cons p ts ih =>
      have hc : signRoot 8 ^ p.2 + (signRoot 8 ^ p.2)⁻¹ = ((2 * Real.cos (Real.pi * p.2 / 512) : ℝ) : ℂ) := by
        rw [signRoot, ← Complex.exp_nat_mul, ← Complex.exp_neg]
        push_cast
        rw [Complex.cos]
        have : (p.2 : ℂ) * (Complex.I * (Real.pi / 2 ^ (8 + 1))) = (Real.pi * p.2 / 512) * Complex.I := by norm_num; ring
        rw [this]
        ring_nf
      rw [List.map_cons, List.sum_cons, Complex.add_re, ih, hc, List.map_cons, List.sum_cons]
      have : ((q : ℂ) * (p.1 : ℂ) * ((2 * Real.cos (Real.pi * p.2 / 512) : ℝ) : ℂ)).re
          = q * p.1 * (2 * Real.cos (Real.pi * p.2 / 512)) := by
        rw [show (q : ℂ) * (p.1 : ℂ) * ((2 * Real.cos (Real.pi * p.2 / 512) : ℝ) : ℂ)
          = ((q * p.1 * (2 * Real.cos (Real.pi * p.2 / 512)) : ℝ) : ℂ) by push_cast; ring, Complex.ofReal_re]
      rw [this]
      ring
  rw [this]
  push_cast
  ring_nf

/-! ### Searching -/

/-- `bisect` finds the last place up to which a property holds. -/
theorem bisect_correct (p : Int → Bool) (last : Int) : ∀ (fuel : Nat) (lo hi : Int), lo ≤ last → last ≤ hi → hi - lo < 2 ^ fuel →
    (∀ k, lo < k → k ≤ hi → (p k = true ↔ k ≤ last)) → bisect p fuel lo hi = last := by
  intro fuel
  induction fuel with
  | zero => intro lo hi h1 h2 h3 _; simp only [bisect]; norm_num at h3; omega
  | succ fuel ih =>
    intro lo hi h1 h2 h3 h
    rw [pow_succ] at h3
    unfold bisect
    split
    · omega
    · have hp := h ((lo + hi + 1) / 2) (by omega) (by omega)
      split
      · rename_i ht
        exact ih _ _ (hp.1 ht) h2 (by omega) (fun k hk hk' => h k (by omega) hk')
      · rename_i hf
        have : ¬(lo + hi + 1) / 2 ≤ last := fun hle => hf (hp.2 hle)
        exact ih _ _ h1 (by omega) (by omega) (fun k hk hk' => h k hk (by omega))

/-- `reaches` compares the real sum with the midpoint below the key (spec/00_scope.md R11). -/
theorem TrigSum.reaches_iff (x : TrigSum) (shift : Nat) (k : Int) :
    x.reaches shift k = true
      ↔ ((keyUnits (k - 1) + keyUnits k : ℤ) : ℝ) * 2 ^ shift < 2 * x.value
        ∨ (((keyUnits (k - 1) + keyUnits k : ℤ) : ℝ) * 2 ^ shift = 2 * x.value ∧ k % 2 = 0) := by
  have hc := x.compare_correct 1 ((keyUnits (k - 1) + keyUnits k) * 2 ^ shift)
  simp only [TrigSum.reaches, Bool.or_eq_true, Bool.and_eq_true, decide_eq_true_eq]
  rw [hc]
  have key : ∀ t : SignType, ((0 : Int) < t ↔ t = 1) ∧ ((t : Int) = 0 ↔ t = 0) := by decide
  rw [(key _).1, (key _).2, sign_eq_one_iff, sign_eq_zero_iff]
  push_cast
  constructor <;> rintro (h | ⟨h, h'⟩)
  · exact .inl (by linarith)
  · exact .inr ⟨by linarith, h'⟩
  · exact .inl (by linarith)
  · exact .inr ⟨by linarith, h'⟩

end Sys2Proof.Machine
end

