-- ==== Sys2Proof/Laws/State.lean ====
section
/-! SUPPORT. One lemma for each field that matters after each update of the state, so that no later proof unfolds a record
update. -/

namespace Sys2Proof.Machine

/-! ### `tick` -/

@[simp] theorem State.tick_mem (s : State) : s.tick.mem = s.mem := rfl
@[simp] theorem State.tick_epoch (s : State) : s.tick.epoch = s.epoch := rfl
@[simp] theorem State.tick_arith (s : State) : s.tick.arith = s.arith := rfl
@[simp] theorem State.tick_draws (s : State) : s.tick.draws = s.draws + 1 := rfl
@[simp] theorem State.tick_status (s : State) : s.tick.status = s.status := rfl
@[simp] theorem State.tick_pending (s : State) : s.tick.pending = s.pending := rfl
@[simp] theorem State.tick_keyType (s : State) : s.tick.keyType = s.keyType := rfl
@[simp] theorem State.tick_crcValue (s : State) : s.tick.crcValue = s.crcValue := rfl
@[simp] theorem State.tick_inbox (s : State) : s.tick.inbox = s.inbox := rfl
@[simp] theorem State.tick_outbox (s : State) : s.tick.outbox = s.outbox := rfl
@[simp] theorem State.tick_busyFor (s : State) : s.tick.busyFor = s.busyFor := rfl
@[simp] theorem State.tick_byte (s : State) (a : Nat) : s.tick.byte a = s.byte a := rfl
@[simp] theorem State.tick_bytes (s : State) (a n : Nat) : s.tick.bytes a n = s.bytes a n := rfl
@[simp] theorem regValue_tick (s : State) (r : Reg) : regValue s.tick r = regValue s r := by cases r <;> rfl

/-! ### `putBytes` -/

@[simp] theorem State.putBytes_mem (s : State) (a : Nat) (bs : List Byte) : (s.putBytes a bs).mem = s.mem.store a bs := rfl
@[simp] theorem State.putBytes_epoch (s : State) (a : Nat) (bs : List Byte) : (s.putBytes a bs).epoch = s.epoch := rfl
@[simp] theorem State.putBytes_arith (s : State) (a : Nat) (bs : List Byte) : (s.putBytes a bs).arith = s.arith := rfl
@[simp] theorem State.putBytes_draws (s : State) (a : Nat) (bs : List Byte) : (s.putBytes a bs).draws = s.draws := rfl
@[simp] theorem State.putBytes_status (s : State) (a : Nat) (bs : List Byte) : (s.putBytes a bs).status = s.status := rfl
@[simp] theorem State.putBytes_pending (s : State) (a : Nat) (bs : List Byte) : (s.putBytes a bs).pending = s.pending := rfl
@[simp] theorem State.putBytes_inbox (s : State) (a : Nat) (bs : List Byte) : (s.putBytes a bs).inbox = s.inbox := rfl
@[simp] theorem State.putBytes_outbox (s : State) (a : Nat) (bs : List Byte) : (s.putBytes a bs).outbox = s.outbox := rfl
@[simp] theorem State.putBytes_busyFor (s : State) (a : Nat) (bs : List Byte) : (s.putBytes a bs).busyFor = s.busyFor := rfl
@[simp] theorem State.putBytes_cfgStream (s : State) (a : Nat) (bs : List Byte) : (s.putBytes a bs).cfgStream = s.cfgStream :=
  rfl
@[simp] theorem State.putBytes_cfgFrame (s : State) (a : Nat) (bs : List Byte) : (s.putBytes a bs).cfgFrame = s.cfgFrame := rfl
@[simp] theorem State.putBytes_cfgBands (s : State) (a : Nat) (bs : List Byte) : (s.putBytes a bs).cfgBands = s.cfgBands := rfl
@[simp] theorem State.putBytes_cfgRes (s : State) (a : Nat) (bs : List Byte) : (s.putBytes a bs).cfgRes = s.cfgRes := rfl
@[simp] theorem State.putBytes_cfgRoles (s : State) (a : Nat) (bs : List Byte) : (s.putBytes a bs).cfgRoles = s.cfgRoles := rfl
@[simp] theorem State.putBytes_keyType (s : State) (a : Nat) (bs : List Byte) : (s.putBytes a bs).keyType = s.keyType := rfl
@[simp] theorem State.putBytes_frameHdr (s : State) (a : Nat) (bs : List Byte) : (s.putBytes a bs).frameHdr = s.frameHdr := rfl
@[simp] theorem regValue_putBytes (s : State) (a : Nat) (bs : List Byte) (r : Reg) :
    regValue (s.putBytes a bs) r = regValue s r := by cases r <;> rfl

@[simp] theorem State.putWords_eq (s : State) (a : Nat) (ws : List Word) :
    s.putWords a ws = s.putBytes a (ws.flatMap wordBytes) := rfl
@[simp] theorem State.putHalves_eq (s : State) (a : Nat) (hs : List Half) :
    s.putHalves a hs = s.putBytes a (hs.flatMap halfBytes) := rfl

/-! ### Completion -/

@[simp] theorem completeOk_status (s : State) :
    (completeOk s).status = { s.status with busy := false, done := true, err := false, errCode := .none } := rfl
@[simp] theorem completeOk_errInfo (s : State) : (completeOk s).errInfo = 0 := rfl
@[simp] theorem completeOk_pending (s : State) : (completeOk s).pending = none := rfl
@[simp] theorem completeOk_busyFor (s : State) : (completeOk s).busyFor = 0 := rfl
@[simp] theorem completeOk_mem (s : State) : (completeOk s).mem = s.mem := rfl
@[simp] theorem completeOk_epoch (s : State) : (completeOk s).epoch = s.epoch := rfl
@[simp] theorem completeOk_draws (s : State) : (completeOk s).draws = s.draws := rfl
@[simp] theorem completeOk_arith (s : State) : (completeOk s).arith = s.arith := rfl
@[simp] theorem completeOk_inbox (s : State) : (completeOk s).inbox = s.inbox := rfl
@[simp] theorem completeOk_outbox (s : State) : (completeOk s).outbox = s.outbox := rfl
@[simp] theorem completeOk_byte (s : State) (a : Nat) : (completeOk s).byte a = s.byte a := rfl
@[simp] theorem completeOk_bytes (s : State) (a n : Nat) : (completeOk s).bytes a n = s.bytes a n := rfl
@[simp] theorem completeOk_cmd (s : State) : (completeOk s).cmd = s.cmd := rfl
@[simp] theorem completeOk_keyType (s : State) : (completeOk s).keyType = s.keyType := rfl
@[simp] theorem completeOk_crcValue (s : State) : (completeOk s).crcValue = s.crcValue := rfl

/-- Completion writes no register but `STATUS` and `ERR_INFO` (spec/60_exceptions.md R284). -/
theorem regValue_completeOk (s : State) (r : Reg) (h1 : r ≠ .status) (h2 : r ≠ .errInfo) :
    regValue (completeOk s) r = regValue s r := by cases r <;> first | rfl | contradiction

@[simp] theorem raiseError_status (c : ErrCode) (info : Word) (s : State) :
    (raiseError c info s).status = { s.status with busy := false, done := true, err := true, errCode := c } := rfl
@[simp] theorem raiseError_errInfo (c : ErrCode) (info : Word) (s : State) : (raiseError c info s).errInfo = info := rfl
@[simp] theorem raiseError_pending (c : ErrCode) (info : Word) (s : State) : (raiseError c info s).pending = none := rfl
@[simp] theorem raiseError_busyFor (c : ErrCode) (info : Word) (s : State) : (raiseError c info s).busyFor = 0 := rfl
@[simp] theorem raiseError_mem (c : ErrCode) (info : Word) (s : State) : (raiseError c info s).mem = s.mem := rfl
@[simp] theorem raiseError_epoch (c : ErrCode) (info : Word) (s : State) : (raiseError c info s).epoch = s.epoch := rfl
@[simp] theorem raiseError_draws (c : ErrCode) (info : Word) (s : State) : (raiseError c info s).draws = s.draws := rfl
@[simp] theorem raiseError_arith (c : ErrCode) (info : Word) (s : State) : (raiseError c info s).arith = s.arith := rfl
@[simp] theorem raiseError_inbox (c : ErrCode) (info : Word) (s : State) : (raiseError c info s).inbox = s.inbox := rfl
@[simp] theorem raiseError_outbox (c : ErrCode) (info : Word) (s : State) : (raiseError c info s).outbox = s.outbox := rfl
@[simp] theorem raiseError_byte (c : ErrCode) (info : Word) (s : State) (a : Nat) :
    (raiseError c info s).byte a = s.byte a := rfl
@[simp] theorem raiseError_keyType (c : ErrCode) (info : Word) (s : State) : (raiseError c info s).keyType = s.keyType := rfl

/-- Error completion writes no register but `STATUS` and `ERR_INFO` (spec/60_exceptions.md R283). -/
theorem regValue_raiseError (c : ErrCode) (info : Word) (s : State) (r : Reg) (h1 : r ≠ .status) (h2 : r ≠ .errInfo) :
    regValue (raiseError c info s) r = regValue s r := by cases r <;> first | rfl | contradiction

/-! ### Acceptance, conflicts and responses -/

@[simp] theorem accept_cmd (w : Word) (s : State) : (accept w s).cmd = w := rfl
@[simp] theorem accept_pending (w : Word) (s : State) : (accept w s).pending = some w := rfl
@[simp] theorem accept_status (w : Word) (s : State) :
    (accept w s).status = { s.status with busy := true, done := false, err := false, errCode := .none } := rfl
@[simp] theorem accept_mem (w : Word) (s : State) : (accept w s).mem = s.mem := rfl
@[simp] theorem accept_epoch (w : Word) (s : State) : (accept w s).epoch = s.epoch := rfl
@[simp] theorem accept_arith (w : Word) (s : State) : (accept w s).arith = s.arith := rfl
@[simp] theorem accept_inbox (w : Word) (s : State) : (accept w s).inbox = s.inbox := rfl
@[simp] theorem accept_outbox (w : Word) (s : State) : (accept w s).outbox = s.outbox := rfl

/-- Acceptance writes no register but `CMD` and `STATUS` (spec/60_exceptions.md R284). -/
theorem regValue_accept (w : Word) (s : State) (r : Reg) (h1 : r ≠ .status) (h2 : r ≠ .cmd) :
    regValue (accept w s) r = regValue s r := by cases r <;> first | rfl | contradiction

@[simp] theorem setConflict_status (s : State) : (setConflict s).status = { s.status with conflict := true } := rfl
@[simp] theorem setConflict_pending (s : State) : (setConflict s).pending = s.pending := rfl
@[simp] theorem setConflict_mem (s : State) : (setConflict s).mem = s.mem := rfl
@[simp] theorem setConflict_busyFor (s : State) : (setConflict s).busyFor = s.busyFor := rfl
@[simp] theorem setConflict_inbox (s : State) : (setConflict s).inbox = s.inbox := rfl

@[simp] theorem respond_status (r : BusResponse) (s : State) : (respond r s).status = s.status := rfl
@[simp] theorem respond_pending (r : BusResponse) (s : State) : (respond r s).pending = s.pending := rfl
@[simp] theorem respond_mem (r : BusResponse) (s : State) : (respond r s).mem = s.mem := rfl
@[simp] theorem respond_epoch (r : BusResponse) (s : State) : (respond r s).epoch = s.epoch := rfl
@[simp] theorem respond_busyFor (r : BusResponse) (s : State) : (respond r s).busyFor = s.busyFor := rfl
@[simp] theorem respond_inbox (r : BusResponse) (s : State) : (respond r s).inbox = s.inbox := rfl
@[simp] theorem respond_outbox (r : BusResponse) (s : State) : (respond r s).outbox = s.outbox ++ [r] := rfl
@[simp] theorem respond_byte (r : BusResponse) (s : State) (a : Nat) : (respond r s).byte a = s.byte a := rfl
@[simp] theorem regValue_respond (b : BusResponse) (s : State) (r : Reg) : regValue (respond b s) r = regValue s r := by
  cases r <;> rfl

/-! ### Reset -/

@[simp] theorem State.resetAgain_status (s : State) : s.resetAgain.status = {} := rfl
@[simp] theorem State.resetAgain_pending (s : State) : s.resetAgain.pending = none := rfl
@[simp] theorem State.resetAgain_mem (s : State) : s.resetAgain.mem = [] := rfl
@[simp] theorem State.resetAgain_busyFor (s : State) : s.resetAgain.busyFor = 0 := rfl
@[simp] theorem State.resetAgain_keyType (s : State) : s.resetAgain.keyType = 0 := rfl
@[simp] theorem State.resetAgain_inbox (s : State) : s.resetAgain.inbox = s.inbox := rfl
@[simp] theorem State.resetAgain_outbox (s : State) : s.resetAgain.outbox = s.outbox := rfl
@[simp] theorem State.resetAgain_arith (s : State) : s.resetAgain.arith = s.arith := rfl
@[simp] theorem State.resetAgain_epoch (s : State) : s.resetAgain.epoch = s.draws := rfl

/-! ### Registers the commands write -/

@[simp] theorem withCrcValue_mem (c : Half) (s : State) : (withCrcValue c s).mem = s.mem := rfl
@[simp] theorem withCrcValue_status (c : Half) (s : State) : (withCrcValue c s).status = s.status := rfl
@[simp] theorem withCrcValue_crcValue (c : Half) (s : State) : (withCrcValue c s).crcValue = c.setWidth 32 := rfl
@[simp] theorem withCrcValue_epoch (c : Half) (s : State) : (withCrcValue c s).epoch = s.epoch := rfl
theorem regValue_withCrcValue (c : Half) (s : State) (r : Reg) (h : r ≠ .crcValue) :
    regValue (withCrcValue c s) r = regValue s r := by cases r <;> first | rfl | contradiction

@[simp] theorem withBitPos_mem (p : Nat) (s : State) : (withBitPos p s).mem = s.mem := rfl
@[simp] theorem withBitPos_status (p : Nat) (s : State) : (withBitPos p s).status = s.status := rfl
@[simp] theorem withBitPos_epoch (p : Nat) (s : State) : (withBitPos p s).epoch = s.epoch := rfl
@[simp] theorem withBitPos_bitPos (p : Nat) (s : State) : (withBitPos p s).bitPos = BitVec.ofNat 32 p := rfl
theorem regValue_withBitPos (p : Nat) (s : State) (r : Reg) (h1 : r ≠ .bitPos) (h2 : r ≠ .bitsLeft) :
    regValue (withBitPos p s) r = regValue s r := by cases r <;> first | rfl | contradiction

@[simp] theorem withDeltaBits_mem (codes : List Nat) (s : State) : (withDeltaBits codes s).mem = s.mem := rfl
@[simp] theorem withDeltaBits_status (codes : List Nat) (s : State) : (withDeltaBits codes s).status = s.status := rfl
@[simp] theorem withDeltaBits_epoch (codes : List Nat) (s : State) : (withDeltaBits codes s).epoch = s.epoch := rfl
theorem regValue_withDeltaBits (codes : List Nat) (s : State) (r : Reg) (h1 : r ≠ .deltaBits0) (h2 : r ≠ .deltaBits1) :
    regValue (withDeltaBits codes s) r = regValue s r := by cases r <;> first | rfl | contradiction

@[simp] theorem withValidity_mem (v e : Bool) (s : State) : (withValidity v e s).mem = s.mem := rfl
@[simp] theorem withValidity_status (v e : Bool) (s : State) :
    (withValidity v e s).status = { s.status with valid := v, empty := e } := rfl
@[simp] theorem withValidity_epoch (v e : Bool) (s : State) : (withValidity v e s).epoch = s.epoch := rfl
theorem regValue_withValidity (v e : Bool) (s : State) (r : Reg) (h : r ≠ .status) :
    regValue (withValidity v e s) r = regValue s r := by cases r <;> first | rfl | contradiction

end Sys2Proof.Machine
end

