-- ==== Sys2Proof/Laws/Memory.lean ====
section
/-! SUPPORT. Memory: what a store leaves at each offset, and that every memory operation keeps the canonical form. -/

namespace Sys2Proof.Machine

/-! ### Looking up cells -/

theorem lookup_filter_of_true (m : Memory) (p : Nat → Bool) (a : Nat) (h : p a = true) :
    (m.filter (fun c => p c.1)).lookup a = m.lookup a := by
  induction m with
  | nil => rfl
  | cons c m ih =>
    obtain ⟨k, v⟩ := c
    by_cases hk : a = k
    · subst hk; simp [h]
    · have hne : (a == k) = false := by simpa using hk
      by_cases hp : p k = true
      · simp [hp, List.lookup_cons, hne, ih]
      · simp [hp, List.lookup_cons, hne, ih]

theorem lookup_filter_of_false (m : Memory) (p : Nat → Bool) (a : Nat) (h : p a = false) :
    (m.filter (fun c => p c.1)).lookup a = none := by
  induction m with
  | nil => rfl
  | cons c m ih =>
    obtain ⟨k, v⟩ := c
    by_cases hp : p k = true
    · have hk : (a == k) = false := by
        rw [beq_eq_false_iff_ne]; rintro rfl; simp [h] at hp
      simp [hp, List.lookup_cons, hk, ih]
    · simp [hp, ih]

theorem lookup_append (m n : Memory) (a : Nat) : (m ++ n).lookup a = (m.lookup a).or (n.lookup a) := by
  induction m with
  | nil => simp
  | cons c m ih =>
    obtain ⟨k, v⟩ := c
    by_cases hk : (a == k) = true <;> simp [List.lookup_cons, hk, ih]

theorem newCells_lookup_lt (a base : Nat) (bs : List Byte) (h : a < base) : (newCells base bs).lookup a = none := by
  induction bs generalizing base with
  | nil => rfl
  | cons v vs ih =>
    have hne : (a == base) = false := by simp; omega
    unfold newCells
    split
    · exact ih _ (by omega)
    · simp [List.lookup_cons, hne, ih (base + 1) (by omega)]

theorem newCells_lookup_ge (a base : Nat) (bs : List Byte) (h : base + bs.length ≤ a) :
    (newCells base bs).lookup a = none := by
  induction bs generalizing base with
  | nil => rfl
  | cons v vs ih =>
    simp only [List.length_cons] at h
    have hne : (a == base) = false := by simp; omega
    unfold newCells
    split
    · exact ih _ (by omega)
    · simp [List.lookup_cons, hne, ih (base + 1) (by omega)]

/-- Reading a stored place in the new cells: the stored bits, or what reset left where that is the same. -/
theorem newCells_read (epoch base i : Nat) (bs : List Byte) (h : i < bs.length) :
    ((newCells base bs).lookup (base + i)).getD (unlistedByte epoch (base + i)) =
      if cellMask (base + i) = 0 then unlistedByte epoch (base + i) else bs[i] &&& cellMask (base + i) := by
  induction bs generalizing base i with
  | nil => simp at h
  | cons v vs ih =>
    unfold newCells
    cases i with
    | zero =>
      split
      · rename_i hc
        rw [Nat.add_zero, newCells_lookup_lt _ _ _ (by omega)]
        rcases hc with hc | hc
        · simp [hc]
        · by_cases hm : cellMask base = 0
          · simp [hm]
          · simp [unlistedByte, hc]
      · rename_i hc
        push Not at hc
        rw [Nat.add_zero, if_neg hc.1]; simp
    | succ i =>
      have ih' := ih (base + 1) i (by simpa using h)
      rw [show base + 1 + i = base + (i + 1) by omega] at ih'
      split
      · simpa using ih'
      · have hne : (base + (i + 1) == base) = false := by simp
        simpa [List.lookup_cons, hne] using ih'

/-! ### A store -/

/-- A store changes no byte outside the stored ones (spec/20_memory.md R75). -/
theorem byteAt_store_outside (m : Memory) (epoch base a : Nat) (bs : List Byte) (h : a < base ∨ base + bs.length ≤ a) :
    (m.store base bs).byteAt epoch a = m.byteAt epoch a := by
  unfold Memory.byteAt Memory.store
  rw [lookup_append, lookup_append]
  rcases h with h | h
  · rw [lookup_filter_of_true m (fun x => decide (x < base)) a (by simpa using h), newCells_lookup_lt _ _ _ h,
      lookup_filter_of_false m (fun x => decide (base + bs.length ≤ x)) a (by simp; omega)]
    simp
  · rw [lookup_filter_of_false m (fun x => decide (x < base)) a (by simp; omega), newCells_lookup_ge _ _ _ h,
      lookup_filter_of_true m (fun x => decide (base + bs.length ≤ x)) a (by simpa using h)]
    simp

/-- A stored byte reads back with the bits its place stores; where nothing is stored it reads as reset left it
(spec/20_memory.md R75). -/
theorem byteAt_store_inside (m : Memory) (epoch base i : Nat) (bs : List Byte) (h : i < bs.length) :
    (m.store base bs).byteAt epoch (base + i) =
      if cellMask (base + i) = 0 then unlistedByte epoch (base + i) else bs[i] &&& cellMask (base + i) := by
  unfold Memory.byteAt Memory.store
  rw [lookup_append, lookup_append,
    lookup_filter_of_false m (fun x => decide (x < base)) (base + i) (by simp),
    lookup_filter_of_false m (fun x => decide (base + bs.length ≤ x)) (base + i) (by simp; omega)]
  simpa using newCells_read epoch base i bs h

theorem newCells_cellOk (base : Nat) (bs : List Byte) : ∀ c ∈ newCells base bs, cellOk c := by
  induction bs generalizing base with
  | nil => simp [newCells]
  | cons v vs ih =>
    unfold newCells
    split
    · exact ih _
    · rename_i hc
      push Not at hc
      intro c hmem
      rcases List.mem_cons.1 hmem with rfl | hmem
      · exact ⟨hc.1, by simp [BitVec.and_assoc], hc.2⟩
      · exact ih _ c hmem

theorem newCells_range (base : Nat) (bs : List Byte) : ∀ c ∈ newCells base bs, base ≤ c.1 ∧ c.1 < base + bs.length := by
  induction bs generalizing base with
  | nil => simp [newCells]
  | cons v vs ih =>
    intro c hmem
    unfold newCells at hmem
    simp only [List.length_cons]
    split at hmem
    · have := ih (base + 1) c hmem; omega
    · rcases List.mem_cons.1 hmem with rfl | hmem
      · simp
      · have := ih (base + 1) c hmem; omega

theorem newCells_sorted (base : Nat) (bs : List Byte) : (newCells base bs).Pairwise (fun c d => c.1 < d.1) := by
  induction bs generalizing base with
  | nil => simp [newCells]
  | cons v vs ih =>
    unfold newCells
    split
    · exact ih _
    · refine List.pairwise_cons.2 ⟨fun d hd => ?_, ih _⟩
      have := newCells_range _ _ d hd
      simp only; omega

/-- A store keeps the canonical form of memory. -/
theorem store_wf (m : Memory) (base : Nat) (bs : List Byte) (h : m.wf) : (m.store base bs).wf := by
  obtain ⟨hs, hc⟩ := h
  refine ⟨?_, ?_⟩
  · unfold Memory.store
    refine List.pairwise_append.2 ⟨List.pairwise_append.2 ⟨hs.filter _, newCells_sorted _ _, ?_⟩, hs.filter _, ?_⟩
    · intro c hc' d hd
      have := newCells_range _ _ d hd
      have : c.1 < base := by simpa using (List.mem_filter.1 hc').2
      omega
    · intro c hc' d hd
      have hd' : base + bs.length ≤ d.1 := by simpa using (List.mem_filter.1 hd).2
      rcases List.mem_append.1 hc' with hc' | hc'
      · have : c.1 < base := by simpa using (List.mem_filter.1 hc').2
        omega
      · have := newCells_range _ _ c hc'; omega
  · intro c hmem
    rcases List.mem_append.1 hmem with hmem | hmem
    · rcases List.mem_append.1 hmem with hmem | hmem
      · exact hc c (List.mem_filter.1 hmem).1
      · exact newCells_cellOk _ _ c hmem
    · exact hc c (List.mem_filter.1 hmem).1

/-- A store of nothing changes nothing the memory reads. -/
theorem byteAt_store_nil (m : Memory) (epoch base a : Nat) : (m.store base []).byteAt epoch a = m.byteAt epoch a :=
  byteAt_store_outside m epoch base a [] (by simp; omega)

/-- Reset's memory is canonical. -/
theorem reset_mem_wf : Memory.wf State.reset.mem := ⟨List.Pairwise.nil, by simp [State.reset]⟩

/-! ### Reading blocks -/

/-- A block is its bytes, one by one. -/
theorem block_eq_map (m : Memory) (epoch base n : Nat) :
    m.block epoch base n = (List.range n).map (fun i => m.byteAt epoch (base + i)) := by
  unfold Memory.block Memory.byteAt
  refine List.map_congr_left (fun i hi => ?_)
  have hi : i < n := List.mem_range.1 hi
  have := lookup_filter_of_true m (fun x => decide (base ≤ x ∧ x < base + n)) (base + i) (by simp [hi])
  rw [this]

@[simp] theorem block_length (m : Memory) (epoch base n : Nat) : (m.block epoch base n).length = n := by
  simp [block_eq_map]

/-! ### The same, of a state -/

theorem State.bytes_eq_map (s : State) (base n : Nat) :
    s.bytes base n = (List.range n).map (fun i => s.byte (base + i)) := block_eq_map _ _ _ _

@[simp] theorem State.bytes_length (s : State) (base n : Nat) : (s.bytes base n).length = n := block_length _ _ _ _

theorem State.byte_putBytes_outside (s : State) (base a : Nat) (bs : List Byte) (h : a < base ∨ base + bs.length ≤ a) :
    (s.putBytes base bs).byte a = s.byte a := byteAt_store_outside _ _ _ _ _ h

theorem State.byte_putBytes_inside (s : State) (base i : Nat) (bs : List Byte) (h : i < bs.length) :
    (s.putBytes base bs).byte (base + i) =
      if cellMask (base + i) = 0 then unlistedByte s.epoch (base + i) else bs[i] &&& cellMask (base + i) :=
  byteAt_store_inside _ _ _ _ _ h

/-- In a byte that the RAM stores whole, what is stored reads back. -/
theorem State.byte_putBytes_whole (s : State) (base i : Nat) (bs : List Byte) (h : i < bs.length)
    (hm : cellMask (base + i) = 0xFF#8) : (s.putBytes base bs).byte (base + i) = bs[i] := by
  rw [State.byte_putBytes_inside s base i bs h, hm, if_neg (by decide)]
  exact BitVec.and_allOnes

/-- Every byte the RAM holds has only the bits its place stores, in canonical memory. -/
theorem byteAt_masked (m : Memory) (epoch a : Nat) (h : m.wf)
    (hr : ∀ v, resetByte? a = some v → v &&& cellMask a = v)
    (ho : openResetByte epoch a &&& cellMask a = openResetByte epoch a) :
    m.byteAt epoch a &&& cellMask a = m.byteAt epoch a := by
  unfold Memory.byteAt
  cases hl : m.lookup a with
  | none =>
    simp only [Option.getD_none, unlistedByte]
    cases hv : resetByte? a with
    | none => simpa using ho
    | some v => simpa using hr v hv
  | some v =>
    have hmem : (a, v) ∈ m := by
      clear h
      induction m with
      | nil => simp at hl
      | cons c m ih =>
        obtain ⟨k, w⟩ := c
        rw [List.lookup_cons] at hl
        by_cases hk : (a == k) = true
        · simp only [hk] at hl
          have hak : a = k := by simpa using hk
          have hvw : w = v := by simpa using hl
          subst hak; subst hvw; exact List.mem_cons_self
        · simp only [hk] at hl
          exact List.mem_cons_of_mem _ (ih hl)
    simpa using (h.2 _ hmem).2.1

end Sys2Proof.Machine
end

