-- ==== Sys2Proof/Laws/Regions.lean ====
section
/-! SUPPORT. What lies at the offset of each array and window (spec/10_state.md R50, spec/20_memory.md R71), and which bits are
stored there. -/

namespace Sys2Proof.Machine

/-- Two arrays of a slot do not overlap: the one that holds an offset is the one found (spec/10_state.md R50). -/
theorem slotRegion_of_mem (ch : Nat) (array : SlotArray) (i : Nat) (hi : i < slotArrayBytes array) :
    slotRegion ch (slotArrayOffset array + i) = .slot ch array i := by
  have hfind : slotArrays.find? (fun a => decide (slotArrayOffset a ≤ slotArrayOffset array + i
      ∧ slotArrayOffset array + i < slotArrayOffset a + slotArrayBytes a)) = some array := by
    have key : ∀ b ∈ slotArrays, (slotArrayOffset b ≤ slotArrayOffset array + i
        ∧ slotArrayOffset array + i < slotArrayOffset b + slotArrayBytes b) → b = array := by
      intro b _ hb
      cases array <;> cases b <;> simp only [slotArrayOffset, slotArrayBytes] at hi hb <;> first | rfl | (exfalso; omega)
    have hmem : array ∈ slotArrays := by cases array <;> decide
    cases hf : slotArrays.find? (fun a => decide (slotArrayOffset a ≤ slotArrayOffset array + i
        ∧ slotArrayOffset array + i < slotArrayOffset a + slotArrayBytes a)) with
    | none => have := List.find?_eq_none.1 hf array hmem; simp at this; omega
    | some b => rw [key b (List.mem_of_find?_eq_some hf) (by simpa using List.find?_some hf)]
  unfold slotRegion
  rw [hfind]
  simp

/-- The offset of a byte of a slot array holds that byte (spec/10_state.md R50). -/
theorem regionOf_slotAddr (ch : Nat) (array : SlotArray) (i : Nat) (hc : ch < 16) (hi : i < slotArrayBytes array) :
    regionOf (slotAddr ch array i) = .slot ch array i := by
  have hoff : slotArrayOffset array + i < 0x4000 := by
    cases array <;> simp only [slotArrayOffset, slotArrayBytes] at hi ⊢ <;> omega
  have heq : slotAddr ch array i = 0x40000 + 0x4000 * ch + (slotArrayOffset array + i) := by unfold slotAddr; omega
  generalize slotAddr ch array i = a at heq
  unfold regionOf
  rw [if_neg (by omega), if_neg (by omega), if_neg (by omega), if_pos (by omega),
    show (a - 0x40000) / 0x4000 = ch by omega, show (a - 0x40000) % 0x4000 = slotArrayOffset array + i by omega]
  exact slotRegion_of_mem ch array i hi

/-- The frame buffer's bytes (spec/20_memory.md R71). -/
theorem regionOf_frameBuf (i : Nat) (h : i < 0x10000) : regionOf (frameBufBase + i) = .frameBuf i := by
  have heq : frameBufBase + i = 0x10000 + i := rfl
  generalize frameBufBase + i = a at heq
  unfold regionOf
  rw [if_neg (by omega), if_pos (by omega), show a - 0x10000 = i by omega]

/-- The decryption table's bytes (spec/20_memory.md R71). -/
theorem regionOf_keyDec (i : Nat) (h : i < 256) : regionOf (keyDecBase + i) = .keyDec i := by
  have heq : keyDecBase + i = 0x20100 + i := rfl
  generalize keyDecBase + i = a at heq
  unfold regionOf
  rw [if_neg (by omega), if_neg (by omega), if_pos (by omega), if_neg (by omega), if_neg (by omega), if_pos (by omega),
    show a - 0x20100 = i by omega]

/-- The encryption table's bytes (spec/20_memory.md R71). -/
theorem regionOf_keyEnc (i : Nat) (h : i < 256) : regionOf (keyEncBase + i) = .keyEnc i := by
  have heq : keyEncBase + i = 0x20200 + i := rfl
  generalize keyEncBase + i = a at heq
  unfold regionOf
  rw [if_neg (by omega), if_neg (by omega), if_pos (by omega), if_neg (by omega), if_neg (by omega), if_neg (by omega),
    if_pos (by omega), show a - 0x20200 = i by omega]

/-- The bits that a byte of an array stores (spec/10_state.md R51 to R54). -/
def slotMask : SlotArray → Byte
  | .sf | .hfrScale => 0x3F
  | .res | .intensity => 0x0F
  | .qspec | .imdctCarry | .mdctPrev | .spec | .tbuf | .pcm => 0xFF

/-- A slot's byte stores the bits of its array's elements. -/
theorem cellMask_slotAddr (ch : Nat) (array : SlotArray) (i : Nat) (hc : ch < 16) (hi : i < slotArrayBytes array) :
    cellMask (slotAddr ch array i) = slotMask array := by
  unfold cellMask
  rw [regionOf_slotAddr ch array i hc hi]
  cases array <;> rfl

theorem cellMask_frameBuf (i : Nat) (h : i < 0x10000) : cellMask (frameBufBase + i) = 0xFF := by
  unfold cellMask
  rw [regionOf_frameBuf i h]

theorem cellMask_keyDec (i : Nat) (h : i < 256) : cellMask (keyDecBase + i) = 0xFF := by
  unfold cellMask
  rw [regionOf_keyDec i h]

theorem cellMask_keyEnc (i : Nat) (h : i < 256) : cellMask (keyEncBase + i) = 0xFF := by
  unfold cellMask
  rw [regionOf_keyEnc i h]

/-- A property of a slot's bytes, at a slot's offset. -/
@[simp] theorem inSlot_slotAddr (ch : Nat) (array : SlotArray) (i : Nat) (p : Nat → SlotArray → Nat → Bool) (hc : ch < 16)
    (hi : i < slotArrayBytes array) : inSlot (slotAddr ch array i) p = p ch array i := by
  unfold inSlot
  rw [regionOf_slotAddr ch array i hc hi]

@[simp] theorem inFrameBuf_frameBuf (i : Nat) (p : Nat → Bool) (h : i < 0x10000) :
    inFrameBuf (frameBufBase + i) p = p i := by
  unfold inFrameBuf
  rw [regionOf_frameBuf i h]

/-- Every byte of RAM holds only the bits its place stores, when memory is canonical (spec/20_memory.md R75). -/
theorem State.byte_masked (s : State) (a : Nat) (h : s.mem.wf) (hm : cellMask a ≠ 0) :
    s.byte a &&& cellMask a = s.byte a := by
  refine byteAt_masked s.mem s.epoch a h (fun v hv => ?_) ?_
  · unfold resetByte? at hv
    unfold cellMask at hm ⊢
    cases hr : regionOf a <;> simp_all <;> try (exact BitVec.and_allOnes)
    rename_i array _
    cases array <;> simp_all <;> subst hv <;> rfl
  · unfold openResetByte cellMask
    cases hr : regionOf a <;> simp only [BitVec.and_assoc, BitVec.and_self]
    exact (by decide : ∀ x : BitVec 4, x.setWidth 8 &&& 0x0F#8 = x.setWidth 8) _

end Sys2Proof.Machine
end

