-- ==== Sys2Proof/Laws/Ops.lean ====
section
/-! SUPPORT. One lemma for each shared operation that says what it can do: completion, the checks, iteration, elements, the bit
cursor and the host's accesses. -/

namespace Sys2Proof.Machine

/-! ### Completion -/

/-- Every effect completes. -/
theorem finish_next (e : Effect) (t : State) : finish e = .next t ↔ t = complete e := by
  unfold finish
  constructor
  · intro h; cases h; rfl
  · rintro rfl; rfl

/-- What completion can leave: the effect's state, completed without an error or with the effect's error. -/
theorem complete_cases (e : Effect) :
    (∃ s, e = .ok s ∧ complete e = completeOk s)
      ∨ ∃ code info s, e = .error code info s ∧ complete e = raiseError code info s := by
  cases e with
  | ok s => exact .inl ⟨s, rfl, rfl⟩
  | error code info s => exact .inr ⟨code, info, s, rfl, rfl⟩

/-- Every execution is the completion of an effect. -/
theorem exec_eq_finish (i : Instr) (s : State) : ∃ e, exec i s = finish e := by
  cases i <;> exact ⟨_, rfl⟩

/-- Every command answers a next state in which it has completed. -/
theorem exec_completes (i : Instr) (s t : State) (h : exec i s = .next t) :
    ∃ e, exec i s = finish e ∧ t = complete e := by
  obtain ⟨e, he⟩ := exec_eq_finish i s
  exact ⟨e, he, (finish_next e t).1 (he ▸ h)⟩

@[simp] theorem Effect.andThen_ok (s : State) (k : State → Effect) : (Effect.ok s).andThen k = k s := rfl
@[simp] theorem Effect.andThen_error (c : ErrCode) (info : Word) (s : State) (k : State → Effect) :
    (Effect.error c info s).andThen k = .error c info s := rfl

/-! ### Checks -/

theorem requireCfg_of_ok (s : State) (k : Effect) (h : cfgOk s = true) : requireCfg s k = k := by simp [requireCfg, h]
theorem requireCfg_of_not (s : State) (k : Effect) (h : cfgOk s = false) : requireCfg s k = .error .badConfig 0 s := by
  simp [requireCfg, h]
theorem requireFrame_of_ok (s : State) (k : Effect) (h : frameOk s = true) : requireFrame s k = k := by
  simp [requireFrame, h]
theorem requireFrame_of_not (s : State) (k : Effect) (h : frameOk s = false) :
    requireFrame s k = .error .badConfig 0 s := by simp [requireFrame, h]
theorem requireChannel_of_ok (s : State) (ch : Nat) (allCh : Bool) (k : Effect) (h : ChannelOk s ch allCh) :
    requireChannel s ch allCh k = k := by
  rcases h with h | h <;> simp [requireChannel, badChannel, h]

/-- Under `CFG_OK` there are 1 to 16 channels and at most 128 bands (spec/10_state.md R30). -/
theorem cfgOk_bounds (s : State) (h : cfgOk s = true) :
    1 ≤ chCount s ∧ chCount s ≤ 16 ∧ totalBands s ≤ 128 ∧ hfrGroups s ≤ 8 ∧ minRes s ≤ maxRes s := by
  simp only [cfgOk, Bool.and_eq_true, decide_eq_true_eq] at h
  obtain ⟨⟨⟨⟨h1, h2⟩, h3⟩, h4⟩, -⟩ := h
  exact ⟨h1.1, h1.2, h2, h3, h4⟩

/-- Under `CFG_OK` every channel's coded bands are bands (spec/44_bitstream.md R205). -/
theorem coded_le (s : State) (ch : Nat) (h : cfgOk s = true) : coded s ch ≤ totalBands s ∧ coded s ch ≤ 128 := by
  have := cfgOk_bounds s h
  have : coded s ch ≤ totalBands s := by
    unfold coded totalBands; split <;> omega
  omega

/-- Under `CFG_OK` a StereoPrimary channel is followed by its StereoSecondary (spec/10_state.md R30). -/
theorem primary_has_secondary (s : State) (p : Nat) (h : cfgOk s = true) (hp : p < chCount s)
    (hr : role s p = .stereoPrimary) : p + 1 < chCount s ∧ role s (p + 1) = .stereoSecondary := by
  simp only [cfgOk, Bool.and_eq_true, List.all_eq_true] at h
  have := h.2 p (List.mem_range.2 hp)
  simpa [roleOk, hr] using this

/-! ### Iteration -/

@[simp] theorem forEach_nil (f : Nat → State → State) (s : State) : forEach [] f s = s := rfl
@[simp] theorem forEach_cons (x : Nat) (xs : List Nat) (f : Nat → State → State) (s : State) :
    forEach (x :: xs) f s = forEach xs f (f x s) := rfl
theorem forEach_append (xs ys : List Nat) (f : Nat → State → State) (s : State) :
    forEach (xs ++ ys) f s = forEach ys f (forEach xs f s) := by simp [forEach, List.foldl_append]

/-- What every turn keeps, the iteration keeps. -/
theorem forEach_keeps (P : State → Prop) (xs : List Nat) (f : Nat → State → State)
    (h : ∀ x ∈ xs, ∀ s, P s → P (f x s)) (s : State) (hs : P s) : P (forEach xs f s) := by
  induction xs generalizing s with
  | nil => exact hs
  | cons x xs ih =>
    exact ih (fun y hy => h y (List.mem_cons_of_mem _ hy)) (f x s) (h x List.mem_cons_self s hs)

/-- What every turn leaves of a view of the state, the iteration leaves. -/
theorem forEach_view {α : Type} (view : State → α) (xs : List Nat) (f : Nat → State → State)
    (h : ∀ x ∈ xs, ∀ s, view (f x s) = view s) (s : State) : view (forEach xs f s) = view s :=
  forEach_keeps (fun t => view t = view s) xs f (fun x hx t ht => (h x hx t).trans ht) s rfl

/-- An iteration over channels and subframes keeps what each block keeps. -/
theorem forBlocks_keeps (P : State → Prop) (block : Nat → Nat → State → State) (chans subs : List Nat)
    (h : ∀ c ∈ chans, ∀ q ∈ subs, ∀ s, P s → P (block c q s)) (s : State) (hs : P s) : P (forBlocks block chans subs s) :=
  forEach_keeps P chans _ (fun c hc t ht => forEach_keeps P subs _ (fun q hq u hu => h c hc q hq u hu) t ht) s hs

/-! ### Elements -/

@[simp] theorem wordBytes_length (w : Word) : (wordBytes w).length = 4 := rfl
@[simp] theorem halfBytes_length (h : Half) : (halfBytes h).length = 2 := rfl

/-- The image of a 32-bit element is read back as the element (spec/20_memory.md R74). -/
theorem bytesToWords_flatMap (ws : List Word) : bytesToWords (ws.flatMap wordBytes) = ws := by
  induction ws with
  | nil => rfl
  | cons w ws ih =>
    have hw : (w.extractLsb' 24 8 ++ w.extractLsb' 16 8 ++ w.extractLsb' 8 8 ++ w.extractLsb' 0 8 : BitVec 32) = w := by
      rw [BitVec.extractLsb'_append_extractLsb'_eq_extractLsb' (by omega),
        BitVec.extractLsb'_append_extractLsb'_eq_extractLsb' (by omega),
        BitVec.extractLsb'_append_extractLsb'_eq_extractLsb' (by omega)]
      exact BitVec.extractLsb'_eq_self
    simp only [List.flatMap_cons, wordBytes, List.cons_append, List.nil_append, bytesToWords, hw, ih]

/-- The image of a 16-bit element is read back as the element (spec/20_memory.md R74). -/
theorem bytesToHalves_flatMap (hs : List Half) : bytesToHalves (hs.flatMap halfBytes) = hs := by
  induction hs with
  | nil => rfl
  | cons w ws ih =>
    have hw : (w.extractLsb' 8 8 ++ w.extractLsb' 0 8 : BitVec 16) = w := by
      rw [BitVec.extractLsb'_append_extractLsb'_eq_extractLsb' (by omega)]
      exact BitVec.extractLsb'_eq_self
    simp only [List.flatMap_cons, halfBytes, List.cons_append, List.nil_append, bytesToHalves, hw, ih]

theorem range_map_four {α : Type} (f : Nat → α) (n : Nat) :
    (List.range (4 * n)).map f = (List.range n).flatMap (fun i => [f (4 * i), f (4 * i + 1), f (4 * i + 2), f (4 * i + 3)]) := by
  induction n with
  | zero => rfl
  | succ n ih =>
    rw [show 4 * (n + 1) = 4 * n + 1 + 1 + 1 + 1 by omega]
    simp only [List.range_succ, List.map_append, List.flatMap_append, ih]
    simp

theorem range_map_two {α : Type} (f : Nat → α) (n : Nat) :
    (List.range (2 * n)).map f = (List.range n).flatMap (fun i => [f (2 * i), f (2 * i + 1)]) := by
  induction n with
  | zero => rfl
  | succ n ih =>
    rw [show 2 * (n + 1) = 2 * n + 1 + 1 by omega]
    simp only [List.range_succ, List.map_append, List.flatMap_append, ih]
    simp

/-- The elements a command reads are the 32-bit elements at their offsets. -/
theorem State.words_eq_map (s : State) (base n : Nat) :
    s.words base n = (List.range n).map (fun i => s.wordAt (base + 4 * i)) := by
  unfold State.words
  rw [State.bytes_eq_map, range_map_four]
  induction (List.range n) with
  | nil => rfl
  | cons i is ih =>
    simp only [List.flatMap_cons, List.map_cons, List.cons_append, List.nil_append, bytesToWords, ih]
    rfl

/-- The elements a command reads are the 16-bit elements at their offsets. -/
theorem State.halves_eq_map (s : State) (base n : Nat) :
    s.halves base n = (List.range n).map (fun i => s.halfAt (base + 2 * i)) := by
  unfold State.halves
  rw [State.bytes_eq_map, range_map_two]
  induction (List.range n) with
  | nil => rfl
  | cons i is ih =>
    simp only [List.flatMap_cons, List.map_cons, List.cons_append, List.nil_append, bytesToHalves, ih]
    rfl

@[simp] theorem State.words_length (s : State) (base n : Nat) : (s.words base n).length = n := by
  simp [State.words_eq_map]
@[simp] theorem State.halves_length (s : State) (base n : Nat) : (s.halves base n).length = n := by
  simp [State.halves_eq_map]
@[simp] theorem State.nums_length (s : State) (base n : Nat) : (s.nums base n).length = n := by simp [State.nums]

theorem State.nums_eq_map (s : State) (base n : Nat) :
    s.nums base n = (List.range n).map (fun i => s.numAt (base + i)) := by
  simp [State.nums, State.bytes_eq_map, State.numAt]

theorem flatMap_wordBytes_length (ws : List Word) : (ws.flatMap wordBytes).length = 4 * ws.length := by
  induction ws with
  | nil => rfl
  | cons w ws ih => simp [ih]; omega

theorem flatMap_halfBytes_length (hs : List Half) : (hs.flatMap halfBytes).length = 2 * hs.length := by
  induction hs with
  | nil => rfl
  | cons w ws ih => simp [ih]; omega

/-- Byte `j` of the image of element `i`. -/
theorem flatMap_wordBytes_getElem (ws : List Word) (i j : Nat) (hi : i < ws.length) (hj : j < 4)
    (h : 4 * i + j < (ws.flatMap wordBytes).length) :
    (ws.flatMap wordBytes)[4 * i + j] = ws[i].extractLsb' (8 * j) 8 := by
  induction ws generalizing i with
  | nil => simp at hi
  | cons w ws ih =>
    cases i with
    | zero =>
      have h4 : 4 * 0 + j < (wordBytes w).length := by simpa using hj
      simp only [List.flatMap_cons, List.getElem_append_left h4, List.getElem_cons_zero]
      interval_cases j <;> rfl
    | succ i =>
      have hlen : (wordBytes w).length ≤ 4 * (i + 1) + j := by simp; omega
      simp only [List.flatMap_cons, List.getElem_append_right hlen, List.getElem_cons_succ]
      have h' : 4 * i + j < (ws.flatMap wordBytes).length := by
        rw [flatMap_wordBytes_length]; simp at hi; omega
      rw [← ih i (by simpa using hi) h']
      congr 1
      simp; omega

/-- A stored 32-bit element in whole bytes reads back (spec/20_memory.md R74). -/
theorem State.wordAt_putWords (s : State) (base i : Nat) (ws : List Word) (h : i < ws.length)
    (hm : ∀ j, j < 4 → cellMask (base + 4 * i + j) = 0xFF#8) : (s.putWords base ws).wordAt (base + 4 * i) = ws[i] := by
  have hlen := flatMap_wordBytes_length ws
  have hb : ∀ j, j < 4 → (s.putWords base ws).byte (base + 4 * i + j) = ws[i].extractLsb' (8 * j) 8 := by
    intro j hj
    have h' : 4 * i + j < (ws.flatMap wordBytes).length := by omega
    have := State.byte_putBytes_whole s base (4 * i + j) (ws.flatMap wordBytes) h' (by rw [← Nat.add_assoc]; exact hm j hj)
    rw [State.putWords_eq, Nat.add_assoc, this, flatMap_wordBytes_getElem ws i j h hj]
  unfold State.wordAt
  have h0 := hb 0 (by omega)
  rw [Nat.add_zero] at h0
  rw [hb 3 (by omega), hb 2 (by omega), hb 1 (by omega), h0]
  rw [BitVec.extractLsb'_append_extractLsb'_eq_extractLsb' (by omega),
    BitVec.extractLsb'_append_extractLsb'_eq_extractLsb' (by omega),
    BitVec.extractLsb'_append_extractLsb'_eq_extractLsb' (by omega)]
  exact BitVec.extractLsb'_eq_self

/-- A store of 32-bit elements changes no element outside it. -/
theorem State.wordAt_putBytes_outside (s : State) (base a : Nat) (bs : List Byte)
    (h : a + 4 ≤ base ∨ base + bs.length ≤ a) : (s.putBytes base bs).wordAt a = s.wordAt a := by
  unfold State.wordAt
  rw [State.byte_putBytes_outside _ _ _ _ (by omega), State.byte_putBytes_outside _ _ _ _ (by omega),
    State.byte_putBytes_outside _ _ _ _ (by omega), State.byte_putBytes_outside _ _ _ _ (by omega)]

/-! ### Bit sequences -/

@[simp] theorem bitsOf_length (n v : Nat) : (bitsOf n v).length = n := by simp [bitsOf]

/-- The bits of a number, one more at the end. -/
theorem bitsOf_succ (n v : Nat) : bitsOf (n + 1) v = bitsOf n (v / 2) ++ [v.testBit 0] := by
  unfold bitsOf
  rw [List.range_succ, List.map_append]
  congr 1
  · refine List.map_congr_left (fun i hi => ?_)
    have hi : i < n := List.mem_range.1 hi
    rw [show n + 1 - 1 - i = (n - 1 - i) + 1 by omega, Nat.testBit_succ]
  · simp

/-- A bit sequence's value, one more bit at the end. -/
theorem valueOf_concat (bits : List Bool) (b : Bool) : valueOf (bits ++ [b]) = 2 * valueOf bits + b.toNat := by
  simp [valueOf, List.foldl_append]

/-- The value of a number's bits is the number (spec/00_scope.md R8). -/
theorem valueOf_bitsOf (n v : Nat) (h : v < 2 ^ n) : valueOf (bitsOf n v) = v := by
  induction n generalizing v with
  | zero => simp at h; subst h; rfl
  | succ n ih =>
    rw [bitsOf_succ, valueOf_concat, ih (v / 2) (by rw [Nat.pow_succ] at h; omega)]
    rw [Nat.testBit_zero]
    by_cases hv : v % 2 = 1 <;> simp [hv] <;> omega

theorem valueOf_lt (bits : List Bool) : valueOf bits < 2 ^ bits.length := by
  induction bits using List.reverseRecOn with
  | nil => simp [valueOf]
  | append_singleton bits b ih =>
    rw [valueOf_concat, List.length_append, List.length_singleton, Nat.pow_succ]
    cases b <;> simp <;> omega

/-! ### The bit cursor -/

/-- What `readUint` can answer: the value of the next `n` bits, or OVERRUN where the read starts (spec/44_bitstream.md R201). -/
theorem readUint_cases (n : Nat) (c : Cursor) :
    (n ≤ c.rest.length ∧ readUint n c = .ok (valueOf (c.rest.take n), ⟨c.pos + n, c.rest.drop n⟩))
      ∨ (c.rest.length < n ∧ readUint n c = .error ⟨.overrun, c.pos⟩) := by
  by_cases h : n ≤ c.rest.length
  · left; refine ⟨h, ?_⟩; simp [readUint, h]
  · right; refine ⟨by omega, ?_⟩; simp [readUint]; omega

/-- A reader's answer from a bind: the first reader's, carried on. -/
theorem reader_bind_ok {α β : Type} (r : Reader α) (k : α → Reader β) (c : Cursor) (b : β) (c' : Cursor)
    (h : (r >>= k) c = .ok (b, c')) : ∃ a c1, r c = .ok (a, c1) ∧ k a c1 = .ok (b, c') := by
  cases hr : r c with
  | error e => simp [bind, StateT.bind, Except.bind, hr] at h
  | ok p => exact ⟨p.1, p.2, rfl, by simpa [bind, StateT.bind, Except.bind, hr] using h⟩

/-! ### The host's accesses -/

/-- A read changes nothing and answers a value exactly when it is legal (spec/20_memory.md R72, R73). -/
theorem busRead_cases (s : State) (offset n : Nat) :
    (accessLegal offset n = true ∧ ∃ v, busRead s offset n = .ok v)
      ∨ (accessLegal offset n = false ∧ busRead s offset n = .error .hostBus) := by
  by_cases h : accessLegal offset n = true
  · exact .inl ⟨h, by simp [busRead, h]⟩
  · exact .inr ⟨by simpa using h, by simp [busRead, h]⟩

/-- A write is made exactly when it is legal: to a register below 0x10000, else to RAM (spec/20_memory.md R72, R73). -/
theorem busWrite_cases (s : State) (offset n : Nat) (v : Word) :
    (accessLegal offset n = true ∧ offset < 0x10000 ∧ busWrite s offset n v = .ok (writeReg offset v s))
      ∨ (accessLegal offset n = true ∧ 0x10000 ≤ offset ∧ busWrite s offset n v = .ok (writeRam offset n v s))
      ∨ (accessLegal offset n = false ∧ busWrite s offset n v = .error .hostBus) := by
  by_cases h : accessLegal offset n = true
  · by_cases ho : offset < 0x10000
    · exact .inl ⟨h, ho, by simp [busWrite, h, ho]⟩
    · exact .inr (.inl ⟨h, by omega, by simp [busWrite, h, ho]⟩)
  · exact .inr (.inr ⟨by simpa using h, by simp [busWrite, h]⟩)

/-- What a write of a register can do. -/
theorem writeReg_cases (offset : Nat) (v : Word) (s : State) :
    (regAt offset = none ∧ s.status.busy = false ∧ writeReg offset v s = s)
      ∨ (regAt offset = some .cmd ∧ writeReg offset v s = writeCmd v s)
      ∨ (regAt offset = some .ctrl ∧ writeReg offset v s = writeCtrl v s)
      ∨ (regAt offset = some .status ∧ writeReg offset v s = { s with status := statusWriteOneToClear s.status v })
      ∨ (s.status.busy = true ∧ writeReg offset v s = setConflict s)
      ∨ ∃ r, regAt offset = some r ∧ s.status.busy = false ∧ writeReg offset v s = storeReg r v s := by
  unfold writeReg
  split
  · rename_i h
    by_cases hb : s.status.busy = true
    · exact .inr (.inr (.inr (.inr (.inl ⟨hb, by simp [hb]⟩))))
    · exact .inl ⟨h, by simpa using hb, by simp [hb]⟩
  · rename_i h; exact .inr (.inl ⟨h, rfl⟩)
  · rename_i h; exact .inr (.inr (.inl ⟨h, rfl⟩))
  · rename_i h; exact .inr (.inr (.inr (.inl ⟨h, rfl⟩)))
  · rename_i r _ _ _ h
    by_cases hb : s.status.busy = true
    · exact .inr (.inr (.inr (.inr (.inl ⟨hb, by simp [hb]⟩))))
    · exact .inr (.inr (.inr (.inr (.inr ⟨r, h, by simpa using hb, by simp [hb]⟩))))

/-- What a write of RAM can do. -/
theorem writeRam_cases (offset n : Nat) (v : Word) (s : State) :
    (s.status.busy = true ∧ writeRam offset n v s = setConflict s)
      ∨ (s.status.busy = false ∧ writeRam offset n v s = storeRam offset n v s) := by
  unfold writeRam
  by_cases hb : s.status.busy = true
  · exact .inl ⟨hb, by simp [hb]⟩
  · right; exact ⟨by simpa using hb, by simp [hb]⟩

/-- What a step can be: a pending command's execution, an illegal word's completion, or the host's move (spec/60_exceptions.md
R284). -/
theorem step_cases (s : State) :
    (step s = .next (hostStep s) ∧ (s.pending = none ∨ completesNow s = false))
      ∨ (∃ w i, s.pending = some w ∧ completesNow s = true ∧ decode? w = some i ∧ step s = exec i s)
      ∨ ∃ w, s.pending = some w ∧ completesNow s = true ∧ decode? w = none
          ∧ step s = .next (raiseError .illegal 0 s) := by
  cases hp : s.pending with
  | none => exact .inl ⟨by simp [step, hp], .inl rfl⟩
  | some w =>
    by_cases hc : completesNow s = true
    · cases hd : decode? w with
      | none => exact .inr (.inr ⟨w, rfl, hc, hd, by simp [step, hp, hc, hd, completeIllegal, finish, complete]⟩)
      | some i => exact .inr (.inl ⟨w, i, rfl, hc, hd, by simp [step, hp, hc, hd]⟩)
    · exact .inl ⟨by simp [step, hp, hc], .inr (by simpa using hc)⟩

end Sys2Proof.Machine
end

