-- ==== Sys2Proof/Laws/PerInstr.lean ====
section
/-! SUPPORT. Per-instruction laws: the encoded word of each well-formed command matches exactly one row of the opcode table
(spec/30_encoding.md R94, R97). -/

namespace Sys2Proof.Laws.EncodedRow

/-- The word of a well-formed command matches exactly one row of the opcode table. -/
def Statement (i : Instr) : Prop :=
  i.wellFormed = true → (opcodeTable.filter (fun r => r.matchesWord (encode i))).length = 1

/-- A fact about the command of every channel slot and flag. -/
theorem channel_form (f : Nat → Bool → Instr) (hw : ∀ ch a, (f ch a).wellFormed = true → ch < 16)
    (h : ∀ (ch : Fin 16) (a : Bool), (opcodeTable.filter (fun r => r.matchesWord (encode (f ch a)))).length = 1)
    (ch : Nat) (a : Bool) : Statement (f ch a) := fun hwf => h ⟨ch, hw ch a hwf⟩ a

/-- A fact about the command of every channel slot, subframe and flag. -/
theorem channelSubframe_form (f : Nat → Bool → Nat → Bool → Instr)
    (hw : ∀ ch a sub b, (f ch a sub b).wellFormed = true → ch < 16 ∧ sub < 8)
    (h : ∀ (ch : Fin 16) (a : Bool) (sub : Fin 8) (b : Bool),
      (opcodeTable.filter (fun r => r.matchesWord (encode (f ch a sub b)))).length = 1)
    (ch : Nat) (a : Bool) (sub : Nat) (b : Bool) : Statement (f ch a sub b) :=
  fun hwf => h ⟨ch, (hw ch a sub b hwf).1⟩ a ⟨sub, (hw ch a sub b hwf).2⟩ b

theorem nop : Statement .nop := fun _ => by decide +kernel
theorem resetOvl (ch : Nat) (a : Bool) : Statement (.resetOvl ch a) :=
  channel_form .resetOvl (fun _ _ => of_decide_eq_true) (by decide +kernel) ch a
theorem keygen0 : Statement .keygen0 := fun _ => by decide +kernel
theorem keygen1 : Statement .keygen1 := fun _ => by decide +kernel
theorem keygen56 : Statement .keygen56 := fun _ => by decide +kernel
theorem decrypt : Statement .decrypt := fun _ => by decide +kernel
theorem encrypt : Statement .encrypt := fun _ => by decide +kernel
theorem crcCalc : Statement .crcCalc := fun _ => by decide +kernel
theorem crcGen : Statement .crcGen := fun _ => by decide +kernel
theorem crcCheck : Statement .crcCheck := fun _ => by decide +kernel
theorem unpack : Statement .unpack := fun _ => by decide +kernel
theorem pack (dry : Bool) : Statement (.pack dry) := fun _ => by cases dry <;> decide +kernel
theorem dequant (ch : Nat) (a : Bool) : Statement (.dequant ch a) :=
  channel_form .dequant (fun _ _ => of_decide_eq_true) (by decide +kernel) ch a
theorem hfrRecon (ch : Nat) (a : Bool) : Statement (.hfrRecon ch a) :=
  channel_form .hfrRecon (fun _ _ => of_decide_eq_true) (by decide +kernel) ch a
theorem istereo (sub : Nat) (b : Bool) : Statement (.istereo sub b) := fun hwf =>
  (by decide +kernel : ∀ (sub : Fin 8) (b : Bool),
    (opcodeTable.filter (fun r => r.matchesWord (encode (.istereo sub b)))).length = 1) ⟨sub, of_decide_eq_true hwf⟩ b
theorem imdct (ch : Nat) (a : Bool) (sub : Nat) (b : Bool) : Statement (.imdct ch a sub b) :=
  channelSubframe_form .imdct (fun _ _ _ _ h => by simpa [Instr.wellFormed] using h) (by decide +kernel) ch a sub b
theorem mdct (ch : Nat) (a : Bool) (sub : Nat) (b : Bool) : Statement (.mdct ch a sub b) :=
  channelSubframe_form .mdct (fun _ _ _ _ h => by simpa [Instr.wellFormed] using h) (by decide +kernel) ch a sub b
theorem pcmOut (ch : Nat) (a : Bool) (sub : Nat) (b : Bool) : Statement (.pcmOut ch a sub b) :=
  channelSubframe_form .pcmOut (fun _ _ _ _ h => by simpa [Instr.wellFormed] using h) (by decide +kernel) ch a sub b
theorem pcmIn (ch : Nat) (a : Bool) (sub : Nat) (b : Bool) : Statement (.pcmIn ch a sub b) :=
  channelSubframe_form .pcmIn (fun _ _ _ _ h => by simpa [Instr.wellFormed] using h) (by decide +kernel) ch a sub b
theorem decodeFrame : Statement .decodeFrame := fun _ => by decide +kernel

end Sys2Proof.Laws.EncodedRow
end

