-- ==== Sys2Proof/Tests/Slice0.lean ====
section
/-! SUPPORT. The model's own tests: the WellFormed smoke, a written-out word for every constructor, one or two steps for each
command with the expected values of the spec's examples, and a witness for the hypotheses of each statement. -/

namespace Sys2Proof.Tests

open Sys2Proof.Machine

-- The kernel checks one test at a time: run side by side, the tests need more stacks than the check's memory limit admits.
set_option Elab.async false

/-! ### WellFormed: an ill-formed term for each check, and the largest operands that pass -/

theorem test_resetOvl_ch_16_refused : Instr.wellFormed (.resetOvl 16 false) = false := by decide
theorem test_dequant_ch_16_refused : Instr.wellFormed (.dequant 16 true) = false := by decide
theorem test_hfrRecon_ch_16_refused : Instr.wellFormed (.hfrRecon 16 false) = false := by decide
theorem test_istereo_sub_8_refused : Instr.wellFormed (.istereo 8 false) = false := by decide
theorem test_imdct_ch_16_refused : Instr.wellFormed (.imdct 16 false 0 false) = false := by decide
theorem test_imdct_sub_8_refused : Instr.wellFormed (.imdct 0 false 8 false) = false := by decide
theorem test_mdct_ch_16_refused : Instr.wellFormed (.mdct 16 false 0 false) = false := by decide
theorem test_mdct_sub_8_refused : Instr.wellFormed (.mdct 0 false 8 true) = false := by decide
theorem test_pcmOut_ch_16_refused : Instr.wellFormed (.pcmOut 16 false 0 false) = false := by decide
theorem test_pcmOut_sub_8_refused : Instr.wellFormed (.pcmOut 0 false 8 false) = false := by decide
theorem test_pcmIn_ch_16_refused : Instr.wellFormed (.pcmIn 16 true 0 false) = false := by decide
theorem test_pcmIn_sub_8_refused : Instr.wellFormed (.pcmIn 0 true 8 false) = false := by decide
theorem test_largest_operands_wellFormed : Instr.wellFormed (.imdct 15 true 7 true) = true := by decide

/-! ### Decoding: words written out from spec/30_encoding.md R90, R97, R98 and spec/95_test_vectors.md section 8 -/

theorem test_decode_nop : decode 0x00000000#32 = .ok .nop := by decide +kernel
theorem test_decode_resetOvl : decode 0x00000301#32 = .ok (.resetOvl 3 false) := by decide +kernel
theorem test_decode_resetOvl_all : decode 0x00008001#32 = .ok (.resetOvl 0 true) := by decide +kernel
theorem test_decode_keygen0 : decode 0x00000002#32 = .ok .keygen0 := by decide +kernel
theorem test_decode_keygen1 : decode 0x01000002#32 = .ok .keygen1 := by decide +kernel
theorem test_decode_keygen56 : decode 0x38000002#32 = .ok .keygen56 := by decide +kernel
theorem test_decode_decrypt : decode 0x00000003#32 = .ok .decrypt := by decide +kernel
theorem test_decode_encrypt : decode 0x00000004#32 = .ok .encrypt := by decide +kernel
theorem test_decode_crcCalc : decode 0x00000005#32 = .ok .crcCalc := by decide +kernel
theorem test_decode_crcGen : decode 0x00000006#32 = .ok .crcGen := by decide +kernel
theorem test_decode_crcCheck : decode 0x00000007#32 = .ok .crcCheck := by decide +kernel
theorem test_decode_unpack : decode 0x00000010#32 = .ok .unpack := by decide +kernel
theorem test_decode_pack : decode 0x00000011#32 = .ok (.pack false) := by decide +kernel
theorem test_decode_pack_dry : decode 0x00020011#32 = .ok (.pack true) := by decide +kernel
theorem test_decode_dequant : decode 0x00000F20#32 = .ok (.dequant 15 false) := by decide +kernel
theorem test_decode_hfrRecon : decode 0x00008021#32 = .ok (.hfrRecon 0 true) := by decide +kernel
theorem test_decode_istereo : decode 0x00007022#32 = .ok (.istereo 7 false) := by decide +kernel
theorem test_decode_istereo_all : decode 0x00010022#32 = .ok (.istereo 0 true) := by decide +kernel
theorem test_decode_imdct : decode 0x00010130#32 = .ok (.imdct 1 false 0 true) := by decide +kernel
theorem test_decode_mdct : decode 0x00005231#32 = .ok (.mdct 2 false 5 false) := by decide +kernel
theorem test_decode_pcmOut : decode 0x00018032#32 = .ok (.pcmOut 0 true 0 true) := by decide +kernel
theorem test_decode_pcmIn : decode 0x0000A433#32 = .ok (.pcmIn 4 true 2 false) := by decide +kernel
theorem test_decode_decodeFrame : decode 0x00000040#32 = .ok .decodeFrame := by decide +kernel
theorem test_decode_bytes_low_first : decodeBytes [0x30, 0x01, 0x01, 0x00] = some (.imdct 1 false 0 true) := by
  decide +kernel

/-! Illegal words (spec/30_encoding.md R94), each with its reason. -/

theorem test_illegal_op : decode 0x00000008#32 = .error (.unassignedOp 8) := by decide +kernel
theorem test_illegal_keygen_tag : decode 0x02000002#32 = .error (.unknownKeygenTag 2) := by decide +kernel
theorem test_illegal_reserved_bit : decode 0x00040000#32 = .error .fieldNotUsed := by decide +kernel
theorem test_illegal_unused_ch : decode 0x00000110#32 = .error .fieldNotUsed := by decide +kernel
theorem test_illegal_sub_in_resetOvl : decode 0x00001001#32 = .error .fieldNotUsed := by decide +kernel
theorem test_illegal_dry_in_dequant : decode 0x00020020#32 = .error .fieldNotUsed := by decide +kernel

/-! ### Steps: the examples of the spec's rules -/

/-- The state of an outcome. -/
def after (o : Host.Outcome State Fault Refusal) : State :=
  match o with
  | .next t => t
  | .fault _ => State.reset
  | .refused _ => State.reset

/-- A reset machine with `channels` channels and frames of `bytes` bytes. -/
def machine (channels bytes : Nat) : State :=
  { State.reset with cfgStream := BitVec.ofNat 32 channels, cfgFrame := BitVec.ofNat 32 bytes }

/-- The frame of the example of spec/44_bitstream.md R216. -/
def emptyFrame : State := (machine 1 6).putBytes frameBufBase [0xFF, 0xFF, 0x00, 0x00, 0x00, 0x24]

/-- Two channels, a stereo pair, with bands `base` coded and `stereo` stereo bands. -/
def stereoPair (base stereo : Nat) : State :=
  { machine 2 6 with cfgRoles := 0x9, cfgBands := BitVec.ofNat 32 (base + 256 * stereo) }

-- R140, R284, R40: NOP clears an error indication.
theorem test_nop_clears_error :
    (after (exec .nop (raiseError .badConfig 0 State.reset))).status = { done := true } := by decide +kernel
-- R141's example, and a slot that CH_COUNT does not reach.
theorem test_resetOvl_example :
    (after (exec (.resetOvl 3 false) (State.reset.putWords (slotAddr 3 .imdctCarry 0) [0x3F800000#32]))).wordAt
      (slotAddr 3 .imdctCarry 0) = 0 := by decide +kernel
-- R162's example.
theorem test_keygen0_example :
    (after (exec .keygen0 State.reset)).numAt (keyDecBase + 0x5A) = 0x5A := by decide +kernel
-- R164's example and first row.
theorem test_keygen1_row :
    (after (exec .keygen1 State.reset)).nums keyDecBase 16 =
      [0x00, 0x0B, 0x9A, 0xDD, 0x44, 0x7F, 0x7E, 0x71, 0xC8, 0x33, 0xA2, 0x45, 0x8C, 0x27, 0x06, 0x59] := by decide +kernel
theorem test_keygen1_inverse : (after (exec .keygen1 State.reset)).numAt (keyEncBase + 0x0B) = 1 := by decide +kernel
-- R170's rows.
theorem test_keygen56_key_zero :
    (type56Table 0).take 16 =
      [0x00, 0x66, 0xCC, 0xDD, 0x22, 0xBB, 0x88, 0x99, 0xEE, 0x77, 0x44, 0x55, 0xAA, 0x33, 0x61, 0xF6] := by decide +kernel
theorem test_keygen56_example :
    (after (exec .keygen56 { State.reset with keyLo := 0xABCC7DB2, keyHi := 0x0030DBE1 })).nums keyDecBase 16 =
      [0x00, 0x1A, 0xEF, 0x78, 0xCC, 0xDA, 0xA3, 0x3E, 0x82, 0x94, 0x61, 0xFA, 0x40, 0x59, 0x23, 0xB3] := by decide +kernel
-- R171's and R172's examples.
theorem test_decrypt_example :
    (after (exec .decrypt (after (exec .keygen1 ((machine 1 6).putBytes frameBufBase [0xFF, 0xFF, 0x0B, 0, 0, 0]))))).byte
      (frameBufBase + 2) = 0x45 := by decide +kernel
theorem test_encrypt_example :
    (after (exec .encrypt (after (exec .keygen1 ((machine 1 6).putBytes frameBufBase [0xFF, 0xFF, 0x01, 0, 0, 0]))))).byte
      (frameBufBase + 2) = 0xD6 := by decide +kernel
-- R152's example.
theorem test_crcCalc_example :
    (after (exec .crcCalc { State.reset.putBytes frameBufBase [0x31, 0x32, 0x33, 0x34, 0x35, 0x36, 0x37, 0x38, 0x39] with
      crcLen := 9 })).crcValue = 0x0000FEE8 := by decide +kernel
-- R153's example.
theorem test_crcGen_example :
    (after (exec .crcGen ((machine 1 6).putBytes frameBufBase [0xFF, 0xFF, 0x00, 0x00]))).bytes (frameBufBase + 4) 2 =
      [0x00, 0x24] := by decide +kernel
-- R154's examples.
theorem test_crcCheck_match : (after (exec .crcCheck emptyFrame)).status.crcOk = true := by decide +kernel
theorem test_crcCheck_mismatch :
    (after (exec .crcCheck (emptyFrame.putBytes (frameBufBase + 5) [0x25]))).status.crcOk = false := by decide +kernel
-- R216's example.
theorem test_unpack_example :
    (after (exec .unpack emptyFrame)).status = { done := true, valid := true, empty := true } := by decide +kernel
theorem test_unpack_cursor :
    ((after (exec .unpack emptyFrame)).bitPos, (after (exec .unpack emptyFrame)).bitsLeft) = (35#32, 13#32) := by
  decide +kernel
-- R232's examples.
theorem test_pack_example :
    (after (exec (.pack false) ((machine 1 8).putBytes (slotAddr 0 .sf 0) [0]))).bytes frameBufBase 8 =
      [0xFF, 0xFF, 0x00, 0x00, 0x00, 0x00, 0x00, 0xD8] := by decide +kernel
theorem test_pack_frameFull :
    ((after (exec (.pack false) (machine 1 6))).status.errCode, (after (exec (.pack false) (machine 1 6))).errInfo) =
      (.frameFull, 35#32) := by decide +kernel
-- R250's example.
theorem test_dequant_example :
    let s := (((machine 1 6).putBytes (slotAddr 0 .sf 5) [63]).putBytes (slotAddr 0 .res 5) [1]).putHalves
      (slotAddr 0 .qspec (2 * (128 * 7 + 5))) [1#16]
    (dequantRow s 0 7 (dequantFactors s 0)).getD 5 0 = 0x40F15BEF := by decide +kernel
-- R252's example: the mirrored bands.
theorem test_hfrRecon_example :
    (after (exec (.hfrRecon 0 false) (((State.putBytes { machine 1 6 with cfgBands := 0x02020002 } (slotAddr 0 .sf 0)
      [10, 10]).putBytes (slotAddr 0 .hfrScale 0) [10]).putWords (specAddr 0 4 0) [0x3F000000#32, 0x3F800000#32]))).words
        (specAddr 0 4 2) 2 = [0x3F800000, 0x3F000000] := by decide +kernel
-- R255's example.
theorem test_istereo_example :
    (after (exec (.istereo 0 false) (((stereoPair 0 1).putBytes (slotAddr 1 .intensity 0) [7]).putWords (specAddr 0 0 0)
      [0x3F000000#32]))).wordAt (specAddr 1 0 0) = 0xBF000000 := by decide +kernel
-- spec/95_test_vectors.md 7.2, T3: out[1], out[64] and the new carry's entry 0.
theorem test_imdct_T3 :
    let out := inverseBlock .exact (fun _ => 0) ((List.range 256).map winInit)
      ((List.range 128).map (fun k => if k = 5 then 0xC0000000 else 0)) (List.replicate 128 0x3F000000)
    (out.getD 1 0, out.getD 64 0, out.getD 128 0) = (0x3F000748, 0x3EF9D64E, 0xBE286605) := by decide +kernel
-- spec/95_test_vectors.md 7.3, the first row: X[0] and X[127].
theorem test_mdct_ones :
    let x := forwardBlock .exact (fun _ => 0) ((List.range 256).map winInit) (List.replicate 128 0)
      (List.replicate 128 0x3F800000)
    (x.getD 0 0, x.getD 127 0) = (0xC10C6197, 0x3D350312) := by decide +kernel
-- R190's examples: ties, clamps and signed zero.
theorem test_pcmOut_examples :
    [0x3F800000#32, 0xBF800000, 0x37800000, 0xB7800000, 0xB8400000, 0x80000000, 0x7F800000, 0xFF800000, 0x3F000000].map
      (fun v => (pcmSample 0 v).toInt) = [32767, -32768, 1, 0, -1, 0, 32767, -32768, 16384] := by decide +kernel
theorem test_pcmOut_example :
    (after (exec (.pcmOut 0 false 0 false) ((machine 1 6).putWords (tbufAddr 0 0 + 20) [0x3F000000#32]))).halfAt
      (pcmAddr 0 0 + 10) = 16384 := by decide +kernel
-- R191's examples.
theorem test_pcmIn_example :
    (after (exec (.pcmIn 0 false 0 false) ((machine 1 6).putHalves (pcmAddr 0 0) [1#16]))).wordAt (tbufAddr 0 0) =
      0x38000000 := by decide +kernel
theorem test_pcmIn_extremes :
    (i2fScaled (-32768) 15, i2fScaled 32767 15) = (0xBF800000#32, 0x3F7FFE00#32) := by decide +kernel
-- R11: a product that rounds to a subnormal, and overflow to infinity.
theorem test_mul32_subnormal : mul32 0 0x00800000 0x3F000000 = 0x00400000 := by decide +kernel
theorem test_mul32_overflow : mul32 0 0x7F7FFFFF 0xC0000000 = 0xFF800000 := by decide +kernel

-- The exact sign of a real number (R182): 99 - 70 sqrt 2, a zero, and a sum of cosines that is exactly 1.
theorem test_sign_close : signAt 1 [99, -70, 0, 70] = 1 ∧ signAt 1 [-99, 70, 0, -70] = -1 := by decide +kernel
theorem test_sign_nested : signAt 2 [0, 1, -1, 0, 0, 0, 1, -1] = 1 ∧ signAt 2 (List.replicate 8 0) = 0 := by decide +kernel
theorem test_compare_equal : (⟨-1, [(1, 0)]⟩ : TrigSum).compare 1 0 = 0 := by decide +kernel

/-! The host's accesses and reset. -/

-- R75, R51: a byte of SF keeps six bits.
theorem test_host_write_sf :
    (busWrite State.reset (slotAddr 2 .sf 9) 1 0xFF).toOption.map (fun t => t.byte (slotAddr 2 .sf 9)) = some 0x3F := by
  decide +kernel
-- R310: a table default, read through the bus, and the fault of a misaligned read (R73).
theorem test_host_read_window : busRead State.reset 0x20C04 4 = .ok 0x3A0B8332 := by decide +kernel
theorem test_host_read_misaligned : busRead State.reset 0x20C02 4 = .error .hostBus := by decide +kernel
-- R313: a command that needs a configuration, as the first one after reset.
theorem test_first_command_bad_config :
    (after (step (State.reset.withFetchWord 32 0x00000010))).status.errCode = .badConfig := by decide +kernel
-- R290: while NOP runs, a write at a reserved offset is ignored and sets CONFLICT.
theorem test_busy_write_reserved :
    (busWrite (acceptNow 0 State.reset) 0x0014 4 1).toOption.map (fun t => t.status.conflict) = some true := by decide +kernel
-- R80, R252: while HFR_RECON runs with no coded band, band 0 of the spectrum reads its value.
theorem test_busy_read_unwritten_band :
    readByte ((acceptNow 0x21 { machine 1 6 with cfgBands := 0x02020000 }).putBytes (slotAddr 0 .spec 0) [0x5A])
      (slotAddr 0 .spec 0) = 0x5A := by decide +kernel
-- R94: an illegal word.
theorem test_illegal_word_step :
    (after (step (State.reset.withFetchWord 32 0x000000FF))).status.errCode = .illegal := by decide +kernel

/-! ### Witnesses: for each statement with hypotheses, a state and operands that meet them together, each clause at the ends of
its range. The name is the statement's. -/

/-- A reset machine in which NOP has been accepted and runs. -/
def busyMachine : State := acceptNow 0 State.reset

/-- Sixteen channels. -/
def fullMachine : State := machine 16 6

/-- HFR active in one group of two bands over two coded ones, at a version. -/
def hfrMachine (ver : Nat) : State :=
  { machine 1 6 with cfgStream := BitVec.ofNat 32 (1 + ver * 2 ^ 16), cfgBands := 0x02020002 }

/-- A frame whose delta-bits code is not 0 and that leaves 13 bits: it unpacks and is not valid. -/
def invalidFrame : State := (machine 1 6).putBytes frameBufBase [0xFF, 0xFF, 0x00, 0x00, 0xC0, 0x00]

/-- The example of R232, whose frame PACK can write. -/
def packable : State := machine 1 8

theorem witness_DecodeOfEncode :
    Instr.wellFormed (.imdct 15 true 7 true) = true ∧ Instr.wellFormed (.imdct 0 false 0 false) = true := by decide

theorem witness_EncodeOfDecode : decode 0x0001FF33#32 = .ok (.pcmIn 15 true 7 true) := by decide +kernel

theorem witness_WordIsOneRowOrIllegal :
    (0x0001FF30#32 &&& formMask .channelSubframe = 0x00000030#32)
      ∧ (∀ r ∈ opcodeTable, 0xFFFFFFFF#32 &&& formMask r.form ≠ r.pattern)
      ∧ (acceptNow 0xFFFFFFFF State.reset).pending = some 0xFFFFFFFF#32
      ∧ completesNow (acceptNow 0xFFFFFFFF State.reset) = true
      ∧ decode? 0x38000002#32 = some .keygen56 ∧ opField 0x38000002#32 = 2
      ∧ decode? 0x00020011#32 = some (.pack true) ∧ dryField 0x00020011#32 = true ∧ opField 0x00020011#32 ≠ 2
      ∧ decode? 0x00017022#32 = some (.istereo 7 true) ∧ subField 0x00017022#32 ≠ 0
      ∧ decode? 0x00008F21#32 = some (.hfrRecon 15 true) ∧ chField 0x00008F21#32 ≠ 0 := by decide +kernel

theorem witness_StepRunsDecodedCommand :
    busyMachine.pending = some 0 ∧ completesNow busyMachine = true ∧ decode? 0 = some .nop := by decide +kernel

theorem witness_EveryCommandEnds :
    ({ busyMachine with inbox := [.read 0 4], busyFor := 1 } : State).pending = some 0
      ∧ ({ busyMachine with inbox := [.read 0 4], busyFor := 1 } : State).status.busy = true
      ∧ completesNow { busyMachine with inbox := [.read 0 4], busyFor := 1 } = false := by decide +kernel

theorem witness_CompletionProtocol :
    exec .nop busyMachine = .next (completeOk busyMachine) ∧ (completeOk busyMachine).status.err = false
      ∧ exec .unpack State.reset = .next (raiseError .badConfig 0 State.reset)
      ∧ (raiseError .badConfig 0 State.reset).status.err = true := ⟨rfl, rfl, rfl, rfl⟩

theorem witness_CommandsWriteOnlyTheirPlaces :
    Instr.wellFormed (.resetOvl 15 false) = true
      ∧ exec (.resetOvl 15 false) State.reset = .next (after (exec (.resetOvl 15 false) State.reset))
      ∧ exec .nop State.reset = .next (completeOk State.reset) := ⟨by decide, rfl, rfl⟩

theorem witness_FlagWriters :
    exec .crcCheck State.reset = .next (raiseError .badConfig 0 State.reset)
      ∧ (raiseError .badConfig 0 State.reset).status.errCode = .badConfig
      ∧ exec .nop State.reset = .next (completeOk State.reset) := ⟨rfl, rfl, rfl⟩

theorem witness_OverlapBufferWriters :
    Instr.wellFormed .nop = true ∧ exec .nop State.reset = .next (completeOk State.reset)
      ∧ exec .decodeFrame State.reset = .next (raiseError .badConfig 0 State.reset)
      ∧ (raiseError .badConfig 0 State.reset).status.err = true ∧ 15 < 16 ∧ 511 < 512
      ∧ busWrite State.reset 0x0024 4 6 = .ok { State.reset with cfgFrame := 6 } :=
  ⟨rfl, rfl, rfl, rfl, by decide, by decide, rfl⟩

theorem witness_StepKeepsKeyTables :
    KeyTablesInverse busyMachine ∧ KeyTypeLegal busyMachine ∧ step busyMachine = .next (completeOk busyMachine) := by
  refine ⟨?_, .inl rfl, rfl⟩
  unfold KeyTablesInverse
  decide +kernel

theorem witness_StepKeepsMemoryCanonical :
    emptyFrame.mem.wf ∧ step emptyFrame = .next emptyFrame := ⟨by decide +kernel, rfl⟩

theorem registersInFields_of_fields (s : State) (h : [Reg.ctrl, .status, .cmd, .errInfo, .cfgStream, .cfgFrame, .cfgBands, .cfgRes,
    .cfgDerived, .cfgRoles, .keyLo, .keyHi, .keyType, .frameHdr, .bitPos, .bitsLeft, .crcValue, .crcLen, .deltaBits0,
    .deltaBits1, .id].all (fun r => regValue s r &&& regMask r == regValue s r) = true) : RegistersInFields s := by
  intro r
  have := List.all_eq_true.1 h r (by cases r <;> simp)
  simpa using this

theorem witness_StepKeepsRegisterFields :
    packable.mem.wf ∧ RegistersInFields packable ∧ step packable = .next packable :=
  ⟨by decide +kernel, registersInFields_of_fields _ (by decide +kernel), rfl⟩

theorem witness_StepKeepsStatusConsistent :
    PendingMatchesBusy busyMachine ∧ StatusConsistent busyMachine
      ∧ step busyMachine = .next (completeOk busyMachine) := by
  refine ⟨rfl, ?_, rfl⟩
  unfold StatusConsistent
  decide +kernel

theorem witness_IllegalAccessNotPerformed :
    (0x80000 ≤ 0x80000 ∨ (0x80000 < 0x10000 ∧ (4 ≠ 4 ∨ 0x80000 % 4 ≠ 0)))
      ∧ (0xFFFE < 0x10000 ∧ (4 ≠ 4 ∨ 0xFFFE % 4 ≠ 0)) ∧ (0 < 0x10000 ∧ (2 ≠ 4 ∨ 0 % 4 ≠ 0))
      ∧ (0x10000 ≤ 0x10001 ∧ ((2 ≠ 1 ∧ 2 ≠ 2 ∧ 2 ≠ 4) ∨ 0x10001 % 2 ≠ 0))
      ∧ (0x10000 ≤ 0x10000 ∧ ((3 ≠ 1 ∧ 3 ≠ 2 ∧ 3 ≠ 4) ∨ 0x10000 % 3 ≠ 0)) := by decide

theorem witness_RamWriteReadsBack :
    State.reset.status.busy = false ∧ State.reset.pending = none
      ∧ (accessLegal 0x10000 4 = true ∧ ∀ i, i < 4 → hostWritable (0x10000 + i) = true)
      ∧ (accessLegal 0x7F7FF 1 = true ∧ ∀ i, i < 1 → hostWritable (0x7F7FF + i) = true)
      ∧ (accessLegal 0x20A38 2 = true ∧ ∀ i, i < 2 → hostWritable (0x20A38 + i) = true) := by decide +kernel

theorem witness_ReservedAndReadOnlyPlaces :
    emptyFrame.mem.wf ∧ emptyFrame.status.busy = false ∧ emptyFrame.pending = none
      ∧ regAt 0x0014 = none ∧ regAt 0xFFFC = none ∧ regionOf 0x20080 = .none ∧ regionOf 0x7FFFF = .none
      ∧ 0x7C0FF % 0x4000 = 0xFF ∧ 0x40080 % 0x4000 = 0x80 := by decide +kernel

theorem witness_RegisterWriteReadsBack :
    (∀ j, (fun j => (State.reset.cfgBands.extractLsb' (8 * j) 8).toNat) j
        = (State.reset.cfgBands.extractLsb' (8 * j) 8).toNat) ∧ State.reset.status.busy = false ∧ State.reset.pending = none ∧ regAt 0x0020 = some .cfgStream
      ∧ regAt 0x0054 = some .crcLen ∧ regAt 0x0028 = some .cfgBands :=
  ⟨fun _ => rfl, by decide⟩

theorem witness_CommandAcceptance : State.reset.status.busy = false := rfl

theorem witness_BusyWritesRefused :
    busyMachine.status.busy = true ∧ accessLegal 0x0000 4 = true ∧ accessLegal 0xFFFC 4 = true ∧ accessLegal 0x10000 1 = true
      ∧ accessLegal 0x7FFFC 4 = true ∧ (1 : Word).getLsbD 1 = false := by decide +kernel

theorem witness_BusyReadOfOtherPlaces :
    (busyMachine.pending = some 0 ∧ decode? 0 = some .nop ∧ writesByte .nop busyMachine 0x10000 = false
        ∧ regAt 0x0020 = some .cfgStream ∧ writesReg .nop .cfgStream = false ∧ completesNow busyMachine = true
        ∧ step busyMachine = .next (completeOk busyMachine))
      ∧ (acceptNow 0x00000010 State.reset).pending = some 0x00000010#32 ∧ decode? 0x00000010#32 = some .unpack
      ∧ (after (exec .unpack (acceptNow 0x00000010 State.reset))).status.errCode = .badConfig
      ∧ decode? 0x00000040#32 = some .decodeFrame ∧ (after (exec .decodeFrame (acceptNow 0x40 invalidFrame))).status.err = true
      ∧ writesByte .unpack (acceptNow 0x40 invalidFrame) (slotAddr 0 .spec 0) = false
      ∧ decode? 0xFFFFFFFF#32 = none :=
  ⟨⟨rfl, by decide +kernel, rfl, rfl, rfl, rfl, rfl⟩, rfl, by decide +kernel, rfl, by decide +kernel, by decide +kernel,
    by decide +kernel, by decide +kernel⟩

theorem witness_InterruptOutput :
    exec .nop State.reset = .next (completeOk State.reset) ∧ State.reset.status.busy = false
      ∧ busWrite State.reset 0x000C 4 0 = .ok (accept 0 State.reset) ∧ busWrite State.reset 0x0008 4 2 = .ok State.reset
      ∧ busWrite State.reset 0x0004 4 1 = .ok { State.reset with ctrl := 1 } := ⟨rfl, rfl, rfl, rfl, rfl⟩

theorem witness_SoftReset : (2 : Word).getLsbD 1 = true := by decide

theorem witness_HardwareReset :
    hostOp .hardReset busyMachine = busyMachine.resetAgain ∧ cellMask 0x10000 ≠ 0 ∧ cellMask 0x7F7FF ≠ 0
      ∧ 15 < 16 ∧ 127 < 128 := ⟨rfl, by decide +kernel, by decide +kernel, by decide, by decide⟩

theorem witness_CommandsAfterReset : State.reset = State.reset ∨ ∃ u : State, State.reset = u.resetAgain := .inl rfl

theorem witness_ConfigurationLegality :
    requiresCfg .unpack = true ∧ cfgOk State.reset = false ∧ requiresFrame .decrypt = true ∧ frameOk (machine 1 5) = false
      ∧ role (stereoPair 1 1) 0 = .stereoPrimary ∧ role (stereoPair 1 1) 1 = .stereoSecondary ∧ cfgOk (stereoPair 1 1) = true
      ∧ cfgOk fullMachine = true ∧ frameOk (machine 1 6) = true := by decide +kernel

theorem witness_ChannelAndVersionChecks :
    (cfgOk (machine 1 6) = true ∧ chCount (machine 1 6) ≤ 1 ∧ chCount (machine 15 6) ≤ 15 ∧ 15 < 16)
      ∧ cfgOk (hfrMachine 0x0300) = true ∧ 0 < hfrGroups (hfrMachine 0x0300) ∧ 0x0300 ≤ version (hfrMachine 0x0300)
      ∧ frameOk (hfrMachine 0x0300) = true ∧ ChannelOk (hfrMachine 0x0300) 0 false := by
  unfold ChannelOk
  decide +kernel

theorem witness_NopAndResetOvlComplete : 15 < 16 ∧ (if true = true then 15 < 16 else 15 = 0) ∧ 127 < 128 := by decide

theorem witness_KeygenBuildsTables :
    ((Instr.keygen0 = .keygen0 ∧ List.range 256 = List.range 256 ∧ (0 : Word) = 0)
      ∨ (Instr.keygen0 = .keygen1 ∧ List.range 256 = type1Table ∧ (0 : Word) = 1)) ∧ 255 < 256 :=
  ⟨.inl ⟨rfl, rfl, rfl⟩, by decide⟩

theorem witness_SubstitutionOfFrame : frameOk (machine 1 6) = true ∧ 5 < frameBytes (machine 1 6) := by decide +kernel

theorem witness_EncryptDecryptInverse : KeyTablesInverse (machine 1 65535) ∧ frameOk (machine 1 65535) = true := by
  unfold KeyTablesInverse
  decide +kernel

theorem witness_CrcOfFrameBuffer : frameOk (machine 1 6) = true ∧ frameOk (machine 1 65535) = true := by decide +kernel
theorem witness_CrcCheckReports : frameOk (machine 1 6) = true ∧ frameOk (machine 1 65535) = true := by decide +kernel

theorem witness_ScaleFactorRoundTrip :
    1 ≤ 1 ∧ 6 ≤ 6 ∧ ([63, 0] : List Nat) ≠ [] ∧ (List.replicate 128 63).length ≤ 128 ∧ ∀ x ∈ ([63, 0] : List Nat), x < 64 := by
  decide +kernel

/-- The last code of a selector-2 section: a delta of -3, then an escape, then five equal codes. -/
def someFields : List (Nat × Bool) := [(4, false), (15, true)] ++ List.replicate 5 (15, false)

theorem witness_IntensityForms :
    (List.replicate 8 15).length = 8 ∧ (∀ x ∈ List.replicate 8 15, x < 16) ∧ 0x02FF < 0x0300 ∧ 14 < 15
      ∧ (List.replicate 7 0).length = 7 ∧ someFields.length = 7 ∧ DeltaSectionCodable (2 + 1) 15 7 someFields
      ∧ DeltaSectionCodable (0 + 1) 15 14 (List.replicate 7 (14, false))
      ∧ ((someFields.take 6).length < 7 ∧ DeltaSectionCodable (2 + 1) 15 7 (someFields.take 6) ∧ 4 < 2 ^ (2 + 1) - 1
        ∧ 15 + (2 ^ 2 - 1) < (7 :: (someFields.take 6).map Prod.fst).getLastD 0 + 4)
      ∧ (0 < 2 ^ (2 + 1) - 1 ∧ (2 :: ([] : List (Nat × Bool)).map Prod.fst).getLastD 0 + 0 < 2 ^ 2 - 1) := by
  simp [someFields, DeltaSectionCodable]

theorem witness_CoefficientRoundTrip :
    (coefInRange 15 (-2047) = true ∧ 15 ≤ 15) ∧ coefInRange 7 (-7) = true ∧ coefInRange 8 15 = true ∧ coefInRange 0 0 = true := by
  decide +kernel

theorem witness_DeltaWidthIsCheapest : (∃ x ∈ [0, 1], x ≠ 0) ∧ 1 ≤ 1 ∧ 6 ≤ 6 := by decide

theorem witness_UnpackStoresFrame :
    cfgOk emptyFrame = true ∧ frameOk emptyFrame = true
      ∧ (readFrame emptyFrame (frameCursor emptyFrame)).isOk = true ∧ emptyFrame.mem.wf := by decide +kernel

/-- A frame that ends in its third raw scale factor. -/
def shortFrame : State := (State.putBytes { machine 1 6 with cfgBands := 3 } frameBufBase [0xFF, 0xFF, 0x00, 0x00, 0xFF, 0xFF])

theorem witness_UnpackErrors :
    (cfgOk shortFrame = true ∧ frameOk shortFrame = true
        ∧ (match readFrame shortFrame (frameCursor shortFrame) with | .error e => e == ⟨.overrun, 47⟩ | .ok _ => false) = true)
      ∧ (1 ≤ 2 ∧ 5 ≤ 5 ∧ ([0] : List Nat) ≠ [] ∧ [0].length < 2 ∧ 0 < 2 ^ 2 - 1 ∧ ([0] : List Nat).getLastD 0 + 0 < 2 ^ (2 - 1) - 1)
      ∧ (30 < 2 ^ 5 - 1 ∧ 63 + (2 ^ (5 - 1) - 1) < ([63] : List Nat).getLastD 0 + 30)
      ∧ cfgOk (emptyFrame.putBytes (frameBufBase + 1) [0xFE]) = true ∧ frameOk (emptyFrame.putBytes (frameBufBase + 1) [0xFE]) = true
      ∧ (emptyFrame.putBytes (frameBufBase + 1) [0xFE]).byte (frameBufBase + 1) ≠ 0xFF := by decide +kernel

theorem witness_UnpackValuesInRange :
    emptyFrame.mem.wf ∧ exec .unpack emptyFrame = .next (after (exec .unpack emptyFrame))
      ∧ (after (exec .unpack emptyFrame)).status.err = false ∧ 0 < chCount emptyFrame :=
  ⟨by decide +kernel, rfl, by decide +kernel, by decide +kernel⟩

/-- Discrete, one coded band of scale factor 0 (so resolution 0) with a coefficient it cannot code. -/
def uncodable : State :=
  (State.putBytes { machine 1 8 with cfgBands := 1 } (slotAddr 0 .sf 0) [0]).putHalves (slotAddr 0 .qspec 0) [1#16]

/-- A stereo pair at version 0x0300 whose secondary's first intensity code is 15 and the others 0. -/
def uncodableIntensity : State :=
  State.putBytes { stereoPair 0 0 with cfgStream := 0x03000002 } (slotAddr 1 .intensity 0) [15, 0, 0, 0, 0, 0, 0, 0]

theorem witness_PackOutcomes_codeRange :
    cfgOk uncodable = true ∧ frameOk uncodable = true ∧ PackProblem uncodable 1 ∧ ∀ m, m < 1 → ¬PackProblem uncodable m := by
  unfold PackProblem
  decide +kernel

theorem witness_PackOutcomes_intensity :
    cfgOk uncodableIntensity = true ∧ frameOk uncodableIntensity = true ∧ PackProblem uncodableIntensity 1025
      ∧ ∀ m, m < 1025 → ¬PackProblem uncodableIntensity m := by
  refine ⟨by decide +kernel, by decide +kernel, by unfold PackProblem; decide +kernel, fun m hm h => ?_⟩
  have hc : coded uncodableIntensity 0 = 0 := by decide +kernel
  have hr : role uncodableIntensity 0 ≠ .stereoSecondary := by decide +kernel
  have h0 : m / 1025 = 0 := Nat.div_eq_of_lt hm
  unfold PackProblem at h
  rw [h0] at h
  rcases h with ⟨-, h⟩
  split at h
  · exact hr h.2.1
  · exact absurd h.1 (by omega)

theorem witness_PackOutcomes_frameFull :
    cfgOk (machine 1 6) = true ∧ frameOk (machine 1 6) = true ∧ (∀ n, ¬PackProblem (machine 1 6) n)
      ∧ frameBytes (machine 1 6) - 2 < (contentLength (machine 1 6) (packChannels (machine 1 6)) + 7) / 8 := by
  refine ⟨by decide +kernel, by decide +kernel, fun n h => ?_, by decide +kernel⟩
  have hn : chCount (machine 1 6) = 1 := by decide +kernel
  have hc : coded (machine 1 6) 0 = 0 := by decide +kernel
  have hr : role (machine 1 6) 0 ≠ .stereoSecondary := by decide +kernel
  unfold PackProblem at h
  rcases h with ⟨h0, h⟩
  have h1 : n / 1025 = 0 := by omega
  rw [h1] at h
  split at h
  · exact hr h.2.1
  · exact absurd h.1 (by omega)

theorem witness_PackOutcomes :
    packable.mem.wf ∧ cfgOk packable = true ∧ frameOk packable = true ∧ packCheck packable (packChannels packable) = none
      ∧ (contentLength packable (packChannels packable) + 7) / 8 ≤ frameBytes packable - 2 := by decide +kernel

theorem witness_PackUnpackRoundTrip :
    packable.mem.wf ∧ RegistersInFields packable ∧ exec (.pack false) packable = .next (after (exec (.pack false) packable))
      ∧ (after (exec (.pack false) packable)).status.err = false :=
  ⟨by decide +kernel, registersInFields_of_fields _ (by decide +kernel), rfl, by decide +kernel⟩

theorem witness_DequantScales : cfgOk fullMachine = true ∧ ChannelOk fullMachine 15 false ∧ ChannelOk fullMachine 0 true
    ∧ Selects fullMachine 15 false 15 ∧ Selects fullMachine 0 true 15 := by
  unfold ChannelOk Selects
  decide +kernel

theorem witness_HfrMirrorsBands :
    (hfrMachine 0x02FF).mem.wf ∧ cfgOk (hfrMachine 0x02FF) = true ∧ ChannelOk (hfrMachine 0x02FF) 0 false
      ∧ 0 < hfrGroups (hfrMachine 0x02FF) ∧ version (hfrMachine 0x02FF) < 0x0300
      ∧ 1 < hfrGroups (hfrMachine 0x02FF) * bandsPerGroup (hfrMachine 0x02FF)
      ∧ baseBands (hfrMachine 0x02FF) + stereoBands (hfrMachine 0x02FF) = 2 ∧ totalBands (hfrMachine 0x02FF) ≤ 4
      ∧ hfrGroups (machine 1 6) = 0 ∧ cfgOk (machine 1 6) = true := by
  unfold ChannelOk
  decide +kernel

theorem witness_IstereoRescalesPairs :
    (stereoPair 1 127).mem.wf ∧ cfgOk (stereoPair 1 127) = true ∧ role (stereoPair 1 127) 0 = .stereoPrimary
      ∧ SelectsSub 7 false 7 ∧ SelectsSub 0 true 7 ∧ baseBands (stereoPair 1 127) ≤ 1 ∧ 127 < totalBands (stereoPair 1 127) := by
  unfold SelectsSub
  decide +kernel

theorem witness_FoldedKernel : (List.replicate 256 (1 : Int)).length = 256 ∧ 127 < 128 ∧ 255 < 256 :=
  ⟨List.length_replicate, by decide, by decide⟩

theorem witness_RoundsToNearestEven : roundUnits 3 1 < 0x7F800000 ∧ 0x7F7FFFFF < 0x7F800000 := by decide +kernel

theorem winInit_finite : ∀ n, n < 256 → isFinite (winInit n) = true := by decide +kernel

theorem witness_ElementsAreRoundedSums :
    ((List.range 256).map winInit).length = 256 ∧ (List.replicate 128 (0xC0000000 : Word)).length = 128
      ∧ ∀ x ∈ (List.range 256).map winInit ++ List.replicate 128 0xC0000000 ++ List.replicate 128 0, isFinite x = true := by
  refine ⟨by simp, by simp, fun x hx => ?_⟩
  simp only [List.mem_append, List.mem_map, List.mem_range, List.mem_replicate] at hx
  rcases hx with (⟨n, hn, rfl⟩ | ⟨-, rfl⟩) | ⟨-, rfl⟩
  · exact winInit_finite n hn
  · rfl
  · rfl

theorem witness_ImdctTransformsBlock : cfgOk fullMachine = true ∧ ChannelOk fullMachine 15 false ∧ ChannelOk fullMachine 0 true
    ∧ Selects fullMachine 15 false 15 ∧ Selects fullMachine 0 true 15 ∧ 7 < 8 := by
  unfold ChannelOk Selects
  decide +kernel

/-- One channel whose last subframe's spectrum is -0. -/
def zeroSpectrum : State := (machine 1 6).putWords (specRowAddr 0 7) (List.replicate 128 0x80000000)

theorem zeroSpectrum_elsewhere (a : Nat) (h : a + 4 ≤ specRowAddr 0 7) : zeroSpectrum.wordAt a = (machine 1 6).wordAt a :=
  State.wordAt_putBytes_outside _ _ _ _ (.inl h)

theorem zeroSpectrum_window (k : Nat) (h : k < 256) : isFinite (zeroSpectrum.wordAt (winBase + 4 * k)) = true := by
  rw [zeroSpectrum_elsewhere _ (by simp only [winBase, specRowAddr, slotAddr]; omega)]
  exact (by decide +kernel : ∀ k, k < 256 → isFinite ((machine 1 6).wordAt (winBase + 4 * k)) = true) k h

theorem zeroSpectrum_carry (k : Nat) (h : k < 128) :
    isFinite (zeroSpectrum.wordAt (slotAddr 0 .imdctCarry (4 * k))) = true := by
  rw [zeroSpectrum_elsewhere _ (by simp only [specRowAddr, slotAddr, slotArrayOffset]; omega)]
  exact (by decide +kernel : ∀ k, k < 128 → isFinite ((machine 1 6).wordAt (slotAddr 0 .imdctCarry (4 * k))) = true) k h

theorem zeroSpectrum_spectrum (k : Nat) (h : k < 128) : magOf (zeroSpectrum.wordAt (specRowAddr 0 7 + 4 * k)) = 0 := by
  unfold zeroSpectrum
  rw [State.wordAt_putWords _ _ _ _ (by simpa using h)]
  · rw [List.getElem_replicate]; rfl
  · intro j hj
    have := cellMask_slotAddr 0 .spec (512 * 7 + 4 * k + j) (by decide) (by simp only [slotArrayBytes]; omega)
    rw [show (0xFF#8 : Byte) = slotMask .spec from rfl, ← this]
    congr 1
    simp only [specRowAddr, slotAddr]
    omega

theorem witness_ZeroSpectrumEmitsCarry :
    cfgOk zeroSpectrum = true ∧ 0 < chCount zeroSpectrum ∧ 7 < 8 ∧ zeroSpectrum.arith = .exact
      ∧ (∀ k, k < 256 → isFinite (zeroSpectrum.wordAt (winBase + 4 * k)) = true)
      ∧ (∀ k, k < 128 → isFinite (zeroSpectrum.wordAt (slotAddr 0 .imdctCarry (4 * k))) = true)
      ∧ ∀ k, k < 128 → magOf (zeroSpectrum.wordAt (specRowAddr 0 7 + 4 * k)) = 0 :=
  ⟨by decide +kernel, by decide +kernel, by decide, rfl, zeroSpectrum_window, zeroSpectrum_carry, zeroSpectrum_spectrum⟩

theorem witness_MdctTransformsBlock : cfgOk fullMachine = true ∧ ChannelOk fullMachine 15 false ∧ ChannelOk fullMachine 0 true
    ∧ Selects fullMachine 15 false 15 ∧ Selects fullMachine 0 true 15 ∧ 7 < 8 := by
  unfold ChannelOk Selects
  decide +kernel

theorem witness_EightSubframesAreOneCommand : cfgOk fullMachine = true ∧ 15 < chCount fullMachine := by decide +kernel

theorem witness_PcmOutRounds :
    cfgOk fullMachine = true ∧ ChannelOk fullMachine 15 false ∧ Selects fullMachine 15 false 15 ∧ SelectsSub 0 true 7
      ∧ isFinite ((machine 1 6).putWords (tbufAddr 0 0) [0x3F000000#32] |>.wordAt (tbufAddr 0 0)) = true
      ∧ ((machine 1 6).putWords (tbufAddr 0 0) [0x7F800000#32]).wordAt (tbufAddr 0 0) = 0x7F800000
      ∧ ((machine 1 6).putWords (tbufAddr 0 0) [0xFF800000#32]).wordAt (tbufAddr 0 0) = 0xFF800000 := by
  unfold ChannelOk Selects SelectsSub
  decide +kernel

theorem witness_PcmInIsExact : cfgOk fullMachine = true ∧ ChannelOk fullMachine 15 false ∧ ChannelOk fullMachine 0 true
    ∧ Selects fullMachine 15 false 15 ∧ SelectsSub 7 false 7 ∧ SelectsSub 0 true 7 := by
  unfold ChannelOk Selects SelectsSub
  decide +kernel

theorem witness_ChannelsDoNotInteract :
    let s := machine 2 6
    let u := s.putBytes (slotAddr 1 .sf 0) [7]
    cfgOk s = true ∧ 0 < chCount s ∧ (0 : Nat) ≠ 1 ∧ u = { s with mem := u.mem } ∧ u.byte (slotAddr 1 .sf 0) = 7
      ∧ ∀ a, ¬(slotAddr 1 .sf 0 ≤ a ∧ a < slotAddr 1 .sf 0 + 0x4000) → u.byte a = s.byte a := by
  refine ⟨by decide +kernel, by decide +kernel, by decide, rfl, by decide +kernel, fun a ha => ?_⟩
  refine State.byte_putBytes_outside _ _ _ _ ?_
  simp only [List.length_singleton]
  omega

theorem witness_DecodeFrameIsItsStages :
    cfgOk emptyFrame = true ∧ frameOk emptyFrame = true ∧ hfrGroups emptyFrame = 0
      ∧ (readFrame emptyFrame (frameCursor emptyFrame)).toOption.map (fun r =>
          validResult ((frameBits emptyFrame : Int) - r.2.pos) (r.1.side.all (fun x => x.dbits == 0)) r.1.noise) = some true := by
  decide +kernel

theorem witness_FailedDecodeKeepsSignal :
    exec .decodeFrame State.reset = .next (raiseError .badConfig 0 State.reset)
      ∧ (raiseError .badConfig 0 State.reset).status.err = true
      ∧ cfgOk invalidFrame = true ∧ frameOk invalidFrame = true ∧ hfrGroups invalidFrame = 0
      ∧ (readFrame invalidFrame (frameCursor invalidFrame)).toOption.map (fun r =>
          validResult ((frameBits invalidFrame : Int) - r.2.pos) (r.1.side.all (fun x => x.dbits == 0)) r.1.noise) = some false :=
  ⟨rfl, rfl, by decide +kernel, by decide +kernel, by decide +kernel, by decide +kernel⟩

end Sys2Proof.Tests
end

section
/-! PROOFS. `roundUnits` (spec/00_scope.md R11): its result exceeds a finite pattern exactly when the value lies past the midpoint
above that pattern. Overflow is the threshold of the largest finite pattern; nearest and ties to even are the thresholds on
either side of the result. -/

namespace Sys2Proof.Machine

/-! ### The values of the patterns -/

/-- `magUnits` of a magnitude pattern, continued to every natural number by further binades. -/
def patternUnits (p : Nat) : Nat := if p / 2 ^ 23 = 0 then p % 2 ^ 23 else (2 ^ 23 + p % 2 ^ 23) * 2 ^ (p / 2 ^ 23 - 1)

theorem magUnits_ofNat (p : Nat) (h : p < 2 ^ 31) : magUnits (BitVec.ofNat 32 p) = patternUnits p := by
  have hmag : magOf (BitVec.ofNat 32 p) = p := by simp only [magOf, BitVec.toNat_ofNat]; omega
  simp only [magUnits, hmag, patternUnits]

/-- Binade `j` holds the multiples of `2^j`; the last, `2^24 * 2^j`, is the first of the next binade, as a carry needs. -/
theorem patternUnits_binade (j q : Nat) (hq : q ≤ 2 ^ 24) (hj : j = 0 ∨ 2 ^ 23 ≤ q) :
    patternUnits (j * 2 ^ 23 + q) = q * 2 ^ j := by
  unfold patternUnits
  rcases lt_or_ge q (2 ^ 23) with hsub | hnormal
  · obtain rfl : j = 0 := by omega
    rw [if_pos (by omega), show (0 * 2 ^ 23 + q) % 2 ^ 23 = q by omega, pow_zero, mul_one]
  · rw [if_neg (by omega)]
    rcases hq.lt_or_eq with hlt | rfl
    · rw [show (j * 2 ^ 23 + q) / 2 ^ 23 - 1 = j by omega, show 2 ^ 23 + (j * 2 ^ 23 + q) % 2 ^ 23 = q by omega]
    · rw [show (j * 2 ^ 23 + 2 ^ 24) / 2 ^ 23 - 1 = j + 1 by omega, show (j * 2 ^ 23 + 2 ^ 24) % 2 ^ 23 = 0 by omega, pow_succ]
      ring

theorem exists_binade (p : Nat) : ∃ j q, p = j * 2 ^ 23 + q ∧ q < 2 ^ 24 ∧ (j = 0 ∨ 2 ^ 23 ≤ q) := by
  rcases lt_or_ge p (2 ^ 23) with hsub | hnormal
  · exact ⟨0, p, by omega, by omega, .inl rfl⟩
  · exact ⟨p / 2 ^ 23 - 1, 2 ^ 23 + p % 2 ^ 23, by omega, by omega, .inr (by omega)⟩

theorem patternUnits_strictMono : StrictMono patternUnits := by
  refine strictMono_nat_of_lt_succ fun p => ?_
  obtain ⟨j, q, rfl, hq, hj⟩ := exists_binade p
  rw [add_assoc, patternUnits_binade j q hq.le hj, patternUnits_binade j (q + 1) hq (by omega)]
  exact Nat.mul_lt_mul_of_pos_right q.lt_succ_self (by positivity)

/-! ### Where the rounding changes -/

theorem bitLength_le_iff (m n : Nat) : bitLength m ≤ n ↔ m < 2 ^ n := by
  unfold bitLength
  split
  · next h => simp [h]
  · next h => rw [Nat.succ_le_iff, Nat.log2_lt h]

/-- `m * 2^-k` lies in binade `j`, between its `q`th and `q + 1`st multiples of `2^j`; the rounding is one of the two patterns, up to
overflow. -/
theorem roundUnits_binade (m k : Nat) : ∃ j q r, (q < 2 ^ 24 ∧ (j = 0 ∨ 2 ^ 23 ≤ q))
    ∧ (m = q * 2 ^ (j + k) + r ∧ r < 2 ^ (j + k))
    ∧ roundUnits m k = min (j * 2 ^ 23 + q + if 2 ^ (j + k) < 2 * r ∨ (2 * r = 2 ^ (j + k) ∧ q % 2 = 1) then 1 else 0)
        0x7F800000 := by
  obtain ⟨j, hs⟩ : ∃ j, max k (bitLength m - 24) = j + k := ⟨_, (Nat.sub_add_cancel (le_max_left _ _)).symm⟩
  have hq : m < 2 ^ 24 * 2 ^ (j + k) := by rw [← pow_add, ← bitLength_le_iff]; omega
  have hj : j = 0 ∨ 2 ^ 23 * 2 ^ (j + k) ≤ m := by
    refine or_iff_not_imp_left.2 fun h => ?_
    rw [← pow_add, ← not_lt, ← bitLength_le_iff]
    omega
  have hpos : 0 < 2 ^ (j + k) := by positivity
  refine ⟨j, m / 2 ^ (j + k), m % 2 ^ (j + k), ⟨(Nat.div_lt_iff_lt_mul hpos).2 hq, hj.imp_right (Nat.le_div_iff_mul_le hpos).2⟩,
    ⟨(Nat.div_add_mod' _ _).symm, Nat.mod_lt _ hpos⟩, ?_⟩
  simp only [roundUnits, hs, Nat.add_sub_cancel]

theorem roundUnits_le_infinity (m k : Nat) : roundUnits m k ≤ 0x7F800000 := min_le_right _ _

/-- Half of `patternUnits p + patternUnits (p + 1)` is the midpoint above `p`: from it on if `p` is odd, and past it if `p` is
even, the rounding is above `p`. -/
theorem lt_roundUnits_iff (m k p : Nat) (hp : p < 0x7F800000) :
    p < roundUnits m k ↔ (patternUnits p + patternUnits (p + 1)) * 2 ^ k < 2 * m
      ∨ ((patternUnits p + patternUnits (p + 1)) * 2 ^ k = 2 * m ∧ p % 2 = 1) := by
  obtain ⟨j, q, r, ⟨hq, hj⟩, ⟨rfl, hr⟩, hround⟩ := roundUnits_binade m k
  have hlow : patternUnits (j * 2 ^ 23 + q) * 2 ^ k = q * 2 ^ (j + k) := by
    rw [patternUnits_binade j q hq.le hj, mul_assoc, pow_add]
  have hhigh : patternUnits (j * 2 ^ 23 + q + 1) * 2 ^ k = q * 2 ^ (j + k) + 2 ^ (j + k) := by
    rw [add_assoc, patternUnits_binade j (q + 1) hq (by omega), mul_assoc, ← pow_add]
    ring
  have hmono : ∀ a b, a ≤ b → patternUnits a * 2 ^ k ≤ patternUnits b * 2 ^ k := fun _ _ h =>
    Nat.mul_le_mul_right _ (patternUnits_strictMono.monotone h)
  have hnext : patternUnits p * 2 ^ k < patternUnits (p + 1) * 2 ^ k :=
    Nat.mul_lt_mul_of_pos_right (patternUnits_strictMono p.lt_succ_self) (by positivity)
  rw [hround, lt_min_iff, add_mul]
  rcases lt_trichotomy p (j * 2 ^ 23 + q) with hbelow | rfl | habove
  · have := hmono (p + 1) _ hbelow
    omega
  · rw [hlow, hhigh]
    split <;> omega
  · have := hmono (j * 2 ^ 23 + q + 1) p habove
    split <;> omega

/-! ### Nearest, ties to even -/

/-- Of two values the upper one is as near as the lower from their midpoint on, and the lower one up to it. -/
theorem abs_sub_le_iff_midpoint {a b : Int} (m : Int) (hab : a < b) :
    (|b - m| ≤ |a - m| ↔ a + b ≤ 2 * m) ∧ (|a - m| ≤ |b - m| ↔ 2 * m ≤ a + b) := by
  simp only [abs_eq_max_neg]
  omega

/-- A rounding lies past the midpoint above every pattern below it, or on it if it is even itself. -/
theorem midpoint_le_of_lt_roundUnits (m k p : Nat) (h : p < roundUnits m k) :
    (patternUnits p + patternUnits (roundUnits m k)) * 2 ^ k ≤ 2 * m
      ∧ (2 * m ≤ (patternUnits p + patternUnits (roundUnits m k)) * 2 ^ k → roundUnits m k % 2 = 0) := by
  obtain ⟨r, hr'⟩ : ∃ r, roundUnits m k = r + 1 := ⟨_, (Nat.succ_pred_eq_of_pos (by omega)).symm⟩
  have hfinite : r < 0x7F800000 := by have := roundUnits_le_infinity m k; omega
  have hpast := (lt_roundUnits_iff m k r hfinite).1 (by omega)
  have hmono : patternUnits p ≤ patternUnits r := patternUnits_strictMono.monotone (by omega)
  have := Nat.mul_le_mul_right (2 ^ k) (Nat.add_le_add_right hmono (patternUnits (r + 1)))
  rw [hr']
  omega

/-- A rounding lies before the midpoint below every pattern above it, or on it if it is even itself. -/
theorem le_midpoint_of_roundUnits_lt (m k p : Nat) (hr : roundUnits m k < 0x7F800000) (h : roundUnits m k < p) :
    2 * m ≤ (patternUnits (roundUnits m k) + patternUnits p) * 2 ^ k
      ∧ ((patternUnits (roundUnits m k) + patternUnits p) * 2 ^ k ≤ 2 * m → roundUnits m k % 2 = 0) := by
  have hnotPast := (lt_roundUnits_iff m k _ hr).not.1 (lt_irrefl _)
  have hmono : patternUnits (roundUnits m k + 1) ≤ patternUnits p := patternUnits_strictMono.monotone h
  have := Nat.mul_le_mul_right (2 ^ k) (Nat.add_le_add_left hmono (patternUnits (roundUnits m k)))
  omega

/-- Of the two nearest patterns of a tie the rounding is the even one (spec/00_scope.md R11). -/
theorem roundUnits_nearest (m k p : Nat) (hr : roundUnits m k < 0x7F800000) :
    |(patternUnits (roundUnits m k) * 2 ^ k : Int) - m| ≤ |(patternUnits p * 2 ^ k : Int) - m|
      ∧ (|(patternUnits (roundUnits m k) * 2 ^ k : Int) - m| = |(patternUnits p * 2 ^ k : Int) - m| →
          p = roundUnits m k ∨ roundUnits m k % 2 = 0) := by
  have hscaled : ∀ {a b : Nat}, a < b → (patternUnits a * 2 ^ k : Int) < patternUnits b * 2 ^ k := fun h => by
    exact_mod_cast Nat.mul_lt_mul_of_pos_right (patternUnits_strictMono h) (by positivity)
  rcases lt_trichotomy p (roundUnits m k) with hbelow | rfl | habove
  · obtain ⟨hle, htie⟩ := midpoint_le_of_lt_roundUnits m k p hbelow
    obtain ⟨hnear, hfar⟩ := abs_sub_le_iff_midpoint (m : Int) (hscaled hbelow)
    rw [← add_mul] at hnear hfar
    exact ⟨hnear.2 (by exact_mod_cast hle), fun heq => .inr (htie (by exact_mod_cast hfar.1 heq.ge))⟩
  · exact ⟨le_rfl, fun _ => .inl rfl⟩
  · obtain ⟨hle, htie⟩ := le_midpoint_of_roundUnits_lt m k p hr habove
    obtain ⟨hfar, hnear⟩ := abs_sub_le_iff_midpoint (m : Int) (hscaled habove)
    rw [← add_mul] at hnear hfar
    exact ⟨hnear.2 (by exact_mod_cast hle), fun heq => .inr (htie (by exact_mod_cast hfar.1 heq.ge))⟩

/-! ### Overflow -/

/-- The midpoint past the largest finite value, whose pattern 0x7F7FFFFF is odd, rounds to infinity (spec/00_scope.md R11). -/
theorem roundUnits_eq_infinity_iff (m k : Nat) : roundUnits m k = 0x7F800000 ↔ (2 ^ 25 - 1) * 2 ^ 252 * 2 ^ k ≤ m := by
  have hlargest : patternUnits 0x7F7FFFFF = (2 ^ 24 - 1) * 2 ^ 253 := patternUnits_binade 253 (2 ^ 24 - 1) (by omega) (by omega)
  have hinfinity : patternUnits (0x7F7FFFFF + 1) = 2 ^ 24 * 2 ^ 253 := patternUnits_binade 253 (2 ^ 24) (by omega) (by omega)
  have hpast := lt_roundUnits_iff m k 0x7F7FFFFF (by omega)
  rw [hlargest, hinfinity] at hpast
  have := roundUnits_le_infinity m k
  omega

/-- Settles O51: the thresholds of `lt_roundUnits_iff` on both sides of the rounding and at the largest finite pattern. -/
theorem roundsToNearestEven : Obligations.RoundsToNearestEven := by
  intro m k
  refine ⟨roundUnits_le_infinity m k, roundUnits_eq_infinity_iff m k, fun hr p hp => ?_⟩
  rw [magUnits_ofNat _ (by omega), magUnits_ofNat p (by omega)]
  exact roundUnits_nearest m k p hr

end Sys2Proof.Machine
end

section
/-! PROOFS. The shape every step invariant's proof has: a step is the host's move, the completion of a well-formed command's
effect, or the completion of an illegal word. What a command does to its effect's checks, and what an effect leaves, is said once
here (spec/60_exceptions.md R283, R284). -/

namespace Sys2Proof.Machine

/-! ### The effect of a command -/

/-- The effect that a command completes. -/
def effectOf (i : Instr) (s : State) : Effect :=
  match i with
  | .nop => .ok s
  | .resetOvl ch allCh => .ok (forEach (slotSet ch allCh) clearOverlap s)
  | .keygen0 => .ok (storeKey type0Table 0 s)
  | .keygen1 => .ok (storeKey type1Table 1 s)
  | .keygen56 => .ok (storeKey (type56Table (keyOf s)) 56 s)
  | .decrypt => requireFrame s (.ok (substituteFrame keyDecBase s))
  | .encrypt => requireFrame s (.ok (substituteFrame keyEncBase s))
  | .crcCalc => crcCalcEffect s
  | .crcGen => crcGenEffect s
  | .crcCheck => crcCheckEffect s
  | .unpack => requireCfg s (requireFrame s (unpackBody s))
  | .pack dry => requireCfg s (requireFrame s (packBody dry s))
  | .dequant ch allCh => requireCfg s (requireChannel s ch allCh (.ok (dequantBody (channelSet s ch allCh) s)))
  | .hfrRecon ch allCh =>
    requireCfg s (requireChannel s ch allCh (requireHfrVersion s (.ok (hfrBody (channelSet s ch allCh) s))))
  | .istereo sub allSf => requireCfg s (.ok (istereoBody (subframeSet sub allSf) s))
  | .imdct ch allCh sub allSf =>
    requireCfg s (requireChannel s ch allCh (.ok (forBlocks imdctBlock (channelSet s ch allCh) (subframeSet sub allSf) s)))
  | .mdct ch allCh sub allSf =>
    requireCfg s (requireChannel s ch allCh (.ok (forBlocks mdctBlock (channelSet s ch allCh) (subframeSet sub allSf) s)))
  | .pcmOut ch allCh sub allSf =>
    requireCfg s (requireChannel s ch allCh (.ok (forBlocks pcmOutBlock (channelSet s ch allCh) (subframeSet sub allSf) s)))
  | .pcmIn ch allCh sub allSf =>
    requireCfg s (requireChannel s ch allCh (.ok (forBlocks pcmInBlock (channelSet s ch allCh) (subframeSet sub allSf) s)))
  | .decodeFrame => decodeFrameEffect s

theorem exec_eq_finish_effectOf (i : Instr) (s : State) : exec i s = finish (effectOf i s) := by cases i <;> rfl

theorem exec_next_iff (i : Instr) (s t : State) : exec i s = .next t ↔ t = complete (effectOf i s) := by
  rw [exec_eq_finish_effectOf, finish_next]

/-! ### What an effect leaves -/

/-- Whatever the effect ends in, `P` holds of the state it leaves, and an error has an error's code. -/
def Effect.Leaves (P : State → Prop) : Effect → Prop
  | .ok s => P s
  | .error code _ s => code ≠ .none ∧ P s

/-- A property that completion keeps holds of the completed state. -/
theorem Effect.Leaves.complete {P Q : State → Prop} {e : Effect} (h : e.Leaves P) (hok : ∀ s, P s → Q (completeOk s))
    (herror : ∀ code info s, code ≠ .none → P s → Q (raiseError code info s)) : Q (complete e) := by
  cases e with
  | ok s => exact hok s h
  | error code info s => exact herror code info s h.1 h.2

theorem leaves_requireCfg {P : State → Prop} {s : State} {k : Effect} (hs : P s) (hk : cfgOk s = true → k.Leaves P) :
    (requireCfg s k).Leaves P := by
  unfold requireCfg
  split
  · next h => exact hk h
  · exact ⟨by decide, hs⟩

theorem leaves_requireFrame {P : State → Prop} {s : State} {k : Effect} (hs : P s) (hk : frameOk s = true → k.Leaves P) :
    (requireFrame s k).Leaves P := by
  unfold requireFrame
  split
  · next h => exact hk h
  · exact ⟨by decide, hs⟩

theorem leaves_requireChannel {P : State → Prop} {s : State} {ch : Nat} {allCh : Bool} {k : Effect} (hs : P s)
    (hk : ChannelOk s ch allCh → k.Leaves P) : (requireChannel s ch allCh k).Leaves P := by
  unfold requireChannel
  split
  · exact ⟨by decide, hs⟩
  · next h =>
    refine hk ?_
    cases allCh with
    | true => exact .inl rfl
    | false => exact .inr (by simpa [badChannel] using h)

theorem leaves_requireHfrVersion {P : State → Prop} {s : State} {k : Effect} (hs : P s) (hk : k.Leaves P) :
    (requireHfrVersion s k).Leaves P := by
  unfold requireHfrVersion
  split
  · exact ⟨by decide, hs⟩
  · exact hk

/-! ### The words that run -/

theorem wellFormed_of_mem_opcodeTable {r : OpRow} (h : r ∈ opcodeTable) (w : Word) : (r.build w).wellFormed = true := by
  have hch : chField w < 16 := Nat.mod_lt _ (by decide)
  have hsub : subField w < 8 := Nat.mod_lt _ (by decide)
  simp only [opcodeTable, List.mem_cons, List.not_mem_nil, or_false] at h
  rcases h with rfl | rfl | rfl | rfl | rfl | rfl | rfl | rfl | rfl | rfl | rfl | rfl | rfl | rfl | rfl | rfl | rfl | rfl
    | rfl | rfl <;> simp [Instr.wellFormed, hch, hsub]

/-- A word that decodes holds a well-formed command (spec/30_encoding.md R90, R91). -/
theorem wellFormed_of_decode? {w : Word} {i : Instr} (h : decode? w = some i) : i.wellFormed = true := by
  cases hfind : opcodeTable.find? (fun r => r.matchesWord w) with
  | none => simp [decode?, decode, hfind] at h
  | some r =>
    obtain rfl : r.build w = i := by simpa [decode?, decode, hfind] using h
    exact wellFormed_of_mem_opcodeTable (List.mem_of_find?_eq_some hfind) w

/-- The three things a step can be, with the state it ends in. -/
theorem step_next_cases {s t : State} (h : step s = .next t) :
    t = hostStep s ∨ (∃ i, i.wellFormed = true ∧ t = complete (effectOf i s)) ∨ t = raiseError .illegal 0 s := by
  rcases step_cases s with ⟨hstep, -⟩ | ⟨w, i, -, -, hdecode, hstep⟩ | ⟨w, -, -, -, hstep⟩
  · exact .inl (by simpa [hstep] using h.symm)
  · exact .inr (.inl ⟨i, wellFormed_of_decode? hdecode, (exec_next_iff i s t).1 (hstep ▸ h)⟩)
  · exact .inr (.inr (by simpa [hstep] using h.symm))

/-! ### The host's move -/

/-- Each single change that a host operation can make keeps `P`. The last three are made only when no command runs
(spec/20_memory.md R75, spec/60_exceptions.md R284, R289, R290). -/
structure KeptByHost (P : State → Prop) : Prop where
  bus : ∀ (s : State) (inbox : List HostOp) (busyFor : Nat) (outbox : List BusResponse), P s →
    P { s with inbox := inbox, busyFor := busyFor, outbox := outbox }
  reset : ∀ s, P s → P s.resetAgain
  irqEnable : ∀ s v, P s → P { s with ctrl := v &&& regMask .ctrl }
  clearStatus : ∀ s v, P s → P { s with status := statusWriteOneToClear s.status v }
  conflict : ∀ s, P s → P (setConflict s)
  accept : ∀ w s, s.status.busy = false → P s → P (accept w s)
  storeReg : ∀ r v s, s.status.busy = false → P s → P (storeReg r v s)
  storeByte : ∀ s a v, s.status.busy = false → hostWritable a = true → P s → P (s.putBytes a [v])

namespace KeptByHost

variable {P : State → Prop} (h : KeptByHost P)

include h

theorem respond (b : BusResponse) {s : State} (hs : P s) : P (respond b s) := h.bus s s.inbox s.busyFor _ hs

theorem writeReg (offset : Nat) (v : Word) {s : State} (hs : P s) : P (writeReg offset v s) := by
  rcases writeReg_cases offset v s with ⟨-, -, e⟩ | ⟨-, e⟩ | ⟨-, e⟩ | ⟨-, e⟩ | ⟨-, e⟩ | ⟨r, -, hbusy, e⟩ <;> rw [e]
  · exact hs
  · unfold writeCmd
    split
    · exact h.conflict s hs
    · next hbusy => exact h.accept v s (by simpa using hbusy) hs
  · unfold writeCtrl
    dsimp only
    split
    · exact h.reset _ (h.irqEnable s v hs)
    · exact h.irqEnable s v hs
  · exact h.clearStatus s v hs
  · exact h.conflict s hs
  · exact h.storeReg r v s hbusy hs

theorem storeRam (offset n : Nat) (v : Word) {s : State} (hbusy : s.status.busy = false) (hs : P s) :
    P (storeRam offset n v s) := by
  refine (forEach_keeps (fun t => t.status.busy = false ∧ P t) _ _ (fun i _ t ht => ?_) s ⟨hbusy, hs⟩).2
  split
  · next hw => exact ⟨ht.1, h.storeByte t _ _ ht.1 hw ht.2⟩
  · exact ht

theorem writeRam (offset n : Nat) (v : Word) {s : State} (hs : P s) : P (writeRam offset n v s) := by
  rcases writeRam_cases offset n v s with ⟨-, e⟩ | ⟨hbusy, e⟩ <;> rw [e]
  · exact h.conflict s hs
  · exact h.storeRam offset n v hbusy hs

theorem hostOp (op : HostOp) {s : State} (hs : P s) : P (hostOp op s) := by
  cases op with
  | read offset n =>
    rcases busRead_cases s offset n with ⟨-, v, e⟩ | ⟨-, e⟩ <;> simp only [Machine.hostOp, e] <;> exact h.respond _ hs
  | write offset n v =>
    rcases busWrite_cases s offset n v with ⟨-, -, e⟩ | ⟨-, -, e⟩ | ⟨-, e⟩ <;> simp only [Machine.hostOp, e]
    · exact h.respond _ (h.writeReg offset v hs)
    · exact h.respond _ (h.writeRam offset n v hs)
    · exact h.respond _ hs
  | wait => exact hs
  | hardReset => exact h.reset s hs

/-- What every single change keeps, the host's move keeps. -/
theorem hostStep {s : State} (hs : P s) : P (hostStep s) := by
  unfold Machine.hostStep
  split
  · exact hs
  · exact h.hostOp _ (h.bus s _ _ s.outbox hs)

end KeptByHost

end Sys2Proof.Machine
end

section
/-! PROOFS. The configuration: what `CFG_OK` and `FRAME_OK` mean, and that a command that requires one does nothing else when it
does not hold (spec/10_state.md R30, spec/60_exceptions.md R283). -/

namespace Sys2Proof.Machine

theorem roleOk_iff (s : State) (ch : Nat) :
    roleOk s ch = true ↔ role s ch ≠ .reserved
      ∧ (role s ch = .stereoPrimary → ch + 1 < chCount s ∧ role s (ch + 1) = .stereoSecondary)
      ∧ (role s ch = .stereoSecondary → 1 ≤ ch ∧ role s (ch - 1) = .stereoPrimary) := by
  unfold roleOk
  cases role s ch <;> simp

theorem cfgOk_iff (s : State) :
    cfgOk s = true ↔ 1 ≤ chCount s ∧ chCount s ≤ 16 ∧ totalBands s ≤ 128 ∧ hfrGroups s ≤ 8 ∧ minRes s ≤ maxRes s
      ∧ ∀ ch, ch < chCount s → roleOk s ch = true := by
  simp [cfgOk, and_assoc]

theorem frameOk_iff (s : State) : frameOk s = true ↔ 6 ≤ frameBytes s := by simp [frameOk]

/-- `CFG_OK` is checked before anything else. -/
theorem effectOf_of_requiresCfg {i : Instr} (h : requiresCfg i = true) (s : State) : ∃ k, effectOf i s = requireCfg s k := by
  cases i <;> first | contradiction | exact ⟨_, rfl⟩

/-- `FRAME_OK` is checked before anything but `CFG_OK`. -/
theorem effectOf_of_requiresFrame {i : Instr} (h : requiresFrame i = true) (s : State) :
    ∃ k, effectOf i s = requireFrame s k ∨ effectOf i s = requireCfg s (requireFrame s k) := by
  cases i <;> first | contradiction | exact ⟨_, .inl rfl⟩ | exact ⟨_, .inr rfl⟩

theorem requireCfg_badConfig (s : State) : requireCfg s (.error .badConfig 0 s) = .error .badConfig 0 s := ite_self _

theorem effectOf_of_badConfig {i : Instr} {s : State}
    (h : (requiresCfg i = true ∧ cfgOk s = false) ∨ (requiresFrame i = true ∧ frameOk s = false)) :
    effectOf i s = .error .badConfig 0 s := by
  rcases h with ⟨hrequires, hbad⟩ | ⟨hrequires, hbad⟩
  · obtain ⟨k, e⟩ := effectOf_of_requiresCfg hrequires s
    rw [e, requireCfg_of_not s k hbad]
  · obtain ⟨k, e | e⟩ := effectOf_of_requiresFrame hrequires s <;> rw [e, requireFrame_of_not s k hbad]
    exact requireCfg_badConfig s

/-- Settles O27, from `cfgOk_iff`, `roleOk_iff` and the order of the checks. -/
theorem configurationLegality : Obligations.ConfigurationLegality := by
  refine ⟨fun s => ?_, frameOk_iff, fun i s h => ?_⟩
  · simp only [cfgOk_iff, roleOk_iff]
  · rw [exec_eq_finish_effectOf, effectOf_of_badConfig h]
    rfl

end Sys2Proof.Machine
end

section
/-! PROOFS. Registers: the fields of a register's word, and the host's write of a read-write register (spec/10_state.md section 2,
spec/20_memory.md R75). -/

namespace Sys2Proof.Machine

/-! ### Words made of fields -/

/-- Masking works field by field. -/
theorem and_fields (b x y m n : Nat) (hx : x < 2 ^ b) (hm : m < 2 ^ b) :
    (x + y * 2 ^ b) &&& (m + n * 2 ^ b) = (x &&& m) + (y &&& n) * 2 ^ b := by
  refine Nat.eq_of_testBit_eq fun i => ?_
  have hand : x &&& m < 2 ^ b := Nat.and_lt_two_pow x hm
  have hswap : ∀ u v, u + v * 2 ^ b = 2 ^ b * v + u := fun u v => by rw [Nat.mul_comm, Nat.add_comm]
  simp only [hswap, Nat.testBit_and, Nat.testBit_two_pow_mul_add _ hx, Nat.testBit_two_pow_mul_add _ hm,
    Nat.testBit_two_pow_mul_add _ hand]
  split <;> simp

/-- A word of two numbers, each within its field, has its reserved bits 0. -/
theorem ofNat_fields_masked {a b c x y : Nat} (hab : a ≤ b) (hx : x < 2 ^ a) (hy : y < 2 ^ c) :
    BitVec.ofNat 32 (x + y * 2 ^ b) &&& BitVec.ofNat 32 ((2 ^ a - 1) + (2 ^ c - 1) * 2 ^ b) = BitVec.ofNat 32 (x + y * 2 ^ b) := by
  have hpow : 2 ^ a ≤ 2 ^ b := Nat.pow_le_pow_right (by decide) hab
  have hpos : 0 < 2 ^ a := by positivity
  rw [← BitVec.ofNat_and, and_fields b x y _ _ (by omega) (by omega), Nat.and_two_pow_sub_one_of_lt_two_pow hx,
    Nat.and_two_pow_sub_one_of_lt_two_pow hy]

/-- A word of one number within its field has its reserved bits 0. -/
theorem ofNat_field_masked {a x : Nat} (hx : x < 2 ^ a) :
    BitVec.ofNat 32 x &&& BitVec.ofNat 32 (2 ^ a - 1) = BitVec.ofNat 32 x := by
  rw [← BitVec.ofNat_and, Nat.and_two_pow_sub_one_of_lt_two_pow hx]

theorem field_lt (v : Word) (lo len : Nat) : field v lo len < 2 ^ len := Nat.mod_lt _ (by positivity)

theorem field_eq_extractLsb' (v : Word) (lo len : Nat) : field v lo len = (v.extractLsb' lo len).toNat := by
  rw [BitVec.extractLsb'_toNat, field]

/-! ### Registers whose word is computed -/

theorem totalBands_lt (s : State) : totalBands s < 2 ^ 10 := by
  have h1 : baseBands s < 2 ^ 8 := field_lt _ _ _
  have h2 : stereoBands s < 2 ^ 8 := field_lt _ _ _
  have h3 : hfrBands s < 2 ^ 8 := field_lt _ _ _
  unfold totalBands
  omega

theorem hfrGroups_lt (s : State) : hfrGroups s < 2 ^ 8 := by
  have hbands : hfrBands s < 2 ^ 8 := field_lt _ _ _
  unfold hfrGroups
  split
  · decide
  · next hpos =>
    have hgroups : hfrBands s + bandsPerGroup s - 1 < 2 ^ 8 * bandsPerGroup s := by
      have := Nat.mul_le_mul_left (2 ^ 8 - 1) (Nat.one_le_iff_ne_zero.2 hpos)
      omega
    exact (Nat.div_lt_iff_lt_mul (Nat.pos_of_ne_zero hpos)).2 hgroups

/-- `CFG_DERIVED` holds its two values in their fields, whatever `CFG_BANDS` is (spec/10_state.md R29). -/
theorem cfgDerived_masked (s : State) : regValue s .cfgDerived &&& regMask .cfgDerived = regValue s .cfgDerived :=
  ofNat_fields_masked (a := 10) (b := 16) (c := 8) (by decide) (totalBands_lt s) (hfrGroups_lt s)

theorem errCodeNumber_lt (c : ErrCode) : errCodeNumber c < 2 ^ 8 := by cases c <;> decide

/-- The word of `STATUS` has its reserved bits 0 (spec/10_state.md R40). -/
theorem statusWord_masked (t : Status) : statusWord t &&& regMask .status = statusWord t := by
  have hflags : t.busy.toNat + 2 * t.done.toNat + 4 * t.err.toNat + 8 * t.valid.toNat + 16 * t.empty.toNat
      + 32 * t.crcOk.toNat + 64 * t.conflict.toNat < 2 ^ 7 := by
    have := Bool.toNat_lt t.busy; have := Bool.toNat_lt t.done; have := Bool.toNat_lt t.err; have := Bool.toNat_lt t.valid
    have := Bool.toNat_lt t.empty; have := Bool.toNat_lt t.crcOk; have := Bool.toNat_lt t.conflict
    omega
  unfold statusWord
  rw [Nat.mul_comm 256]
  exact ofNat_fields_masked (a := 7) (b := 8) (c := 8) (by decide) hflags (errCodeNumber_lt _)

/-! ### Reading and writing -/

/-- The registers that a host write stores (spec/10_state.md section 2). -/
def storedRegs : List Reg := [.cfgStream, .cfgFrame, .cfgBands, .cfgRes, .cfgRoles, .keyLo, .keyHi, .frameHdr, .crcLen]

theorem regValue_storeReg_same {r : Reg} (h : r ∈ storedRegs) (v : Word) (s : State) :
    regValue (storeReg r v s) r = v &&& regMask r := by
  cases r <;> first | rfl | exact absurd h (by decide)

theorem regValue_storeReg_other {r q : Reg} (v : Word) (s : State) (h : q ≠ r) (hderived : q ≠ .cfgDerived) :
    regValue (storeReg r v s) q = regValue s q := by
  cases r <;> first | rfl | (cases q <;> first | rfl | contradiction)

/-- A write of a register that only stores changes no memory, no status and no engine state. -/
theorem storeReg_frame (r : Reg) (v : Word) (s : State) :
    (storeReg r v s).mem = s.mem ∧ (storeReg r v s).epoch = s.epoch ∧ (storeReg r v s).status = s.status
      ∧ (storeReg r v s).pending = s.pending ∧ (storeReg r v s).keyType = s.keyType := by
  cases r <;> exact ⟨rfl, rfl, rfl, rfl, rfl⟩

/-- A register offset is a legal offset for a word (spec/20_memory.md R72). -/
theorem accessLegal_of_regAt {offset : Nat} {r : Reg} (h : regAt offset = some r) :
    offset < 0x10000 ∧ accessLegal offset 4 = true := by
  unfold regAt at h
  split at h <;> first | contradiction | exact ⟨by decide, by decide⟩

/-- An idle machine stores a word written to one of its read-write registers. -/
theorem busWrite_storedReg {s : State} {offset : Nat} {r : Reg} (v : Word) (hbusy : s.status.busy = false)
    (hr : regAt offset = some r) (hstored : r ∈ storedRegs) : busWrite s offset 4 v = .ok (storeReg r v s) := by
  obtain ⟨hoffset, hlegal⟩ := accessLegal_of_regAt hr
  have hwrite : writeReg offset v s = storeReg r v s := by
    unfold writeReg
    rw [hr]
    cases r <;> first | exact absurd hstored (by decide) | simp [hbusy]
  simp [busWrite, hlegal, hoffset, hwrite]

/-- A register that the pending command, if there is one, does not write reads as its value (spec/60_exceptions.md R290). -/
theorem busRead_reg {s : State} {offset : Nat} {r : Reg} (hr : regAt offset = some r) (hpending : pendingWritesReg s r = false) :
    busRead s offset 4 = .ok (regValue s r) := by
  obtain ⟨hoffset, hlegal⟩ := accessLegal_of_regAt hr
  simp [busRead, hlegal, hoffset, readReg, hr, hpending]

theorem pendingWritesReg_of_idle {s : State} (h : s.pending = none) (r : Reg) : pendingWritesReg s r = false := by
  simp [pendingWritesReg, h]

/-- No command writes `CFG_DERIVED`. -/
theorem pendingWritesReg_cfgDerived (s : State) : pendingWritesReg s .cfgDerived = false := by
  have hnone : ∀ i, writesReg i .cfgDerived = false := fun i => by cases i <;> first | rfl | exact Bool.and_false _
  unfold pendingWritesReg
  split
  · rw [hnone]; exact Bool.and_false _
  · exact Bool.and_false _

/-! ### `CFG_DERIVED` -/

/-- The quotient rounded up, as R29 and as the model writes it. -/
theorem ceil_div_eq (n d : Nat) (hd : 0 < d) : ⌈(n : ℚ) / d⌉₊ = (n + d - 1) / d := by
  refine eq_of_forall_ge_iff fun c => ?_
  rw [← Nat.ceilDiv_eq_add_pred_div, ceilDiv_le_iff_le_mul hd, Nat.ceil_le, div_le_iff₀ (by exact_mod_cast hd), mul_comm]
  norm_cast

theorem hfrGroups_eq_ceil (s : State) :
    hfrGroups s = if bandsPerGroup s = 0 then 0 else ⌈(hfrBands s : ℚ) / bandsPerGroup s⌉₊ := by
  unfold hfrGroups
  split
  · rfl
  · next h => rw [ceil_div_eq _ _ (Nat.pos_of_ne_zero h)]

theorem cfgDerived_total (s : State) : ((regValue s .cfgDerived).extractLsb' 0 10).toNat = totalBands s := by
  have h1 := totalBands_lt s
  have h2 := hfrGroups_lt s
  simp only [regValue, BitVec.extractLsb'_toNat, BitVec.toNat_ofNat, Nat.shiftRight_zero]
  omega

theorem cfgDerived_groups (s : State) : ((regValue s .cfgDerived).extractLsb' 16 8).toNat = hfrGroups s := by
  have h1 := totalBands_lt s
  have h2 := hfrGroups_lt s
  simp only [regValue, BitVec.extractLsb'_toNat, BitVec.toNat_ofNat, Nat.shiftRight_eq_div_pow]
  omega

/-- Settles O19: the store's own rules, and `CFG_DERIVED` field by field. -/
theorem registerWriteReadsBack : Obligations.RegisterWriteReadsBack := by
  refine ⟨fun s offset r v hbusy hidle hr hstored => ?_, fun s b hb => ?_⟩
  · obtain ⟨hmem, -, hstatus, hpending, -⟩ := storeReg_frame r v s
    have hvalue := regValue_storeReg_same hstored v s
    refine ⟨storeReg r v s, busWrite_storedReg v hbusy hr hstored, hvalue, ?_, hmem, hstatus,
      fun q hq hderived => regValue_storeReg_other v s hq hderived⟩
    rw [busRead_reg hr (pendingWritesReg_of_idle (hpending.trans hidle) r), hvalue]
  · have hbyte : ∀ j, b j = field s.cfgBands (8 * j) 8 := fun j => (hb j).trans (field_eq_extractLsb' _ _ _).symm
    refine ⟨regValue s .cfgDerived, busRead_reg rfl (pendingWritesReg_cfgDerived s), ?_, ?_, cfgDerived_masked s⟩
    · rw [cfgDerived_total, hbyte, hbyte, hbyte]
      rfl
    · rw [cfgDerived_groups, hfrGroups_eq_ceil, hbyte, hbyte]
      rfl

end Sys2Proof.Machine
end

section
/-! PROOFS. Frames: `StoresWithin` is what the stages of a command do to RAM, `LeavesOutside` what a whole command does; one rule for
each operation, and one lemma for each stage (spec/10_state.md R50, R87). -/

namespace Sys2Proof.Machine

/-! ### Changes of RAM alone -/

/-- From `s` to `t` nothing has changed but RAM bytes that `p` names and the counter of free values. -/
structure StoresWithin (p : Nat → Bool) (s t : State) : Prop where
  rest : ∃ m d, t = { s with mem := m, draws := d }
  bytes : ∀ a, p a = false → t.byte a = s.byte a

namespace StoresWithin

variable {p q : Nat → Bool} {s t u : State}

theorem refl (p : Nat → Bool) (s : State) : StoresWithin p s s := ⟨⟨s.mem, s.draws, rfl⟩, fun _ _ => rfl⟩

theorem trans (h : StoresWithin p s t) (h' : StoresWithin p t u) : StoresWithin p s u := by
  obtain ⟨m, d, rfl⟩ := h.rest
  obtain ⟨m', d', rfl⟩ := h'.rest
  exact ⟨⟨m', d', rfl⟩, fun a ha => (h'.bytes a ha).trans (h.bytes a ha)⟩

theorem mono (h : StoresWithin p s t) (hpq : ∀ a, p a = true → q a = true) : StoresWithin q s t :=
  ⟨h.rest, fun a ha => h.bytes a (by cases hp : p a with | false => rfl | true => simp [hpq a hp] at ha)⟩

theorem tick (h : StoresWithin p s t) : StoresWithin p s t.tick := by
  obtain ⟨m, d, rfl⟩ := h.rest
  exact ⟨⟨m, d + 1, rfl⟩, h.bytes⟩

theorem putBytes (base : Nat) (bs : List Byte) (h : ∀ j, j < bs.length → p (base + j) = true) :
    StoresWithin p s (s.putBytes base bs) := by
  refine ⟨⟨_, _, rfl⟩, fun a ha => State.byte_putBytes_outside s base a bs ?_⟩
  by_contra hinside
  have := h (a - base) (by omega)
  rw [show base + (a - base) = a by omega, ha] at this
  contradiction

/-- A store into an array of a slot, from byte `i` of the array on. -/
theorem putSlot (ch : Nat) (array : SlotArray) (i : Nat) (bs : List Byte)
    (h : ∀ j, i ≤ j → j < i + bs.length → p (slotAddr ch array j) = true) :
    StoresWithin p s (s.putBytes (slotAddr ch array i) bs) :=
  putBytes _ bs fun j hj => by
    have hassoc : slotAddr ch array i + j = slotAddr ch array (i + j) := Nat.add_assoc _ _ _
    rw [hassoc]
    exact h (i + j) (by omega) (by omega)

theorem putSlotWords (ch : Nat) (array : SlotArray) (i : Nat) (ws : List Word)
    (h : ∀ j, i ≤ j → j < i + 4 * ws.length → p (slotAddr ch array j) = true) :
    StoresWithin p s (s.putWords (slotAddr ch array i) ws) :=
  putSlot ch array i _ (by rwa [flatMap_wordBytes_length])

theorem putSlotHalves (ch : Nat) (array : SlotArray) (i : Nat) (hs : List Half)
    (h : ∀ j, i ≤ j → j < i + 2 * hs.length → p (slotAddr ch array j) = true) :
    StoresWithin p s (s.putHalves (slotAddr ch array i) hs) :=
  putSlot ch array i _ (by rwa [flatMap_halfBytes_length])

/-- Each turn meets a state with the configuration of the first. -/
theorem forEach (xs : List Nat) (f : Nat → State → State)
    (h : ∀ x ∈ xs, ∀ m d, StoresWithin p { s with mem := m, draws := d } (f x { s with mem := m, draws := d })) :
    StoresWithin p s (forEach xs f s) := by
  refine forEach_keeps (StoresWithin p s) xs f (fun x hx t ht => ?_) s (refl p s)
  obtain ⟨m, d, rfl⟩ := ht.rest
  exact ht.trans (h x hx m d)

theorem forBlocks (block : Nat → Nat → State → State) (chans subs : List Nat)
    (h : ∀ c ∈ chans, ∀ q ∈ subs, ∀ m d,
      StoresWithin p { s with mem := m, draws := d } (block c q { s with mem := m, draws := d })) :
    StoresWithin p s (forBlocks block chans subs s) :=
  forEach chans _ fun c hc _ _ => forEach subs _ fun q hq m d => h c hc q hq m d

end StoresWithin

/-! ### Changes of RAM and registers -/

/-- Nothing has changed but RAM bytes that `p` names, registers that `q` names, `STATUS` (its `CONFLICT` kept) and the counter of
free values. -/
def LeavesOutside (p : Nat → Bool) (q : Reg → Bool) (s t : State) : Prop :=
  (∀ a, p a = false → t.byte a = s.byte a)
    ∧ (∀ r, r ≠ .status → q r = false → regValue t r = regValue s r)
    ∧ t.status.conflict = s.status.conflict
    ∧ t.epoch = s.epoch ∧ t.arith = s.arith ∧ t.inbox = s.inbox ∧ t.outbox = s.outbox

theorem unchangedOutside_iff (i : Instr) (s t : State) :
    UnchangedOutside i s t ↔ LeavesOutside (writesByte i s) (writesReg i) s t := Iff.rfl

theorem StoresWithin.leavesOutside {p : Nat → Bool} {s t : State} (h : StoresWithin p s t) (q : Reg → Bool) :
    LeavesOutside p q s t := by
  refine ⟨h.bytes, ?_⟩
  obtain ⟨m, d, rfl⟩ := h.rest
  exact ⟨fun r _ _ => by cases r <;> rfl, rfl, rfl, rfl, rfl, rfl⟩

namespace LeavesOutside

variable {p p' : Nat → Bool} {q q' : Reg → Bool} {s t u : State}

theorem refl (p : Nat → Bool) (q : Reg → Bool) (s : State) : LeavesOutside p q s s :=
  (StoresWithin.refl p s).leavesOutside q

theorem trans (h : LeavesOutside p q s t) (h' : LeavesOutside p q t u) : LeavesOutside p q s u := by
  obtain ⟨hbytes, hregs, hconflict, hepoch, harith, hinbox, houtbox⟩ := h
  obtain ⟨hbytes', hregs', hconflict', hepoch', harith', hinbox', houtbox'⟩ := h'
  exact ⟨fun a ha => (hbytes' a ha).trans (hbytes a ha), fun r hr hq => (hregs' r hr hq).trans (hregs r hr hq),
    hconflict'.trans hconflict, hepoch'.trans hepoch, harith'.trans harith, hinbox'.trans hinbox, houtbox'.trans houtbox⟩

theorem mono (h : LeavesOutside p q s t) (hp : ∀ a, p a = true → p' a = true) (hq : ∀ r, q r = true → q' r = true) :
    LeavesOutside p' q' s t := by
  obtain ⟨hbytes, hregs, hrest⟩ := h
  refine ⟨fun a ha => hbytes a ?_, fun r hr hr' => hregs r hr ?_, hrest⟩
  · exact Bool.eq_false_iff.2 fun hpa => by simp [hp a hpa] at ha
  · exact Bool.eq_false_iff.2 fun hqr => by simp [hq r hqr] at hr'

/-- A state with the same memory and the model's same fields, whose registers differ only where `q` says. -/
theorem of_registers (hmem : u.mem = t.mem) (hepoch : u.epoch = t.epoch)
    (hregs : ∀ r, r ≠ .status → q r = false → regValue u r = regValue t r) (hconflict : u.status.conflict = t.status.conflict)
    (harith : u.arith = t.arith) (hinbox : u.inbox = t.inbox) (houtbox : u.outbox = t.outbox) : LeavesOutside p q t u :=
  ⟨fun a _ => by simp only [State.byte, hmem, hepoch], hregs, hconflict, hepoch, harith, hinbox, houtbox⟩

theorem completeOk (h : LeavesOutside p q s t) (hq : q .errInfo = true) : LeavesOutside p q s (completeOk t) :=
  h.trans (of_registers rfl rfl
    (fun r hr hr' => regValue_completeOk t r hr (by rintro rfl; simp [hq] at hr')) rfl rfl rfl rfl)

theorem raiseError (h : LeavesOutside p q s t) (hq : q .errInfo = true) (code : ErrCode) (info : Word) :
    LeavesOutside p q s (raiseError code info t) :=
  h.trans (of_registers rfl rfl
    (fun r hr hr' => regValue_raiseError code info t r hr (by rintro rfl; simp [hq] at hr')) rfl rfl rfl rfl)

theorem withCrcValue (h : LeavesOutside p q s t) (hq : q .crcValue = true) (c : Half) :
    LeavesOutside p q s (withCrcValue c t) :=
  h.trans (of_registers rfl rfl (fun r _ hr' => regValue_withCrcValue c t r (by rintro rfl; simp [hq] at hr')) rfl rfl rfl rfl)

theorem withBitPos (h : LeavesOutside p q s t) (hpos : q .bitPos = true) (hleft : q .bitsLeft = true) (n : Nat) :
    LeavesOutside p q s (withBitPos n t) :=
  h.trans (of_registers rfl rfl (fun r _ hr' => regValue_withBitPos n t r (by rintro rfl; simp [hpos] at hr')
    (by rintro rfl; simp [hleft] at hr')) rfl rfl rfl rfl)

theorem withDeltaBits (h : LeavesOutside p q s t) (h0 : q .deltaBits0 = true) (h1 : q .deltaBits1 = true) (codes : List Nat) :
    LeavesOutside p q s (withDeltaBits codes t) :=
  h.trans (of_registers rfl rfl (fun r _ hr' => regValue_withDeltaBits codes t r (by rintro rfl; simp [h0] at hr')
    (by rintro rfl; simp [h1] at hr')) rfl rfl rfl rfl)

theorem withStatus (h : LeavesOutside p q s t) (x : Status) (hx : x.conflict = t.status.conflict) :
    LeavesOutside p q s { t with status := x } :=
  h.trans (of_registers rfl rfl (fun r hr _ => by cases r <;> first | rfl | contradiction) hx rfl rfl rfl)

theorem withValidity (h : LeavesOutside p q s t) (valid empty : Bool) : LeavesOutside p q s (withValidity valid empty t) :=
  h.withStatus _ rfl

end LeavesOutside

/-- Every completion writes `ERR_INFO` (spec/60_exceptions.md R284). -/
theorem writesReg_errInfo (i : Instr) : writesReg i .errInfo = true := by cases i <;> rfl

/-! ### Operand sets -/

theorem channelSet_lt {s : State} {ch : Nat} {allCh : Bool} (hcfg : cfgOk s = true) (hch : ChannelOk s ch allCh) {c : Nat}
    (hc : c ∈ channelSet s ch allCh) : c < 16 := by
  obtain ⟨-, hcount, -⟩ := cfgOk_bounds s hcfg
  cases allCh with
  | true => exact lt_of_lt_of_le (List.mem_range.1 hc) hcount
  | false =>
    obtain rfl : c = ch := List.mem_singleton.1 hc
    have : c < chCount s := by simpa [ChannelOk] using hch
    omega

theorem slotSet_lt {ch : Nat} {allCh : Bool} (hch : ch < 16) {c : Nat} (hc : c ∈ slotSet ch allCh) : c < 16 := by
  cases allCh with
  | true => exact List.mem_range.1 hc
  | false => exact (List.mem_singleton.1 hc) ▸ hch

theorem subframeSet_lt {sub : Nat} {allSf : Bool} (hsub : sub < 8) {q : Nat} (hq : q ∈ subframeSet sub allSf) : q < 8 := by
  cases allSf with
  | true => exact List.mem_range.1 hq
  | false => exact (List.mem_singleton.1 hq) ▸ hsub

/-! ### The stages -/

section Stages

variable {p : Nat → Bool} {s : State}

theorem clearOverlap_storesWithin (ch : Nat)
    (h : ∀ i, i < 512 → p (slotAddr ch .imdctCarry i) = true ∧ p (slotAddr ch .mdctPrev i) = true) :
    StoresWithin p s (clearOverlap ch s) :=
  (StoresWithin.putSlotWords ch .imdctCarry 0 _ fun i _ hi => (h i (by simpa using hi)).1).trans
    (StoresWithin.putSlotWords ch .mdctPrev 0 _ fun i _ hi => (h i (by simpa using hi)).2)

@[simp] theorem inverseBlock_length (arith : TransformArith) (free : Nat → Word) (win spec carry : List Word) :
    (inverseBlock arith free win spec carry).length = 256 := by simp [inverseBlock]

@[simp] theorem forwardBlock_length (arith : TransformArith) (free : Nat → Word) (win prev block : List Word) :
    (forwardBlock arith free win prev block).length = 128 := by simp [forwardBlock]

theorem imdctBlock_storesWithin (ch sub : Nat)
    (htbuf : ∀ i, 512 * sub ≤ i → i < 512 * sub + 512 → p (slotAddr ch .tbuf i) = true)
    (hcarry : ∀ i, i < 512 → p (slotAddr ch .imdctCarry i) = true) : StoresWithin p s (imdctBlock ch sub s) :=
  ((StoresWithin.putSlotWords ch .tbuf (512 * sub) _ fun i hlo hi => htbuf i hlo (by simpa using hi)).trans
    (StoresWithin.putSlotWords ch .imdctCarry 0 _ fun i _ hi => hcarry i (by simpa using hi))).tick

theorem mdctBlock_storesWithin (ch sub : Nat)
    (hspec : ∀ i, 512 * sub ≤ i → i < 512 * sub + 512 → p (slotAddr ch .spec i) = true)
    (hprev : ∀ i, i < 512 → p (slotAddr ch .mdctPrev i) = true) : StoresWithin p s (mdctBlock ch sub s) :=
  ((StoresWithin.putSlotWords ch .spec (512 * sub) _ fun i hlo hi => hspec i hlo (by simpa using hi)).trans
    (StoresWithin.putSlotWords ch .mdctPrev 0 _ fun i _ hi => hprev i (by simpa using hi))).tick

theorem pcmOutBlock_storesWithin (ch sub : Nat)
    (h : ∀ i, 256 * sub ≤ i → i < 256 * sub + 256 → p (slotAddr ch .pcm i) = true) : StoresWithin p s (pcmOutBlock ch sub s) :=
  (StoresWithin.putSlotHalves ch .pcm (256 * sub) _ fun i hlo hi => h i hlo (by simpa using hi)).tick

theorem pcmInBlock_storesWithin (ch sub : Nat)
    (h : ∀ i, 512 * sub ≤ i → i < 512 * sub + 512 → p (slotAddr ch .tbuf i) = true) : StoresWithin p s (pcmInBlock ch sub s) :=
  StoresWithin.putSlotWords ch .tbuf (512 * sub) _ fun i hlo hi => h i hlo (by simpa using hi)

@[simp] theorem dequantRow_length (s : State) (ch sub : Nat) : (dequantRow s ch sub (dequantFactors s ch)).length = 128 := by
  simp [dequantRow, dequantFactors]

theorem dequantChannel_storesWithin (ch : Nat) (h : ∀ i, i < 4096 → p (slotAddr ch .spec i) = true) :
    StoresWithin p s (dequantChannel ch s) :=
  (StoresWithin.putSlotWords ch .spec (4 * (128 * 0 + 0)) _ fun i _ hi => h i (by simpa using hi)).tick

/-- A pair that the loop of HFR_RECON runs lies within the groups, below `TOTAL`, with its mirror at or above band 0
(spec/45_spectral.md R252). -/
theorem hfrSteps_bounds (s : State) {j : Nat} (hj : j < (hfrSteps s).length) :
    j < hfrGroups s * bandsPerGroup s ∧ baseBands s + stereoBands s + j < totalBands s ∧ j + 1 ≤ baseBands s + stereoBands s := by
  have hprefix := List.takeWhile_prefix (l := List.range (hfrGroups s * bandsPerGroup s))
    (fun j => decide (baseBands s + stereoBands s + j < totalBands s ∧ j + 1 ≤ baseBands s + stereoBands s))
  have hlt := lt_of_lt_of_le hj hprefix.length_le
  have hget : (hfrSteps s)[j] = j := (hprefix.getElem hj).trans (by simp)
  have hcond := List.mem_takeWhile_imp (List.getElem_mem hj)
  rw [hget] at hcond
  exact ⟨by simpa using hlt, by simpa using hcond⟩

theorem hfrSubframe_storesWithin (ch : Nat) (ratios : List Word) (sub : Nat) (htotal : totalBands s ≤ 128)
    (h : ∀ i, i / 512 = sub → hfrWritesBand s (i / 4 % 128) = true ∨ i / 4 % 128 = 127 → p (slotAddr ch .spec i) = true) :
    StoresWithin p s (hfrSubframe ch ratios sub s) := by
  refine (StoresWithin.putSlotWords ch .spec (4 * (128 * sub + (baseBands s + stereoBands s))) _ fun i hlo hi => ?_).trans
    (StoresWithin.putSlotWords ch .spec (4 * (128 * sub + 127)) _ fun i hlo hi => ?_)
  · simp only [List.length_map] at hi
    obtain ⟨hgroups, hbelow, hmirror⟩ :=
      hfrSteps_bounds s (j := i / 4 - (128 * sub + (baseBands s + stereoBands s))) (by omega)
    refine h i (by omega) (.inl ?_)
    simp only [hfrWritesBand, decide_eq_true_eq]
    omega
  · simp only [List.length_singleton] at hi
    exact h i (by omega) (.inr (by omega))

theorem hfrChannel_storesWithin (ch : Nat) (htotal : totalBands s ≤ 128)
    (h : role s ch ≠ .stereoSecondary → ∀ i, i < 4096 → hfrWritesBand s (i / 4 % 128) = true ∨ i / 4 % 128 = 127 →
      p (slotAddr ch .spec i) = true) : StoresWithin p s (hfrChannel ch s) := by
  unfold hfrChannel
  split
  · exact StoresWithin.refl p s
  · next hrole =>
    refine (StoresWithin.forEach _ _ fun sub hsub m d => hfrSubframe_storesWithin ch _ sub htotal fun i hi => ?_).tick
    have := List.mem_range.1 hsub
    exact h hrole i (by omega)

theorem istereoSubframe_storesWithin (ch sub : Nat) (htotal : totalBands s ≤ 128)
    (h : ∀ c, c = ch ∨ c = ch + 1 → ∀ i, i / 512 = sub → baseBands s ≤ i / 4 % 128 ∧ i / 4 % 128 < totalBands s →
      p (slotAddr c .spec i) = true) : StoresWithin p s (istereoSubframe ch sub s) := by
  have hbands : ∀ i, 4 * (128 * sub + baseBands s) ≤ i → i < 4 * (128 * sub + baseBands s) + 4 * (totalBands s - baseBands s) →
      i / 512 = sub ∧ baseBands s ≤ i / 4 % 128 ∧ i / 4 % 128 < totalBands s := by omega
  refine ((StoresWithin.putSlotWords (ch + 1) .spec (4 * (128 * sub + baseBands s)) _ fun i hlo hi => ?_).trans
    (StoresWithin.putSlotWords ch .spec (4 * (128 * sub + baseBands s)) _ fun i hlo hi => ?_)).tick
  all_goals
    obtain ⟨hsub, hrange⟩ := hbands i hlo (by simpa using hi)
  · exact h _ (.inr rfl) i hsub hrange
  · exact h _ (.inl rfl) i hsub hrange

theorem istereoChannel_storesWithin (subs : List Nat) (ch : Nat) (htotal : totalBands s ≤ 128)
    (h : role s ch = .stereoPrimary → ∀ c, c = ch ∨ c = ch + 1 → ∀ i, i / 512 ∈ subs →
      baseBands s ≤ i / 4 % 128 ∧ i / 4 % 128 < totalBands s → p (slotAddr c .spec i) = true) :
    StoresWithin p s (istereoChannel subs ch s) := by
  unfold istereoChannel
  split
  · next hrole =>
    exact StoresWithin.forEach _ _ fun sub hsub m d =>
      istereoSubframe_storesWithin ch sub htotal fun c hc i hi => h hrole c hc i (hi ▸ hsub)
  · exact StoresWithin.refl p s

end Stages

end Sys2Proof.Machine
end

section
/-! PROOFS. Frames of the commands that only store in RAM: each stays within its own places (spec/10_state.md R50). -/

namespace Sys2Proof.Machine

theorem dequantBody_frame {s : State} {ch : Nat} {allCh : Bool} (hcfg : cfgOk s = true) (hch : ChannelOk s ch allCh) :
    StoresWithin (writesByte (.dequant ch allCh) s) s (dequantBody (channelSet s ch allCh) s) :=
  StoresWithin.forEach _ _ fun c hc _ _ => dequantChannel_storesWithin c fun i hi => by
    simp [writesByte, inSlot_slotAddr c .spec i _ (channelSet_lt hcfg hch hc) hi, hc]

theorem hfrBody_frame {s : State} {ch : Nat} {allCh : Bool} (hcfg : cfgOk s = true) (hch : ChannelOk s ch allCh) :
    StoresWithin (writesByte (.hfrRecon ch allCh) s) s (hfrBody (channelSet s ch allCh) s) := by
  obtain ⟨-, -, htotal, -⟩ := cfgOk_bounds s hcfg
  unfold hfrBody
  split
  · exact StoresWithin.refl _ s
  · next hgroups =>
    refine StoresWithin.forEach _ _ fun c hc _ _ => hfrChannel_storesWithin c htotal fun hrole i hi hband => ?_
    have hrole : role s c ≠ .stereoSecondary := hrole
    have hband : hfrWritesBand s (i / 4 % 128) = true ∨ i / 4 % 128 = 127 := hband
    simp [writesByte, inSlot_slotAddr c .spec i _ (channelSet_lt hcfg hch hc) hi, hc, hrole, Nat.pos_of_ne_zero hgroups, hband]

theorem istereoBody_frame {s : State} {sub : Nat} {allSf : Bool} (hcfg : cfgOk s = true) (hsub : sub < 8) :
    StoresWithin (writesByte (.istereo sub allSf) s) s (istereoBody (subframeSet sub allSf) s) := by
  obtain ⟨-, hcount, htotal, -⟩ := cfgOk_bounds s hcfg
  refine StoresWithin.forEach _ _ fun ch hch _ _ => istereoChannel_storesWithin _ ch htotal fun hrole c hc i hi hband => ?_
  have hch : ch < chCount s := List.mem_range.1 hch
  have hrole : role s ch = .stereoPrimary := hrole
  have hband : baseBands s ≤ i / 4 % 128 ∧ i / 4 % 128 < totalBands s := hband
  obtain ⟨hpair, -⟩ := primary_has_secondary s ch hcfg hch hrole
  have hsubframe := subframeSet_lt hsub hi
  have hplace : i < slotArrayBytes .spec := by simp only [slotArrayBytes]; omega
  rcases hc with rfl | rfl
  · simp [writesByte, inSlot_slotAddr c .spec i _ (by omega) hplace, hi, hband, hch, hrole]
  · simp [writesByte, inSlot_slotAddr (ch + 1) .spec i _ (by omega) hplace, hi, hband, hch, hrole]

section Blocks

variable {s : State} {ch sub : Nat} {allCh allSf : Bool} (hcfg : cfgOk s = true) (hch : ChannelOk s ch allCh) (hsub : sub < 8)

include hcfg hch hsub

theorem imdct_frame : StoresWithin (writesByte (.imdct ch allCh sub allSf) s) s
    (forBlocks imdctBlock (channelSet s ch allCh) (subframeSet sub allSf) s) :=
  StoresWithin.forBlocks _ _ _ fun c hc q hq _ _ => by
    have hslot := channelSet_lt hcfg hch hc
    have hsubframe := subframeSet_lt hsub hq
    refine imdctBlock_storesWithin c q (fun i hlo hi => ?_) (fun i hi => ?_)
    · obtain rfl : i / 512 = q := by omega
      simp [writesByte, inSlot_slotAddr c .tbuf i _ hslot (by simp only [slotArrayBytes]; omega), hc, hq]
    · simp [writesByte, inSlot_slotAddr c .imdctCarry i _ hslot hi, hc]

theorem mdct_frame : StoresWithin (writesByte (.mdct ch allCh sub allSf) s) s
    (forBlocks mdctBlock (channelSet s ch allCh) (subframeSet sub allSf) s) :=
  StoresWithin.forBlocks _ _ _ fun c hc q hq _ _ => by
    have hslot := channelSet_lt hcfg hch hc
    have hsubframe := subframeSet_lt hsub hq
    refine mdctBlock_storesWithin c q (fun i hlo hi => ?_) (fun i hi => ?_)
    · obtain rfl : i / 512 = q := by omega
      simp [writesByte, inSlot_slotAddr c .spec i _ hslot (by simp only [slotArrayBytes]; omega), hc, hq]
    · simp [writesByte, inSlot_slotAddr c .mdctPrev i _ hslot hi, hc]

theorem pcmOut_frame : StoresWithin (writesByte (.pcmOut ch allCh sub allSf) s) s
    (forBlocks pcmOutBlock (channelSet s ch allCh) (subframeSet sub allSf) s) :=
  StoresWithin.forBlocks _ _ _ fun c hc q hq _ _ => pcmOutBlock_storesWithin c q fun i hlo hi => by
    have hsubframe := subframeSet_lt hsub hq
    obtain rfl : i / 256 = q := by omega
    simp [writesByte, inSlot_slotAddr c .pcm i _ (channelSet_lt hcfg hch hc) (by simp only [slotArrayBytes]; omega), hc, hq]

theorem pcmIn_frame : StoresWithin (writesByte (.pcmIn ch allCh sub allSf) s) s
    (forBlocks pcmInBlock (channelSet s ch allCh) (subframeSet sub allSf) s) :=
  StoresWithin.forBlocks _ _ _ fun c hc q hq _ _ => pcmInBlock_storesWithin c q fun i hlo hi => by
    have hsubframe := subframeSet_lt hsub hq
    obtain rfl : i / 512 = q := by omega
    simp [writesByte, inSlot_slotAddr c .tbuf i _ (channelSet_lt hcfg hch hc) (by simp only [slotArrayBytes]; omega), hc, hq]

end Blocks

theorem resetOvl_frame {s : State} {ch : Nat} {allCh : Bool} (hch : ch < 16) :
    StoresWithin (writesByte (.resetOvl ch allCh) s) s (forEach (slotSet ch allCh) clearOverlap s) :=
  StoresWithin.forEach _ _ fun c hc _ _ => clearOverlap_storesWithin c fun i hi => by
    have hslot := slotSet_lt hch hc
    constructor
    · simp [writesByte, inSlot_slotAddr c .imdctCarry i _ hslot hi, hc]
    · simp [writesByte, inSlot_slotAddr c .mdctPrev i _ hslot hi, hc]

/-! ### The frame buffer and the key tables -/

theorem frameBytes_lt (s : State) : frameBytes s < 0x10000 := field_lt _ _ _

theorem StoresWithin.putFrame {p : Nat → Bool} {s : State} (i : Nat) (bs : List Byte)
    (h : ∀ j, i ≤ j → j < i + bs.length → p (frameBufBase + j) = true) :
    StoresWithin p s (s.putBytes (frameBufBase + i) bs) :=
  StoresWithin.putBytes _ bs fun j hj => by
    rw [Nat.add_assoc]
    exact h (i + j) (by omega) (by omega)

theorem substituteFrame_frame (s : State) (table : Nat) :
    StoresWithin (fun a => inFrameBuf a fun i => decide (i < frameBytes s)) s (substituteFrame table s) :=
  StoresWithin.putFrame 0 _ fun j _ hj => by
    have hlt := frameBytes_lt s
    have hj : j < frameBytes s := by simpa using hj
    simp [inFrameBuf_frameBuf j _ (by omega), hj]

theorem crcGen_store_frame (s : State) (hframe : frameOk s = true) :
    StoresWithin (writesByte .crcGen s) s (s.putBytes (frameBufBase + (frameBytes s - 2)) (crcBytes (frameCrc s))) :=
  StoresWithin.putFrame _ _ fun j hlo hj => by
    have hlt := frameBytes_lt s
    have hmin := (frameOk_iff s).1 hframe
    have hj : j < frameBytes s := by simp only [crcBytes, List.length_cons, List.length_nil] at hj; omega
    have hlo : frameBytes s ≤ j + 2 := by omega
    simp [writesByte, inFrameBuf_frameBuf j _ (by omega), hlo, hj]

theorem inKeyTables_keyDec {i : Nat} (h : i < 256) : inKeyTables (keyDecBase + i) = true := by
  unfold inKeyTables
  rw [regionOf_keyDec i h]

theorem inKeyTables_keyEnc {i : Nat} (h : i < 256) : inKeyTables (keyEncBase + i) = true := by
  unfold inKeyTables
  rw [regionOf_keyEnc i h]

@[simp] theorem numBytes_length (ns : List Nat) : (numBytes ns).length = ns.length := by simp [numBytes]

@[simp] theorem inverseTable_length (d : List Nat) : (inverseTable d).length = 256 := by simp [inverseTable]

theorem storeKey_frame (s : State) {d : List Nat} (hd : d.length = 256) (tag : Word) :
    LeavesOutside inKeyTables (fun r => r == .errInfo || r == .keyType) s (storeKey d tag s) := by
  have htables : StoresWithin inKeyTables s
      ((s.putBytes keyDecBase (numBytes d)).putBytes keyEncBase (numBytes (inverseTable d))) :=
    (StoresWithin.putBytes _ _ fun j hj => inKeyTables_keyDec (by simpa [hd] using hj)).trans
      (StoresWithin.putBytes _ _ fun j hj => inKeyTables_keyEnc (by simpa using hj))
  refine (htables.leavesOutside _).trans
    (LeavesOutside.of_registers rfl rfl (fun r _ hr => ?_) rfl rfl rfl rfl)
  cases r <;> first | rfl | contradiction

end Sys2Proof.Machine
end

section
/-! PROOFS. The substitution tables: every table that a scheme builds is a permutation of 0 to 255, and storing a permutation with
its inverse makes the key tables inverse to each other (spec/42_cipher.md R160 to R170, spec/10_state.md R43). -/

namespace Sys2Proof.Machine

/-! ### Permutations of 0 to 255 -/

theorem getElem_lt_of_perm_range {d : List Nat} {n : Nat} (h : d.Perm (List.range n)) {i : Nat} (hi : i < d.length) :
    d[i] < n := List.mem_range.1 (h.subset (List.getElem_mem hi))

theorem idxOf_lt_of_perm_range {d : List Nat} {n : Nat} (h : d.Perm (List.range n)) {v : Nat} (hv : v < n) :
    d.idxOf v < d.length := List.idxOf_lt_length_iff.2 (h.symm.subset (List.mem_range.2 hv))

theorem length_of_perm_range {d : List Nat} {n : Nat} (h : d.Perm (List.range n)) : d.length = n := by
  simpa using h.length_eq

/-- Leaving out 0 and 255 and putting them at their own places again makes a permutation of a permutation (R163, R169). -/
theorem tableFrom_perm {values : List Nat} (h : values.Perm (List.range 256)) : (tableFrom values).Perm (List.range 256) :=
  calc tableFrom values
      _ = 0 :: (values.filter (fun v => v ≠ 0 ∧ v ≠ 255) ++ [255]) := rfl
      _ |>.Perm (0 :: ((List.range 256).filter (fun v => v ≠ 0 ∧ v ≠ 255) ++ [255])) := ((h.filter _).append_right _).cons 0
      _ = List.range 256 := by decide +kernel

/-! ### The three schemes -/

theorem type0Table_perm : type0Table.Perm (List.range 256) := .refl _

/-- The generator of Type 1 has the full period (R163). -/
theorem type1Table_perm : type1Table.Perm (List.range 256) := tableFrom_perm (by decide +kernel)

theorem keyByte_lt (key i : Nat) : keyByte key i < 256 := Nat.mod_lt _ (by decide)

/-- The generator of a row has the full period for every seed (R167). -/
theorem keyRow_perm {k : Nat} (hk : k < 256) : (keyRow k).Perm (List.range 16) :=
  (by decide +kernel : ∀ k : Fin 256, (keyRow k).Perm (List.range 16)) ⟨k, hk⟩

theorem columnSeeds_lt {key k : Nat} (hk : k ∈ columnSeeds key) : k < 256 := by
  have hbyte : ∀ i, keyByte key i < 2 ^ 8 := keyByte_lt key
  have hxor : ∀ i j, keyByte key i ^^^ keyByte key j < 2 ^ 8 := fun i j => Nat.xor_lt_two_pow (hbyte i) (hbyte j)
  simp only [columnSeeds, List.mem_cons, List.not_mem_nil, or_false] at hk
  rcases hk with rfl | rfl | rfl | rfl | rfl | rfl | rfl | rfl | rfl | rfl | rfl | rfl | rfl | rfl | rfl | rfl <;>
    first | exact hbyte _ | exact hxor _ _

/-- Each high nibble meets every low nibble once, so the combination table is a permutation (R168). -/
theorem combinationTable_perm (key : Nat) : (combinationTable key).Perm (List.range 256) := by
  have hhigh := keyRow_perm (keyByte_lt key 0)
  have hzip : ((keyRow (keyByte key 0)).zip (columnSeeds key)).map Prod.fst = keyRow (keyByte key 0) :=
    List.map_fst_zip (by rw [length_of_perm_range hhigh]; exact le_rfl)
  have hrow : ∀ p ∈ (keyRow (keyByte key 0)).zip (columnSeeds key),
      ((keyRow p.2).map (fun lo => 16 * p.1 + lo)).Perm ((List.range 16).map (fun lo => 16 * p.1 + lo)) := fun p hp =>
    (keyRow_perm (columnSeeds_lt (List.of_mem_zip hp).2)).map _
  refine (List.Perm.flatMap_left _ hrow).trans ?_
  rw [← List.flatMap_map Prod.fst (fun hi => (List.range 16).map (fun lo => 16 * hi + lo)), hzip]
  exact (hhigh.flatMap_right _).trans (by decide +kernel)

/-- The Type 56 table is a permutation for every key (R169). -/
theorem type56Table_perm (key : Nat) : (type56Table key).Perm (List.range 256) := by
  have hbase := combinationTable_perm key
  have hsteps : (orbit (fun x => (x + 17) % 256) 256 0).Perm (List.range 256) := by decide +kernel
  have hself : (List.range 256).map (fun x => (combinationTable key).getD x 0) = combinationTable key := by
    refine List.ext_getElem (by simp [length_of_perm_range hbase]) fun i _ hi => ?_
    simp [hi]
  exact tableFrom_perm ((hself ▸ hsteps.map _).trans hbase)

/-! ### Storing a table -/

/-- Byte `i` of the decryption table. -/
def State.decAt (s : State) (i : Nat) : Nat := s.numAt (keyDecBase + i)

/-- Byte `i` of the encryption table. -/
def State.encAt (s : State) (i : Nat) : Nat := s.numAt (keyEncBase + i)

theorem keyTablesInverse_iff (s : State) :
    KeyTablesInverse s ↔ ∀ i, i < 256 → s.encAt (s.decAt i) = i ∧ s.decAt (s.encAt i) = i := Iff.rfl

theorem numAt_putBytes_whole (s : State) (base i : Nat) (ns : List Nat) (hi : i < ns.length) (hn : ns[i] < 256)
    (hmask : cellMask (base + i) = 0xFF#8) : (s.putBytes base (numBytes ns)).numAt (base + i) = ns[i] := by
  rw [State.numAt, State.byte_putBytes_whole s base i _ (by simpa using hi) hmask]
  simpa [numBytes] using hn

theorem decAt_storeKey (s : State) {d : List Nat} (hd : d.Perm (List.range 256)) (tag : Word) {i : Nat} (hi : i < 256)
    (hlen : i < d.length) : (storeKey d tag s).decAt i = d[i] := by
  have hbelow : (storeKey d tag s).byte (keyDecBase + i) = (s.putBytes keyDecBase (numBytes d)).byte (keyDecBase + i) :=
    State.byte_putBytes_outside _ keyEncBase _ _ (.inl (by simp only [keyDecBase, keyEncBase]; omega))
  rw [State.decAt, State.numAt, hbelow]
  exact numAt_putBytes_whole s keyDecBase i d hlen (getElem_lt_of_perm_range hd hlen) (cellMask_keyDec i hi)

theorem encAt_storeKey (s : State) {d : List Nat} (hd : d.Perm (List.range 256)) (tag : Word) {v : Nat} (hv : v < 256) :
    (storeKey d tag s).encAt v = d.idxOf v := by
  have hidx : d.idxOf v < 256 := length_of_perm_range hd ▸ idxOf_lt_of_perm_range hd hv
  have hstored := numAt_putBytes_whole (s.putBytes keyDecBase (numBytes d)) keyEncBase v (inverseTable d) (by simpa using hv)
    (by simpa [inverseTable] using hidx) (cellMask_keyEnc v hv)
  exact hstored.trans (by simp [inverseTable])

/-- Storing a permutation leaves the two tables inverse to each other (R160, spec/10_state.md R43). -/
theorem storeKey_keyTablesInverse (s : State) {d : List Nat} (hd : d.Perm (List.range 256)) (tag : Word) :
    KeyTablesInverse (storeKey d tag s) := by
  refine (keyTablesInverse_iff _).2 fun i hi => ?_
  have hlen : i < d.length := by rwa [length_of_perm_range hd]
  have hnodup : d.Nodup := hd.nodup_iff.2 List.nodup_range
  constructor
  · rw [decAt_storeKey s hd tag hi hlen, encAt_storeKey s hd tag (getElem_lt_of_perm_range hd hlen),
      hnodup.idxOf_getElem i hlen]
  · have hidx := idxOf_lt_of_perm_range hd hi
    rw [encAt_storeKey s hd tag hi, decAt_storeKey s hd tag (length_of_perm_range hd ▸ hidx) hidx, List.getElem_idxOf]

end Sys2Proof.Machine
end

section
/-! PROOFS. Readers of the bitstream: what holds of every value a reader answers, that reading only moves the cursor on, and that
its errors are the structural ones (spec/44_bitstream.md R200 to R216). -/

namespace Sys2Proof.Machine

/-! ### One rule for each reader combinator -/

/-- Every value the reader answers satisfies `P`, with the cursor moved on in the same bits; its errors are structural. -/
def Yields {α : Type} (r : Reader α) (P : α → Prop) : Prop :=
  ∀ c, match r c with
    | .ok (a, c') => P a ∧ c'.pos + c'.rest.length = c.pos + c.rest.length
    | .error e => e.code ∈ [.sync, .sfRange, .intensityRange, .overrun]

namespace Yields

variable {α β : Type} {r : Reader α} {P Q : α → Prop} {R : β → Prop}

theorem ok (h : Yields r P) {c c' : Cursor} {a : α} (hr : r c = .ok (a, c')) :
    P a ∧ c'.pos + c'.rest.length = c.pos + c.rest.length := by simpa only [hr] using h c

theorem error (h : Yields r P) {c : Cursor} {e : BitError} (hr : r c = .error e) :
    e.code ∈ [.sync, .sfRange, .intensityRange, .overrun] := by simpa only [hr] using h c

theorem mono (h : Yields r P) (hPQ : ∀ a, P a → Q a) : Yields r Q := fun c => by
  cases hr : r c with
  | error e => exact h.error hr
  | ok p => exact ⟨hPQ _ (h.ok hr).1, (h.ok hr).2⟩

theorem bind {k : α → Reader β} (h : Yields r P) (hk : ∀ a, P a → Yields (k a) R) : Yields (r >>= k) R := fun c => by
  have hbind : (r >>= k) c = (match r c with | .ok (a, c') => k a c' | .error e => .error e) := by
    simp only [Bind.bind, StateT.bind, Except.bind]
    cases r c <;> rfl
  rw [hbind]
  cases hr : r c with
  | error e => exact h.error hr
  | ok p =>
    obtain ⟨a, c1⟩ := p
    obtain ⟨ha, hc1⟩ := h.ok hr
    dsimp only
    cases hka : k a c1 with
    | error e => exact (hk a ha).error hka
    | ok p => exact ⟨((hk a ha).ok hka).1, ((hk a ha).ok hka).2.trans hc1⟩

theorem pure {a : α} (h : P a) : Yields (pure a : Reader α) P := fun _ => ⟨h, rfl⟩

theorem ite {b : Prop} [Decidable b] {r' : Reader α} (h : b → Yields r P) (h' : ¬b → Yields r' P) :
    Yields (if b then r else r') P := by
  split
  · next hb => exact h hb
  · next hb => exact h' hb

theorem failAt {code : ErrCode} (pos : Nat) (h : code ∈ [.sync, .sfRange, .intensityRange, .overrun]) :
    Yields (failAt code pos : Reader α) P := fun _ => h

theorem cursorPos : Yields cursorPos (fun _ => True) := fun _ => ⟨trivial, rfl⟩

theorem peekUint (n : Nat) : Yields (peekUint n) (fun _ => True) := fun _ => ⟨trivial, rfl⟩

theorem readUint (n : Nat) : Yields (readUint n) (· < 2 ^ n) := fun c => by
  rcases readUint_cases n c with ⟨hn, hr⟩ | ⟨-, hr⟩ <;> rw [hr]
  · refine ⟨by simpa [hn] using valueOf_lt (c.rest.take n), ?_⟩
    simp only [List.length_drop]
    omega
  · exact by simp

theorem readMany (h : Yields r P) (n : Nat) : Yields (readMany r n) (fun l => l.length = n ∧ ∀ x ∈ l, P x) := by
  induction n with
  | zero => exact pure ⟨rfl, by simp⟩
  | succ n ih =>
    exact h.bind fun a ha => ih.bind fun l ⟨hlen, hl⟩ => pure ⟨by simp [hlen], List.forall_mem_cons.2 ⟨ha, hl⟩⟩

theorem readEach {f : β → Reader α} (xs : List β) (h : ∀ x ∈ xs, Yields (f x) P) :
    Yields (readEach f xs) (fun l => l.length = xs.length ∧ ∀ a ∈ l, P a) := by
  induction xs with
  | nil => exact pure ⟨rfl, by simp⟩
  | cons x xs ih =>
    obtain ⟨hx, hxs⟩ := List.forall_mem_cons.1 h
    exact hx.bind fun a ha => (ih hxs).bind fun l ⟨hlen, hl⟩ => pure ⟨by simp [hlen], List.forall_mem_cons.2 ⟨ha, hl⟩⟩

theorem readDeltas {code : ErrCode} (w raw top : Nat) (hcode : code ∈ [.sync, .sfRange, .intensityRange, .overrun]) (n : Nat) :
    ∀ prev, Yields (readDeltas w raw top code n prev) (fun l => l.length = n) := by
  induction n with
  | zero => exact fun _ => pure rfl
  | succ n ih =>
    have hrest : ∀ v, Yields (do let rest ← Machine.readDeltas w raw top code n v; Pure.pure (v :: rest))
        (fun l => l.length = n + 1) := fun v => (ih v).bind fun l hl => pure (by simp [hl])
    exact fun prev => cursorPos.bind fun pos _ => (readUint w).bind fun u _ =>
      ite (fun _ => (readUint raw).bind fun v _ => hrest v) fun _ =>
        ite (fun _ => (failAt (P := fun _ => True) pos hcode).bind fun v _ => hrest v) fun _ => hrest _

end Yields

/-! ### The sections of a frame -/

theorem padBands_length {xs : List Nat} (h : xs.length ≤ 128) : (padBands xs).length = 128 := by simp [padBands]; omega

theorem readScaleFactors_yields {n : Nat} (hn : n ≤ 128) : Yields (readScaleFactors n) (fun x => x.2.length = 128) := by
  refine (Yields.readUint 3).bind fun d _ => .ite (fun _ => .pure (padBands_length (by simp)))
    fun _ => .ite (fun _ => ?_) fun _ => ?_
  · exact ((Yields.readUint 6).readMany n).bind fun f ⟨hf, _⟩ => .pure (padBands_length (by omega))
  · cases n with
    | zero => exact .pure (padBands_length (by simp))
    | succ k =>
      exact (Yields.readUint 6).bind fun f0 _ => (Yields.readDeltas d 6 63 (by simp) k f0).bind fun f hf =>
        .pure (padBands_length (by simpa [hf] using hn))

theorem readIntensity_yields (ver : Nat) : Yields (readIntensity ver) (fun x => x.length = 8) := by
  refine .ite (fun _ => ((Yields.readUint 4).readMany 8).mono fun _ h => h.1) fun _ => ?_
  refine (Yields.readUint 4).bind fun i0 _ => .ite (fun _ => .pure rfl) fun _ => ?_
  refine (Yields.readUint 2).bind fun q _ => .ite (fun _ => ?_) fun _ => ?_
  · exact ((Yields.readUint 4).readMany 7).bind fun l hl => .pure (by simp [hl.1])
  · exact (Yields.readDeltas (q + 1) 4 15 (by simp) 7 i0).bind fun l hl => .pure (by simp [hl])

theorem readHfr_yields {s : State} (hcfg : cfgOk s = true) (ch : Nat) : Yields (readHfr s ch) (fun x => x.length = 8) := by
  obtain ⟨-, -, -, hgroups, -⟩ := cfgOk_bounds s hcfg
  refine .ite (fun _ => ?_) fun _ => .pure rfl
  exact ((Yields.readUint 6).readMany _).bind fun g hg => .pure (by simp [hg.1]; omega)

/-- The side information that UNPACK stores for a channel fills its arrays (spec/10_state.md R51 to R54). -/
def SideInfo.Fits (x : SideInfo) : Prop := x.sf.length = 128 ∧ x.intensity.length = 8 ∧ x.hfr.length = 8

theorem readSide_yields {s : State} (hcfg : cfgOk s = true) (ch : Nat) : Yields (readSide s ch) SideInfo.Fits :=
  (readScaleFactors_yields (coded_le s ch hcfg).2).bind fun ⟨d, sf⟩ hsf =>
    have hrest : ∀ intensity : List Nat, intensity.length = 8 →
        Yields (do let hfr ← readHfr s ch; pure ⟨d, sf, intensity, hfr⟩) SideInfo.Fits := fun _ hintensity =>
      (readHfr_yields hcfg ch).bind fun _ hhfr => .pure ⟨hsf, hintensity, hhfr⟩
    .ite (fun _ => (readIntensity_yields _).bind hrest) fun _ => hrest _ rfl

theorem readHeader_yields : Yields readHeader (fun x => x.1 < 2 ^ 9 ∧ x.2 < 2 ^ 7) :=
  (Yields.readUint 16).bind fun _ _ => .ite (fun _ => .failAt 0 (by simp)) fun _ =>
    (Yields.readUint 9).bind fun _ hnoise => (Yields.readUint 7).bind fun _ heval => .pure ⟨hnoise, heval⟩

theorem readCoef_yields (r : Nat) : Yields (readCoef r) (fun _ => True) := by
  refine .ite (fun _ => .pure trivial) fun _ => .ite (fun _ => ?_) fun _ => ?_
  · exact (Yields.peekUint _).bind fun p _ => (Yields.readUint _).bind fun _ _ => .pure trivial
  · exact (Yields.readUint _).bind fun m _ => .ite (fun _ => .pure trivial) fun _ =>
      (Yields.readUint 1).bind fun _ _ => .pure trivial

/-! ### The frame -/

/-- The header's numbers fit their fields, and what is stored for each channel fills its arrays. -/
structure Frame.Fits (f : Frame) : Prop where
  noise : f.noise < 2 ^ 9
  eval : f.eval < 2 ^ 7
  side : ∀ x ∈ f.side, x.Fits
  res : ∀ x ∈ f.res, x.length = 128
  subframes : f.coefs.length = 8
  rows : ∀ row ∈ f.coefs, ∀ x ∈ row, x.length ≤ 128

theorem resolutions_length (s : State) (noise eval ch : Nat) (sf : List Nat) : (resolutions s noise eval ch sf).length = 128 := by
  simp [resolutions]

theorem readFrame_yields {s : State} (hcfg : cfgOk s = true) : Yields (readFrame s) Frame.Fits :=
  readHeader_yields.bind fun ⟨noise, eval⟩ ⟨hnoise, heval⟩ =>
    (Yields.readEach _ fun ch _ => readSide_yields hcfg ch).bind fun side ⟨_, hside⟩ => by
      have hres : ∀ x ∈ side.zipIdx.map (fun p => resolutions s noise eval p.2 p.1.sf), x.length = 128 := fun x hx => by
        obtain ⟨p, -, rfl⟩ := List.mem_map.1 hx
        exact resolutions_length _ _ _ _ _
      refine (Yields.readMany (Yields.readEach (P := fun x => x.length ≤ 128) _ fun p hp =>
        (Yields.readEach _ fun r _ => readCoef_yields r).mono fun x hx => ?_) 8).bind fun coefs ⟨hsubframes, hrows⟩ =>
          .pure ⟨hnoise, heval, hside, hres, hsubframes, fun row hrow => (hrows row hrow).2⟩
      have hlen := hres p.1 (List.fst_mem_of_mem_zipIdx hp)
      rw [hx.1, List.length_take]
      omega

theorem bytesToBits_length (bytes : List Byte) : (bytesToBits bytes).length = 8 * bytes.length := by
  induction bytes with
  | nil => rfl
  | cons b bs ih =>
    simp only [bytesToBits, List.flatMap_cons, List.length_append, bitsOf_length, List.length_cons] at ih ⊢
    omega

theorem frameBitList_length (s : State) : (frameBitList s).length = frameBits s := by
  simp [frameBitList, bytesToBits_length, frameBits]

/-- What UNPACK reads of a frame, and where it can end: within the frame (R216). -/
theorem readFrame_ok {s : State} (hcfg : cfgOk s = true) {f : Frame} {c : Cursor} (h : readFrame s (frameCursor s) = .ok (f, c)) :
    f.Fits ∧ c.pos ≤ frameBits s := by
  obtain ⟨hfits, hpos⟩ := (readFrame_yields hcfg).ok h
  have := frameBitList_length s
  simp only [frameCursor] at hpos
  exact ⟨hfits, by omega⟩

theorem readFrame_error {s : State} (hcfg : cfgOk s = true) {e : BitError} (h : readFrame s (frameCursor s) = .error e) :
    e.code ≠ .none := by
  have := (readFrame_yields hcfg).error h
  rintro hnone
  simp [hnone] at this

end Sys2Proof.Machine
end

section
/-! PROOFS. Frames of UNPACK and DECODE_FRAME, whatever they end with (spec/44_bitstream.md R214, R216; spec/46_composite.md R270,
R271). -/

namespace Sys2Proof.Machine

/-! ### UNPACK -/

/-- What holds of every member of a list and of the default holds of what is found at a place. -/
theorem getD_of_forall {α : Type} {P : α → Prop} {l : List α} {d : α} (h : ∀ x ∈ l, P x) (hd : P d) (i : Nat) :
    P (l.getD i d) := by
  rw [List.getD_eq_getElem?_getD]
  cases hget : l[i]? with
  | none => exact hd
  | some x => exact h x (List.mem_of_getElem? hget)

namespace Frame.Fits

variable {f : Frame} (hf : f.Fits) (ch : Nat)

include hf

theorem side_getD_length_le : (f.side.getD ch ⟨0, [], [], []⟩).sf.length ≤ 128
    ∧ (f.side.getD ch ⟨0, [], [], []⟩).intensity.length ≤ 8 ∧ (f.side.getD ch ⟨0, [], [], []⟩).hfr.length ≤ 8 :=
  getD_of_forall (P := fun x : SideInfo => x.sf.length ≤ 128 ∧ x.intensity.length ≤ 8 ∧ x.hfr.length ≤ 8) (fun x hx => by
    obtain ⟨hsf, hintensity, hhfr⟩ := hf.side x hx
    exact ⟨hsf.le, hintensity.le, hhfr.le⟩) (by simp) ch

theorem res_getD_length_le : (f.res.getD ch []).length ≤ 128 :=
  getD_of_forall (P := fun x : List Nat => x.length ≤ 128) (fun x hx => (hf.res x hx).le) (by simp) ch

/-- The coefficients of a channel fill its `QSPEC` (R216). -/
theorem coefs_length : (f.coefs.flatMap fun row => coefRow (row.getD ch [])).length = 1024 := by
  have hrow : ∀ row ∈ f.coefs, (coefRow (row.getD ch [])).length = 128 := fun row hrow => by
    have hlen := getD_of_forall (P := fun x : List Int => x.length ≤ 128) (d := []) (hf.rows row hrow) (by simp) ch
    simp only [coefRow, List.length_append, List.length_map, List.length_replicate]
    omega
  rw [List.length_flatMap, List.map_congr_left hrow, List.map_const', List.sum_replicate, hf.subframes]
  rfl

end Frame.Fits

section UnpackedChannel

variable {p : Nat → Bool} {s : State} {ch : Nat}
  (h : ∀ array, unpackArray array = true → ∀ i, i < slotArrayBytes array → p (slotAddr ch array i) = true)

include h

/-- `RES` follows `SF` (spec/10_state.md R50). -/
theorem unpack_place_sf_res {i : Nat} (hi : i < 256) : p (slotAddr ch .sf i) = true := by
  rcases lt_or_ge i 128 with hsf | hres
  · exact h .sf rfl i hsf
  · have hplace : slotAddr ch .sf i = slotAddr ch .res (i - 128) := by simp only [slotAddr, slotArrayOffset]; omega
    rw [hplace]
    exact h .res rfl (i - 128) (by simp only [slotArrayBytes]; omega)

/-- `HFR_SCALE` follows `INTENSITY` (spec/10_state.md R50). -/
theorem unpack_place_intensity_hfr {i : Nat} (hi : i < 16) : p (slotAddr ch .intensity i) = true := by
  rcases lt_or_ge i 8 with hintensity | hhfr
  · exact h .intensity rfl i hintensity
  · have hplace : slotAddr ch .intensity i = slotAddr ch .hfrScale (i - 8) := by simp only [slotAddr, slotArrayOffset]; omega
    rw [hplace]
    exact h .hfrScale rfl (i - 8) (by simp only [slotArrayBytes]; omega)

theorem scrambleChannel_storesWithin : StoresWithin p s (scrambleChannel ch s) := by
  refine ((StoresWithin.putSlot ch .sf 0 _ fun i _ hi => ?_).trans
    (StoresWithin.putSlot ch .intensity 0 _ fun i _ hi => ?_)).trans (StoresWithin.putSlot ch .qspec 0 _ fun i _ hi => ?_)
  all_goals simp only [State.freeBytes, List.length_map, List.length_range] at hi
  · exact unpack_place_sf_res h (by omega)
  · exact unpack_place_intensity_hfr h (by omega)
  · exact h .qspec rfl i (by simp only [slotArrayBytes]; omega)

theorem storeFrameChannel_storesWithin {f : Frame} (hf : f.Fits) : StoresWithin p s (storeFrameChannel f ch s) := by
  obtain ⟨hsf, hintensity, hhfr⟩ := hf.side_getD_length_le ch
  refine (((StoresWithin.putSlot ch .sf 0 _ fun i _ hi => ?_).trans (StoresWithin.putSlot ch .res 0 _ fun i _ hi => ?_)).trans
    (StoresWithin.putSlot ch .intensity 0 _ fun i _ hi => ?_)).trans (StoresWithin.putSlotHalves ch .qspec 0 _ fun i _ hi => ?_)
  · rw [numBytes_length] at hi
    exact unpack_place_sf_res h (by omega)
  · rw [numBytes_length] at hi
    have hlen := hf.res_getD_length_le ch
    exact h .res rfl i (by simp only [slotArrayBytes]; omega)
  · rw [List.length_append, numBytes_length, numBytes_length] at hi
    exact unpack_place_intensity_hfr h (by omega)
  · rw [hf.coefs_length ch] at hi
    exact h .qspec rfl i (by simp only [slotArrayBytes]; omega)

end UnpackedChannel

/-- A channel's UNPACK outputs are places of UNPACK. -/
theorem writesByte_unpack {s : State} (hcfg : cfgOk s = true) {ch : Nat} (hch : ch ∈ List.range (chCount s)) (array : SlotArray)
    (harray : unpackArray array = true) (i : Nat) (hi : i < slotArrayBytes array) :
    writesByte .unpack s (slotAddr ch array i) = true := by
  obtain ⟨-, hcount, -⟩ := cfgOk_bounds s hcfg
  have hch := List.mem_range.1 hch
  simp [writesByte, inSlot_slotAddr ch array i _ (by omega) hi, hch, harray]

theorem storeFrame_frame {s : State} (hcfg : cfgOk s = true) {f : Frame} (hf : f.Fits) (n : Nat) :
    UnchangedOutside .unpack s (storeFrame f n s) := by
  have hloop : StoresWithin (writesByte .unpack s) s (forEach (List.range (chCount s)) (storeFrameChannel f) s) :=
    StoresWithin.forEach _ _ fun ch hch _ _ => storeFrameChannel_storesWithin (writesByte_unpack hcfg hch) hf
  have hheader := (hloop.leavesOutside (writesReg .unpack)).trans (u :=
      { forEach (List.range (chCount s)) (storeFrameChannel f) s with frameHdr := frameHdrWord f.noise f.eval })
    (.of_registers rfl rfl (fun r _ hr => by cases r <;> first | rfl | contradiction) rfl rfl rfl rfl)
  exact ((hheader.withDeltaBits rfl rfl _).withBitPos rfl rfl n).withValidity _ _

theorem unpackFailed_frame {s : State} (hcfg : cfgOk s = true) : UnchangedOutside .unpack s (unpackFailed s) := by
  have hloop : StoresWithin (writesByte .unpack s) s (forEach (List.range (chCount s)) scrambleChannel s) :=
    StoresWithin.forEach _ _ fun ch hch _ _ => scrambleChannel_storesWithin (writesByte_unpack hcfg hch)
  obtain ⟨m, d, e⟩ := hloop.rest
  refine (hloop.leavesOutside (writesReg .unpack)).trans (.of_registers rfl rfl (fun r _ hr => ?_) ?_ rfl rfl rfl)
  · cases r <;> first | rfl | contradiction
  · rw [e]
    rfl

theorem unpackBody_frame {s : State} (hcfg : cfgOk s = true) : (unpackBody s).Leaves (UnchangedOutside .unpack s) := by
  unfold unpackBody
  split
  · next hread => exact ⟨readFrame_error hcfg hread, unpackFailed_frame hcfg⟩
  · next hread => exact storeFrame_frame hcfg (readFrame_ok hcfg hread).1 _

/-! ### DECODE_FRAME -/

theorem inSlot_mono {a : Nat} {p q : Nat → SlotArray → Nat → Bool} (h : ∀ c array i, p c array i = true → q c array i = true)
    (ha : inSlot a p = true) : inSlot a q = true := by
  unfold inSlot at ha ⊢
  split
  · next c array i hregion => exact h c array i (by simpa [hregion] using ha)
  · next hregion =>
    split at ha
    · next c array i hslot => exact absurd hslot (hregion c array i)
    · contradiction

/-- The places of each stage are places of DECODE_FRAME. -/
theorem writesByte_decodeFrame {s : State} (hcfg : cfgOk s = true) {i : Instr}
    (hi : i ∈ [.unpack, .dequant 0 true, .hfrRecon 0 true, .istereo 0 true, .imdct 0 true 0 true, .pcmOut 0 true 0 true]) (a : Nat)
    (ha : writesByte i s a = true) : writesByte .decodeFrame s a = true := by
  have hset : ∀ c, (channelSet s 0 true).contains c = decide (c < chCount s) := by simp [channelSet]
  simp only [List.mem_cons, List.not_mem_nil, or_false] at hi
  rcases hi with rfl | rfl | rfl | rfl | rfl | rfl <;> refine inSlot_mono (fun c array n hn => ?_) ha <;>
    simp only [hset, Bool.and_eq_true, Bool.or_eq_true] at hn
  · obtain ⟨hc, harray⟩ := hn
    simp [hc, harray]
  · obtain ⟨hc, harray⟩ := hn
    simp [hc, harray]
  · obtain ⟨⟨⟨hc, harray⟩, -⟩, -⟩ := hn
    simp [hc, harray]
  · obtain ⟨⟨⟨harray, -⟩, -⟩, hpair⟩ := hn
    have hc : c < chCount s := by
      rcases of_decide_eq_true hpair with ⟨hc, -⟩ | ⟨hpos, hc, hrole⟩
      · exact hc
      · obtain ⟨hsecondary, -⟩ := primary_has_secondary s (c - 1) hcfg hc hrole
        omega
    simp [hc, harray]
  · obtain ⟨hc, harray | ⟨harray, -⟩⟩ := hn <;> simp [hc, harray]
  · obtain ⟨⟨hc, harray⟩, -⟩ := hn
    simp [hc, harray]

/-- One change after another, the second from a state with the configuration of the first. -/
theorem StoresWithin.andThen {p : Nat → Bool} {s t : State} (h : StoresWithin p s t) (f : State → State)
    (hf : ∀ m d, StoresWithin p { s with mem := m, draws := d } (f { s with mem := m, draws := d })) : StoresWithin p s (f t) := by
  obtain ⟨m, d, rfl⟩ := h.rest
  exact h.trans (hf m d)

theorem decodeStages_frame {s : State} (hcfg : cfgOk s = true) :
    StoresWithin (writesByte .decodeFrame s) s (decodeStages s) := by
  have hall : ChannelOk s 0 true := .inl rfl
  have hplaces := @writesByte_decodeFrame s hcfg
  have hdequant : StoresWithin (writesByte .decodeFrame s) s (dequantBody (channelSet s 0 true) s) :=
    (dequantBody_frame hcfg hall).mono (hplaces (by simp))
  have hhfr := hdequant.andThen (hfrBody (channelSet s 0 true)) fun m d =>
    (hfrBody_frame (s := { s with mem := m, draws := d }) hcfg hall).mono (hplaces (i := .hfrRecon 0 true) (by simp))
  have histereo := hhfr.andThen (istereoBody (subframeSet 0 true)) fun m d =>
    (istereoBody_frame (s := { s with mem := m, draws := d }) hcfg (by decide)).mono (hplaces (i := .istereo 0 true) (by simp))
  have himdct := histereo.andThen (forBlocks imdctBlock (channelSet s 0 true) (subframeSet 0 true)) fun m d =>
    (imdct_frame (s := { s with mem := m, draws := d }) hcfg hall (by decide)).mono
      (hplaces (i := .imdct 0 true 0 true) (by simp))
  exact himdct.andThen (forBlocks pcmOutBlock (channelSet s 0 true) (subframeSet 0 true)) fun m d =>
    (pcmOut_frame (s := { s with mem := m, draws := d }) hcfg hall (by decide)).mono
      (hplaces (i := .pcmOut 0 true 0 true) (by simp))

/-- Equal configuration registers make equal configurations (spec/10_state.md R24 to R30). -/
theorem cfgOk_congr {s t : State} (hstream : t.cfgStream = s.cfgStream) (hbands : t.cfgBands = s.cfgBands)
    (hres : t.cfgRes = s.cfgRes) (hroles : t.cfgRoles = s.cfgRoles) : cfgOk t = cfgOk s := by
  cases s
  cases t
  cases hstream
  cases hbands
  cases hres
  cases hroles
  rfl

/-- UNPACK writes no configuration. -/
theorem cfgOk_after_unpack {s t : State} (h : UnchangedOutside .unpack s t) : cfgOk t = cfgOk s := by
  obtain ⟨-, hregs, -⟩ := h
  exact cfgOk_congr (hregs .cfgStream (by decide) rfl) (hregs .cfgBands (by decide) rfl) (hregs .cfgRes (by decide) rfl)
    (hregs .cfgRoles (by decide) rfl)

theorem chCount_after_unpack {s t : State} (h : UnchangedOutside .unpack s t) : chCount t = chCount s := by
  obtain ⟨-, hregs, -⟩ := h
  exact congrArg (field · 0 5) (hregs .cfgStream (by decide) rfl)

/-- The stages after UNPACK see the channels that UNPACK saw. -/
theorem decodeStages_after_unpack {s t : State} (hcfg : cfgOk s = true) (h : UnchangedOutside .unpack s t) :
    UnchangedOutside .decodeFrame s (decodeStages t) := by
  have hframe := ((unchangedOutside_iff _ _ _).1 h).mono (q' := writesReg .decodeFrame)
    (writesByte_decodeFrame hcfg (by simp)) fun r hr => hr
  have hplaces : writesByte .decodeFrame t = writesByte .decodeFrame s := by
    funext a
    simp only [writesByte]
    rw [chCount_after_unpack h]
  have hstages := decodeStages_frame ((cfgOk_after_unpack h).trans hcfg)
  exact hframe.trans ((hplaces ▸ hstages).leavesOutside _)

/-- An error of the first effect ends both, and `P` or `Q` holds of what it leaves. -/
theorem Effect.Leaves.andThen {P Q : State → Prop} {e : Effect} {k : State → Effect} (h : e.Leaves P) (hPQ : ∀ t, P t → Q t)
    (hk : ∀ t, P t → (k t).Leaves Q) : (e.andThen k).Leaves Q := by
  cases e with
  | ok t => exact hk t h
  | error code info t => exact ⟨h.1, hPQ t h.2⟩

theorem leaves_requireValid {P : State → Prop} {s : State} (h : P s) : (requireValid s).Leaves P := by
  unfold requireValid
  split
  · exact h
  · exact ⟨by decide, h⟩

theorem decodeFrameEffect_frame (s : State) : (decodeFrameEffect s).Leaves (UnchangedOutside .decodeFrame s) := by
  have hrefl : UnchangedOutside .decodeFrame s s := LeavesOutside.refl _ _ s
  refine leaves_requireCfg hrefl fun hcfg => leaves_requireFrame hrefl fun _ => leaves_requireHfrVersion hrefl ?_
  refine ((unpackBody_frame hcfg).andThen (fun _ h => h) fun t h => leaves_requireValid h).andThen (fun t h => ?_)
    fun t h => decodeStages_after_unpack hcfg h
  exact ((unchangedOutside_iff _ _ _).1 h).mono (writesByte_decodeFrame hcfg (by simp)) fun r hr => hr

end Sys2Proof.Machine
end

section
/-! PROOFS. PACK's lengths: the content has as many bits as `contentLength` says, so a frame that fits fills no byte past its end, and
no content is longer than `BITPOS` can say (spec/44_bitstream.md R226 to R232, spec/10_state.md R36). -/

namespace Sys2Proof.Machine

/-! ### Sections -/

theorem deltaFields_length (d : Nat) (f : List Nat) : (deltaFields d f).length = deltaCosts d f := by
  induction f using deltaFields.induct with
  | case1 a b rest ih =>
    simp only [deltaFields, deltaCosts, List.length_append, ih]
    split <;> simp
  | case2 f h =>
    match f, h with
    | [], _ => rfl
    | [_], _ => rfl
    | a :: b :: rest, h => exact absurd rfl (h a b rest)

theorem flatMap_bitsOf_length (n : Nat) (xs : List Nat) : (xs.flatMap (bitsOf n)).length = n * xs.length := by
  induction xs with
  | nil => rfl
  | cons x xs ih =>
    simp only [List.flatMap_cons, List.length_append, bitsOf_length, ih, List.length_cons]
    ring

/-- A scale-factor section has the length its cost says (R226, R227). -/
theorem sfBits_length (d : Nat) (f : List Nat) : (sfBits d f).length = sfCost d f := by
  unfold sfBits sfCost
  rw [List.length_append, bitsOf_length]
  split
  · rfl
  · split
    · rw [flatMap_bitsOf_length]
    · rw [List.length_append, bitsOf_length, deltaFields_length]
      omega

/-- An intensity or HFR section has the length its cost says (R228, R229, R232). -/
theorem extraBits_length (s : State) (ch : Nat) : (extraBits s ch).length = extraCost s ch (intensityCodes s ch) := by
  have hcodes : (intensityCodes s ch).length = 8 := State.nums_length _ _ _
  unfold extraBits extraCost intensityBits
  split
  · split
    · rw [flatMap_bitsOf_length, hcodes]
    · split
      · rfl
      · simp only [List.length_append, bitsOf_length, flatMap_bitsOf_length, List.length_tail, hcodes]
  · split
    · rw [flatMap_bitsOf_length, State.nums_length]
    · rfl

/-- No codeword is longer than its resolution's patterns (spec/30_encoding.md R111, R113). -/
theorem codeTable_bits_le {r : Nat} (hr : r ≤ 7) (i : Nat) : ((codeTable r).getD i (0, 0)).1 ≤ maxBits r := by
  have htable : ∀ r : Fin 8, ∀ e ∈ codeTable r, e.1 ≤ maxBits r := by decide
  exact getD_of_forall (P := fun e : Nat × Int => e.1 ≤ maxBits r) (htable ⟨r, by omega⟩) (Nat.zero_le _) i

/-- A coefficient's code has the length that `len(r, v)` says (R230). -/
theorem coefBits_length (r : Nat) (v : Int) : (coefBits r v).length = coefLength r v := by
  unfold coefBits coefLength
  split
  · rfl
  · split
    · next hr => rw [codeword, List.length_take, bitsOf_length, min_eq_left (codeTable_bits_le hr _)]
    · rw [List.length_append, bitsOf_length]
      split <;> rfl

theorem rowBits_length (res : List Nat) (row : List Int) : (rowBits res row).length = rowLength res row := by
  simp only [rowBits, rowLength, List.length_flatMap, coefBits_length]

/-! ### The content -/

theorem packChannels_zipIdx (s : State) :
    (packChannels s).zipIdx = (List.range (chCount s)).map (fun ch => (packChannel s ch, ch)) :=
  List.ext_getElem (by simp [packChannels]) fun i h1 h2 => by simp [packChannels]

theorem sum_map_sum_comm {α β : Type} (f : α → β → Nat) (xs : List α) (ys : List β) :
    (xs.map fun x => (ys.map (f x)).sum).sum = (ys.map fun y => (xs.map fun x => f x y).sum).sum := by
  induction xs with
  | nil => simp
  | cons x xs ih => simp only [List.map_cons, List.sum_cons, ih, List.sum_map_add]

theorem packChannel_coefs_length (s : State) (ch : Nat) : (packChannel s ch).coefs.length = 8 := by simp [packChannel]

/-- A channel's rows, one for each subframe. -/
theorem packChannel_rows (s : State) (ch : Nat) (f : List Int → Nat) :
    ((packChannel s ch).coefs.map f).sum = ((List.range 8).map fun sub => f ((packChannel s ch).coefs.getD sub [])).sum := rfl

/-- The content has the length that PACK computes before it writes (R232). -/
theorem contentBits_length (s : State) : (contentBits s (packChannels s)).length = contentLength s (packChannels s) := by
  have hside : ((packChannels s).flatMap fun c => sfBits c.delta c.sf ++ c.extra).length
      = ((packChannels s).zipIdx.map fun p => sfCost p.1.delta p.1.sf + extraCost s p.2 (intensityCodes s p.2)).sum := by
    rw [packChannels_zipIdx, List.length_flatMap, packChannels, List.map_map, List.map_map]
    refine congrArg List.sum (List.map_congr_left fun ch _ => ?_)
    have hextra : (packChannel s ch).extra = extraBits s ch := rfl
    simp only [Function.comp_apply, List.length_append, sfBits_length, hextra, extraBits_length]
  have hrows : ((List.range 8).flatMap fun sub => (packChannels s).flatMap fun c => rowBits c.res (c.coefs.getD sub [])).length
      = ((packChannels s).map fun c => (c.coefs.map (rowLength c.res)).sum).sum := by
    simp only [List.length_flatMap, rowBits_length]
    rw [sum_map_sum_comm, packChannels, List.map_map, List.map_map]
    refine congrArg List.sum (List.map_congr_left fun ch _ => ?_)
    exact (packChannel_rows s ch _).symm
  simp only [contentBits, contentLength, List.length_append, bitsOf_length, hside, hrows]

/-! ### The frame -/

theorem bitsToBytes_length (bits : List Bool) : (bitsToBytes bits).length = bits.length / 8 := by
  induction bits using bitsToBytes.induct with
  | case1 b7 b6 b5 b4 b3 b2 b1 b0 rest ih =>
    simp only [bitsToBytes, List.length_cons, ih]
    omega
  | case2 bits h =>
    have hshort : bits.length < 8 := by
      by_contra hlong
      match bits, h, hlong with
      | b7 :: b6 :: b5 :: b4 :: b3 :: b2 :: b1 :: b0 :: rest, h, _ => exact h b7 b6 b5 b4 b3 b2 b1 b0 rest rfl
      | [], _, hlong | [_], _, hlong | [_, _], _, hlong | [_, _, _], _, hlong | [_, _, _, _], _, hlong
      | [_, _, _, _, _], _, hlong | [_, _, _, _, _, _], _, hlong | [_, _, _, _, _, _, _], _, hlong => simp at hlong
    rw [bitsToBytes, Nat.div_eq_of_lt hshort]
    · rfl
    · exact h

/-- The body of a frame that fits fills the frame up to its CRC (spec/30_encoding.md R115). -/
theorem frameBody_length {s : State} (hfits : packFits s (contentLength s (packChannels s)) = true) :
    (frameBody s (packChannels s)).length = frameBytes s - 2 := by
  have hfits : (contentLength s (packChannels s) + 7) / 8 ≤ frameBytes s - 2 := by simpa [packFits] using hfits
  simp only [frameBody, bitsToBytes_length, List.length_append, List.length_replicate, contentBits_length]
  omega

/-! ### The longest content -/

theorem deltaCosts_le (d : Nat) (f : List Nat) : deltaCosts d f ≤ (d + 6) * f.length := by
  induction f using deltaCosts.induct with
  | case1 a b rest ih =>
    simp only [deltaCosts, List.length_cons] at ih ⊢
    rw [Nat.mul_succ]
    split <;> omega
  | case2 f h =>
    match f, h with
    | [], _ => exact Nat.zero_le _
    | [_], _ => exact Nat.zero_le _
    | a :: b :: rest, h => exact absurd rfl (h a b rest)

theorem chooseDelta_le (f : List Nat) : chooseDelta f ≤ 6 := by
  have hfold : ∀ (ds : List Nat) (best : Nat), best ≤ 6 → (∀ d ∈ ds, d ≤ 6) →
      ds.foldl (fun best d => if sfCost d f < sfCost best f then d else best) best ≤ 6 := by
    intro ds
    induction ds with
    | nil => exact fun best hbest _ => hbest
    | cons d ds ih =>
      intro best hbest hds
      obtain ⟨hd, hds⟩ := List.forall_mem_cons.1 hds
      rw [List.foldl_cons]
      split
      · exact ih d hd hds
      · exact ih best hbest hds
  unfold chooseDelta
  split
  · exact Nat.zero_le _
  · exact hfold _ 1 (by decide) (by decide)

theorem sfCost_le {d : Nat} {f : List Nat} (hd : d ≤ 6) (hf : f.length ≤ 128) : sfCost d f ≤ 9 + 12 * 128 := by
  have hdeltas : deltaCosts d f ≤ 12 * 128 :=
    (deltaCosts_le d f).trans (Nat.mul_le_mul (by omega) hf)
  unfold sfCost
  split
  · omega
  · split <;> omega

theorem extraCost_le {s : State} (hcfg : cfgOk s = true) (ch : Nat) (codes : List Nat) : extraCost s ch codes ≤ 48 := by
  obtain ⟨-, -, -, hgroups, -⟩ := cfgOk_bounds s hcfg
  unfold extraCost
  split
  · split
    · decide
    · split <;> decide
  · split <;> omega

theorem regionOf_resCurve {i : Nat} (hi : i < 59) : regionOf (resCurveBase + i) = .resCurve i := by
  have heq : resCurveBase + i = 0x20A00 + i := rfl
  generalize resCurveBase + i = a at heq
  unfold regionOf
  rw [if_neg (by omega), if_neg (by omega), if_pos (by omega), if_neg (by omega), if_neg (by omega), if_neg (by omega),
    if_neg (by omega), if_neg (by omega), if_neg (by omega), if_neg (by omega), if_neg (by omega), if_neg (by omega),
    if_neg (by omega), if_neg (by omega), if_pos (by omega), show a - 0x20A00 = i by omega]

/-- In canonical memory an entry of the resolution curve is a 4-bit number (spec/10_state.md R46). -/
theorem resCurve_le {s : State} (hmem : s.mem.wf) (i : Nat) : (s.nums resCurveBase 59).getD i 0 ≤ 15 := by
  rw [List.getD_eq_getElem?_getD, State.nums_eq_map]
  rcases lt_or_ge i 59 with hi | hi
  · have hmask : cellMask (resCurveBase + i) = 0x0F := by
      unfold cellMask
      rw [regionOf_resCurve hi]
    have hbyte := State.byte_masked s (resCurveBase + i) hmem (by rw [hmask]; decide)
    rw [hmask] at hbyte
    have hle : (s.byte (resCurveBase + i)).toNat ≤ 15 := by
      rw [← hbyte, BitVec.toNat_and]
      exact Nat.and_le_right
    simpa [hi, State.numAt] using hle
  · simp [hi]

theorem clampNat_le (v lo hi : Nat) : clampNat v lo hi ≤ hi := by
  unfold clampNat
  split
  · exact le_rfl
  · exact min_le_right _ _

theorem resolve_le {s : State} {curve : List Nat} (hcurve : ∀ i, curve.getD i 0 ≤ 15) (sf : Nat) (nz : Int) :
    resolve s curve sf nz ≤ 15 := by
  have hmax : maxRes s < 2 ^ 4 := field_lt _ _ _
  unfold resolve
  split
  · exact Nat.zero_le _
  · dsimp only
    split
    · exact hcurve _
    · exact (clampNat_le _ _ _).trans (by omega)

/-- In canonical memory every derived resolution is a 4-bit number (R206, R207). -/
theorem resolutions_le {s : State} (hmem : s.mem.wf) (noise eval ch : Nat) (sf : List Nat) :
    ∀ r ∈ resolutions s noise eval ch sf, r ≤ 15 := by
  intro r hr
  obtain ⟨b, -, rfl⟩ := List.mem_map.1 hr
  split
  · exact resolve_le (resCurve_le hmem) _ _
  · exact Nat.zero_le _

theorem coefLength_le {r : Nat} (hr : r ≤ 15) (v : Int) : coefLength r v ≤ 12 := by
  have hshort : ∀ r : Fin 8, maxBits r ≤ 12 := by decide
  unfold coefLength
  split
  · omega
  · split
    · next h => exact (codeTable_bits_le h _).trans (hshort ⟨r, by omega⟩)
    · split <;> omega

theorem rowLength_le {res : List Nat} (hlen : res.length = 128) (hres : ∀ r ∈ res, r ≤ 15) (row : List Int) :
    rowLength res row ≤ 128 * 12 := by
  have hsum := List.sum_le_card_nsmul ((res.zip row).map fun p => coefLength p.1 p.2) 12 fun n hn => by
    obtain ⟨p, hp, rfl⟩ := List.mem_map.1 hn
    exact coefLength_le (hres _ (List.of_mem_zip hp).1) _
  have hzip : (res.zip row).length ≤ 128 := by simp [hlen]
  rw [List.length_map, smul_eq_mul] at hsum
  exact hsum.trans (Nat.mul_le_mul_right 12 hzip)

/-- Every content length fits `BITPOS`, that of a dry PACK past the frame end too (R233, spec/10_state.md R36). -/
theorem contentLength_lt {s : State} (hcfg : cfgOk s = true) (hmem : s.mem.wf) :
    contentLength s (packChannels s) < 2 ^ 20 := by
  obtain ⟨-, hcount, -⟩ := cfgOk_bounds s hcfg
  have hside := List.sum_le_card_nsmul
    ((packChannels s).zipIdx.map fun p => sfCost p.1.delta p.1.sf + extraCost s p.2 (intensityCodes s p.2))
    (9 + 12 * 128 + 48) fun n hn => by
      rw [packChannels_zipIdx, List.map_map] at hn
      obtain ⟨ch, -, rfl⟩ := List.mem_map.1 hn
      exact Nat.add_le_add (sfCost_le (chooseDelta_le _) (by simp [packChannel])) (extraCost_le hcfg _ _)
  have hrows := List.sum_le_card_nsmul ((packChannels s).map fun c => (c.coefs.map (rowLength c.res)).sum) (8 * (128 * 12))
    fun n hn => by
      rw [packChannels, List.map_map] at hn
      obtain ⟨ch, -, rfl⟩ := List.mem_map.1 hn
      have hchannel := List.sum_le_card_nsmul ((packChannel s ch).coefs.map (rowLength (packChannel s ch).res)) (128 * 12)
        fun n hn => by
          obtain ⟨row, -, rfl⟩ := List.mem_map.1 hn
          exact rowLength_le (resolutions_length _ _ _ _ _) (resolutions_le hmem _ _ _ _) row
      simpa [packChannel_coefs_length] using hchannel
  simp only [packChannels_zipIdx, List.length_map, List.length_range, smul_eq_mul] at hside
  simp only [packChannels, List.length_map, List.length_range, smul_eq_mul] at hrows
  simp only [contentLength, packChannels_zipIdx]
  simp only [packChannels]
  omega

end Sys2Proof.Machine
end

section
/-! PROOFS. The frame of every command (spec/10_state.md R50, R87). -/

namespace Sys2Proof.Machine

/-! ### PACK -/

theorem writeFrame_frame {s : State} (hframe : frameOk s = true) (hfits : packFits s (contentLength s (packChannels s)) = true) :
    UnchangedOutside (.pack false) s (writeFrame (packChannels s) s) := by
  have hmin := (frameOk_iff s).1 hframe
  have hstore : StoresWithin (writesByte (.pack false) s) s
      (s.putBytes frameBufBase (frameBody s (packChannels s) ++ crcBytes (crc16 (frameBody s (packChannels s))))) :=
    StoresWithin.putFrame 0 _ fun j _ hj => by
      have hlt := frameBytes_lt s
      rw [List.length_append, frameBody_length hfits] at hj
      have hj : j < frameBytes s := by simp only [crcBytes, List.length_cons, List.length_nil] at hj; omega
      simp [writesByte, inFrameBuf_frameBuf j _ (by omega), hj]
  exact (hstore.leavesOutside (writesReg (.pack false))).withCrcValue rfl _

theorem storeResolutions_frame {s : State} (hcfg : cfgOk s = true) (dry : Bool) (u : State) :
    StoresWithin (writesByte (.pack dry) s) u (forEach (List.range (chCount s)) (storeResolutions (packChannels s)) u) := by
  obtain ⟨-, hcount, -⟩ := cfgOk_bounds s hcfg
  refine StoresWithin.forEach _ _ fun ch hch _ _ => StoresWithin.putSlot ch .res 0 _ fun i _ hi => ?_
  have hch := List.mem_range.1 hch
  have hi : i < 128 := by simpa [packChannels, hch, packChannel, resolutions_length] using hi
  simp [writesByte, inSlot_slotAddr ch .res i _ (by omega) hi, hch]

theorem packStore_frame {s : State} (hcfg : cfgOk s = true) (hframe : frameOk s = true) {dry : Bool}
    (hfits : dry = false → packFits s (contentLength s (packChannels s)) = true) :
    UnchangedOutside (.pack dry) s (packStore dry (packChannels s) s) := by
  have hwrite : UnchangedOutside (.pack dry) s (if dry = true then s else writeFrame (packChannels s) s) := by
    cases dry with
    | true => exact LeavesOutside.refl _ _ s
    | false => exact writeFrame_frame hframe (hfits rfl)
  have hstore := ((unchangedOutside_iff _ _ _).1 hwrite).trans ((storeResolutions_frame hcfg dry _).leavesOutside _)
  exact ((hstore.withDeltaBits rfl rfl _).withBitPos rfl rfl _).withValidity _ _

theorem packFailed_frame (dry : Bool) (s : State) : UnchangedOutside (.pack dry) s (packFailed s) :=
  (LeavesOutside.refl _ _ s).withStatus _ rfl

theorem packBody_frame {s : State} (hcfg : cfgOk s = true) (hframe : frameOk s = true) (dry : Bool) :
    (packBody dry s).Leaves (UnchangedOutside (.pack dry) s) := by
  unfold packBody
  dsimp only
  split
  · exact ⟨by decide, packFailed_frame dry s⟩
  · split
    · exact ⟨by decide, packFailed_frame dry s⟩
    · next hfull =>
      refine packStore_frame hcfg hframe fun hdry => ?_
      simpa [hdry] using hfull

/-! ### The CRC commands -/

theorem crcGenEffect_frame (s : State) : (crcGenEffect s).Leaves (UnchangedOutside .crcGen s) :=
  leaves_requireFrame (LeavesOutside.refl _ _ s) fun hframe =>
    ((crcGen_store_frame s hframe).leavesOutside (writesReg .crcGen)).withCrcValue rfl _

theorem crcCheckEffect_frame (s : State) : (crcCheckEffect s).Leaves (UnchangedOutside .crcCheck s) := by
  refine leaves_requireFrame (LeavesOutside.refl _ _ s) fun _ => (unchangedOutside_iff .crcCheck s _).2 ?_
  refine LeavesOutside.withCrcValue ?_ rfl _
  exact LeavesOutside.withStatus (LeavesOutside.refl _ _ s) _ rfl

/-! ### Every command -/

/-- A command's effect leaves alone what its rule does not name, whatever it ends in, and its errors have an error's code. -/
theorem effectOf_frame {i : Instr} (hwf : i.wellFormed = true) (s : State) : (effectOf i s).Leaves (UnchangedOutside i s) := by
  have hrefl : UnchangedOutside i s s := LeavesOutside.refl _ _ s
  cases i with
  | nop => exact hrefl
  | resetOvl ch allCh => exact (resetOvl_frame (of_decide_eq_true hwf)).leavesOutside _
  | keygen0 => exact storeKey_frame s (length_of_perm_range type0Table_perm) 0
  | keygen1 => exact storeKey_frame s (length_of_perm_range type1Table_perm) 1
  | keygen56 => exact storeKey_frame s (length_of_perm_range (type56Table_perm _)) 56
  | decrypt => exact leaves_requireFrame hrefl fun _ => (substituteFrame_frame s _).leavesOutside _
  | encrypt => exact leaves_requireFrame hrefl fun _ => (substituteFrame_frame s _).leavesOutside _
  | crcCalc => exact LeavesOutside.withCrcValue hrefl rfl _
  | crcGen => exact crcGenEffect_frame s
  | crcCheck => exact crcCheckEffect_frame s
  | unpack => exact leaves_requireCfg hrefl fun hcfg => leaves_requireFrame hrefl fun _ => unpackBody_frame hcfg
  | pack dry => exact leaves_requireCfg hrefl fun hcfg => leaves_requireFrame hrefl fun hframe => packBody_frame hcfg hframe dry
  | dequant ch allCh =>
    exact leaves_requireCfg hrefl fun hcfg => leaves_requireChannel hrefl fun hch => (dequantBody_frame hcfg hch).leavesOutside _
  | hfrRecon ch allCh =>
    exact leaves_requireCfg hrefl fun hcfg => leaves_requireChannel hrefl fun hch =>
      leaves_requireHfrVersion hrefl ((hfrBody_frame hcfg hch).leavesOutside _)
  | istereo sub allSf =>
    exact leaves_requireCfg hrefl fun hcfg => (istereoBody_frame hcfg (of_decide_eq_true hwf)).leavesOutside _
  | imdct ch allCh sub allSf =>
    obtain ⟨-, hsub⟩ : ch < 16 ∧ sub < 8 := by simpa [Instr.wellFormed] using hwf
    exact leaves_requireCfg hrefl fun hcfg => leaves_requireChannel hrefl fun hch => (imdct_frame hcfg hch hsub).leavesOutside _
  | mdct ch allCh sub allSf =>
    obtain ⟨-, hsub⟩ : ch < 16 ∧ sub < 8 := by simpa [Instr.wellFormed] using hwf
    exact leaves_requireCfg hrefl fun hcfg => leaves_requireChannel hrefl fun hch => (mdct_frame hcfg hch hsub).leavesOutside _
  | pcmOut ch allCh sub allSf =>
    obtain ⟨-, hsub⟩ : ch < 16 ∧ sub < 8 := by simpa [Instr.wellFormed] using hwf
    exact leaves_requireCfg hrefl fun hcfg => leaves_requireChannel hrefl fun hch => (pcmOut_frame hcfg hch hsub).leavesOutside _
  | pcmIn ch allCh sub allSf =>
    obtain ⟨-, hsub⟩ : ch < 16 ∧ sub < 8 := by simpa [Instr.wellFormed] using hwf
    exact leaves_requireCfg hrefl fun hcfg => leaves_requireChannel hrefl fun hch => (pcmIn_frame hcfg hch hsub).leavesOutside _
  | decodeFrame => exact decodeFrameEffect_frame s

/-- Completion writes `STATUS` and `ERR_INFO`, which every command's rule names (spec/60_exceptions.md R284). -/
theorem complete_effectOf_frame {i : Instr} (hwf : i.wellFormed = true) (s : State) :
    UnchangedOutside i s (complete (effectOf i s)) :=
  (effectOf_frame hwf s).complete (fun _ h => LeavesOutside.completeOk h (writesReg_errInfo i))
    fun code info _ _ h => LeavesOutside.raiseError h (writesReg_errInfo i) code info

/-- Settles O8, from `effectOf_frame` and what completion writes. -/
theorem commandsWriteOnlyTheirPlaces : Obligations.CommandsWriteOnlyTheirPlaces := by
  intro i s t hwf h
  rw [(exec_next_iff i s t).1 h]
  exact complete_effectOf_frame hwf s

end Sys2Proof.Machine
end

section
/-! PROOFS. The invariants: what the host's move and every command keep (spec/10_state.md R23 to R43, R61). -/

namespace Sys2Proof.Machine

/-! ### `pending`, `BUSY`, `DONE`, `ERR` and `ERR_CODE` -/

/-- R61 and R40 together. -/
def StatusInvariant (s : State) : Prop := PendingMatchesBusy s ∧ StatusConsistent s

/-- After a completion no command runs, and `ERR` tells whether there is an error code (spec/60_exceptions.md R284). -/
theorem completeOk_statusInvariant (s : State) : StatusInvariant (completeOk s) :=
  ⟨rfl, fun h => Bool.noConfusion h, iff_of_true rfl rfl⟩

theorem raiseError_statusInvariant {code : ErrCode} (h : code ≠ .none) (info : Word) (s : State) :
    StatusInvariant (raiseError code info s) :=
  ⟨rfl, fun h => Bool.noConfusion h, iff_of_false (fun h => Bool.noConfusion h) h⟩

theorem statusInvariant_keptByHost : KeptByHost StatusInvariant where
  bus _ _ _ _ hs := hs
  reset _ _ := ⟨rfl, fun h => Bool.noConfusion h, iff_of_true rfl rfl⟩
  irqEnable _ _ hs := hs
  clearStatus s v hs := by
    obtain ⟨hpending, hbusy, herr⟩ := hs
    exact ⟨hpending, fun hb => ⟨by simp [statusWriteOneToClear, (hbusy hb).1], (hbusy hb).2⟩, herr⟩
  conflict _ hs := hs
  accept _ _ _ _ := ⟨rfl, fun _ => ⟨rfl, rfl⟩, iff_of_true rfl rfl⟩
  storeReg r v s _ hs := by
    obtain ⟨-, -, hstatus, hpending, -⟩ := storeReg_frame r v s
    simpa only [StatusInvariant, PendingMatchesBusy, StatusConsistent, hstatus, hpending] using hs
  storeByte _ _ _ _ _ hs := hs

/-- Settles O14: completion sets the fields afresh, with an error's code exactly for an error. -/
theorem stepKeepsStatusConsistent : Obligations.StepKeepsStatusConsistent := by
  intro s t hpending hstatus h
  rcases step_next_cases h with rfl | ⟨i, hwf, rfl⟩ | rfl
  · exact statusInvariant_keptByHost.hostStep ⟨hpending, hstatus⟩
  · exact (effectOf_frame hwf s).complete (Q := StatusInvariant) (fun u _ => completeOk_statusInvariant u)
      fun _ info u hcode _ => raiseError_statusInvariant hcode info u
  · exact raiseError_statusInvariant (by decide) 0 s

/-! ### The key tables -/

/-- R43 and R32 together. -/
def KeyInvariant (s : State) : Prop := KeyTablesInverse s ∧ KeyTypeLegal s

/-- The key tables' bytes and the tag say all that the invariant reads. -/
theorem KeyInvariant.congr {s t : State} (hs : KeyInvariant s) (hbytes : ∀ a, inKeyTables a = true → t.byte a = s.byte a)
    (htag : t.keyType = s.keyType) : KeyInvariant t := by
  obtain ⟨htables, htype⟩ := hs
  have hdec : ∀ i, i < 256 → t.decAt i = s.decAt i := fun i hi =>
    congrArg BitVec.toNat (hbytes _ (inKeyTables_keyDec hi))
  have henc : ∀ i, i < 256 → t.encAt i = s.encAt i := fun i hi =>
    congrArg BitVec.toNat (hbytes _ (inKeyTables_keyEnc hi))
  refine ⟨(keyTablesInverse_iff t).2 fun i hi => ?_, by simpa only [KeyTypeLegal, htag] using htype⟩
  have hdec_lt : s.decAt i < 256 := (s.byte _).isLt
  have henc_lt : s.encAt i < 256 := (s.byte _).isLt
  rw [hdec i hi, henc i hi, henc _ hdec_lt, hdec _ henc_lt]
  exact (keyTablesInverse_iff s).1 htables i hi

/-- Reset leaves both tables the identity (spec/70_reset_and_hazards.md R310). -/
theorem resetAgain_keyInvariant (s : State) : KeyInvariant s.resetAgain := by
  have hdec : ∀ i, i < 256 → s.resetAgain.decAt i = i := fun i hi => by
    simp [State.decAt, State.numAt, State.byte, Memory.byteAt, unlistedByte, resetByte?, regionOf_keyDec i hi, hi]
  have henc : ∀ i, i < 256 → s.resetAgain.encAt i = i := fun i hi => by
    simp [State.encAt, State.numAt, State.byte, Memory.byteAt, unlistedByte, resetByte?, regionOf_keyEnc i hi, hi]
  exact ⟨(keyTablesInverse_iff _).2 fun i hi => by simp only [hdec, henc, hi, and_self], .inl rfl⟩

/-- The host cannot write the key tables (spec/20_memory.md R75). -/
theorem hostWritable_of_inKeyTables {a : Nat} (h : inKeyTables a = true) : hostWritable a = false := by
  unfold inKeyTables at h
  unfold hostWritable
  split at h <;> first | contradiction | simp [*]

theorem keyInvariant_keptByHost : KeptByHost KeyInvariant where
  bus _ _ _ _ hs := hs
  reset s _ := resetAgain_keyInvariant s
  irqEnable _ _ hs := hs
  clearStatus _ _ hs := hs
  conflict _ hs := hs
  accept _ _ _ hs := hs
  storeReg r v s _ hs := by
    obtain ⟨hmem, hepoch, -, -, htag⟩ := storeReg_frame r v s
    exact hs.congr (fun a _ => by simp only [State.byte, hmem, hepoch]) htag
  storeByte s a v _ hwritable hs := hs.congr (fun b hb => by
    refine State.byte_putBytes_outside s a b [v] ?_
    have hne : b ≠ a := by
      rintro rfl
      simp [hostWritable_of_inKeyTables hb] at hwritable
    simp only [List.length_singleton]
    omega) rfl

/-- No command but the KEYGENs writes a key table or the tag (spec/42_cipher.md R160). -/
theorem writesByte_keyTables {i : Instr} (hi : writesReg i .keyType = false) (s : State) {a : Nat} (ha : inKeyTables a = true) :
    writesByte i s a = false := by
  have hregion : (∃ n, regionOf a = .keyDec n) ∨ ∃ n, regionOf a = .keyEnc n := by
    unfold inKeyTables at ha
    split at ha
    · next n hn => exact .inl ⟨n, hn⟩
    · next n hn => exact .inr ⟨n, hn⟩
    · contradiction
  have hslot : ∀ p, inSlot a p = false := fun p => by rcases hregion with ⟨n, hn⟩ | ⟨n, hn⟩ <;> simp only [inSlot, hn]
  have hbuffer : ∀ p, inFrameBuf a p = false := fun p => by
    rcases hregion with ⟨n, hn⟩ | ⟨n, hn⟩ <;> simp only [inFrameBuf, hn]
  cases i <;> first | contradiction | simp only [writesByte, hslot, hbuffer, Bool.or_self, Bool.and_false]

theorem storeKey_keyInvariant (s : State) {d : List Nat} (hd : d.Perm (List.range 256)) {tag : Word}
    (htag : tag = 0 ∨ tag = 1 ∨ tag = 56) : KeyInvariant (completeOk (storeKey d tag s)) :=
  ⟨storeKey_keyTablesInverse s hd tag, htag⟩

theorem exec_keeps_keyInvariant {i : Instr} (hwf : i.wellFormed = true) {s : State} (hs : KeyInvariant s) :
    KeyInvariant (complete (effectOf i s)) := by
  cases hi : writesReg i .keyType with
  | false =>
    obtain ⟨hbytes, hregs, -⟩ := complete_effectOf_frame hwf s
    exact hs.congr (fun a ha => hbytes a (writesByte_keyTables hi s ha)) (hregs .keyType (by decide) hi)
  | true =>
    cases i with
    | keygen0 => exact storeKey_keyInvariant s type0Table_perm (.inl rfl)
    | keygen1 => exact storeKey_keyInvariant s type1Table_perm (.inr (.inl rfl))
    | keygen56 => exact storeKey_keyInvariant s (type56Table_perm _) (.inr (.inr rfl))
    | pack dry => cases dry <;> contradiction
    | _ => contradiction

/-- Settles O11: the KEYGENs store a permutation with its inverse, and nothing else writes the tables. -/
theorem stepKeepsKeyTables : Obligations.StepKeepsKeyTables := by
  intro s t htables htype h
  have hs : KeyInvariant s := ⟨htables, htype⟩
  rcases step_next_cases h with rfl | ⟨i, hwf, rfl⟩ | rfl
  · exact keyInvariant_keptByHost.hostStep hs
  · exact exec_keeps_keyInvariant hwf hs
  · exact hs

end Sys2Proof.Machine
end

section
/-! PROOFS. Every step keeps the reserved bits of every register 0 (spec/10_state.md section 2). -/

namespace Sys2Proof.Machine

/-! ### One register -/

/-- The register's reserved bits are 0. -/
def InField (s : State) (r : Reg) : Prop := regValue s r &&& regMask r = regValue s r

theorem registersInFields_iff (s : State) : RegistersInFields s ↔ ∀ r, InField s r := Iff.rfl

/-- The registers that have no reserved bits. -/
theorem inField_of_full {r : Reg} (hr : regMask r = 0xFFFFFFFF#32) (s : State) : InField s r := by
  rw [InField, hr]
  exact BitVec.and_allOnes

theorem inField_of_masked {s : State} {r : Reg} {v : Word} (h : regValue s r = v &&& regMask r) : InField s r := by
  rw [InField, h, BitVec.and_assoc, BitVec.and_self]

theorem inField_congr {s t : State} {r : Reg} (h : regValue t r = regValue s r) (hs : InField s r) : InField t r := by
  rwa [InField, h]

/-- A state whose registers are another's, or have their reserved bits 0. -/
theorem RegistersInFields.congr {s t : State} (hs : RegistersInFields s)
    (h : ∀ r, r ≠ .status → r ≠ .cfgDerived → regValue t r = regValue s r ∨ InField t r) : RegistersInFields t := by
  intro r
  by_cases hstatus : r = .status
  · exact hstatus ▸ statusWord_masked t.status
  · by_cases hderived : r = .cfgDerived
    · exact hderived ▸ cfgDerived_masked t
    · exact (h r hstatus hderived).elim (fun e => inField_congr e (hs r)) id

/-! ### The host -/

theorem storeReg_of_not_stored {r : Reg} (h : r ∉ storedRegs) (v : Word) (s : State) : storeReg r v s = s := by
  cases r <;> first | rfl | exact absurd (by decide) h

theorem reset_registersInFields : RegistersInFields State.reset := by
  intro r
  cases r <;> decide

theorem registersInFields_keptByHost : KeptByHost RegistersInFields where
  bus s _ _ _ hs := hs.congr fun r _ _ => .inl (by cases r <;> rfl)
  reset s _ := reset_registersInFields.congr fun r _ _ => .inl (by cases r <;> rfl)
  irqEnable s v hs := hs.congr fun r _ _ => by
    rcases eq_or_ne r .ctrl with rfl | hr
    · exact .inr (inField_of_masked rfl)
    · exact .inl (by cases r <;> first | rfl | contradiction)
  clearStatus s v hs := hs.congr fun r hr _ => .inl (by cases r <;> first | rfl | contradiction)
  conflict s hs := hs.congr fun r hr _ => .inl (by cases r <;> first | rfl | contradiction)
  accept w s _ hs := hs.congr fun r hr _ => by
    by_cases hcmd : r = .cmd
    · exact .inr (hcmd ▸ inField_of_full rfl _)
    · exact .inl (regValue_accept w s r hr hcmd)
  storeReg q v s _ hs := by
    by_cases hq : q ∈ storedRegs
    · refine hs.congr fun r _ hderived => ?_
      rcases eq_or_ne r q with rfl | hr
      · exact .inr (inField_of_masked (regValue_storeReg_same hq v s))
      · exact .inl (regValue_storeReg_other v s hr hderived)
    · rwa [storeReg_of_not_stored hq]
  storeByte s a v _ _ hs := hs.congr fun r _ _ => .inl (regValue_putBytes s a [v] r)

/-! ### The registers that commands write -/

/-- A CRC fits `CRC_VALUE` (spec/10_state.md R38). -/
theorem crcValue_masked (c : Half) : c.setWidth 32 &&& regMask .crcValue = c.setWidth 32 := by
  have hmask : regMask .crcValue = (BitVec.allOnes 16).setWidth 32 := rfl
  rw [hmask, ← BitVec.setWidth_and, BitVec.and_allOnes]

/-- The eight codes of a delta-bits register lie in their fields (spec/10_state.md R39). -/
theorem deltaCodes_masked (n : Nat) (codes : List Nat) (h : codes.length ≤ n) :
    codes.foldr (fun d acc => d % 8 + 16 * acc) 0 &&& (List.replicate n 7).foldr (fun d acc => d % 8 + 16 * acc) 0
      = codes.foldr (fun d acc => d % 8 + 16 * acc) 0 := by
  induction n generalizing codes with
  | zero => simp [List.length_eq_zero_iff.1 (Nat.le_zero.1 h)]
  | succ n ih =>
    cases codes with
    | nil => simp
    | cons d codes =>
      have hcode : d % 8 < 2 ^ 3 := Nat.mod_lt _ (by decide)
      have htail := ih codes (by simpa using h)
      have hstep := and_fields 4 (d % 8) (codes.foldr (fun d acc => d % 8 + 16 * acc) 0) (2 ^ 3 - 1)
        ((List.replicate n 7).foldr (fun d acc => d % 8 + 16 * acc) 0) (by omega) (by decide)
      rw [htail, Nat.and_two_pow_sub_one_of_lt_two_pow hcode] at hstep
      rw [List.replicate_succ, List.foldr_cons, List.foldr_cons, Nat.mul_comm 16, Nat.mul_comm 16]
      exact hstep

theorem deltaWord_masked {codes : List Nat} (h : codes.length ≤ 8) : deltaWord codes &&& 0x77777777#32 = deltaWord codes := by
  have hmask : (0x77777777#32 : Word) = BitVec.ofNat 32 ((List.replicate 8 7).foldr (fun d acc => d % 8 + 16 * acc) 0) := rfl
  rw [hmask, deltaWord, ← BitVec.ofNat_and, deltaCodes_masked 8 codes h]

theorem frameBits_lt (s : State) : frameBits s < 2 ^ 20 := by
  have := frameBytes_lt s
  unfold frameBits
  omega

/-! ### The commands -/

/-- The registers that the command writes have their reserved bits 0. -/
def WrittenInFields (i : Instr) (s : State) : Prop := ∀ r, writesReg i r = true → InField s r

theorem RegistersInFields.written {s : State} (hs : RegistersInFields s) (i : Instr) : WrittenInFields i s := fun r _ => hs r

theorem Effect.Leaves.and {P Q : State → Prop} {e : Effect} (h : e.Leaves P) (h' : e.Leaves Q) :
    e.Leaves (fun s => P s ∧ Q s) := by
  cases e with
  | ok s => exact ⟨h, h'⟩
  | error code info s => exact ⟨h.1, h.2, h'.2⟩

theorem Effect.Leaves.mono {P Q : State → Prop} {e : Effect} (h : e.Leaves P) (hPQ : ∀ s, P s → Q s) : e.Leaves Q := by
  cases e with
  | ok s => exact hPQ s h
  | error code info s => exact ⟨h.1, hPQ s h.2⟩

theorem storeFrame_writtenInFields {s : State} {f : Frame} (hf : f.Fits) {n : Nat} (hn : n < 2 ^ 20) :
    WrittenInFields .unpack (storeFrame f n s) := by
  intro r hr
  cases r with
  | frameHdr => exact ofNat_fields_masked (a := 9) (b := 16) (c := 7) (by decide) hf.noise hf.eval
  | bitPos => exact ofNat_field_masked hn
  | deltaBits0 => exact deltaWord_masked (List.length_take_le _ _)
  | deltaBits1 => exact deltaWord_masked (List.length_take_le _ _)
  | errInfo => exact inField_of_full rfl _
  | bitsLeft => exact inField_of_full rfl _
  | _ => contradiction

theorem unpackFailed_writtenInFields (s : State) : WrittenInFields .unpack (unpackFailed s) := by
  intro r hr
  cases r with
  | frameHdr | bitPos | deltaBits0 | deltaBits1 => exact inField_of_masked rfl
  | errInfo | bitsLeft => exact inField_of_full rfl _
  | _ => contradiction

theorem unpackBody_writtenInFields {s : State} (hcfg : cfgOk s = true) : (unpackBody s).Leaves (WrittenInFields .unpack) := by
  unfold unpackBody
  split
  · next hread => exact ⟨readFrame_error hcfg hread, unpackFailed_writtenInFields s⟩
  · next hread =>
    obtain ⟨hfits, hpos⟩ := readFrame_ok hcfg hread
    exact storeFrame_writtenInFields hfits (hpos.trans_lt (frameBits_lt s))

theorem decodeStages_writtenInFields {s : State} (hcfg : cfgOk s = true) (hs : WrittenInFields .unpack s) :
    WrittenInFields .decodeFrame (decodeStages s) := fun r hr => by
  obtain ⟨m, d, e⟩ := (decodeStages_frame hcfg).rest
  rw [e]
  exact inField_congr (by cases r <;> rfl) (hs r hr)

theorem decodeFrameEffect_writtenInFields {s : State} (hs : RegistersInFields s) :
    (decodeFrameEffect s).Leaves (WrittenInFields .decodeFrame) := by
  have hrefl := hs.written .decodeFrame
  refine leaves_requireCfg hrefl fun hcfg => leaves_requireFrame hrefl fun _ => leaves_requireHfrVersion hrefl ?_
  have hunpack := (unpackBody_frame hcfg).and (unpackBody_writtenInFields hcfg)
  refine (hunpack.andThen (fun _ h => h) fun t h => leaves_requireValid h).andThen (fun t h => h.2) fun t h => ?_
  exact decodeStages_writtenInFields ((cfgOk_after_unpack h.1).trans hcfg) h.2

theorem packStore_crcValue (cs : List PackChannel) (s : State) :
    (packStore false cs s).crcValue = (crc16 (frameBody s cs)).setWidth 32 :=
  forEach_view State.crcValue (List.range (chCount s)) (storeResolutions cs) (fun _ _ _ => rfl) (writeFrame cs s)

theorem packStore_writtenInFields {s : State} (hcfg : cfgOk s = true) (hmem : s.mem.wf) (dry : Bool) :
    WrittenInFields (.pack dry) (packStore dry (packChannels s) s) := by
  intro r hr
  cases r with
  | bitPos => exact ofNat_field_masked (contentLength_lt hcfg hmem)
  | deltaBits0 => exact deltaWord_masked (List.length_take_le _ _)
  | deltaBits1 => exact deltaWord_masked (List.length_take_le _ _)
  | crcValue =>
    cases dry with
    | true => contradiction
    | false =>
      rw [InField, regValue, packStore_crcValue]
      exact crcValue_masked _
  | errInfo => exact inField_of_full rfl _
  | bitsLeft => exact inField_of_full rfl _
  | _ => simp [writesReg] at hr

theorem packBody_writtenInFields {s : State} (hcfg : cfgOk s = true) (hmem : s.mem.wf) (hs : RegistersInFields s) (dry : Bool) :
    (packBody dry s).Leaves (WrittenInFields (.pack dry)) := by
  have hfailed : WrittenInFields (.pack dry) (packFailed s) := fun r _ => by
    by_cases hr : r = .status
    · exact hr ▸ statusWord_masked _
    · exact inField_congr (by cases r <;> first | rfl | contradiction) (hs r)
  unfold packBody
  dsimp only
  split
  · exact ⟨by decide, hfailed⟩
  · split
    · exact ⟨by decide, hfailed⟩
    · exact packStore_writtenInFields hcfg hmem dry

theorem writtenInFields_crc {i : Instr} (hi : ∀ r, writesReg i r = (r == .errInfo || r == .crcValue)) (c : Half) (s : State) :
    WrittenInFields i (withCrcValue c s) := by
  intro r hr
  rw [hi] at hr
  cases r with
  | crcValue => exact crcValue_masked c
  | errInfo => exact inField_of_full rfl _
  | _ => contradiction

theorem writtenInFields_key {i : Instr} (hi : ∀ r, writesReg i r = (r == .errInfo || r == .keyType)) {d : List Nat} {tag : Word}
    (htag : tag &&& regMask .keyType = tag) (s : State) : WrittenInFields i (storeKey d tag s) := by
  intro r hr
  rw [hi] at hr
  cases r with
  | keyType => exact htag
  | errInfo => exact inField_of_full rfl _
  | _ => contradiction

/-- What a command writes has its reserved bits 0, whatever it ends in. -/
theorem effectOf_writtenInFields {i : Instr} (hwf : i.wellFormed = true) {s : State} (hmem : s.mem.wf)
    (hs : RegistersInFields s) : (effectOf i s).Leaves (WrittenInFields i) := by
  have hrefl := hs.written i
  cases i with
  | keygen0 => exact writtenInFields_key (fun _ => rfl) (by decide) s
  | keygen1 => exact writtenInFields_key (fun _ => rfl) (by decide) s
  | keygen56 => exact writtenInFields_key (fun _ => rfl) (by decide) s
  | crcCalc => exact writtenInFields_crc (fun _ => rfl) _ s
  | crcGen => exact leaves_requireFrame hrefl fun _ => writtenInFields_crc (fun _ => rfl) (frameCrc s) _
  | crcCheck => exact leaves_requireFrame hrefl fun _ => writtenInFields_crc (fun _ => rfl) (frameCrc s) _
  | unpack => exact leaves_requireCfg hrefl fun hcfg => leaves_requireFrame hrefl fun _ => unpackBody_writtenInFields hcfg
  | pack dry =>
    exact leaves_requireCfg hrefl fun hcfg => leaves_requireFrame hrefl fun _ => packBody_writtenInFields hcfg hmem hs dry
  | decodeFrame => exact decodeFrameEffect_writtenInFields hs
  | nop | resetOvl | decrypt | encrypt | dequant | hfrRecon | istereo | imdct | mdct | pcmOut | pcmIn =>
    refine (effectOf_frame hwf s).mono fun u _ r hr => ?_
    obtain rfl : r = .errInfo := by simpa [writesReg] using hr
    exact inField_of_full rfl u

theorem effectOf_registersInFields {i : Instr} (hwf : i.wellFormed = true) {s : State} (hmem : s.mem.wf)
    (hs : RegistersInFields s) : (effectOf i s).Leaves RegistersInFields :=
  ((effectOf_frame hwf s).and (effectOf_writtenInFields hwf hmem hs)).mono fun u ⟨⟨_, hregs, _⟩, hwritten⟩ =>
    hs.congr fun r hr _ => by
      cases hw : writesReg i r with
      | false => exact .inl (hregs r hr hw)
      | true => exact .inr (hwritten r hw)

/-- Completion writes `STATUS` and `ERR_INFO`, whose words are always within their fields. -/
theorem completeOk_registersInFields {s : State} (hs : RegistersInFields s) : RegistersInFields (completeOk s) :=
  hs.congr fun r hr _ => by
    by_cases hinfo : r = .errInfo
    · exact .inr (hinfo ▸ inField_of_full rfl _)
    · exact .inl (regValue_completeOk s r hr hinfo)

theorem raiseError_registersInFields {s : State} (hs : RegistersInFields s) (code : ErrCode) (info : Word) :
    RegistersInFields (raiseError code info s) :=
  hs.congr fun r hr _ => by
    by_cases hinfo : r = .errInfo
    · exact .inr (hinfo ▸ inField_of_full rfl _)
    · exact .inl (regValue_raiseError code info s r hr hinfo)

/-- Settles O13: the host's writes are masked, and each register that a command writes takes a value of its fields. -/
theorem stepKeepsRegisterFields : Obligations.StepKeepsRegisterFields := by
  intro s t hmem hs h
  rcases step_next_cases h with rfl | ⟨i, hwf, rfl⟩ | rfl
  · exact registersInFields_keptByHost.hostStep hs
  · exact (effectOf_registersInFields hwf hmem hs).complete (fun _ hu => completeOk_registersInFields hu)
      fun code info _ _ hu => raiseError_registersInFields hu code info
  · exact raiseError_registersInFields hs _ _

end Sys2Proof.Machine
end

section
/-! PROOFS. Every step keeps memory in its canonical form (spec/20_memory.md R71, R75; log 3). The host and the commands change
memory by stores alone, each of which keeps the form, or by a reset, which empties the list. -/

namespace Sys2Proof.Machine

/-- The state's memory is in canonical form. -/
def MemCanonical (s : State) : Prop := s.mem.wf

/-! ### Stores and registers -/

theorem MemCanonical.congr {s t : State} (hs : MemCanonical s) (h : t.mem = s.mem) : MemCanonical t := by
  rwa [MemCanonical, h]

theorem MemCanonical.putBytes {s : State} (hs : MemCanonical s) (base : Nat) (bs : List Byte) :
    MemCanonical (s.putBytes base bs) := store_wf s.mem base bs hs

theorem MemCanonical.putWords {s : State} (hs : MemCanonical s) (base : Nat) (ws : List Word) :
    MemCanonical (s.putWords base ws) := hs.putBytes base _

theorem MemCanonical.putHalves {s : State} (hs : MemCanonical s) (base : Nat) (xs : List Half) :
    MemCanonical (s.putHalves base xs) := hs.putBytes base _

theorem MemCanonical.tick {s : State} (hs : MemCanonical s) : MemCanonical s.tick := hs

theorem memCanonical_keptByHost : KeptByHost MemCanonical where
  bus _ _ _ _ hs := hs
  reset _ _ := reset_mem_wf
  irqEnable _ _ hs := hs
  clearStatus _ _ hs := hs
  conflict _ hs := hs
  accept _ _ _ hs := hs
  storeReg r v s _ hs := hs.congr (storeReg_frame r v s).1
  storeByte _ a v _ _ hs := hs.putBytes a [v]

/-! ### The stages of the commands -/

section Stages

variable {s : State} (hs : MemCanonical s)

include hs

theorem clearOverlap_canonical (ch : Nat) : MemCanonical (clearOverlap ch s) := (hs.putWords _ _).putWords _ _

theorem storeKey_canonical (d : List Nat) (tag : Word) : MemCanonical (storeKey d tag s) :=
  ((hs.putBytes keyDecBase _).putBytes keyEncBase _).congr rfl

theorem substituteFrame_canonical (table : Nat) : MemCanonical (substituteFrame table s) := hs.putBytes _ _

theorem imdctBlock_canonical (ch sub : Nat) : MemCanonical (imdctBlock ch sub s) := ((hs.putWords _ _).putWords _ _).tick

theorem mdctBlock_canonical (ch sub : Nat) : MemCanonical (mdctBlock ch sub s) := ((hs.putWords _ _).putWords _ _).tick

theorem pcmOutBlock_canonical (ch sub : Nat) : MemCanonical (pcmOutBlock ch sub s) := (hs.putHalves _ _).tick

theorem pcmInBlock_canonical (ch sub : Nat) : MemCanonical (pcmInBlock ch sub s) := hs.putWords _ _

theorem dequantBody_canonical (chans : List Nat) : MemCanonical (dequantBody chans s) :=
  forEach_keeps MemCanonical chans _ (fun _ _ _ ht => (ht.putWords _ _).tick) s hs

theorem hfrChannel_canonical (ch : Nat) : MemCanonical (hfrChannel ch s) := by
  unfold hfrChannel
  split
  · exact hs
  · exact (forEach_keeps MemCanonical _ _ (fun _ _ _ ht => (ht.putWords _ _).putWords _ _) s hs).tick

theorem hfrBody_canonical (chans : List Nat) : MemCanonical (hfrBody chans s) := by
  unfold hfrBody
  split
  · exact hs
  · exact forEach_keeps MemCanonical chans _ (fun ch _ _ ht => hfrChannel_canonical ht ch) s hs

theorem istereoChannel_canonical (subs : List Nat) (p : Nat) : MemCanonical (istereoChannel subs p s) := by
  unfold istereoChannel
  split
  · exact forEach_keeps MemCanonical subs _ (fun _ _ _ ht => ((ht.putWords _ _).putWords _ _).tick) s hs
  · exact hs

theorem istereoBody_canonical (subs : List Nat) : MemCanonical (istereoBody subs s) :=
  forEach_keeps MemCanonical _ _ (fun p _ _ ht => istereoChannel_canonical ht subs p) s hs

/-- A block operation that keeps the form keeps it over channels and subframes. -/
theorem forBlocks_canonical {block : Nat → Nat → State → State}
    (hblock : ∀ {t : State}, MemCanonical t → ∀ ch sub, MemCanonical (block ch sub t)) (chans subs : List Nat) :
    MemCanonical (forBlocks block chans subs s) :=
  forBlocks_keeps MemCanonical block chans subs (fun ch _ sub _ _ ht => hblock ht ch sub) s hs

theorem storeFrame_canonical (f : Frame) (n : Nat) : MemCanonical (storeFrame f n s) := by
  have hloop : MemCanonical (forEach (List.range (chCount s)) (storeFrameChannel f) s) :=
    forEach_keeps MemCanonical _ _
      (fun _ _ _ ht => (((ht.putBytes _ _).putBytes _ _).putBytes _ _).putHalves _ _) s hs
  exact hloop.congr rfl

theorem unpackFailed_canonical : MemCanonical (unpackFailed s) := by
  have hloop : MemCanonical (forEach (List.range (chCount s)) scrambleChannel s) :=
    forEach_keeps MemCanonical _ _ (fun _ _ _ ht => ((ht.putBytes _ _).putBytes _ _).putBytes _ _) s hs
  exact hloop.congr rfl

theorem unpackBody_canonical (hcfg : cfgOk s = true) : (unpackBody s).Leaves MemCanonical := by
  unfold unpackBody
  split
  · next hread => exact ⟨readFrame_error hcfg hread, unpackFailed_canonical hs⟩
  · exact storeFrame_canonical hs _ _

theorem decodeStages_canonical : MemCanonical (decodeStages s) :=
  have hspectral := istereoBody_canonical (hfrBody_canonical (dequantBody_canonical hs _) _) (List.range 8)
  forBlocks_canonical (forBlocks_canonical hspectral imdctBlock_canonical _ _) pcmOutBlock_canonical _ _

theorem decodeFrameEffect_canonical : (decodeFrameEffect s).Leaves MemCanonical :=
  leaves_requireCfg hs fun hcfg => leaves_requireFrame hs fun _ => leaves_requireHfrVersion hs <|
    ((unpackBody_canonical hs hcfg).andThen (fun _ ht => ht) fun _ ht => leaves_requireValid ht).andThen (fun _ ht => ht)
      fun _ ht => decodeStages_canonical ht

theorem writeFrame_canonical (cs : List PackChannel) : MemCanonical (writeFrame cs s) :=
  (hs.putBytes frameBufBase _).congr rfl

theorem packStore_canonical (dry : Bool) (cs : List PackChannel) : MemCanonical (packStore dry cs s) := by
  have hwrite : MemCanonical (if dry = true then s else writeFrame cs s) := by
    cases dry with
    | true => exact hs
    | false => exact writeFrame_canonical hs cs
  exact (forEach_keeps MemCanonical (List.range (chCount s)) (storeResolutions cs) (fun _ _ _ ht => ht.putBytes _ _) _
    hwrite).congr rfl

theorem packBody_canonical (dry : Bool) : (packBody dry s).Leaves MemCanonical := by
  have hfailed : MemCanonical (packFailed s) := hs.congr rfl
  unfold packBody
  dsimp only
  split
  · exact ⟨by decide, hfailed⟩
  · split
    · exact ⟨by decide, hfailed⟩
    · exact packStore_canonical hs dry _

/-! ### Every command -/

/-- A command's effect leaves memory canonical, whatever it ends in. -/
theorem effectOf_canonical (i : Instr) : (effectOf i s).Leaves MemCanonical := by
  cases i with
  | nop | crcCalc => exact hs
  | resetOvl => exact forEach_keeps MemCanonical _ _ (fun ch _ _ ht => clearOverlap_canonical ht ch) s hs
  | keygen0 | keygen1 | keygen56 => exact storeKey_canonical hs _ _
  | decrypt | encrypt => exact leaves_requireFrame hs fun _ => substituteFrame_canonical hs _
  | crcGen => exact leaves_requireFrame hs fun _ => (hs.putBytes _ _).congr rfl
  | crcCheck => exact leaves_requireFrame hs fun _ => hs.congr rfl
  | unpack => exact leaves_requireCfg hs fun hcfg => leaves_requireFrame hs fun _ => unpackBody_canonical hs hcfg
  | pack dry => exact leaves_requireCfg hs fun _ => leaves_requireFrame hs fun _ => packBody_canonical hs dry
  | dequant => exact leaves_requireCfg hs fun _ => leaves_requireChannel hs fun _ => dequantBody_canonical hs _
  | hfrRecon =>
    exact leaves_requireCfg hs fun _ => leaves_requireChannel hs fun _ => leaves_requireHfrVersion hs (hfrBody_canonical hs _)
  | istereo => exact leaves_requireCfg hs fun _ => istereoBody_canonical hs _
  | imdct =>
    exact leaves_requireCfg hs fun _ => leaves_requireChannel hs fun _ => forBlocks_canonical hs imdctBlock_canonical _ _
  | mdct => exact leaves_requireCfg hs fun _ => leaves_requireChannel hs fun _ => forBlocks_canonical hs mdctBlock_canonical _ _
  | pcmOut =>
    exact leaves_requireCfg hs fun _ => leaves_requireChannel hs fun _ => forBlocks_canonical hs pcmOutBlock_canonical _ _
  | pcmIn =>
    exact leaves_requireCfg hs fun _ => leaves_requireChannel hs fun _ => forBlocks_canonical hs pcmInBlock_canonical _ _
  | decodeFrame => exact decodeFrameEffect_canonical hs

end Stages

/-- Settles O12: every change of memory is a store or a reset, and completion changes none. -/
theorem stepKeepsMemoryCanonical : Obligations.StepKeepsMemoryCanonical := by
  intro s t hs h
  rcases step_next_cases h with rfl | ⟨i, -, rfl⟩ | rfl
  · exact memCanonical_keptByHost.hostStep hs
  · exact (effectOf_canonical hs i).complete (Q := MemCanonical) (fun _ hu => hu) fun _ _ _ _ hu => hu
  · exact hs

end Sys2Proof.Machine
end

section
/-! PROOFS. The host's accesses (spec/20_memory.md R72 to R77): which are performed, and what an idle machine's RAM, registers and
reserved places answer. -/

namespace Sys2Proof.Machine

/-! ### Legal accesses -/

theorem accessLegal_iff (offset n : Nat) :
    accessLegal offset n = true ↔
      (offset < 0x10000 ∧ n = 4 ∧ offset % 4 = 0)
        ∨ (0x10000 ≤ offset ∧ offset < 0x80000 ∧ (n = 1 ∨ n = 2 ∨ n = 4) ∧ offset % n = 0) := by
  unfold accessLegal
  split <;> simp only [Bool.and_eq_true, decide_eq_true_eq, Config.apertureBytes] <;> omega

/-- Settles O16: the access breaks `accessLegal_iff`, so both bus functions answer the fault. -/
theorem illegalAccessNotPerformed : Obligations.IllegalAccessNotPerformed := by
  intro s offset n v h
  have hillegal : accessLegal offset n = false := by
    rw [Bool.eq_false_iff, ne_eq, accessLegal_iff]
    omega
  simp [hostOp, busRead, busWrite, hillegal, respond]

/-! ### Reading -/

/-- One more byte, at the lowest offset, makes the lowest byte of the value (spec/20_memory.md R74). -/
theorem bytesValue_cons {w : Nat} {bs : List Byte} {x : BitVec w} (h : bytesValue bs = x.setWidth 32) (b : Byte) :
    bytesValue (b :: bs) = (x ++ b).setWidth 32 := by
  rw [bytesValue, h]
  refine BitVec.eq_of_getLsbD_eq fun i hi => ?_
  simp only [BitVec.getLsbD_or, BitVec.getLsbD_shiftLeft, BitVec.getLsbD_setWidth, BitVec.getLsbD_append, hi]
  by_cases hlow : i < 8
  · simp [hlow]
  · simp [hlow, show i - 8 < 32 by omega, BitVec.getLsbD_of_ge b i (by omega)]

/-- Four bytes make the 32-bit element (spec/20_memory.md R74). -/
theorem bytesValue_four (b0 b1 b2 b3 : Byte) : bytesValue [b0, b1, b2, b3] = b3 ++ b2 ++ b1 ++ b0 := by
  have hlast : bytesValue [b3] = b3.setWidth 32 := by simp [bytesValue]
  have hall := bytesValue_cons (bytesValue_cons (bytesValue_cons hlast b2) b1) b0
  rwa [BitVec.setWidth_eq] at hall

theorem pendingWritesByte_of_idle {s : State} (h : s.pending = none) (a : Nat) : pendingWritesByte s a = false := by
  simp [pendingWritesByte, h]

theorem readByte_of_not_written {s : State} {a : Nat} (h : pendingWritesByte s a = false) : readByte s a = s.byte a := by
  simp [readByte, h]

/-- An idle machine's RAM reads as its bytes (spec/20_memory.md R74). -/
theorem busRead_ram {s : State} {offset n : Nat} (hidle : s.pending = none) (hlegal : accessLegal offset n = true)
    (hram : 0x10000 ≤ offset) : busRead s offset n = .ok (bytesValue ((List.range n).map fun i => s.byte (offset + i))) := by
  have hbytes : ∀ i, readByte s (offset + i) = s.byte (offset + i) := fun i =>
    readByte_of_not_written (pendingWritesByte_of_idle hidle _)
  simp [busRead, hlegal, hram.not_gt, hbytes]

/-! ### Stores of RAM -/

theorem storeRam_succ (offset n : Nat) (v : Word) (s : State) :
    storeRam offset (n + 1) v s =
      if hostWritable (offset + n) = true then
        (storeRam offset n v s).putBytes (offset + n) [v.extractLsb' (8 * n) 8]
      else storeRam offset n v s := by
  simp [storeRam, List.range_succ, forEach_append]

/-- What no store of bytes changes, a host write of RAM does not change. -/
theorem storeRam_view {α : Type} (view : State → α) (h : ∀ t a bs, view (State.putBytes t a bs) = view t) (offset n : Nat)
    (v : Word) (s : State) : view (storeRam offset n v s) = view s := by
  refine forEach_view view _ _ (fun i _ t => ?_) s
  split
  · exact h t _ _
  · rfl

theorem byte_storeRam_outside (v : Word) (s : State) {offset n a : Nat} (h : a < offset ∨ offset + n ≤ a) :
    (storeRam offset n v s).byte a = s.byte a := by
  induction n with
  | zero => rfl
  | succ n ih =>
    rw [storeRam_succ]
    split
    · rw [State.byte_putBytes_outside _ _ _ _ (by simp only [List.length_singleton]; omega), ih (by omega)]
    · exact ih (by omega)

/-- A place that the host may write stores some bit (spec/20_memory.md R75). -/
theorem cellMask_of_hostWritable {a : Nat} (h : hostWritable a = true) : cellMask a ≠ 0 := by
  unfold hostWritable at h
  unfold cellMask
  cases hregion : regionOf a with
  | slot ch array i => cases array <;> simp
  | none | keyDec | keyEnc | deqScale | deqRange => simp [hregion] at h
  | frameBuf | ath | intRatio | hfrRatio | resCurve | win => simp

/-- A byte stored alone in a writable place leaves the bits the place holds (spec/20_memory.md R75). -/
theorem byte_putBytes_single (s : State) {a : Nat} (b : Byte) (h : hostWritable a = true) :
    (s.putBytes a [b]).byte a = b &&& cellMask a := by
  have hstored := State.byte_putBytes_inside s a 0 [b] (by simp)
  rw [Nat.add_zero, if_neg (cellMask_of_hostWritable h)] at hstored
  exact hstored

theorem byte_storeRam_inside (v : Word) (s : State) {offset n i : Nat} (hi : i < n) (h : hostWritable (offset + i) = true) :
    (storeRam offset n v s).byte (offset + i) = v.extractLsb' (8 * i) 8 &&& cellMask (offset + i) := by
  induction n with
  | zero => omega
  | succ n ih =>
    rw [storeRam_succ]
    rcases Nat.lt_succ_iff_lt_or_eq.1 hi with hlt | rfl
    · split
      · rw [State.byte_putBytes_outside _ _ _ _ (by omega), ih hlt]
      · exact ih hlt
    · rw [if_pos h, byte_putBytes_single _ _ h]

/-- An idle machine performs a legal write of RAM. -/
theorem busWrite_ram {s : State} {offset n : Nat} (v : Word) (hbusy : s.status.busy = false)
    (hlegal : accessLegal offset n = true) (hram : 0x10000 ≤ offset) :
    busWrite s offset n v = .ok (storeRam offset n v s) := by
  simp [busWrite, hlegal, hram.not_gt, writeRam, hbusy]

/-- Settles O17, from the rules of `storeRam` byte by byte and of the read. -/
theorem ramWriteReadsBack : Obligations.RamWriteReadsBack := by
  intro s offset n v hbusy hidle hlegal hram hwritable
  have hread := busRead_ram (s := storeRam offset n v s)
    ((storeRam_view State.pending (fun _ _ _ => rfl) offset n v s).trans hidle) hlegal hram
  refine ⟨storeRam offset n v s, busWrite_ram v hbusy hlegal hram, fun i hi => byte_storeRam_inside v s hi (hwritable i hi),
    fun a ha => byte_storeRam_outside v s ha,
    fun r => storeRam_view (regValue · r) (fun t a bs => regValue_putBytes t a bs r) offset n v s, hread, ?_⟩
  rintro rfl
  exact hread.trans (congrArg _ (bytesValue_four _ _ _ _))

/-! ### Places that the host cannot write -/

theorem regionOf_deqScale {a : Nat} (hlo : 0x20400 ≤ a) (hhi : a < 0x20500) : regionOf a = .deqScale (a - 0x20400) := by
  unfold regionOf
  rw [if_neg (by omega), if_neg (by omega), if_pos (by omega), if_neg (by omega), if_neg (by omega), if_neg (by omega),
    if_neg (by omega), if_neg (by omega), if_pos hhi]

theorem regionOf_deqRange {a : Nat} (hlo : 0x20500 ≤ a) (hhi : a < 0x20540) : regionOf a = .deqRange (a - 0x20500) := by
  unfold regionOf
  rw [if_neg (by omega), if_neg (by omega), if_pos (by omega), if_neg (by omega), if_neg (by omega), if_neg (by omega),
    if_neg (by omega), if_neg (by omega), if_neg (by omega), if_pos hhi]

/-- The host may write every array of a slot but `RES` (spec/10_state.md R52). -/
theorem hostWritable_slotAddr {ch i : Nat} {array : SlotArray} (hch : ch < 16) (hi : i < slotArrayBytes array) :
    hostWritable (slotAddr ch array i) = (array != .res) := by
  unfold hostWritable
  rw [regionOf_slotAddr ch array i hch hi]
  cases array <;> rfl

theorem hostWritable_keyTables {a : Nat} (hlo : 0x20100 ≤ a) (hhi : a < 0x20300) : hostWritable a = false := by
  refine hostWritable_of_inKeyTables ?_
  rcases lt_or_ge a 0x20200 with hdec | henc
  · obtain ⟨i, rfl⟩ := Nat.exists_eq_add_of_le hlo
    exact inKeyTables_keyDec (by omega)
  · obtain ⟨i, rfl⟩ := Nat.exists_eq_add_of_le henc
    exact inKeyTables_keyEnc (by omega)

theorem hostWritable_deqTables {a : Nat} (hlo : 0x20400 ≤ a) (hhi : a < 0x20540) : hostWritable a = false := by
  unfold hostWritable
  rcases lt_or_ge a 0x20500 with hscale | hrange
  · rw [regionOf_deqScale hlo hscale]
  · rw [regionOf_deqRange hrange hhi]

theorem hostWritable_res {a : Nat} (hlo : 0x40000 ≤ a) (hhi : a < 0x80000) (hplace : 0x80 ≤ a % 0x4000)
    (hend : a % 0x4000 < 0x100) : hostWritable a = false := by
  have ha : a = slotAddr ((a - 0x40000) / 0x4000) .res (a % 0x4000 - 0x80) := by
    simp only [slotAddr, slotArrayOffset]
    omega
  rw [ha]
  exact hostWritable_slotAddr (by omega) (by simp only [slotArrayBytes]; omega)

/-! ### Single bytes -/

theorem accessLegal_byte {a : Nat} (hlo : 0x10000 ≤ a) (hhi : a < 0x80000) : accessLegal a 1 = true :=
  (accessLegal_iff a 1).2 (.inr ⟨hlo, hhi, .inl rfl, Nat.mod_one a⟩)

theorem busWrite_byte {s : State} {a : Nat} (v : Word) (hbusy : s.status.busy = false) (hlo : 0x10000 ≤ a) (hhi : a < 0x80000) :
    busWrite s a 1 v = .ok (if hostWritable a = true then s.putBytes a [v.extractLsb' 0 8] else s) :=
  (busWrite_ram v hbusy (accessLegal_byte hlo hhi) hlo).trans (congrArg _ (storeRam_succ a 0 v s))

theorem busWrite_byte_ignored {s : State} {a : Nat} (v : Word) (hbusy : s.status.busy = false) (hlo : 0x10000 ≤ a)
    (hhi : a < 0x80000) (h : hostWritable a = false) : busWrite s a 1 v = .ok s := by
  rw [busWrite_byte v hbusy hlo hhi, h]
  rfl

/-- A byte written to an element of `k` bits keeps the low `k` bits of the value (spec/20_memory.md R75). -/
theorem busWrite_element {s : State} {a k : Nat} (v : Word) (hbusy : s.status.busy = false) (hlo : 0x10000 ≤ a)
    (hhi : a < 0x80000) (hwritable : hostWritable a = true) (hk : k ≤ 8) (hmask : (cellMask a).toNat = 2 ^ k - 1) :
    ∃ t, busWrite s a 1 v = .ok t ∧ t.numAt a = v.toNat % 2 ^ k := by
  refine ⟨_, busWrite_byte v hbusy hlo hhi, ?_⟩
  rw [if_pos hwritable, State.numAt, byte_putBytes_single s _ hwritable, BitVec.toNat_and, hmask,
    Nat.and_two_pow_sub_one_eq_mod, BitVec.extractLsb'_toNat, Nat.shiftRight_zero, Nat.mod_mod_of_dvd _ (Nat.pow_dvd_pow 2 hk)]

/-- A byte written to a narrow element of a slot. -/
theorem busWrite_slotElement {s : State} {ch i k : Nat} {array : SlotArray} (v : Word) (hbusy : s.status.busy = false)
    (hch : ch < 16) (hi : i < slotArrayBytes array) (hres : array ≠ .res) (hk : k ≤ 8)
    (hmask : (slotMask array).toNat = 2 ^ k - 1) :
    ∃ t, busWrite s (slotAddr ch array i) 1 v = .ok t ∧ t.numAt (slotAddr ch array i) = v.toNat % 2 ^ k := by
  have hplace : slotArrayOffset array + i < 0x4000 := by
    cases array <;> simp only [slotArrayOffset, slotArrayBytes] at hi ⊢ <;> omega
  refine busWrite_element v hbusy (by unfold slotAddr; omega) (by unfold slotAddr; omega) ?_ hk ?_
  · simpa [hostWritable_slotAddr hch hi] using hres
  · rw [cellMask_slotAddr ch array i hch hi, hmask]

/-- A byte written to the resolution curve (spec/10_state.md R46). -/
theorem busWrite_resCurve {s : State} {i : Nat} (v : Word) (hbusy : s.status.busy = false) (hi : i < 59) :
    ∃ t, busWrite s (resCurveBase + i) 1 v = .ok t ∧ t.numAt (resCurveBase + i) = v.toNat % 2 ^ 4 := by
  have hregion := regionOf_resCurve hi
  refine busWrite_element v hbusy (by unfold resCurveBase; omega) (by unfold resCurveBase; omega) ?_ (by decide) ?_
  · unfold hostWritable
    rw [hregion]
  · unfold cellMask
    rw [hregion]
    rfl

/-- In canonical memory a place that stores nothing reads as reset left it. -/
theorem byte_of_cellMask_eq_zero {s : State} {a : Nat} (hmem : s.mem.wf) (h : cellMask a = 0) :
    s.byte a = unlistedByte s.epoch a := by
  have hunlisted : s.mem.lookup a = none := List.lookup_eq_none_iff.2 fun c hc => by
    have hcell : cellMask c.1 ≠ 0 := (hmem.2 c hc).1
    rw [bne_iff_ne]
    rintro rfl
    exact hcell h
  simp [State.byte, Memory.byteAt, hunlisted]

/-- In canonical memory a place outside every window and array reads 0 (spec/20_memory.md R75). -/
theorem byte_of_regionOf_none {s : State} {a : Nat} (hmem : s.mem.wf) (h : regionOf a = .none) : s.byte a = 0 := by
  have hmask : cellMask a = 0 := by
    unfold cellMask
    rw [h]
  simp [byte_of_cellMask_eq_zero hmem hmask, unlistedByte, resetByte?, h]

theorem hostWritable_of_regionOf_none {a : Nat} (h : regionOf a = .none) : hostWritable a = false := by
  unfold hostWritable
  rw [h]

/-! ### Registers -/

theorem accessLegal_word {offset : Nat} (hoffset : offset < 0x10000) (halign : offset % 4 = 0) : accessLegal offset 4 = true :=
  (accessLegal_iff offset 4).2 (.inl ⟨hoffset, rfl, halign⟩)

/-- A reserved offset of the register file reads 0 and ignores writes (spec/20_memory.md R75). -/
theorem bus_reservedOffset {s : State} {offset : Nat} (hbusy : s.status.busy = false) (hoffset : offset < 0x10000)
    (halign : offset % 4 = 0) (hreg : regAt offset = none) :
    busRead s offset 4 = .ok 0 ∧ ∀ v, busWrite s offset 4 v = .ok s := by
  simp [busRead, busWrite, accessLegal_word hoffset halign, hoffset, readReg, writeReg, hreg, hbusy]

/-- A register that no rule lets the host write ignores writes (spec/20_memory.md R75). -/
theorem busWrite_readOnlyReg {s : State} {offset : Nat} {r : Reg} (v : Word) (hbusy : s.status.busy = false)
    (hr : regAt offset = some r) (hreadOnly : r ∉ Reg.ctrl :: .status :: .cmd :: storedRegs) : busWrite s offset 4 v = .ok s := by
  obtain ⟨hoffset, hlegal⟩ := accessLegal_of_regAt hr
  have hwrite : writeReg offset v s = s := by
    unfold writeReg
    rw [hr]
    cases r <;> first | exact absurd (by decide) hreadOnly | simp [hbusy, storeReg]
  simp [busWrite, hlegal, hoffset, hwrite]

/-- Settles O18, clause by clause: reserved places, read-only places, `STATUS`, and the narrow elements. -/
theorem reservedAndReadOnlyPlaces : Obligations.ReservedAndReadOnlyPlaces := by
  intro s hmem hbusy hidle
  refine ⟨fun offset hoffset halign hreg => bus_reservedOffset hbusy hoffset halign hreg, fun a hlo hhi hregion => ⟨?_, fun v => ?_⟩,
    fun a v ha => ?_, fun offset v hoffset => ?_, fun v => rfl, fun ch i v hch hi => ?_, fun ch i v hch hi => ⟨?_, ?_⟩,
    fun i v hi => busWrite_resCurve v hbusy hi⟩
  · rw [busRead_ram hidle (accessLegal_byte hlo hhi) hlo]
    simp [byte_of_regionOf_none hmem hregion, bytesValue]
  · exact busWrite_byte_ignored v hbusy hlo hhi (hostWritable_of_regionOf_none hregion)
  · rcases ha with ⟨hlo, hhi⟩ | ⟨hlo, hhi⟩ | ⟨hlo, hhi, hplace, hend⟩
    · exact busWrite_byte_ignored v hbusy (by omega) (by omega) (hostWritable_keyTables hlo hhi)
    · exact busWrite_byte_ignored v hbusy (by omega) (by omega) (hostWritable_deqTables hlo hhi)
    · exact busWrite_byte_ignored v hbusy (by omega) hhi (hostWritable_res hlo hhi hplace hend)
  · have hreg : ∃ r, regAt offset = some r ∧ r ∉ Reg.ctrl :: .status :: .cmd :: storedRegs := by
      simp only [List.mem_cons, List.not_mem_nil, or_false] at hoffset
      rcases hoffset with rfl | rfl | rfl | rfl | rfl | rfl | rfl | rfl | rfl <;> exact ⟨_, rfl, by decide⟩
    obtain ⟨r, hr, hreadOnly⟩ := hreg
    exact busWrite_readOnlyReg v hbusy hr hreadOnly
  · exact busWrite_slotElement (k := 6) v hbusy hch hi (by decide) (by decide) rfl
  · exact busWrite_slotElement (k := 4) v hbusy hch hi (by decide) (by decide) rfl
  · exact busWrite_slotElement (k := 6) v hbusy hch hi (by decide) (by decide) rfl

end Sys2Proof.Machine
end

section
/-! PROOFS. What a host reads while a command runs (spec/20_memory.md R80, spec/60_exceptions.md R290): free values only where the
command that the run ends as writes, and that command depends on nothing that a bus response records. -/

namespace Sys2Proof.Machine

/-! ### The error code of an effect -/

/-- The error code that the effect completes with. -/
def Effect.code : Effect → ErrCode
  | .ok _ => .none
  | .error code _ _ => code

theorem outcomeCode_eq (i : Instr) (s : State) : outcomeCode i s = (effectOf i s).code := by
  unfold outcomeCode
  rw [exec_eq_finish_effectOf]
  cases effectOf i s <;> rfl

theorem errCode_complete (e : Effect) : (complete e).status.errCode = e.code := by cases e <;> rfl

/-- An effect whose errors have an error's code completes with one when it sets `ERR`. -/
theorem code_ne_none_of_leaves {P : State → Prop} {e : Effect} (h : e.Leaves P) (herr : (complete e).status.err = true) :
    e.code ≠ .none := by
  cases e with
  | ok s => contradiction
  | error code info s => exact h.1

theorem requireCfg_code (s : State) (k : Effect) :
    (requireCfg s k).code = if cfgOk s = true then k.code else .badConfig := by unfold requireCfg; split <;> rfl

theorem requireFrame_code (s : State) (k : Effect) :
    (requireFrame s k).code = if frameOk s = true then k.code else .badConfig := by unfold requireFrame; split <;> rfl

theorem requireChannel_code (s : State) (ch : Nat) (allCh : Bool) (k : Effect) :
    (requireChannel s ch allCh k).code = if badChannel s ch allCh = true then .badChannel else k.code := by
  unfold requireChannel; split <;> rfl

theorem requireHfrVersion_code (s : State) (k : Effect) :
    (requireHfrVersion s k).code = if hfrUnsupported s = true then .unsupported else k.code := by
  unfold requireHfrVersion; split <;> rfl

theorem packBody_code (dry : Bool) (s : State) :
    (packBody dry s).code =
      if (packCheck s (packChannels s)).isSome = true then .codeRange
      else if (!dry && !packFits s (contentLength s (packChannels s))) = true then .frameFull else .none := by
  unfold packBody
  dsimp only
  split
  · next hproblem => rw [hproblem]; rfl
  · next hproblem =>
    rw [hproblem]
    split <;> simp [Effect.code]

/-! ### The command whose writes a run makes -/

/-- The errors after which UNPACK's writes have been made (spec/46_composite.md R271). -/
def unpackErrors : List ErrCode := [.sync, .sfRange, .intensityRange, .overrun, .invalid]

theorem writingCommand_eq (i : Instr) (s : State) :
    writingCommand i s =
      if outcomeCode i s = .none then some i else if outcomeCode i s ∈ unpackErrors then some .unpack else none := by
  unfold writingCommand
  cases outcomeCode i s <;> rfl

/-- Only UNPACK and DECODE_FRAME end with the errors of a bitstream (spec/60_exceptions.md R281). -/
theorem code_not_mem_unpackErrors {i : Instr} (hunpack : i ≠ .unpack) (hdecode : i ≠ .decodeFrame) (s : State) :
    (effectOf i s).code ∉ unpackErrors := by
  cases i with
  | unpack | decodeFrame => contradiction
  | nop | resetOvl | keygen0 | keygen1 | keygen56 | crcCalc => simp [effectOf, crcCalcEffect, Effect.code, unpackErrors]
  | decrypt | encrypt | crcGen | crcCheck =>
    simp only [effectOf, crcGenEffect, crcCheckEffect, requireFrame_code]
    split <;> simp [Effect.code, unpackErrors]
  | pack dry =>
    simp only [effectOf, requireCfg_code, requireFrame_code, packBody_code]
    split_ifs <;> decide
  | dequant | hfrRecon | istereo | imdct | mdct | pcmOut | pcmIn =>
    simp only [effectOf, requireCfg_code, requireChannel_code, requireHfrVersion_code]
    split_ifs <;> simp [Effect.code, unpackErrors]

/-- A run makes its command's own writes, or a DECODE_FRAME makes UNPACK's. -/
theorem writingCommand_cases {i j : Instr} {s : State} (h : writingCommand i s = some j) :
    j = i ∨ (j = .unpack ∧ i = .decodeFrame) := by
  rw [writingCommand_eq] at h
  split at h
  · exact .inl (Option.some.inj h).symm
  · split at h
    · next hcode =>
      obtain rfl : Instr.unpack = j := Option.some.inj h
      by_cases hunpack : i = .unpack
      · exact .inl hunpack.symm
      · by_cases hdecode : i = .decodeFrame
        · exact .inr ⟨rfl, hdecode⟩
        · rw [outcomeCode_eq] at hcode
          exact absurd hcode (code_not_mem_unpackErrors hunpack hdecode s)
    · contradiction

/-- DECODE_FRAME names every place of UNPACK (spec/46_composite.md R270). -/
theorem writesByte_decodeFrame_of_unpack {s : State} {a : Nat} (h : writesByte .unpack s a = true) :
    writesByte .decodeFrame s a = true := by
  refine inSlot_mono (fun c array i hplace => ?_) h
  simp only [Bool.and_eq_true] at hplace
  simp [hplace.1, hplace.2]

theorem writesByte_of_writingCommand {i j : Instr} {s : State} (h : writingCommand i s = some j) {a : Nat}
    (ha : writesByte i s a = false) : writesByte j s a = false := by
  rcases writingCommand_cases h with rfl | ⟨rfl, rfl⟩
  · exact ha
  · exact Bool.eq_false_iff.2 fun hunpack => by simp [writesByte_decodeFrame_of_unpack hunpack] at ha

/-- UNPACK and DECODE_FRAME write the same registers (spec/46_composite.md R270). -/
theorem writesReg_of_writingCommand {i j : Instr} {s : State} (h : writingCommand i s = some j) {r : Reg}
    (hr : writesReg i r = false) : writesReg j r = false := by
  rcases writingCommand_cases h with rfl | ⟨rfl, rfl⟩ <;> exact hr

/-- The registers that some command writes (spec/10_state.md section 2). -/
def commandRegs : List Reg := [.errInfo, .keyType, .frameHdr, .bitPos, .bitsLeft, .crcValue, .deltaBits0, .deltaBits1]

theorem mem_commandRegs_of_writesReg {i : Instr} {r : Reg} (h : writesReg i r = true) : r ∈ commandRegs := by
  cases i with
  | nop | resetOvl | decrypt | encrypt | dequant | hfrRecon | istereo | imdct | mdct | pcmOut | pcmIn =>
    obtain rfl : r = .errInfo := by simpa [writesReg] using h
    decide
  | keygen0 | keygen1 | keygen56 | crcCalc | crcGen | crcCheck =>
    simp only [writesReg, Bool.or_eq_true, beq_iff_eq] at h
    rcases h with rfl | rfl <;> decide
  | unpack | decodeFrame =>
    simp only [writesReg, Bool.or_eq_true, beq_iff_eq, or_assoc] at h
    rcases h with rfl | rfl | rfl | rfl | rfl | rfl <;> decide
  | pack dry =>
    simp only [writesReg, Bool.or_eq_true, Bool.and_eq_true, beq_iff_eq, or_assoc] at h
    rcases h with rfl | rfl | rfl | rfl | rfl | ⟨-, rfl⟩ <;> decide

/-! ### Reads while a command runs -/

/-- The command whose writes the pending command's run makes, if it makes any beside `ERR_INFO`. -/
def pendingWriter (s : State) : Option Instr := (s.pending.bind decode?).bind fun i => writingCommand i s

theorem pendingWritesByte_eq (s : State) (a : Nat) :
    pendingWritesByte s a = (pendingWriter s).any (fun i => writesByte i s a) := by
  unfold pendingWritesByte pendingWriter
  cases (s.pending.bind decode?).bind fun i => writingCommand i s <;> rfl

theorem pendingWritesReg_eq (s : State) (r : Reg) :
    pendingWritesReg s r = (s.pending.isSome && (r == .errInfo || (pendingWriter s).any (fun i => writesReg i r))) := by
  unfold pendingWritesReg pendingWriter
  cases (s.pending.bind decode?).bind fun i => writingCommand i s <;> rfl

theorem pendingWriter_of_decode? {s : State} {w : Word} {i : Instr} (hpending : s.pending = some w) (hdecode : decode? w = some i) :
    pendingWriter s = writingCommand i s := by
  simp [pendingWriter, hpending, hdecode]

theorem pendingWriter_of_illegal {s : State} {w : Word} (hpending : s.pending = some w) (hdecode : decode? w = none) :
    pendingWriter s = none := by
  simp [pendingWriter, hpending, hdecode]

theorem readByte_of_writer {s : State} {a : Nat} (h : ∀ j, pendingWriter s = some j → writesByte j s a = false) :
    readByte s a = s.byte a := by
  refine readByte_of_not_written ?_
  rw [pendingWritesByte_eq]
  cases hwriter : pendingWriter s with
  | none => rfl
  | some j => exact h j hwriter

theorem readReg_of_not_written {s : State} {offset : Nat} {r : Reg} (hr : regAt offset = some r)
    (h : pendingWritesReg s r = false) : readReg s offset = regValue s r := by
  simp [readReg, hr, h]

theorem readReg_of_writer {s : State} {offset : Nat} {r : Reg} (hr : regAt offset = some r) (hinfo : r ≠ .errInfo)
    (h : ∀ j, pendingWriter s = some j → writesReg j r = false) : readReg s offset = regValue s r := by
  have hreg : (r == .errInfo) = false := by simpa using hinfo
  refine readReg_of_not_written hr ?_
  rw [pendingWritesReg_eq, hreg, Bool.false_or]
  cases hwriter : pendingWriter s with
  | none => exact Bool.and_false _
  | some j => rw [Option.any_some, h j hwriter, Bool.and_false]

/-- A register that no command writes always reads its value (spec/20_memory.md R80). -/
theorem readReg_of_not_commandReg {s : State} {offset : Nat} {r : Reg} (hr : regAt offset = some r) (h : r ∉ commandRegs) :
    readReg s offset = regValue s r :=
  readReg_of_writer hr (by rintro rfl; exact h (by decide)) fun _ _ => Bool.eq_false_iff.2 fun hj =>
    h (mem_commandRegs_of_writesReg hj)

/-- Every byte and every register but `ERR_INFO` reads its value. -/
def ReadsValues (s : State) : Prop :=
  (∀ a, readByte s a = s.byte a) ∧ ∀ offset r, regAt offset = some r → r ≠ .errInfo → readReg s offset = regValue s r

/-- A run that makes no command's writes writes `ERR_INFO` alone. -/
theorem readsValues_of_no_writer {s : State} (h : pendingWriter s = none) : ReadsValues s :=
  ⟨fun _ => readByte_of_writer fun j hj => by simp [h] at hj,
    fun _ _ hr hinfo => readReg_of_writer hr hinfo fun j hj => by simp [h] at hj⟩

/-- The errors of the checks and PACK's data errors (spec/60_exceptions.md R283, spec/44_bitstream.md R232). -/
def stopErrors : List ErrCode := [.badConfig, .badChannel, .unsupported, .codeRange, .frameFull]

/-- A command that its checks, or PACK's data errors, stop makes no writes (spec/60_exceptions.md R283). -/
theorem writingCommand_of_stopped {i : Instr} {s : State} (h : outcomeCode i s ∈ stopErrors) : writingCommand i s = none := by
  obtain ⟨hsome, hunpack⟩ : outcomeCode i s ≠ .none ∧ outcomeCode i s ∉ unpackErrors :=
    (by decide : ∀ code ∈ stopErrors, code ≠ .none ∧ code ∉ unpackErrors) _ h
  rw [writingCommand_eq, if_neg hsome, if_neg hunpack]

/-- While a command runs, what its rule does not name reads its value (spec/60_exceptions.md R290). -/
theorem busyRead_of_decode? {s : State} {w : Word} {i : Instr} (hpending : s.pending = some w) (hdecode : decode? w = some i) :
    (∀ a, writesByte i s a = false → readByte s a = s.byte a)
      ∧ ∀ offset r, regAt offset = some r → writesReg i r = false → readReg s offset = regValue s r := by
  have hwriter := pendingWriter_of_decode? hpending hdecode
  refine ⟨fun a ha => readByte_of_writer fun j hj => writesByte_of_writingCommand (hwriter ▸ hj) ha,
    fun offset r hr hnot => readReg_of_writer hr ?_ fun j hj => writesReg_of_writingCommand (hwriter ▸ hj) hnot⟩
  rintro rfl
  simp [writesReg_errInfo] at hnot

/-- A run that ends with an error makes UNPACK's writes, if any beside `ERR_INFO`. -/
theorem writingCommand_of_error {i j : Instr} {s : State} (hcode : outcomeCode i s ≠ .none) (h : writingCommand i s = some j) :
    j = .unpack := by
  rw [writingCommand_eq, if_neg hcode] at h
  split at h
  · exact (Option.some.inj h).symm
  · contradiction

/-- A run that an error ends is read as writing only what that error leaves written (log 15). -/
theorem busyRead_of_outcome {s t : State} {w : Word} {i : Instr} (hpending : s.pending = some w) (hdecode : decode? w = some i)
    (ht : exec i s = .next t) :
    (t.status.errCode ∈ stopErrors → ReadsValues s)
      ∧ (i = .decodeFrame → t.status.err = true → ∀ a, writesByte .unpack s a = false → readByte s a = s.byte a) := by
  have hwriter := pendingWriter_of_decode? hpending hdecode
  obtain rfl := (exec_next_iff i s t).1 ht
  constructor
  · intro hcode
    rw [errCode_complete, ← outcomeCode_eq] at hcode
    exact readsValues_of_no_writer (hwriter.trans (writingCommand_of_stopped hcode))
  · rintro - herr a ha
    have hcode := code_ne_none_of_leaves (effectOf_frame (wellFormed_of_decode? hdecode) s) herr
    rw [← outcomeCode_eq] at hcode
    exact readByte_of_writer fun j hj => writingCommand_of_error hcode (hwriter ▸ hj) ▸ ha

/-! ### The step that completes -/

theorem step_of_decode? {s : State} {w : Word} {i : Instr} (hpending : s.pending = some w) (hnow : completesNow s = true)
    (hdecode : decode? w = some i) : step s = exec i s := by
  simp [step, hpending, hnow, hdecode]

/-- The step in which a command completes leaves none pending (spec/60_exceptions.md R284). -/
theorem pending_of_completion {s t : State} {w : Word} (hpending : s.pending = some w) (hnow : completesNow s = true)
    (h : step s = .next t) : t.pending = none := by
  rcases step_cases s with ⟨-, hidle | hlater⟩ | ⟨_, i, -, -, -, hstep⟩ | ⟨_, -, -, -, hstep⟩
  · simp [hidle] at hpending
  · simp [hlater] at hnow
  · obtain rfl := (exec_next_iff i s t).1 (hstep ▸ h)
    cases effectOf i s <;> rfl
  · rw [hstep] at h
    cases h
    rfl

/-! ### A read changes no later read -/

theorem unpackBody_code_respond (b : BusResponse) (s : State) : (unpackBody (respond b s)).code = (unpackBody s).code := by
  have hread : readFrame (respond b s) (frameCursor (respond b s)) = readFrame s (frameCursor s) := rfl
  unfold unpackBody
  rw [hread]
  cases readFrame s (frameCursor s) <;> rfl

theorem requireValid_code (s : State) : (requireValid s).code = if s.status.valid = true then .none else .invalid := by
  unfold requireValid; split <;> rfl

theorem andThen_ok_code (e : Effect) (f : State → State) : (e.andThen fun t => .ok (f t)).code = e.code := by cases e <;> rfl

/-- UNPACK's validity result, which DECODE_FRAME's INVALID reads, comes from the frame and its length alone. -/
theorem requireValid_unpackBody_code_respond (b : BusResponse) (s : State) :
    ((unpackBody (respond b s)).andThen requireValid).code = ((unpackBody s).andThen requireValid).code := by
  have hread : readFrame (respond b s) (frameCursor (respond b s)) = readFrame s (frameCursor s) := rfl
  unfold unpackBody
  rw [hread]
  cases readFrame s (frameCursor s) with
  | error e => rfl
  | ok p => simp only [Effect.andThen_ok, requireValid_code]; rfl

/-- A command's error code does not depend on the recorded bus responses. -/
theorem effectOf_code_respond (b : BusResponse) (i : Instr) (s : State) :
    (effectOf i (respond b s)).code = (effectOf i s).code := by
  cases i with
  | nop | resetOvl | keygen0 | keygen1 | keygen56 | crcCalc => rfl
  | decrypt | encrypt | crcGen | crcCheck =>
    simp only [effectOf, crcGenEffect, crcCheckEffect, requireFrame_code]
    rfl
  | unpack =>
    simp only [effectOf, requireCfg_code, requireFrame_code, unpackBody_code_respond]
    rfl
  | decodeFrame =>
    simp only [effectOf, decodeFrameEffect, requireCfg_code, requireFrame_code, requireHfrVersion_code, andThen_ok_code,
      requireValid_unpackBody_code_respond]
    rfl
  | pack =>
    simp only [effectOf, requireCfg_code, requireFrame_code, packBody_code]
    rfl
  | dequant | hfrRecon | istereo | imdct | mdct | pcmOut | pcmIn =>
    simp only [effectOf, requireCfg_code, requireChannel_code, requireHfrVersion_code]
    rfl

theorem pendingWriter_respond (b : BusResponse) (s : State) : pendingWriter (respond b s) = pendingWriter s := by
  have hcommand : ∀ i, writingCommand i (respond b s) = writingCommand i s := fun i => by
    rw [writingCommand_eq, writingCommand_eq, outcomeCode_eq, outcomeCode_eq, effectOf_code_respond]
  simp only [pendingWriter, respond_pending, hcommand]

theorem readByte_respond (b : BusResponse) (s : State) (a : Nat) : readByte (respond b s) a = readByte s a := by
  have hplaces : ∀ i, writesByte i (respond b s) a = writesByte i s a := fun i => by cases i <;> rfl
  unfold readByte
  rw [pendingWritesByte_eq, pendingWritesByte_eq, pendingWriter_respond]
  simp only [hplaces, respond_byte]
  rfl

theorem readReg_respond (b : BusResponse) (s : State) (offset : Nat) : readReg (respond b s) offset = readReg s offset := by
  have hwrites : ∀ r, pendingWritesReg (respond b s) r = pendingWritesReg s r := fun r => by
    rw [pendingWritesReg_eq, pendingWritesReg_eq, pendingWriter_respond, respond_pending]
  unfold readReg
  simp only [hwrites, regValue_respond]
  rfl

theorem busRead_respond (b : BusResponse) (s : State) (offset n : Nat) :
    busRead (respond b s) offset n = busRead s offset n := by
  simp only [busRead, readByte_respond, readReg_respond]

/-- A read only records its response (spec/20_memory.md R76). -/
theorem hostOp_read (o n : Nat) (s : State) : ∃ b, hostOp (.read o n) s = respond b s := by
  rcases busRead_cases s o n with ⟨-, v, e⟩ | ⟨-, e⟩ <;> exact ⟨_, by simp only [hostOp, e]; rfl⟩

/-- Settles O22: a running command's places are those of the command that its outcome names, and nothing runs after completion. -/
theorem busyReadOfOtherPlaces : Obligations.BusyReadOfOtherPlaces := by
  refine ⟨fun s w i hpending hdecode => ?_, fun s w hpending hdecode => ?_, fun s offset r hr hreadable => ?_,
    fun s t w hpending hnow hstep => ?_, fun s o n offset m => ?_⟩
  · obtain ⟨hbytes, hregs⟩ := busyRead_of_decode? hpending hdecode
    exact ⟨hbytes, hregs, fun t ht => busyRead_of_outcome hpending hdecode ht⟩
  · exact readsValues_of_no_writer (pendingWriter_of_illegal hpending hdecode)
  · exact readReg_of_not_commandReg hr
      ((by decide : ∀ q ∈ [Reg.id, .ctrl, .status, .cmd, .cfgStream, .cfgFrame, .cfgBands, .cfgRes, .cfgDerived, .cfgRoles, .keyLo,
        .keyHi, .crcLen], q ∉ commandRegs) r hreadable)
  · have hidle := pending_of_completion hpending hnow hstep
    refine ⟨fun a => readByte_of_not_written (pendingWritesByte_of_idle hidle a),
      fun offset r hr => readReg_of_not_written hr (pendingWritesReg_of_idle hidle r), fun i a hwf hdecode ha => ?_⟩
    obtain ⟨hbytes, -⟩ := commandsWriteOnlyTheirPlaces i s t hwf (step_of_decode? hpending hnow hdecode ▸ hstep)
    exact hbytes a ha
  · obtain ⟨b, e⟩ := hostOp_read o n s
    rw [e, busRead_respond]

end Sys2Proof.Machine
end

section
/-! PROOFS. The encoding: a command word is its fields (spec/30_encoding.md R90), a row of the opcode table fixes the fields that
its form does not use (R93, R94), and the fields of a command's word are the row's with the command's operands put in. -/

namespace Sys2Proof.Machine

/-! ### A word and its fields -/

/-- The fields of a command word (R90); `reserved` is bits 23:18. -/
structure WordFields where
  op : Nat
  ch : Nat := 0
  sub : Nat := 0
  allCh : Bool := false
  allSf : Bool := false
  dry : Bool := false
  reserved : Nat := 0
  arg : Nat := 0

/-- The fields as they stand in a word. -/
def fieldsOf (w : Word) : WordFields where
  op := opField w
  ch := chField w
  sub := subField w
  allCh := allChField w
  allSf := allSfField w
  dry := dryField w
  reserved := wordField w 18 6
  arg := wordField w 24 8

/-- The word of the fields, as a number. -/
def WordFields.toNat (F : WordFields) : Nat :=
  F.op + F.ch * 2 ^ 8 + F.sub * 2 ^ 12 + F.allCh.toNat * 2 ^ 15 + F.allSf.toNat * 2 ^ 16 + F.dry.toNat * 2 ^ 17
    + F.reserved * 2 ^ 18 + F.arg * 2 ^ 24

/-- Each field fits its bits. -/
structure WordFields.Fit (F : WordFields) : Prop where
  op : F.op < 2 ^ 8
  ch : F.ch < 2 ^ 4
  sub : F.sub < 2 ^ 3
  reserved : F.reserved < 2 ^ 6
  arg : F.arg < 2 ^ 8

theorem toNat_fieldsOf (w : Word) : (fieldsOf w).toNat = w.toNat := by
  have hw : w.toNat < 2 ^ 32 := w.isLt
  simp only [WordFields.toNat, fieldsOf, opField, chField, subField, allChField, allSfField, dryField, wordField, wordBit,
    Nat.toNat_testBit, Nat.shiftRight_eq_div_pow]
  omega

/-- A word has no bit outside its fields. -/
theorem fieldsOf_injective : Function.Injective fieldsOf := fun w v h =>
  BitVec.eq_of_toNat_eq (by rw [← toNat_fieldsOf w, h, toNat_fieldsOf v])

theorem fieldsOf_ofNat {F : WordFields} (hF : F.Fit) : fieldsOf (BitVec.ofNat 32 F.toNat) = F := by
  obtain ⟨op, ch, sub, allCh, allSf, dry, reserved, arg⟩ := F
  obtain ⟨hop, hch, hsub, hreserved, harg⟩ := hF
  dsimp only at hop hch hsub hreserved harg
  have hallCh := allCh.toNat_lt
  have hallSf := allSf.toNat_lt
  have hdry := dry.toNat_lt
  have hbit : ∀ (b : Bool) (n : Nat), n = b.toNat → decide (n = 1) = b := by rintro (_ | _) _ rfl <;> rfl
  simp only [WordFields.toNat, fieldsOf, opField, chField, subField, allChField, allSfField, dryField, wordField, wordBit,
    Nat.testBit_eq_decide_div_mod_eq, Nat.shiftRight_eq_div_pow, BitVec.toNat_ofNat, WordFields.mk.injEq]
  refine ⟨by omega, by omega, by omega, hbit _ _ (by omega), hbit _ _ (by omega), hbit _ _ (by omega), by omega, by omega⟩

/-! ### Forms -/

/-- The fields with those that the form uses taken from `X` (R93). -/
def WordFields.withOperands (F : WordFields) (f : Form) (X : WordFields) : WordFields :=
  match f with
  | .exact => F
  | .channel => { F with ch := X.ch, allCh := X.allCh }
  | .subframe => { F with sub := X.sub, allSf := X.allSf }
  | .channelSubframe => { F with ch := X.ch, allCh := X.allCh, sub := X.sub, allSf := X.allSf }
  | .dry => { F with dry := X.dry }

/-- The fields with those that the form uses 0. -/
def WordFields.masked (F : WordFields) (f : Form) : WordFields := F.withOperands f { op := 0 }

/-- What the mask clears is what the form's operands put back. -/
theorem WordFields.eq_withOperands {F P : WordFields} {f : Form} (h : F.masked f = P) : F = P.withOperands f F := by
  subst h
  cases f <;> rfl

theorem wordField_and (w m : Word) (lo len : Nat) : wordField (w &&& m) lo len = wordField w lo len &&& wordField m lo len := by
  simp only [wordField, BitVec.toNat_and, Nat.shiftRight_and_distrib, Nat.and_mod_two_pow]

theorem wordBit_and (w m : Word) (i : Nat) : wordBit (w &&& m) i = (wordBit w i && wordBit m i) := by
  simp only [wordBit, BitVec.toNat_and, Nat.testBit_and]

/-- Under a mask that has all of a field's bits, the field stays. -/
theorem wordField_and_ones (w : Word) (lo len : Nat) : wordField w lo len &&& (2 ^ len - 1) = wordField w lo len := by
  rw [Nat.and_two_pow_sub_one_eq_mod, wordField, Nat.mod_mod]

theorem fieldsOf_formMask (f : Form) :
    fieldsOf (formMask f) = WordFields.masked ⟨2 ^ 8 - 1, 2 ^ 4 - 1, 2 ^ 3 - 1, true, true, true, 2 ^ 6 - 1, 2 ^ 8 - 1⟩ f := by
  cases f <;> rfl

/-- A form's mask clears the fields that the form uses and keeps the others (R93). -/
theorem fieldsOf_and_formMask (w : Word) (f : Form) : fieldsOf (w &&& formMask f) = (fieldsOf w).masked f := by
  have hand : fieldsOf (w &&& formMask f) =
      { op := opField w &&& (fieldsOf (formMask f)).op, ch := chField w &&& (fieldsOf (formMask f)).ch,
        sub := subField w &&& (fieldsOf (formMask f)).sub, allCh := allChField w && (fieldsOf (formMask f)).allCh,
        allSf := allSfField w && (fieldsOf (formMask f)).allSf, dry := dryField w && (fieldsOf (formMask f)).dry,
        reserved := wordField w 18 6 &&& (fieldsOf (formMask f)).reserved,
        arg := wordField w 24 8 &&& (fieldsOf (formMask f)).arg } := by
    simp only [fieldsOf, opField, chField, subField, allChField, allSfField, dryField, wordField_and, wordBit_and]
  rw [hand, fieldsOf_formMask]
  cases f <;>
    simp only [WordFields.masked, WordFields.withOperands, fieldsOf, opField, chField, subField, wordField_and_ones,
      Bool.and_true, Bool.and_false, Nat.and_zero]

/-- A word matches a row when the fields that the row's form does not use are the pattern's (R93, R94). -/
theorem matches_iff (w : Word) (r : OpRow) :
    w &&& formMask r.form = r.pattern ↔ (fieldsOf w).masked r.form = fieldsOf r.pattern := by
  rw [← fieldsOf_and_formMask, fieldsOf_injective.eq_iff]

/-! ### Decoding -/

/-- Patterns that agree where both masks do are the same. -/
theorem opcodeTable_apart : ∀ r ∈ opcodeTable, ∀ q ∈ opcodeTable,
    r.pattern &&& formMask q.form = q.pattern &&& formMask r.form → r.pattern = q.pattern := by decide

/-- At most one row matches a word (R94). -/
theorem pattern_unique {w : Word} {r q : OpRow} (hr : r ∈ opcodeTable) (hq : q ∈ opcodeTable)
    (hwr : w &&& formMask r.form = r.pattern) (hwq : w &&& formMask q.form = q.pattern) : r.pattern = q.pattern := by
  refine opcodeTable_apart r hr q hq ?_
  rw [← hwr, ← hwq, BitVec.and_assoc, BitVec.and_assoc, BitVec.and_comm (formMask r.form)]

/-- The rows are told apart by their patterns. -/
theorem row_eq_of_pattern_eq {r q : OpRow} (hr : r ∈ opcodeTable) (hq : q ∈ opcodeTable) (h : r.pattern = q.pattern) :
    r = q :=
  List.inj_on_of_nodup_map (by decide : (opcodeTable.map OpRow.pattern).Nodup) hr hq h

theorem matches_of_find? {w : Word} {r : OpRow} (h : opcodeTable.find? (fun q => q.matchesWord w) = some r) :
    w &&& formMask r.form = r.pattern := by simpa [OpRow.matchesWord] using List.find?_some h

/-- The row that matches is what the word decodes to (R94). -/
theorem decode_of_matches {w : Word} {r : OpRow} (hr : r ∈ opcodeTable) (hw : w &&& formMask r.form = r.pattern) :
    decode w = .ok (r.build w) := by
  unfold decode
  cases hfind : opcodeTable.find? (fun q => q.matchesWord w) with
  | none => exact absurd (beq_iff_eq.2 hw) (List.find?_eq_none.1 hfind r hr)
  | some q =>
    have hq := List.mem_of_find?_eq_some hfind
    have hwq := matches_of_find? hfind
    rw [row_eq_of_pattern_eq hr hq (pattern_unique hr hq hw hwq)]

theorem decode_eq_ok_iff {w : Word} {i : Instr} :
    decode w = .ok i ↔ ∃ r ∈ opcodeTable, w &&& formMask r.form = r.pattern ∧ r.build w = i := by
  constructor
  · intro h
    unfold decode at h
    split at h
    · next r hfind => exact ⟨r, List.mem_of_find?_eq_some hfind, matches_of_find? hfind, Except.ok.inj h⟩
    · contradiction
  · rintro ⟨r, hr, hw, rfl⟩
    exact decode_of_matches hr hw

theorem decode?_eq_some_iff {w : Word} {i : Instr} : decode? w = some i ↔ decode w = .ok i := by
  unfold decode?
  cases decode w <;> simp

/-! ### Encoding -/

/-- The fields of a command (R90, R97). -/
def instrFields : Instr → WordFields
  | .nop => { op := 0x00 }
  | .resetOvl ch allCh => { op := 0x01, ch, allCh }
  | .keygen0 => { op := 0x02 }
  | .keygen1 => { op := 0x02, arg := 1 }
  | .keygen56 => { op := 0x02, arg := 56 }
  | .decrypt => { op := 0x03 }
  | .encrypt => { op := 0x04 }
  | .crcCalc => { op := 0x05 }
  | .crcGen => { op := 0x06 }
  | .crcCheck => { op := 0x07 }
  | .unpack => { op := 0x10 }
  | .pack dry => { op := 0x11, dry }
  | .dequant ch allCh => { op := 0x20, ch, allCh }
  | .hfrRecon ch allCh => { op := 0x21, ch, allCh }
  | .istereo sub allSf => { op := 0x22, sub, allSf }
  | .imdct ch allCh sub allSf => { op := 0x30, ch, allCh, sub, allSf }
  | .mdct ch allCh sub allSf => { op := 0x31, ch, allCh, sub, allSf }
  | .pcmOut ch allCh sub allSf => { op := 0x32, ch, allCh, sub, allSf }
  | .pcmIn ch allCh sub allSf => { op := 0x33, ch, allCh, sub, allSf }
  | .decodeFrame => { op := 0x40 }

/-- A command's word is the word of its fields. -/
theorem encode_eq_ofNat (i : Instr) : encode i = BitVec.ofNat 32 (instrFields i).toNat := by
  cases i <;> refine congrArg (BitVec.ofNat 32) ?_ <;>
    simp only [instrFields, WordFields.toNat, channelBits, subframeBits, Nat.shiftLeft_eq, Bool.toNat_false] <;> omega

/-- The fields of a well-formed command fit. -/
theorem instrFields_fit {i : Instr} (h : i.wellFormed = true) : (instrFields i).Fit := by
  cases i <;> simp only [Instr.wellFormed, Bool.and_eq_true, decide_eq_true_eq] at h <;> constructor <;> simp [instrFields, h]

theorem fieldsOf_encode {i : Instr} (h : i.wellFormed = true) : fieldsOf (encode i) = instrFields i := by
  rw [encode_eq_ofNat, fieldsOf_ofNat (instrFields_fit h)]

/-- The place of a command's row in the opcode table (R97). -/
def rowNumber : Instr → Fin opcodeTable.length
  | .nop => ⟨0, by decide⟩
  | .resetOvl _ _ => ⟨1, by decide⟩
  | .keygen0 => ⟨2, by decide⟩
  | .keygen1 => ⟨3, by decide⟩
  | .keygen56 => ⟨4, by decide⟩
  | .decrypt => ⟨5, by decide⟩
  | .encrypt => ⟨6, by decide⟩
  | .crcCalc => ⟨7, by decide⟩
  | .crcGen => ⟨8, by decide⟩
  | .crcCheck => ⟨9, by decide⟩
  | .unpack => ⟨10, by decide⟩
  | .pack _ => ⟨11, by decide⟩
  | .dequant _ _ => ⟨12, by decide⟩
  | .hfrRecon _ _ => ⟨13, by decide⟩
  | .istereo _ _ => ⟨14, by decide⟩
  | .imdct _ _ _ _ => ⟨15, by decide⟩
  | .mdct _ _ _ _ => ⟨16, by decide⟩
  | .pcmOut _ _ _ _ => ⟨17, by decide⟩
  | .pcmIn _ _ _ _ => ⟨18, by decide⟩
  | .decodeFrame => ⟨19, by decide⟩

/-- The fields of a command that its form does not use are its row's pattern. -/
theorem instrFields_masked (i : Instr) :
    (instrFields i).masked (opcodeTable.get (rowNumber i)).form = fieldsOf (opcodeTable.get (rowNumber i)).pattern := by
  cases i <;> dsimp only [rowNumber] <;> rfl

/-- A command's row builds the command from its fields. -/
theorem build_of_fieldsOf {w : Word} {i : Instr} (h : fieldsOf w = instrFields i) :
    (opcodeTable.get (rowNumber i)).build w = i := by
  have hch : chField w = (instrFields i).ch := congrArg WordFields.ch h
  have hsub : subField w = (instrFields i).sub := congrArg WordFields.sub h
  have hallCh : allChField w = (instrFields i).allCh := congrArg WordFields.allCh h
  have hallSf : allSfField w = (instrFields i).allSf := congrArg WordFields.allSf h
  have hdry : dryField w = (instrFields i).dry := congrArg WordFields.dry h
  cases i <;> simp [rowNumber, opcodeTable, instrFields, hch, hsub, hallCh, hallSf, hdry]

/-- Settles O1: the fields of a command's word are the command's, so its row matches and builds it back. -/
theorem decodeOfEncode : Obligations.DecodeOfEncode := fun i hwf => by
  have hfields := fieldsOf_encode hwf
  refine decode_eq_ok_iff.2 ⟨opcodeTable.get (rowNumber i), List.get_mem _ _, ?_, build_of_fieldsOf hfields⟩
  rw [matches_iff, hfields, instrFields_masked]

/-- The command that a row builds has the row's fields, and as operands the word's. -/
theorem instrFields_build {r : OpRow} (hr : r ∈ opcodeTable) (w : Word) :
    instrFields (r.build w) = (fieldsOf r.pattern).withOperands r.form (fieldsOf w) := by
  simp only [opcodeTable, List.mem_cons, List.not_mem_nil, or_false] at hr
  rcases hr with rfl | rfl | rfl | rfl | rfl | rfl | rfl | rfl | rfl | rfl | rfl | rfl | rfl | rfl | rfl | rfl | rfl | rfl
    | rfl | rfl <;> rfl

/-- Settles O2: the fields of the command that the matching row builds are all the word's fields. -/
theorem encodeOfDecode : Obligations.EncodeOfDecode := fun w i h => by
  obtain ⟨r, hr, hw, rfl⟩ := decode_eq_ok_iff.1 h
  refine ⟨wellFormed_of_mem_opcodeTable hr w, ?_⟩
  have hfields : fieldsOf w = instrFields (r.build w) := by
    rw [instrFields_build hr, ← WordFields.eq_withOperands ((matches_iff w r).1 hw)]
  exact fieldsOf_injective ((fieldsOf_encode (wellFormed_of_mem_opcodeTable hr w)).trans hfields.symm)

/-- Settles O4: each written word is, by evaluation, the word of its command. -/
theorem writtenWordsDecode : Obligations.WrittenWordsDecode :=
  ⟨decodeOfEncode .nop rfl, decodeOfEncode (.resetOvl 0 true) rfl, decodeOfEncode .keygen56 rfl, decodeOfEncode .decrypt rfl,
    decodeOfEncode .crcCheck rfl, decodeOfEncode (.pack true) rfl, decodeOfEncode (.dequant 3 false) rfl,
    decodeOfEncode (.istereo 3 false) rfl, decodeOfEncode (.imdct 1 false 0 true) rfl, decodeOfEncode .decodeFrame rfl⟩

/-! ### Illegal words -/

/-- A pattern holds an opcode and an `ARG`, and nothing else (R97). -/
theorem fieldsOf_pattern {r : OpRow} (hr : r ∈ opcodeTable) :
    fieldsOf r.pattern = { op := opField r.pattern, arg := wordField r.pattern 24 8 } := by
  obtain ⟨hch, hsub, hallCh, hallSf, hdry, hreserved⟩ := (by decide : ∀ r ∈ opcodeTable, chField r.pattern = 0
    ∧ subField r.pattern = 0 ∧ allChField r.pattern = false ∧ allSfField r.pattern = false ∧ dryField r.pattern = false
    ∧ wordField r.pattern 18 6 = 0) r hr
  simp only [fieldsOf, hch, hsub, hallCh, hallSf, hdry, hreserved]

/-- The `ARG` of each row, by its opcode (R97). -/
theorem opcodeTable_arg : ∀ r ∈ opcodeTable,
    (opField r.pattern = 2 → wordField r.pattern 24 8 = 0 ∨ wordField r.pattern 24 8 = 1 ∨ wordField r.pattern 24 8 = 56)
      ∧ (opField r.pattern ≠ 2 → wordField r.pattern 24 8 = 0) := by decide

/-- The opcodes of each form that has a channel or a subframe (R93, R97). -/
theorem opcodeTable_form : ∀ r ∈ opcodeTable,
    (r.form = .channel → opField r.pattern = 0x01 ∨ opField r.pattern = 0x20 ∨ opField r.pattern = 0x21)
      ∧ (r.form = .subframe → opField r.pattern = 0x22)
      ∧ (r.form = .channelSubframe → 0x30 ≤ opField r.pattern ∧ opField r.pattern ≤ 0x33) := by decide

/-- The only row of form `D` is PACK's (R97). -/
theorem build_of_form_dry {r : OpRow} (hr : r ∈ opcodeTable) (h : r.form = .dry) (w : Word) :
    r.build w = .pack (dryField w) := by
  revert r
  simp [opcodeTable]

/-- What the fields of a word that matches a row can be (R94). -/
theorem fields_of_matches {w : Word} {r : OpRow} (hr : r ∈ opcodeTable) (hw : w &&& formMask r.form = r.pattern) :
    wordField w 18 6 = 0 ∧ opField w = opField r.pattern ∧ wordField w 24 8 = wordField r.pattern 24 8
      ∧ (dryField w = true → r.form = .dry)
      ∧ (subField w ≠ 0 ∨ allSfField w = true → r.form = .subframe ∨ r.form = .channelSubframe)
      ∧ (chField w ≠ 0 ∨ allChField w = true → r.form = .channel ∨ r.form = .channelSubframe) := by
  have hfields := WordFields.eq_withOperands ((matches_iff w r).1 hw)
  rw [fieldsOf_pattern hr] at hfields
  cases hform : r.form <;> simp only [fieldsOf, WordFields.withOperands, hform, WordFields.mk.injEq] at hfields <;> simp [hfields]

/-- Settles O3: rows are told apart by their patterns, and a matching row fixes every field that its form does not use. -/
theorem wordIsOneRowOrIllegal : Obligations.WordIsOneRowOrIllegal := by
  refine ⟨fun w r q => pattern_unique, fun w r => decode_of_matches, fun w hnone => ?_, fun w i h => ?_⟩
  · have hdecode : decode? w = none := Option.eq_none_iff_forall_ne_some.2 fun i h => by
      obtain ⟨r, hr, hw, -⟩ := decode_eq_ok_iff.1 (decode?_eq_some_iff.1 h)
      exact hnone r hr hw
    refine ⟨hdecode, fun s hpending hnow => ?_⟩
    rcases step_cases s with ⟨-, hidle | hlater⟩ | ⟨v, i, hv, -, hi, -⟩ | ⟨v, -, -, -, hstep⟩
    · simp [hpending] at hidle
    · simp [hnow] at hlater
    · obtain rfl : w = v := Option.some.inj (hpending.symm.trans hv)
      simp [hdecode] at hi
    · exact hstep
  · obtain ⟨r, hr, hw, rfl⟩ := decode_eq_ok_iff.1 (decode?_eq_some_iff.1 h)
    obtain ⟨hreserved, hop, harg, hdry, hsub, hch⟩ := fields_of_matches hr hw
    obtain ⟨hkeygen, hothers⟩ := opcodeTable_arg r hr
    obtain ⟨hchannel, hsubframe, hboth⟩ := opcodeTable_form r hr
    rw [hop, harg]
    refine ⟨hreserved, ⟨r, hr, rfl⟩, hkeygen, hothers, fun h => ?_, fun h => ?_, fun h => ?_⟩
    · rw [build_of_form_dry hr (hdry h), h]
    · exact (hsub h).imp hsubframe hboth
    · rcases hch h with hform | hform
      · rcases hchannel hform with hch | hch | hch <;> simp [hch]
      · exact .inr (.inr (.inr (hboth hform)))

end Sys2Proof.Machine
end

section
/-! PROOFS. Reading back written fields: what each reader answers on the bits of its own code, whatever follows (spec/30_encoding.md
R103 to R113; spec/44_bitstream.md R201, R204, R209 to R212, R227 to R230). -/

namespace Sys2Proof.Machine

/-! ### One field after another -/

/-- After a read that answers, the rest reads on. -/
theorem reader_bind_of_ok {α β : Type} {r : Reader α} {c c' : Cursor} {a : α} (h : r c = .ok (a, c')) (k : α → Reader β) :
    (r >>= k) c = k a c' := by simp [bind, StateT.bind, Except.bind, h]

/-- A read's error ends what would follow. -/
theorem reader_bind_of_error {α β : Type} {r : Reader α} {c : Cursor} {e : BitError} (h : r c = .error e) (k : α → Reader β) :
    (r >>= k) c = .error e := by simp [bind, StateT.bind, Except.bind, h]

/-- Reads that answer alike go on alike. -/
theorem reader_bind_congr {α β : Type} {r r' : Reader α} {c c' : Cursor} (h : r c = r' c') (k : α → Reader β) :
    (r >>= k) c = (r' >>= k) c' := by simp [bind, StateT.bind, h]

/-- A read of a whole field takes it and gives its value (R201). -/
theorem readUint_append (bits : List Bool) (pos : Nat) (rest : List Bool) :
    readUint bits.length ⟨pos, bits ++ rest⟩ = .ok (valueOf bits, ⟨pos + bits.length, rest⟩) := by
  simp [readUint]

/-- Reading a number's `n` bits gives the number (R8, R201). -/
theorem readUint_bitsOf {n v : Nat} (h : v < 2 ^ n) (pos : Nat) (rest : List Bool) :
    readUint n ⟨pos, bitsOf n v ++ rest⟩ = .ok (v, ⟨pos + n, rest⟩) := by
  have hread := readUint_append (bitsOf n v) pos rest
  rwa [bitsOf_length, valueOf_bitsOf n v h] at hread

theorem cursorPos_bind {α : Type} (k : Nat → Reader α) (c : Cursor) : (cursorPos >>= k) c = k c.pos c := rfl

/-- Reading raw fields gives their numbers. -/
theorem readMany_bitsOf {n : Nat} {xs : List Nat} (h : ∀ x ∈ xs, x < 2 ^ n) (pos : Nat) (rest : List Bool) :
    readMany (readUint n) xs.length ⟨pos, xs.flatMap (bitsOf n) ++ rest⟩ = .ok (xs, ⟨pos + n * xs.length, rest⟩) := by
  induction xs generalizing pos with
  | nil => rfl
  | cons x xs ih =>
    obtain ⟨hx, hxs⟩ := List.forall_mem_cons.1 h
    rw [List.flatMap_cons, List.append_assoc, List.length_cons, readMany, reader_bind_of_ok (readUint_bitsOf hx pos _),
      reader_bind_of_ok (ih hxs _)]
    simp only [pure, StateT.pure, Except.pure, Nat.mul_succ, Nat.add_assoc, Nat.add_comm n]

/-! ### Delta-coded fields -/

/-- One delta-coded code of a section is read back, in either form (R104, R106). -/
theorem readDeltas_step {w raw top prev v : Nat} {escaped : Bool} {code : ErrCode} (hraw : top < 2 ^ raw) (hv : v ≤ top)
    (hdelta : escaped = false → prev ≤ v + (2 ^ (w - 1) - 1) ∧ v + (2 ^ (w - 1) - 1) - prev < 2 ^ w - 1)
    (n pos : Nat) (rest : List Bool) :
    readDeltas w raw top code (n + 1) prev ⟨pos, deltaSectionBits w raw prev [(v, escaped)] ++ rest⟩
      = (readDeltas w raw top code n v >>= fun l => pure (v :: l))
          ⟨pos + (deltaSectionBits w raw prev [(v, escaped)]).length, rest⟩ := by
  cases escaped with
  | true =>
    have hesc : 2 ^ w - 1 < 2 ^ w := Nat.sub_lt (by positivity) one_pos
    simp only [deltaSectionBits, if_true, List.append_nil, List.append_assoc, List.length_append, bitsOf_length, readDeltas,
      cursorPos_bind]
    rw [reader_bind_of_ok (readUint_bitsOf hesc pos _), if_pos rfl, reader_bind_of_ok (readUint_bitsOf (by omega) _ _),
      Nat.add_assoc]
  | false =>
    obtain ⟨hlow, hhigh⟩ := hdelta rfl
    have hsum : (prev : Int) + ((v + (2 ^ (w - 1) - 1) - prev : Nat) : Int) - (2 ^ (w - 1) - 1) = v := by
      have hpos : 0 < 2 ^ (w - 1) := by positivity
      rw [Nat.cast_sub hlow, Nat.cast_add, Nat.cast_pred hpos]
      push_cast
      ring
    simp only [deltaSectionBits, Bool.false_eq_true, if_false, List.append_nil, bitsOf_length, readDeltas, cursorPos_bind]
    rw [reader_bind_of_ok (readUint_bitsOf (by omega) pos _), if_neg (by omega), hsum, if_neg (by omega), Int.toNat_natCast]
    rfl

/-- The codes of a section are read back, and reading goes on after the last (R104, R106). -/
theorem readDeltas_section {w raw top : Nat} {code : ErrCode} (hraw : top < 2 ^ raw) {prev : Nat} {fields : List (Nat × Bool)}
    (h : DeltaSectionCodable w top prev fields) (n pos : Nat) (rest : List Bool) :
    readDeltas w raw top code (fields.length + n) prev ⟨pos, deltaSectionBits w raw prev fields ++ rest⟩
      = (readDeltas w raw top code n ((prev :: fields.map Prod.fst).getLastD 0) >>= fun l => pure (fields.map Prod.fst ++ l))
          ⟨pos + (deltaSectionBits w raw prev fields).length, rest⟩ := by
  induction fields generalizing prev pos with
  | nil => simp [deltaSectionBits]
  | cons field fields ih =>
    obtain ⟨v, escaped⟩ := field
    obtain ⟨hv, hdelta, hrest⟩ := h
    have hbits : deltaSectionBits w raw prev ((v, escaped) :: fields)
        = deltaSectionBits w raw prev [(v, escaped)] ++ deltaSectionBits w raw v fields := by simp [deltaSectionBits]
    rw [hbits, List.append_assoc, List.length_cons, Nat.add_right_comm, readDeltas_step hraw hv hdelta,
      reader_bind_congr (ih hrest _)]
    simp [Nat.add_assoc]

/-- A section of delta-coded codes is read back (R104, R106). -/
theorem readDeltas_deltaSectionBits {w raw top : Nat} {code : ErrCode} (hraw : top < 2 ^ raw) {prev : Nat}
    {fields : List (Nat × Bool)} (h : DeltaSectionCodable w top prev fields) (pos : Nat) (rest : List Bool) :
    readDeltas w raw top code fields.length prev ⟨pos, deltaSectionBits w raw prev fields ++ rest⟩
      = .ok (fields.map Prod.fst, ⟨pos + (deltaSectionBits w raw prev fields).length, rest⟩) := by
  have hread := readDeltas_section (code := code) hraw h 0 pos rest
  rw [Nat.add_zero] at hread
  rw [hread, readDeltas, pure_bind, List.append_nil]
  rfl

/-- A delta whose sum leaves 0 to `top` is an error at the delta's field (R209, R210). -/
theorem readDeltas_out_of_range {w raw top prev u : Nat} {code : ErrCode} (hu : u < 2 ^ w - 1)
    (hout : prev + u < 2 ^ (w - 1) - 1 ∨ top + (2 ^ (w - 1) - 1) < prev + u) (n pos : Nat) (rest : List Bool) :
    readDeltas w raw top code (n + 1) prev ⟨pos, bitsOf w u ++ rest⟩ = .error ⟨code, pos⟩ := by
  have hpos : 0 < 2 ^ (w - 1) := by positivity
  have hsum : (prev : Int) + u - (2 ^ (w - 1) - 1) < 0 ∨ (top : Int) < prev + u - (2 ^ (w - 1) - 1) := by
    zify [Nat.one_le_iff_ne_zero.2 hpos.ne'] at hout
    omega
  simp only [readDeltas, cursorPos_bind]
  rw [reader_bind_of_ok (readUint_bitsOf (by omega) pos _), if_neg (by omega), if_pos hsum]
  rfl

/-- After the codes of a section, such a delta is an error there. -/
theorem readDeltas_section_out_of_range {w raw top prev u n : Nat} {code : ErrCode} {fields : List (Nat × Bool)}
    (hraw : top < 2 ^ raw) (h : DeltaSectionCodable w top prev fields) (hu : u < 2 ^ w - 1)
    (hout : (prev :: fields.map Prod.fst).getLastD 0 + u < 2 ^ (w - 1) - 1
      ∨ top + (2 ^ (w - 1) - 1) < (prev :: fields.map Prod.fst).getLastD 0 + u)
    (hn : fields.length < n) (pos : Nat) (rest : List Bool) :
    readDeltas w raw top code n prev ⟨pos, deltaSectionBits w raw prev fields ++ (bitsOf w u ++ rest)⟩
      = .error ⟨code, pos + (deltaSectionBits w raw prev fields).length⟩ := by
  obtain ⟨k, rfl⟩ := Nat.exists_eq_add_of_lt hn
  rw [Nat.add_assoc, readDeltas_section hraw h, reader_bind_of_error (readDeltas_out_of_range hu hout k _ rest)]

/-! ### Intensity -/

/-- Below version 0x0300: eight raw codes (R105). -/
theorem readIntensity_raw {ver : Nat} (hver : ver < 0x0300) {codes : List Nat} (hlen : codes.length = 8)
    (h : ∀ x ∈ codes, x < 16) (pos : Nat) (rest : List Bool) :
    readIntensity ver ⟨pos, codes.flatMap (bitsOf 4) ++ rest⟩ = .ok (codes, ⟨pos + 32, rest⟩) := by
  have hread := readMany_bitsOf (n := 4) h pos rest
  rw [hlen] at hread
  rw [readIntensity, if_pos hver, hread]

/-- From version 0x0300 on: the first code 15 stands for eight codes 7 (R106). -/
theorem readIntensity_default {ver : Nat} (hver : 0x0300 ≤ ver) (pos : Nat) (rest : List Bool) :
    readIntensity ver ⟨pos, bitsOf 4 15 ++ rest⟩ = .ok (List.replicate 8 7, ⟨pos + 4, rest⟩) := by
  rw [readIntensity, if_neg (Nat.not_lt.2 hver), reader_bind_of_ok (readUint_bitsOf (by decide) pos rest)]
  rfl

/-- Another first code is followed by the selector (R106). -/
theorem readIntensity_selector {ver i0 q : Nat} (hver : 0x0300 ≤ ver) (hi0 : i0 < 15) (hq : q < 4) (pos : Nat)
    (rest : List Bool) :
    readIntensity ver ⟨pos, bitsOf 4 i0 ++ (bitsOf 2 q ++ rest)⟩
      = ((if q = 3 then readMany (readUint 4) 7 else readDeltas (q + 1) 4 15 .intensityRange 7 i0) >>= fun l => pure (i0 :: l))
          ⟨pos + 6, rest⟩ := by
  rw [readIntensity, if_neg (Nat.not_lt.2 hver), reader_bind_of_ok (readUint_bitsOf (by omega) pos _), if_neg (by omega),
    reader_bind_of_ok (readUint_bitsOf (by omega) _ rest)]
  split <;> rfl

/-- Settles O29, form by form: each is its first fields, then raw or delta-coded codes. -/
theorem intensityForms : Obligations.IntensityForms := by
  refine fun ver pos rest => ⟨fun hver codes hlen hcodes => readIntensity_raw hver hlen hcodes pos rest, fun hver =>
    ⟨readIntensity_default hver pos rest, fun i0 hi0 => ⟨fun codes hlen hcodes => ?_, fun q fields hq hcodable =>
      ⟨fun hlen => ?_, fun u hlen hu hout => ?_⟩⟩⟩⟩
  · have hread := readMany_bitsOf (n := 4) hcodes (pos + 6) rest
    rw [hlen] at hread
    rw [List.append_assoc, List.append_assoc, readIntensity_selector hver hi0 (by decide), if_pos rfl, reader_bind_of_ok hread]
    rfl
  · have hread := readDeltas_deltaSectionBits (raw := 4) (code := .intensityRange) (by decide) hcodable (pos + 6) rest
    rw [hlen] at hread
    rw [List.append_assoc, List.append_assoc, readIntensity_selector hver hi0 (by omega), if_neg (by omega),
      reader_bind_of_ok hread]
    rfl
  · rw [List.append_assoc, List.append_assoc, List.append_assoc, readIntensity_selector hver hi0 (by omega), if_neg (by omega),
      reader_bind_of_error (readDeltas_section_out_of_range (by decide) hcodable hu hout hlen _ rest)]

/-! ### Coefficients -/

theorem valueOf_append (a b : List Bool) : valueOf (a ++ b) = valueOf a * 2 ^ b.length + valueOf b := by
  induction b using List.reverseRecOn with
  | nil => simp [valueOf]
  | append_singleton b x ih =>
    rw [← List.append_assoc, valueOf_concat, valueOf_concat, ih, List.length_append, List.length_singleton, Nat.pow_succ]
    ring

/-- A look ahead past a short field sees the field, then some bits (R202). -/
theorem peekUint_append {n : Nat} {bits : List Bool} (h : bits.length ≤ n) (pos : Nat) (rest : List Bool) :
    ∃ t < 2 ^ (n - bits.length),
      peekUint n ⟨pos, bits ++ rest⟩ = .ok (valueOf bits * 2 ^ (n - bits.length) + t, ⟨pos, bits ++ rest⟩) := by
  have hlen : ((rest ++ List.replicate n false).take (n - bits.length)).length = n - bits.length := by simp; omega
  have hbits : (bits ++ rest ++ List.replicate n false).take n
      = bits ++ (rest ++ List.replicate n false).take (n - bits.length) := by
    rw [List.append_assoc, List.take_append, List.take_of_length_le h]
  refine ⟨valueOf ((rest ++ List.replicate n false).take (n - bits.length)), ?_, ?_⟩
  · simpa only [hlen] using valueOf_lt ((rest ++ List.replicate n false).take (n - bits.length))
  · rw [peekUint, hbits, valueOf_append, hlen]

/-- Every pattern that starts with a value's codeword decodes to the value and the codeword's length (R111, R230). -/
theorem codeTable_of_codeword : ∀ r : Fin 8, r ≠ 0 → ∀ v ∈ Finset.Icc (-7 : Int) 7, coefInRange r v = true →
    ∀ t < 2 ^ (maxBits r - coefLength r v),
      (codeTable r).getD (valueOf (coefBits r v) * 2 ^ (maxBits r - coefLength r v) + t) (0, 0) = (coefLength r v, v) := by
  decide +kernel

theorem coefLength_le_maxBits {r : Nat} (h0 : r ≠ 0) (hr : r ≤ 7) (v : Int) : coefLength r v ≤ maxBits r := by
  rw [coefLength, if_neg h0, if_pos hr]
  exact codeTable_bits_le hr _

/-- A coefficient with a table code is read back (R111, R212). -/
theorem readCoef_table {r : Nat} {v : Int} (h0 : r ≠ 0) (hr : r ≤ 7) (hv : coefInRange r v = true) (pos : Nat)
    (rest : List Bool) : readCoef r ⟨pos, coefBits r v ++ rest⟩ = .ok (v, ⟨pos + coefLength r v, rest⟩) := by
  have hrange : v ∈ Finset.Icc (-7 : Int) 7 := by
    simp only [coefInRange, maxAbs, if_pos hr, decide_eq_true_eq] at hv
    rw [Finset.mem_Icc]
    omega
  have hlen := coefBits_length r v
  obtain ⟨t, ht, hpeek⟩ := peekUint_append (hlen.trans_le (coefLength_le_maxBits h0 hr v)) pos rest
  rw [hlen] at ht hpeek
  have hentry := codeTable_of_codeword ⟨r, by omega⟩ (by simpa [Fin.ext_iff] using h0) v hrange hv t ht
  have hread := readUint_append (coefBits r v) pos rest
  rw [hlen] at hread
  rw [readCoef, if_neg h0, if_pos hr, reader_bind_of_ok hpeek]
  dsimp only at hentry ⊢
  rw [hentry, reader_bind_of_ok hread]
  rfl

/-- A coefficient with a magnitude and a sign is read back (R112, R212). -/
theorem readCoef_signed {r : Nat} {v : Int} (hr : 7 < r) (hv : coefInRange r v = true) (pos : Nat) (rest : List Bool) :
    readCoef r ⟨pos, coefBits r v ++ rest⟩ = .ok (v, ⟨pos + coefLength r v, rest⟩) := by
  have hmag : v.natAbs < 2 ^ (r - 4) := by
    have hpos : 0 < 2 ^ (r - 4) := by positivity
    simp only [coefInRange, maxAbs, if_neg hr.not_ge, decide_eq_true_eq] at hv
    omega
  have hzero : r ≠ 0 := by omega
  simp only [readCoef, coefBits, coefLength, if_neg hzero, if_neg hr.not_ge, List.append_assoc]
  rw [reader_bind_of_ok (readUint_bitsOf hmag pos _)]
  rcases eq_or_ne v 0 with rfl | hne
  · rfl
  · have hsign : readUint 1 ⟨pos + (r - 4), [decide (v < 0)] ++ rest⟩
        = .ok (valueOf [decide (v < 0)], ⟨pos + (r - 4) + 1, rest⟩) := readUint_append [decide (v < 0)] _ rest
    rw [if_neg (Int.natAbs_ne_zero.2 hne), if_neg hne, if_neg hne, reader_bind_of_ok hsign]
    have hvalue : (if valueOf [decide (v < 0)] = 1 then -(v.natAbs : Int) else (v.natAbs : Int)) = v := by
      rcases lt_or_ge v 0 with hneg | hpos
      · rw [if_pos (by simp [valueOf, hneg])]
        omega
      · rw [if_neg (by simp [valueOf, hpos.not_gt])]
        omega
    rw [hvalue]
    rfl

/-- Settles O40: no code at resolution 0, a table code up to 7, a magnitude and a sign above. -/
theorem coefficientRoundTrip : Obligations.CoefficientRoundTrip := fun r v pos rest _ hv => by
  refine ⟨coefBits_length r v, ?_⟩
  by_cases h0 : r = 0
  · subst h0
    obtain rfl : v = 0 := by simpa [coefInRange, maxAbs] using hv
    rfl
  · rcases Nat.lt_or_ge 7 r with hlarge | hsmall
    · exact readCoef_signed hlarge hv pos rest
    · exact readCoef_table h0 hsmall hv pos rest

end Sys2Proof.Machine
end

section
/-! PROOFS. The checks on channels and on the version of HFR (spec/30_encoding.md R92; spec/45_spectral.md R254; spec/46_composite.md
R270). -/

namespace Sys2Proof.Machine

theorem requireChannel_of_bad (s : State) (ch : Nat) (k : Effect) (h : chCount s ≤ ch) :
    requireChannel s ch false k = .error .badChannel 0 s := by simp [requireChannel, badChannel, h]

theorem requireHfrVersion_of_bad (s : State) (k : Effect) (hgroups : 0 < hfrGroups s) (hver : 0x0300 ≤ version s) :
    requireHfrVersion s k = .error .unsupported 0 s := by simp [requireHfrVersion, hfrUnsupported, hgroups, hver]

/-- A command whose effect is an error ends in that error. -/
theorem exec_of_error {i : Instr} {s : State} {code : ErrCode} {info : Word} (h : effectOf i s = .error code info s) :
    exec i s = .next (raiseError code info s) := (exec_next_iff i s _).2 (by rw [h]; rfl)

/-- Settles O28, command by command, in the order of the checks. -/
theorem channelAndVersionChecks : Obligations.ChannelAndVersionChecks := by
  refine ⟨fun s ch sub allSf _ hch => ⟨fun hcfg i hi => exec_of_error ?_, completeOk _, rfl, rfl, rfl, rfl, rfl, rfl, rfl⟩,
    fun s ch allCh hcfg hgroups hver => ⟨fun hch => exec_of_error ?_, fun hframe => exec_of_error ?_⟩⟩
  · simp only [List.mem_cons, List.not_mem_nil, or_false] at hi
    rcases hi with rfl | rfl | rfl | rfl | rfl | rfl <;>
      simp only [effectOf, requireCfg_of_ok s _ hcfg, requireChannel_of_bad s ch _ hch]
  · rw [effectOf, requireCfg_of_ok s _ hcfg, requireChannel_of_ok s ch allCh _ hch, requireHfrVersion_of_bad s _ hgroups hver]
  · rw [effectOf, decodeFrameEffect, requireCfg_of_ok s _ hcfg, requireFrame_of_ok s _ hframe,
      requireHfrVersion_of_bad s _ hgroups hver]

end Sys2Proof.Machine
end

section
/-! PROOFS. The control commands and the overlap buffers: what NOP and RESET_OVL leave, and what writes `IMDCT_CARRY` and `MDCT_PREV`
(spec/40_control.md R140 to R142). -/

namespace Sys2Proof.Machine

/-! ### Completion without an error -/

theorem completed_completeOk (s : State) : Completed .none 0 (completeOk s) := ⟨rfl, rfl, rfl, rfl, rfl, rfl⟩

theorem flagsKept_completeOk {s t : State} (h : t.status = s.status) : FlagsKept s (completeOk t) := by
  simp only [FlagsKept, completeOk_status, h, and_self]

theorem StoresWithin.status {p : Nat → Bool} {s t : State} (h : StoresWithin p s t) : t.status = s.status := by
  obtain ⟨m, d, rfl⟩ := h.rest
  rfl

/-! ### RESET_OVL -/

/-- What one turn makes true and every later turn keeps holds after the iteration. -/
theorem forEach_establishes (P : State → Prop) {xs : List Nat} (f : Nat → State → State) {x : Nat} (hx : x ∈ xs)
    (hmake : ∀ s, P (f x s)) (hkeep : ∀ y ∈ xs, ∀ s, P s → P (f y s)) (s : State) : P (forEach xs f s) := by
  obtain ⟨before, later, rfl⟩ := List.append_of_mem hx
  rw [forEach_append, forEach_cons]
  exact forEach_keeps P later f (fun y hy => hkeep y (by simp [hy])) _ (hmake _)

/-- Both overlap buffers of a slot hold +0.0 (spec/40_control.md R141). -/
def OverlapCleared (ch : Nat) (s : State) : Prop :=
  ∀ n, n < 128 → s.wordAt (slotAddr ch .imdctCarry (4 * n)) = 0 ∧ s.wordAt (slotAddr ch .mdctPrev (4 * n)) = 0

/-- The two buffers of a slot lie next to each other; clearing them changes no element before or after. -/
theorem wordAt_clearOverlap_outside (ch : Nat) (s : State) {a : Nat}
    (h : a + 4 ≤ slotAddr ch .imdctCarry 0 ∨ slotAddr ch .mdctPrev 512 ≤ a) : (clearOverlap ch s).wordAt a = s.wordAt a := by
  have hlen : ((List.replicate 128 (0 : Word)).flatMap wordBytes).length = 512 := by
    rw [flatMap_wordBytes_length, List.length_replicate]
  simp only [slotAddr, slotArrayOffset] at h
  simp only [clearOverlap, State.putWords_eq]
  rw [State.wordAt_putBytes_outside _ _ _ _ (by rw [hlen]; simp only [slotAddr, slotArrayOffset]; omega),
    State.wordAt_putBytes_outside _ _ _ _ (by rw [hlen]; simp only [slotAddr, slotArrayOffset]; omega)]

/-- Zeros stored in a whole-byte array of 128 elements read back. -/
theorem wordAt_putWords_zero (s : State) {ch n : Nat} {array : SlotArray} (hch : ch < 16) (hn : n < 128)
    (hbytes : slotArrayBytes array = 512) (hmask : slotMask array = 0xFF#8) :
    (s.putWords (slotAddr ch array 0) (List.replicate 128 0)).wordAt (slotAddr ch array (4 * n)) = 0 := by
  refine (State.wordAt_putWords s (slotAddr ch array 0) n _ (by simpa using hn) fun j hj => ?_).trans (List.getElem_replicate _)
  rw [show slotAddr ch array 0 + 4 * n + j = slotAddr ch array (4 * n + j) by simp only [slotAddr]; omega,
    cellMask_slotAddr ch array (4 * n + j) hch (by omega), hmask]

theorem clearOverlap_overlapCleared {ch : Nat} (hch : ch < 16) (s : State) : OverlapCleared ch (clearOverlap ch s) := fun n hn => by
  refine ⟨?_, wordAt_putWords_zero _ hch hn rfl rfl⟩
  refine (State.wordAt_putBytes_outside _ _ _ _ (.inl ?_)).trans (wordAt_putWords_zero s hch hn rfl rfl)
  simp only [slotAddr, slotArrayOffset]
  omega

theorem clearOverlap_keeps_overlapCleared {c : Nat} (hc : c < 16) (ch : Nat) {s : State} (hs : OverlapCleared c s) :
    OverlapCleared c (clearOverlap ch s) := by
  by_cases heq : ch = c
  · exact heq ▸ clearOverlap_overlapCleared (heq ▸ hc) s
  · intro n hn
    rw [wordAt_clearOverlap_outside ch s (by simp only [slotAddr, slotArrayOffset]; omega),
      wordAt_clearOverlap_outside ch s (by simp only [slotAddr, slotArrayOffset]; omega)]
    exact hs n hn

theorem mem_slotSet_iff (ch : Nat) (allCh : Bool) (c : Nat) :
    c ∈ slotSet ch allCh ↔ if allCh = true then c < 16 else c = ch := by cases allCh <;> simp [slotSet]

/-- Settles O30: each slot's turn clears it, and no other turn sets it again. -/
theorem nopAndResetOvlComplete : Obligations.NopAndResetOvlComplete := by
  refine ⟨fun s => ⟨completeOk s, rfl, completed_completeOk s, flagsKept_completeOk rfl, rfl, regValue_completeOk s⟩,
    fun s ch allCh hch => ⟨_, (exec_next_iff _ s _).2 rfl, completed_completeOk _,
      flagsKept_completeOk (resetOvl_frame (allCh := allCh) hch).status,
      complete_effectOf_frame (i := .resetOvl ch allCh) (decide_eq_true hch) s, fun c hc => ?_⟩⟩
  have hc := (mem_slotSet_iff ch allCh c).2 hc
  have hslot := slotSet_lt hch hc
  exact forEach_establishes (OverlapCleared c) clearOverlap hc (clearOverlap_overlapCleared hslot)
    (fun ch _ _ => clearOverlap_keeps_overlapCleared hslot ch) s

/-! ### The arrays that a command writes -/

/-- The slot arrays that a command's rule names (spec/10_state.md R50). -/
def commandArrays : Instr → List SlotArray
  | .nop | .keygen0 | .keygen1 | .keygen56 | .decrypt | .encrypt | .crcCalc | .crcGen | .crcCheck => []
  | .resetOvl _ _ => [.imdctCarry, .mdctPrev]
  | .unpack => [.sf, .res, .intensity, .hfrScale, .qspec]
  | .pack _ => [.res]
  | .dequant _ _ | .hfrRecon _ _ | .istereo _ _ => [.spec]
  | .imdct _ _ _ _ => [.imdctCarry, .tbuf]
  | .mdct _ _ _ _ => [.mdctPrev, .spec]
  | .pcmOut _ _ _ _ => [.pcm]
  | .pcmIn _ _ _ _ => [.tbuf]
  | .decodeFrame => [.sf, .res, .intensity, .hfrScale, .qspec, .spec, .tbuf, .imdctCarry, .pcm]

theorem writesByte_slotAddr {i : Instr} {ch n : Nat} {array : SlotArray} (hch : ch < 16) (hn : n < slotArrayBytes array)
    (harray : array ∉ commandArrays i) (s : State) : writesByte i s (slotAddr ch array n) = false := by
  have hslot := fun p => inSlot_slotAddr ch array n p hch hn
  have hbuffer (p : Nat → Bool) : inFrameBuf (slotAddr ch array n) p = false := by
    simp only [inFrameBuf, regionOf_slotAddr ch array n hch hn]
  have hkeys : inKeyTables (slotAddr ch array n) = false := by
    simp only [inKeyTables, regionOf_slotAddr ch array n hch hn]
  cases i with
  | nop | crcCalc | crcCheck => rfl
  | keygen0 | keygen1 | keygen56 => exact hkeys
  | decrypt | encrypt | crcGen => exact hbuffer _
  | _ =>
    simp only [commandArrays, List.mem_cons, List.not_mem_nil, or_false, not_or] at harray
    simp [writesByte, hslot, hbuffer, unpackArray, harray]

/-- Only the rules of RESET_OVL, IMDCT and DECODE_FRAME name `IMDCT_CARRY` (spec/40_control.md R142). -/
theorem imdctCarry_notMem_commandArrays {i : Instr} (hovl : ∀ c a, i ≠ .resetOvl c a) (himdct : ∀ c a q f, i ≠ .imdct c a q f)
    (hdecode : i ≠ .decodeFrame) : .imdctCarry ∉ commandArrays i := by
  cases i with
  | resetOvl c a => exact absurd rfl (hovl c a)
  | imdct c a q f => exact absurd rfl (himdct c a q f)
  | decodeFrame => exact absurd rfl hdecode
  | _ => simp [commandArrays]

/-- Only the rules of RESET_OVL and MDCT name `MDCT_PREV` (spec/40_control.md R142). -/
theorem mdctPrev_notMem_commandArrays {i : Instr} (hovl : ∀ c a, i ≠ .resetOvl c a) (hmdct : ∀ c a q f, i ≠ .mdct c a q f) :
    .mdctPrev ∉ commandArrays i := by
  cases i with
  | resetOvl c a => exact absurd rfl (hovl c a)
  | mdct c a q f => exact absurd rfl (hmdct c a q f)
  | _ => simp [commandArrays]

/-! ### Reset -/

/-- Where R310 gives the contents after a reset, a reset leaves them. -/
theorem byte_resetAgain (s : State) {a : Nat} {v : Byte} (h : resetByte? a = some v) : s.resetAgain.byte a = v := by
  simp [State.byte, Memory.byteAt, unlistedByte, h]

/-- Reset leaves +0.0 in both overlap buffers (spec/70_reset_and_hazards.md R310). -/
theorem byte_resetAgain_overlap (s : State) {ch n : Nat} (hch : ch < 16) (hn : n < 512) :
    s.resetAgain.byte (slotAddr ch .imdctCarry n) = 0 ∧ s.resetAgain.byte (slotAddr ch .mdctPrev n) = 0 := by
  constructor
  · exact byte_resetAgain s (by simp only [resetByte?, regionOf_slotAddr ch .imdctCarry n hch hn])
  · exact byte_resetAgain s (by simp only [resetByte?, regionOf_slotAddr ch .mdctPrev n hch hn])

/-! ### Commands that fail -/

/-- If the effect is an error, `P` holds of the state it leaves. -/
def Effect.FailsWith (P : State → Prop) : Effect → Prop
  | .ok _ => True
  | .error _ _ s => P s

namespace Effect.FailsWith

variable {P : State → Prop} {e k : Effect}

/-- A check fails with one of its two branches. -/
theorem ite {b : Prop} [Decidable b] (he : b → e.FailsWith P) (hk : ¬b → k.FailsWith P) :
    (if b then e else k).FailsWith P := by
  split
  · next h => exact he h
  · next h => exact hk h

theorem of_leaves (h : e.Leaves P) : e.FailsWith P := by
  cases e with
  | ok s => trivial
  | error code info s => exact h.2

theorem andThen_ok (h : e.FailsWith P) (f : State → State) : (e.andThen fun t => .ok (f t)).FailsWith P := by
  cases e with
  | ok s => trivial
  | error code info s => exact h

/-- A completed command that reports an error is the effect's error, completed. -/
theorem complete {Q : State → Prop} (h : e.FailsWith P) (hPQ : ∀ code info s, P s → Q (raiseError code info s))
    (herr : (complete e).status.err = true) : Q (complete e) := by
  cases e with
  | ok s => contradiction
  | error code info s => exact hPQ code info s h

end Effect.FailsWith

/-- No byte has changed but those that UNPACK's rule names. -/
def KeepsBytesOutsideUnpack (s t : State) : Prop := ∀ a, writesByte .unpack s a = false → t.byte a = s.byte a

/-- A command that ends with an error has changed no byte but UNPACK's: its checks fail before it writes, PACK's data errors leave
RAM alone, and a DECODE_FRAME fails at the latest after its UNPACK (spec/60_exceptions.md R283, spec/44_bitstream.md R232,
spec/46_composite.md R271). -/
theorem effectOf_failsWith (i : Instr) (s : State) : (effectOf i s).FailsWith (KeepsBytesOutsideUnpack s) := by
  have hrefl : KeepsBytesOutsideUnpack s s := fun _ _ => rfl
  have hunpack (hcfg : cfgOk s = true) : (unpackBody s).Leaves (KeepsBytesOutsideUnpack s) :=
    (unpackBody_frame hcfg).mono fun t h => h.1
  cases i with
  | nop | resetOvl | keygen0 | keygen1 | keygen56 | crcCalc => trivial
  | decrypt | encrypt | crcGen | crcCheck => exact .ite (fun _ => trivial) fun _ => hrefl
  | dequant | imdct | mdct | pcmOut | pcmIn =>
    exact .ite (fun _ => .ite (fun _ => hrefl) fun _ => trivial) fun _ => hrefl
  | hfrRecon =>
    exact .ite (fun _ => .ite (fun _ => hrefl) fun _ => .ite (fun _ => hrefl) fun _ => trivial) fun _ => hrefl
  | istereo => exact .ite (fun _ => trivial) fun _ => hrefl
  | unpack => exact .ite (fun hcfg => .ite (fun _ => .of_leaves (hunpack hcfg)) fun _ => hrefl) fun _ => hrefl
  | pack dry =>
    refine .ite (fun _ => .ite (fun _ => ?_) fun _ => hrefl) fun _ => hrefl
    unfold packBody
    dsimp only
    split
    · exact hrefl
    · exact .ite (fun _ => hrefl) fun _ => trivial
  | decodeFrame =>
    refine .ite (fun hcfg => .ite (fun _ => .ite (fun _ => hrefl) fun _ => ?_) fun _ => hrefl) fun _ => hrefl
    exact .andThen_ok (.of_leaves ((hunpack hcfg).andThen (fun _ h => h) fun _ h => leaves_requireValid h)) decodeStages

/-- A completion that reports an error has changed no byte but UNPACK's. -/
theorem byte_of_error {i : Instr} {s t : State} (h : exec i s = .next t) (herr : t.status.err = true) :
    KeepsBytesOutsideUnpack s t := by
  obtain rfl := (exec_next_iff i s t).1 h
  exact (effectOf_failsWith i s).complete (fun _ _ _ hs => hs) herr

/-! ### Register writes -/

theorem regAt_eq_ctrl {offset : Nat} (h : regAt offset = some .ctrl) : offset = 0x0004 := by
  unfold regAt at h
  split at h <;> first | rfl | simp at h

/-- A register write changes no byte of RAM, unless it is one of `CTRL` that sets `SOFT_RESET` (spec/10_state.md R23). -/
theorem byte_writeReg {offset : Nat} {v : Word} (h : ¬(offset = 0x0004 ∧ v.getLsbD 1 = true)) (s : State) (a : Nat) :
    (writeReg offset v s).byte a = s.byte a := by
  rcases writeReg_cases offset v s with ⟨-, -, e⟩ | ⟨-, e⟩ | ⟨hctrl, e⟩ | ⟨-, e⟩ | ⟨-, e⟩ | ⟨r, -, -, e⟩ <;> rw [e]
  · unfold writeCmd
    split <;> rfl
  · have hsoft : ¬v.toNat.testBit 1 = true := fun hv => h ⟨regAt_eq_ctrl hctrl, hv⟩
    simp only [writeCtrl, if_neg hsoft]
    rfl
  · rfl
  · rfl
  · obtain ⟨hmem, hepoch, -⟩ := storeReg_frame r v s
    simp only [State.byte, hmem, hepoch]

theorem busWrite_reg_eq_ok {s t : State} {offset n : Nat} {v : Word} (hoffset : offset < 0x10000)
    (h : busWrite s offset n v = .ok t) : t = writeReg offset v s := by
  rcases busWrite_cases s offset n v with ⟨-, -, e⟩ | ⟨-, hram, -⟩ | ⟨-, e⟩
  · exact (Except.ok.inj (e.symm.trans h)).symm
  · omega
  · rw [e] at h
    contradiction

/-- Settles O10, from the commands' frames, what an error leaves, the register writes one by one, and reset's contents. -/
theorem overlapBufferWriters : Obligations.OverlapBufferWriters := by
  refine ⟨fun i s t ch n hwf h hch hn => ?_, fun s t offset v a hoffset hsoft h => ?_,
    fun s ch n hch hn => byte_resetAgain_overlap s hch hn⟩
  · obtain ⟨hbytes, -⟩ := commandsWriteOnlyTheirPlaces i s t hwf h
    have hcarry := fun i harray => writesByte_slotAddr (i := i) (array := .imdctCarry) hch hn harray s
    have hprev := fun i harray => writesByte_slotAddr (i := i) (array := .mdctPrev) hch hn harray s
    refine ⟨fun hovl himdct hdecode => hbytes _ (hcarry i (imdctCarry_notMem_commandArrays hovl himdct hdecode)),
      fun hovl hmdct => hbytes _ (hprev i (mdctPrev_notMem_commandArrays hovl hmdct)), fun herr => ?_⟩
    have hfailed := byte_of_error h herr
    exact ⟨hfailed _ (hcarry .unpack (by decide)), hfailed _ (hprev .unpack (by decide))⟩
  · rw [busWrite_reg_eq_ok hoffset h]
    exact byte_writeReg hsoft s a

end Sys2Proof.Machine
end

section
/-! PROOFS. The CRC as the algebra of its register (spec/41_crc.md R150, R151): a shift is linear over exclusive or and loses
nothing, and two appended bytes enter the register together and are shifted 16 times. -/

namespace Sys2Proof.Machine

/-! ### Shifts -/

theorem crcShift_eq_xor (c : Half) : crcShift c = (c <<< 1) ^^^ (if c.msb = true then 0x8005#16 else 0#16) := by
  unfold crcShift
  split <;> simp

theorem crcShift_of_msb_eq_false {c : Half} (h : c.msb = false) : crcShift c = c <<< 1 := by simp [crcShift, h]

/-- A shift is linear over exclusive or (R150). -/
theorem crcShift_xor (a b : Half) : crcShift (a ^^^ b) = crcShift a ^^^ crcShift b := by
  have hgenerator : (if (a ^^^ b).msb = true then 0x8005#16 else 0#16)
      = (if a.msb = true then 0x8005#16 else 0#16) ^^^ (if b.msb = true then 0x8005#16 else 0#16) := by
    rw [BitVec.msb_xor]
    cases a.msb <;> cases b.msb <;> rfl
  rw [crcShift_eq_xor, crcShift_eq_xor, crcShift_eq_xor, hgenerator, BitVec.shiftLeft_xor_distrib]
  ac_rfl

/-- A shift loses nothing, because the generator's constant term is 1 (R151): it sets bit 0 exactly when a bit is shifted out. -/
theorem crcShift_eq_zero_iff (c : Half) : crcShift c = 0 ↔ c = 0 := by
  refine ⟨fun h => ?_, fun h => by rw [h]; rfl⟩
  cases hmsb : c.msb with
  | true =>
    have hconstant : (crcShift c).getLsbD 0 = true := by simp [crcShift, hmsb]
    simp [h] at hconstant
  | false =>
    rw [crcShift_of_msb_eq_false hmsb] at h
    have hsmall := BitVec.msb_eq_false_iff_two_mul_lt.1 hmsb
    bv_omega

theorem crcShifts_succ (n : Nat) (c : Half) : crcShifts (n + 1) c = crcShifts n (crcShift c) := rfl

theorem crcShifts_add (m n : Nat) (c : Half) : crcShifts (m + n) c = crcShifts n (crcShifts m c) := by
  induction m generalizing c with
  | zero => rw [Nat.zero_add, crcShifts]
  | succ m ih => rw [Nat.succ_add, crcShifts_succ, ih, crcShifts_succ]

theorem crcShifts_xor (n : Nat) (a b : Half) : crcShifts n (a ^^^ b) = crcShifts n a ^^^ crcShifts n b := by
  induction n generalizing a b with
  | zero => rfl
  | succ n ih => rw [crcShifts_succ, crcShift_xor, ih, crcShifts_succ, crcShifts_succ]

theorem crcShifts_eq_zero_iff (n : Nat) (c : Half) : crcShifts n c = 0 ↔ c = 0 := by
  induction n generalizing c with
  | zero => rfl
  | succ n ih => rw [crcShifts_succ, ih, crcShift_eq_zero_iff]

/-- Shifts that move no bit out are plain shifts. -/
theorem crcShifts_eq_shiftLeft {n : Nat} {c : Half} (h : c.toNat * 2 ^ n < 2 ^ 16) : crcShifts n c = c <<< n := by
  induction n generalizing c with
  | zero => simp [crcShifts]
  | succ n ih =>
    have hroom : 2 * c.toNat * 2 ^ n < 2 ^ 16 := by rwa [Nat.pow_succ', ← mul_assoc, mul_comm c.toNat] at h
    have hdouble : 2 * c.toNat < 2 ^ 16 := (Nat.le_mul_of_pos_right _ (Nat.two_pow_pos n)).trans_lt hroom
    have hnext : (c <<< 1).toNat = 2 * c.toNat := by
      rw [BitVec.toNat_shiftLeft, Nat.shiftLeft_eq, Nat.mod_eq_of_lt (by omega), mul_comm, pow_one]
    rw [crcShifts_succ, crcShift_of_msb_eq_false (BitVec.msb_eq_false_iff_two_mul_lt.2 hdouble), ih (by rwa [hnext]),
      ← BitVec.shiftLeft_add, Nat.add_comm]

/-! ### Appended bytes -/

/-- The low byte of a register reaches the high byte in 8 shifts. -/
theorem crcShifts_byte (b : Byte) : crcShifts 8 (b.setWidth 16) = b.setWidth 16 <<< 8 := by
  refine crcShifts_eq_shiftLeft ?_
  rw [BitVec.toNat_setWidth_of_le (by decide)]
  have := b.isLt
  omega

/-- A half is its two bytes (R116). -/
theorem setWidth_high_xor_low (x : Half) :
    ((x.extractLsb' 8 8).setWidth 16 <<< 8) ^^^ (x.extractLsb' 0 8).setWidth 16 = x := by
  refine BitVec.eq_of_getLsbD_eq fun i hi => ?_
  simp only [BitVec.getLsbD_xor, BitVec.getLsbD_shiftLeft, BitVec.getLsbD_setWidth, BitVec.getLsbD_extractLsb', hi]
  by_cases hlow : i < 8
  · simp [hlow]
  · simp [hlow, show i - 8 < 8 by omega, show i - 8 < 16 by omega, show 8 + (i - 8) = i by omega]

/-- Two appended bytes enter the register as `c xor x` and are then multiplied by `x^16` (R151). -/
theorem crc16_append_crcBytes (m : List Byte) (x : Half) : crc16 (m ++ crcBytes x) = crcShifts 16 (crc16 m ^^^ x) := by
  have hbytes : crc16 (m ++ crcBytes x) = crcByte (crcByte (crc16 m) (x.extractLsb' 8 8)) (x.extractLsb' 0 8) := by
    simp [crc16, crcBytes]
  rw [hbytes, crcByte, crcByte, ← crcShifts_byte (x.extractLsb' 0 8), ← crcShifts_xor, ← crcShifts_add, BitVec.xor_assoc,
    setWidth_high_xor_low]

/-- Settles O36: the appended bytes' shifts lose nothing, so they leave 0 exactly when `c xor x` is 0. -/
theorem crcResidue : Obligations.CrcResidue := fun m x => by
  rw [crc16_append_crcBytes, crcShifts_eq_zero_iff]
  exact BitVec.xor_eq_zero_iff.trans eq_comm

end Sys2Proof.Machine
end

section
/-! PROOFS. The CRC commands (spec/41_crc.md R152 to R154): each completes, with the CRC of its bytes of the frame buffer. -/

namespace Sys2Proof.Machine

/-- A command whose effect is no error completes without one, and only its own places have changed. -/
theorem exec_of_ok {i : Instr} {s t : State} (hwf : i.wellFormed = true) (h : effectOf i s = .ok t) :
    exec i s = .next (completeOk t) ∧ Completed .none 0 (completeOk t) ∧ UnchangedOutside i s (completeOk t) := by
  have hframe := complete_effectOf_frame hwf s
  rw [h] at hframe
  exact ⟨(exec_next_iff i s _).2 (by rw [h]; rfl), completed_completeOk t, hframe⟩

/-! ### CRC_CALC and CRC_GEN -/

theorem byte_putBytes_frameBuf (s : State) (start i : Nat) (bs : List Byte) (hi : i < bs.length) (hplace : start + i < 0x10000) :
    (s.putBytes (frameBufBase + start) bs).byte (frameBufBase + (start + i)) = bs[i] := by
  rw [← Nat.add_assoc]
  exact State.byte_putBytes_whole s _ i bs hi (by rw [Nat.add_assoc]; exact cellMask_frameBuf _ hplace)

theorem effectOf_crcGen {s : State} (h : frameOk s = true) :
    effectOf .crcGen s =
      .ok (withCrcValue (frameCrc s) (s.putBytes (frameBufBase + (frameBytes s - 2)) (crcBytes (frameCrc s)))) :=
  requireFrame_of_ok s _ h

/-- Settles O37: the bytes that CRC_GEN stores are two whole bytes of the frame buffer. -/
theorem crcOfFrameBuffer : Obligations.CrcOfFrameBuffer := by
  refine fun s => ⟨?_, fun hframe => ?_⟩
  · obtain ⟨hexec, hcompleted, hplaces⟩ := exec_of_ok (i := .crcCalc) (s := s) rfl rfl
    exact ⟨_, hexec, hcompleted, flagsKept_completeOk rfl, hplaces, by rw [← State.bytes_eq_map]; rfl⟩
  · have hlt := frameBytes_lt s
    have hmin := (frameOk_iff s).1 hframe
    obtain ⟨hexec, hcompleted, hplaces⟩ := exec_of_ok rfl (effectOf_crcGen hframe)
    have hstored (i : Nat) (hi : i < 2) := byte_putBytes_frameBuf s (frameBytes s - 2) i (crcBytes (frameCrc s)) hi (by omega)
    refine ⟨_, frameCrc s, hexec, hcompleted, flagsKept_completeOk rfl, hplaces, by rw [← State.bytes_eq_map]; rfl, rfl,
      hstored 0 (by decide), ?_⟩
    rw [show frameBytes s - 1 = frameBytes s - 2 + 1 by omega]
    exact hstored 1 (by decide)

/-! ### CRC_CHECK -/

theorem State.bytes_append (s : State) (base m n : Nat) : s.bytes base (m + n) = s.bytes base m ++ s.bytes (base + m) n := by
  simp only [State.bytes_eq_map, List.range_add, List.map_append, List.map_map, Function.comp_def, Nat.add_assoc]

/-- Any two bytes are the bytes of a CRC. -/
theorem crcBytes_append (high low : Byte) : crcBytes (high ++ low) = [high, low] := by
  have hhigh : (high ++ low).extractLsb' 8 8 = high := BitVec.extractLsb'_append_eq_left
  have hlow : (high ++ low).extractLsb' 0 8 = low := BitVec.extractLsb'_append_eq_right
  rw [crcBytes, hhigh, hlow]

theorem crcBytes_injective : Function.Injective crcBytes := fun x y h => by
  obtain ⟨hhigh, hlow⟩ : x.extractLsb' 8 8 = y.extractLsb' 8 8 ∧ x.extractLsb' 0 8 = y.extractLsb' 0 8 := by
    simpa [crcBytes] using h
  rw [← setWidth_high_xor_low x, hhigh, hlow, setWidth_high_xor_low]

/-- Two trailing bytes are the CRC of the bytes before them exactly when the CRC of all is 0 (R151). -/
theorem crc16_append_eq_zero_iff (m : List Byte) (high low : Byte) :
    crc16 (m ++ [high, low]) = 0 ↔ [high, low] = crcBytes (crc16 m) := by
  rw [← crcBytes_append, crcResidue, crcBytes_injective.eq_iff]

theorem effectOf_crcCheck {s : State} (h : frameOk s = true) :
    effectOf .crcCheck s =
      .ok (withCrcValue (frameCrc s)
        { s with status :=
            { s.status with crcOk := s.bytes (frameBufBase + (frameBytes s - 2)) 2 == crcBytes (frameCrc s) } }) :=
  requireFrame_of_ok s _ h

/-- The comparison that CRC_CHECK makes (R154). -/
theorem frame_trailing_eq_crc_iff {s : State} (h : frameOk s = true) :
    s.bytes (frameBufBase + (frameBytes s - 2)) 2 = crcBytes (frameCrc s) ↔ crc16 (s.bytes frameBufBase (frameBytes s)) = 0 := by
  have hmin := (frameOk_iff s).1 h
  have hall := State.bytes_append s frameBufBase (frameBytes s - 2) 2
  rw [show frameBytes s - 2 + 2 = frameBytes s by omega] at hall
  rw [hall, frameCrc, State.bytes_eq_map s _ 2]
  exact (crc16_append_eq_zero_iff _ _ _).symm

/-- Settles O38, from the residue property of the frame's bytes. -/
theorem crcCheckReports : Obligations.CrcCheckReports := fun s hframe => by
  obtain ⟨hexec, hcompleted, hplaces⟩ := exec_of_ok rfl (effectOf_crcCheck hframe)
  refine ⟨_, hexec, hcompleted, hplaces, rfl, rfl, by rw [← State.bytes_eq_map]; rfl, ?_⟩
  rw [← State.bytes_eq_map]
  exact beq_iff_eq.trans (frame_trailing_eq_crc_iff hframe)

end Sys2Proof.Machine
end

section
/-! PROOFS. Which commands write `VALID`, `EMPTY`, `CRC_OK` and `CRC_VALUE` (spec/10_state.md R40, R63; spec/41_crc.md R155). -/

namespace Sys2Proof.Machine

/-! ### The flags and a command's effect -/

/-- From `s` to `t` the command has written no flag that R155 and R63 do not give it. -/
structure KeepsFlags (i : Instr) (s t : State) : Prop where
  validity : i ≠ .unpack → (∀ dry, i ≠ .pack dry) → i ≠ .decodeFrame →
    t.status.valid = s.status.valid ∧ t.status.empty = s.status.empty
  crcOk : i ≠ .crcCheck → t.status.crcOk = s.status.crcOk
  crcValue : i ≠ .crcCalc → i ≠ .crcGen → i ≠ .crcCheck → i ≠ .pack false → t.crcValue = s.crcValue

namespace KeepsFlags

variable {i : Instr} {s t : State}

theorem of_kept (hstatus : t.status = s.status) (hcrc : t.crcValue = s.crcValue) : KeepsFlags i s t where
  validity _ _ _ := by rw [hstatus]; exact ⟨rfl, rfl⟩
  crcOk _ := by rw [hstatus]
  crcValue _ _ _ _ := hcrc

/-- A command that only stores in RAM writes no flag. -/
theorem of_storesWithin {p : Nat → Bool} (h : StoresWithin p s t) : KeepsFlags i s t := by
  obtain ⟨m, d, rfl⟩ := h.rest
  exact of_kept rfl rfl

theorem completeOk (h : KeepsFlags i s t) : KeepsFlags i s (completeOk t) := ⟨h.validity, h.crcOk, h.crcValue⟩

theorem raiseError (h : KeepsFlags i s t) (code : ErrCode) (info : Word) : KeepsFlags i s (raiseError code info t) :=
  ⟨h.validity, h.crcOk, h.crcValue⟩

end KeepsFlags

/-! ### UNPACK, DECODE_FRAME and PACK -/

theorem storeFrame_crcOk (f : Frame) (n : Nat) (s : State) : (storeFrame f n s).status.crcOk = s.status.crcOk :=
  forEach_view (fun t : State => t.status.crcOk) (List.range (chCount s)) (storeFrameChannel f) (fun _ _ _ => rfl) s

theorem unpackBody_crcOk (s : State) (hcfg : cfgOk s = true) :
    (unpackBody s).Leaves fun t => t.status.crcOk = s.status.crcOk := by
  unfold unpackBody
  split
  · next hread => exact ⟨readFrame_error hcfg hread, rfl⟩
  · exact storeFrame_crcOk _ _ s

theorem decodeFrameEffect_crcOk (s : State) : (decodeFrameEffect s).Leaves fun t => t.status.crcOk = s.status.crcOk := by
  refine leaves_requireCfg rfl fun hcfg => leaves_requireFrame rfl fun _ => leaves_requireHfrVersion rfl ?_
  have hunpack := (unpackBody_frame hcfg).and (unpackBody_crcOk s hcfg)
  refine (hunpack.andThen (fun _ h => h) fun t h => leaves_requireValid h).andThen (fun _ h => h.2) fun t ⟨hplaces, hcrc⟩ => ?_
  have hstages := decodeStages_frame ((cfgOk_after_unpack hplaces).trans hcfg)
  exact (congrArg Status.crcOk hstages.status).trans hcrc

theorem packStore_crcOk (dry : Bool) (cs : List PackChannel) (s : State) :
    (packStore dry cs s).status.crcOk = s.status.crcOk := by
  refine (forEach_view (fun t : State => t.status.crcOk) (List.range (chCount s)) (storeResolutions cs) (fun _ _ _ => rfl)
    (if dry = true then s else writeFrame cs s)).trans ?_
  cases dry <;> rfl

theorem packBody_crcOk (dry : Bool) (s : State) : (packBody dry s).Leaves fun t => t.status.crcOk = s.status.crcOk := by
  unfold packBody
  dsimp only
  split
  · exact ⟨by decide, rfl⟩
  · split
    · exact ⟨by decide, rfl⟩
    · exact packStore_crcOk dry _ s

/-- A bitstream command that keeps `CRC_OK` keeps what is not its own: its rule names the validity flags, and its frame says
what becomes of `CRC_VALUE`. -/
theorem keepsFlags_of_frame {i : Instr} (hi : i = .unpack ∨ i = .decodeFrame ∨ ∃ dry, i = .pack dry) {s t : State}
    (hplaces : UnchangedOutside i s t) (hcrc : t.status.crcOk = s.status.crcOk) : KeepsFlags i s t := by
  obtain ⟨-, hregs, -⟩ := hplaces
  refine ⟨fun hunpack hpack hdecode => ?_, fun _ => hcrc, fun _ _ _ hpack => hregs .crcValue (by decide) ?_⟩
  · exact (hi.elim hunpack fun hi => hi.elim hdecode fun ⟨dry, hdry⟩ => hpack dry hdry).elim
  · rcases hi with rfl | rfl | ⟨dry, rfl⟩
    · rfl
    · rfl
    · cases dry with
      | true => rfl
      | false => exact absurd rfl hpack

/-! ### Every command -/

/-- What a command's effect leaves of the flags, whatever it ends in and whatever its operands are. -/
theorem effectOf_keepsFlags (i : Instr) (s : State) : (effectOf i s).Leaves (KeepsFlags i s) := by
  have hrefl : KeepsFlags i s s := .of_kept rfl rfl
  have hram {t : State} (h : StoresWithin (fun _ => true) s t) : KeepsFlags i s t := .of_storesWithin h
  have hbitstream (hwf : i.wellFormed = true) (hi : i = .unpack ∨ i = .decodeFrame ∨ ∃ dry, i = .pack dry)
      (hcrc : (effectOf i s).Leaves fun t => t.status.crcOk = s.status.crcOk) : (effectOf i s).Leaves (KeepsFlags i s) :=
    ((effectOf_frame hwf s).and hcrc).mono fun _ ⟨hplaces, hcrc⟩ => keepsFlags_of_frame hi hplaces hcrc
  cases i with
  | nop => exact hrefl
  | resetOvl ch allCh =>
    exact hram (.forEach _ _ fun c _ _ _ => clearOverlap_storesWithin c fun _ _ => ⟨rfl, rfl⟩)
  | keygen0 | keygen1 | keygen56 => exact .of_kept rfl rfl
  | decrypt | encrypt => exact leaves_requireFrame hrefl fun _ => .of_storesWithin (substituteFrame_frame s _)
  | crcCalc => exact ⟨fun _ _ _ => ⟨rfl, rfl⟩, fun _ => rfl, fun h => absurd rfl h⟩
  | crcGen => exact leaves_requireFrame hrefl fun _ => ⟨fun _ _ _ => ⟨rfl, rfl⟩, fun _ => rfl, fun _ h => absurd rfl h⟩
  | crcCheck =>
    exact leaves_requireFrame hrefl fun _ => ⟨fun _ _ _ => ⟨rfl, rfl⟩, fun h => absurd rfl h, fun _ _ h => absurd rfl h⟩
  | unpack =>
    exact hbitstream rfl (.inl rfl) (leaves_requireCfg rfl fun hcfg => leaves_requireFrame rfl fun _ => unpackBody_crcOk s hcfg)
  | pack dry =>
    exact hbitstream rfl (.inr (.inr ⟨dry, rfl⟩))
      (leaves_requireCfg rfl fun _ => leaves_requireFrame rfl fun _ => packBody_crcOk dry s)
  | decodeFrame => exact hbitstream rfl (.inr (.inl rfl)) (decodeFrameEffect_crcOk s)
  | dequant ch allCh =>
    exact leaves_requireCfg hrefl fun hcfg => leaves_requireChannel hrefl fun hch => .of_storesWithin (dequantBody_frame hcfg hch)
  | hfrRecon ch allCh =>
    exact leaves_requireCfg hrefl fun hcfg => leaves_requireChannel hrefl fun hch =>
      leaves_requireHfrVersion hrefl (.of_storesWithin (hfrBody_frame hcfg hch))
  | istereo sub allSf =>
    refine leaves_requireCfg hrefl fun hcfg => hram (.forEach _ _ fun c _ _ _ => ?_)
    obtain ⟨-, -, htotal, -⟩ := cfgOk_bounds s hcfg
    exact istereoChannel_storesWithin _ c htotal fun _ _ _ _ _ _ => rfl
  | imdct ch allCh sub allSf =>
    exact leaves_requireCfg hrefl fun _ => leaves_requireChannel hrefl fun _ =>
      hram (.forBlocks _ _ _ fun c _ q _ _ _ => imdctBlock_storesWithin c q (fun _ _ _ => rfl) fun _ _ => rfl)
  | mdct ch allCh sub allSf =>
    exact leaves_requireCfg hrefl fun _ => leaves_requireChannel hrefl fun _ =>
      hram (.forBlocks _ _ _ fun c _ q _ _ _ => mdctBlock_storesWithin c q (fun _ _ _ => rfl) fun _ _ => rfl)
  | pcmOut ch allCh sub allSf =>
    exact leaves_requireCfg hrefl fun _ => leaves_requireChannel hrefl fun _ =>
      hram (.forBlocks _ _ _ fun c _ q _ _ _ => pcmOutBlock_storesWithin c q fun _ _ _ => rfl)
  | pcmIn ch allCh sub allSf =>
    exact leaves_requireCfg hrefl fun _ => leaves_requireChannel hrefl fun _ =>
      hram (.forBlocks _ _ _ fun c _ q _ _ _ => pcmInBlock_storesWithin c q fun _ _ _ => rfl)

theorem exec_keepsFlags {i : Instr} {s t : State} (h : exec i s = .next t) : KeepsFlags i s t := by
  obtain rfl := (exec_next_iff i s t).1 h
  exact (effectOf_keepsFlags i s).complete (fun _ hs => hs.completeOk) fun code info _ _ hs => hs.raiseError code info

/-! ### BAD_CONFIG -/

@[simp] theorem Effect.code_ok (t : State) : (Effect.ok t).code = .none := rfl

/-- The errors of a bitstream are not BAD_CONFIG (spec/60_exceptions.md R281). -/
theorem unpackBody_code {s : State} (hcfg : cfgOk s = true) :
    (unpackBody s).code ∈ [.none, .sync, .sfRange, .intensityRange, .overrun] := by
  unfold unpackBody
  split
  · next hread => exact List.mem_cons_of_mem _ ((readFrame_yields hcfg).error hread)
  · exact List.mem_cons_self

theorem andThen_requireValid_code {e : Effect} (he : e.code ≠ .badConfig) : (e.andThen requireValid).code ≠ .badConfig := by
  cases e with
  | ok t =>
    rw [Effect.andThen_ok, requireValid_code]
    split <;> decide
  | error code info t => exact he

/-- BAD_CONFIG comes from the two checks of the configuration alone (spec/10_state.md R30). -/
theorem checks_fail_of_badConfig {i : Instr} {s : State} (h : (effectOf i s).code = .badConfig) :
    (requiresCfg i = true ∧ cfgOk s = false) ∨ (requiresFrame i = true ∧ frameOk s = false) := by
  by_contra hpass
  simp only [not_or, not_and, Bool.not_eq_false] at hpass
  obtain ⟨hcfg, hframe⟩ := hpass
  refine absurd h ?_
  cases i with
  | nop | resetOvl | keygen0 | keygen1 | keygen56 | crcCalc => simp [effectOf, crcCalcEffect]
  | decrypt | encrypt | crcGen | crcCheck =>
    simp [effectOf, crcGenEffect, crcCheckEffect, requireFrame_code, hframe rfl]
  | dequant | hfrRecon | istereo | imdct | mdct | pcmOut | pcmIn =>
    simp only [effectOf, requireCfg_code, requireChannel_code, requireHfrVersion_code, hcfg rfl]
    split_ifs <;> simp
  | pack dry =>
    simp only [effectOf, requireCfg_code, requireFrame_code, packBody_code, hcfg rfl, hframe rfl]
    split_ifs <;> decide
  | unpack =>
    rw [effectOf, requireCfg_of_ok s _ (hcfg rfl), requireFrame_of_ok s _ (hframe rfl)]
    exact fun hbad => absurd (hbad ▸ unpackBody_code (hcfg rfl)) (by decide)
  | decodeFrame =>
    have hunpack : (unpackBody s).code ≠ .badConfig := fun hbad => absurd (hbad ▸ unpackBody_code (hcfg rfl)) (by decide)
    rw [effectOf, decodeFrameEffect, requireCfg_of_ok s _ (hcfg rfl), requireFrame_of_ok s _ (hframe rfl),
      requireHfrVersion_code, andThen_ok_code]
    split
    · decide
    · exact andThen_requireValid_code hunpack

/-- A command that ends with BAD_CONFIG has done nothing else (spec/10_state.md R30, log 14). -/
theorem eq_raiseError_of_badConfig {i : Instr} {s t : State} (h : exec i s = .next t) (hbad : t.status.errCode = .badConfig) :
    t = raiseError .badConfig 0 s := by
  obtain rfl := (exec_next_iff i s t).1 h
  rw [errCode_complete] at hbad
  rw [effectOf_of_badConfig (checks_fail_of_badConfig hbad)]
  rfl

/-- Settles O9, from what each effect leaves of the flags and from BAD_CONFIG's two causes. -/
theorem flagWriters : Obligations.FlagWriters := fun i s t h => by
  obtain ⟨hvalidity, hcrcOk, hcrcValue⟩ := exec_keepsFlags h
  refine ⟨hvalidity, hcrcOk, hcrcValue, fun hbad => ?_⟩
  rw [eq_raiseError_of_badConfig h hbad]
  exact ⟨⟨rfl, rfl, rfl, rfl⟩, rfl⟩

end Sys2Proof.Machine
end

section
/-! PROOFS. The substitution cipher: what each KEYGEN leaves in the key tables, that every scheme's table is a permutation with 0
and 255 in place, and that DECRYPT and ENCRYPT substitute the frame and undo each other (spec/42_cipher.md R160 to R172). -/

namespace Sys2Proof.Machine

/-! ### The schemes' tables -/

theorem tableFrom_getD_zero (values : List Nat) (x : Nat) : (tableFrom values).getD 0 x = 0 := rfl

/-- In a table of 256 entries the appended 255 stands at its own place. -/
theorem tableFrom_getD_last {values : List Nat} (h : (tableFrom values).length = 256) (x : Nat) :
    (tableFrom values).getD 255 x = 255 := by
  obtain ⟨kept, hkept⟩ : ∃ kept, tableFrom values = kept ++ [255] := ⟨0 :: _, rfl⟩
  have hlen : kept.length = 255 := by rw [hkept] at h; simpa using h
  rw [hkept, List.getD_append_right _ _ _ _ hlen.le, hlen]
  rfl

/-- Key 0 is not decremented below 0, so it has the bytes of key 1 (R165). -/
theorem keyByte_zero : keyByte 0 = keyByte 1 := rfl

theorem type56Table_zero : type56Table 0 = type56Table 1 := by
  have hseeds : columnSeeds 0 = columnSeeds 1 := by simp only [columnSeeds, keyByte_zero]
  have hbase : combinationTable 0 = combinationTable 1 := by simp only [combinationTable, keyByte_zero, hseeds]
  simp only [type56Table, hbase]

/-- Settles O33: what `tableFrom` makes of a permutation is a permutation whose ends are in place. -/
theorem tablesArePermutations : Obligations.TablesArePermutations :=
  ⟨type1Table_perm, tableFrom_getD_zero _ _, tableFrom_getD_last (length_of_perm_range type1Table_perm) _,
    fun key => ⟨type56Table_perm key, tableFrom_getD_zero _ _, tableFrom_getD_last (length_of_perm_range (type56Table_perm key)) _⟩,
    type56Table_zero⟩

/-! ### KEYGEN -/

/-- The stored tables are the scheme's table and its inverse (R160). -/
theorem storeKey_tables (s : State) {d : List Nat} (hd : d.Perm (List.range 256)) (tag : Word) {j : Nat} (hj : j < 256) :
    (storeKey d tag s).decAt j = d.getD j 0 ∧ (storeKey d tag s).encAt (d.getD j 0) = j := by
  have hlen : j < d.length := by rwa [length_of_perm_range hd]
  have hnodup : d.Nodup := hd.nodup_iff.2 List.nodup_range
  rw [List.getD_eq_getElem _ _ hlen, decAt_storeKey s hd tag hj hlen,
    encAt_storeKey s hd tag (getElem_lt_of_perm_range hd hlen), hnodup.idxOf_getElem j hlen]
  exact ⟨rfl, rfl⟩

theorem keygen_completes {i : Instr} {s : State} {d : List Nat} {tag : Word} (hwf : i.wellFormed = true)
    (heffect : effectOf i s = .ok (storeKey d tag s)) (hd : d.Perm (List.range 256)) :
    ∃ t, exec i s = .next t ∧ Completed .none 0 t ∧ FlagsKept s t ∧ UnchangedOutside i s t ∧ t.keyType = tag
      ∧ ∀ j, j < 256 → t.numAt (keyDecBase + j) = d.getD j 0 ∧ t.numAt (keyEncBase + d.getD j 0) = j := by
  obtain ⟨hexec, hcompleted, hplaces⟩ := exec_of_ok hwf heffect
  exact ⟨_, hexec, hcompleted, flagsKept_completeOk rfl, hplaces, rfl, fun _ hj => storeKey_tables s hd tag hj⟩

/-- Settles O32: each scheme's table is a permutation, so it is stored with its inverse. -/
theorem keygenBuildsTables : Obligations.KeygenBuildsTables := by
  rintro s i d tag (⟨rfl, rfl, rfl⟩ | ⟨rfl, rfl, rfl⟩ | ⟨rfl, rfl, rfl⟩)
  · exact keygen_completes rfl rfl type0Table_perm
  · exact keygen_completes rfl rfl type1Table_perm
  · exact keygen_completes rfl rfl (type56Table_perm _)

/-! ### DECRYPT and ENCRYPT -/

/-- A command that substitutes the frame, with the table it reads (R171, R172). -/
def SubstitutesBy (i : Instr) (table : Nat) : Prop := (i = .decrypt ∧ table = keyDecBase) ∨ (i = .encrypt ∧ table = keyEncBase)

namespace SubstitutesBy

variable {i : Instr} {table : Nat}

theorem decrypt : SubstitutesBy .decrypt keyDecBase := .inl ⟨rfl, rfl⟩

theorem encrypt : SubstitutesBy .encrypt keyEncBase := .inr ⟨rfl, rfl⟩

theorem wellFormed (h : SubstitutesBy i table) : i.wellFormed = true := by
  rcases h with ⟨rfl, -⟩ | ⟨rfl, -⟩ <;> rfl

theorem effectOf_eq (h : SubstitutesBy i table) {s : State} (hframe : frameOk s = true) :
    effectOf i s = .ok (substituteFrame table s) := by
  rcases h with ⟨rfl, rfl⟩ | ⟨rfl, rfl⟩ <;> exact requireFrame_of_ok s _ hframe

/-- The key tables lie past the frame buffer (spec/20_memory.md R71). -/
theorem frameBuf_before_table (h : SubstitutesBy i table) : frameBufBase + 0x10000 ≤ table := by
  rcases h with ⟨-, rfl⟩ | ⟨-, rfl⟩ <;> decide

end SubstitutesBy

theorem byte_substituteFrame (s : State) (table : Nat) {j : Nat} (hj : j < frameBytes s) :
    (substituteFrame table s).byte (frameBufBase + j) = s.byte (table + s.numAt (frameBufBase + j)) := by
  have hlt := frameBytes_lt s
  have hstored := byte_putBytes_frameBuf s 0 j
    ((s.bytes frameBufBase (frameBytes s)).map fun x => (s.bytes table 256).getD x.toNat 0) (by simpa using hj) (by omega)
  rw [Nat.zero_add, Nat.add_zero] at hstored
  have hindex : (s.byte (frameBufBase + j)).toNat < 256 := BitVec.isLt _
  refine hstored.trans ?_
  simp [State.bytes_eq_map, State.numAt, hindex]

theorem byte_substituteFrame_outside (s : State) (table : Nat) {a : Nat}
    (h : a < frameBufBase ∨ frameBufBase + frameBytes s ≤ a) : (substituteFrame table s).byte a = s.byte a :=
  State.byte_putBytes_outside s frameBufBase a _ (by simpa using h)

/-- Settles O34, from the byte that the substitution stores. -/
theorem substitutionOfFrame : Obligations.SubstitutionOfFrame := fun s i table hframe (hi : SubstitutesBy i table) => by
  obtain ⟨hexec, hcompleted, hplaces⟩ := exec_of_ok hi.wellFormed (hi.effectOf_eq hframe)
  exact ⟨_, hexec, hcompleted, flagsKept_completeOk rfl, hplaces, fun _ hj => byte_substituteFrame s table hj⟩

/-! ### One after the other -/

/-- The substitution and the completion leave `FRAME_BYTES`, so the next command meets a frame of the same length. -/
theorem frameBytes_completed_substituteFrame (s : State) (table : Nat) :
    frameBytes (completeOk (substituteFrame table s)) = frameBytes s :=
  congrArg (field · 0 16) (rfl : (completeOk (substituteFrame table s)).cfgFrame = s.cfgFrame)

/-- The second table undoes the first, and the first substitution has not touched it. -/
theorem byte_substituteFrame_inverse {s : State} {first second : Nat} (hplace : frameBufBase + 0x10000 ≤ second)
    (hinverse : ∀ v, v < 256 → s.numAt (second + s.numAt (first + v)) = v) (a : Nat) :
    (substituteFrame second (completeOk (substituteFrame first s))).byte a = s.byte a := by
  have hlt := frameBytes_lt s
  have hlength := frameBytes_completed_substituteFrame s first
  by_cases hout : a < frameBufBase ∨ frameBufBase + frameBytes s ≤ a
  · rw [byte_substituteFrame_outside _ second (by rwa [hlength]), completeOk_byte, byte_substituteFrame_outside s first hout]
  · obtain ⟨j, rfl⟩ : ∃ j, a = frameBufBase + j := ⟨a - frameBufBase, by omega⟩
    have hj : j < frameBytes s := by omega
    have hv : s.numAt (frameBufBase + j) < 256 := BitVec.isLt _
    have hfirst : (completeOk (substituteFrame first s)).byte (frameBufBase + j) = s.byte (first + s.numAt (frameBufBase + j)) :=
      byte_substituteFrame s first hj
    have htable (x : Nat) : (completeOk (substituteFrame first s)).byte (second + x) = s.byte (second + x) :=
      byte_substituteFrame_outside s first (.inr (by omega))
    rw [byte_substituteFrame _ second (by rwa [hlength]), State.numAt, hfirst, htable]
    exact BitVec.eq_of_toNat_eq (hinverse _ hv)

theorem substitutions_undo {i k : Instr} {first second : Nat} (hi : SubstitutesBy i first) (hk : SubstitutesBy k second)
    {s : State} (hframe : frameOk s = true) (hinverse : ∀ v, v < 256 → s.numAt (second + s.numAt (first + v)) = v) :
    ∃ t u, exec i s = .next t ∧ exec k t = .next u ∧ ∀ a, u.byte a = s.byte a := by
  obtain ⟨hfirst, -⟩ := exec_of_ok hi.wellFormed (hi.effectOf_eq hframe)
  have hframe' : frameOk (completeOk (substituteFrame first s)) = true := by
    rwa [frameOk_iff, frameBytes_completed_substituteFrame, ← frameOk_iff]
  obtain ⟨hsecond, -⟩ := exec_of_ok hk.wellFormed (hk.effectOf_eq hframe')
  exact ⟨_, _, hfirst, hsecond, fun a =>
    (completeOk_byte _ a).trans (byte_substituteFrame_inverse hk.frameBuf_before_table hinverse a)⟩

/-- Settles O35: each table is the inverse of the other, and no substitution writes a table. -/
theorem encryptDecryptInverse : Obligations.EncryptDecryptInverse := fun _ htables hframe =>
  ⟨substitutions_undo .encrypt .decrypt hframe fun v hv => (htables v hv).2,
    substitutions_undo .decrypt .encrypt hframe fun v hv => (htables v hv).1⟩

end Sys2Proof.Machine
end

section
/-! PROOFS. The fold of the transform kernel (spec/43_transform.md R180, R183; log 25): a sample `n` of the kernel has the cosine of
its place `foldSource n` up to the sign, by the cosine's symmetries about the quarter turns. The stored cosines
and the real ones have these symmetries alike, so one fold serves both. -/

namespace Sys2Proof.Machine

/-! ### The cosine's symmetries -/

/-- A function of angles in units of `pi / 512` is even about every whole turn and odd about every odd quarter turn, as the cosine
is; asked of the odd angles only, where the table has entries. -/
structure TurnsLikeCosine {R : Type} [Ring R] (c : Nat → R) : Prop where
  wholeTurn : ∀ m m' j, m % 2 = 1 → m + m' = 1024 * j → c m' = c m
  quarterTurn : ∀ m m' j, m % 2 = 1 → j % 2 = 1 → m + m' = 512 * j → c m' = -c m

theorem TurnsLikeCosine.halfTurn {R : Type} [Ring R] {c : Nat → R} (h : TurnsLikeCosine c) {m j : Nat} (hm : m % 2 = 1)
    (hj : j % 2 = 1) : c (m + 512 * j) = -c m := by
  rw [h.quarterTurn (1023 * m) (m + 512 * j) (2 * m + j) (by omega) (by omega) (by ring),
    h.wholeTurn m (1023 * m) m hm (by ring)]

/-- The stored cosine in each quarter of the turn, as an entry of the first. -/
theorem cosUnit_turnsLikeCosine : TurnsLikeCosine cosUnit where
  wholeTurn m m' j hm hsum := by
    obtain ⟨r, hr⟩ : ∃ r, m % 1024 = r := ⟨_, rfl⟩
    simp only [cosUnit, hr, show m' % 1024 = 1024 - r by omega]
    rcases lt_or_ge r 512 with hfirst | hsecond
    · rw [if_pos (show 1024 - r > 512 by omega), if_neg (show ¬r > 512 by omega), show 1024 - (1024 - r) = r by omega]
    · rw [if_neg (show ¬1024 - r > 512 by omega), if_pos (show r > 512 by omega)]
  quarterTurn m m' j hm hj hsum := by
    obtain ⟨r, hr⟩ : ∃ r, m % 1024 = r := ⟨_, rfl⟩
    have hmirrored : m' % 1024 = if r < 512 then 512 - r else 1536 - r := by split <;> omega
    simp only [cosUnit, hr, hmirrored]
    rcases lt_or_ge r 512 with hfirst | hsecond
    · rw [if_pos hfirst, if_neg (show ¬512 - r > 512 by omega), if_neg (show ¬r > 512 by omega),
        show 512 - r - 1 = 511 - r by omega, show 511 - (512 - r) = r - 1 by omega]
      by_cases hquarter : r ≤ 256
      · rw [if_pos hquarter, if_neg (by omega)]
      · rw [if_neg hquarter, if_pos (by omega), neg_neg]
    · rw [if_neg (show ¬r < 512 by omega), if_pos (show 1536 - r > 512 by omega), if_pos (show r > 512 by omega),
        show 1024 - (1536 - r) - 1 = 511 - (1024 - r) by omega, show 511 - (1024 - (1536 - r)) = 1024 - r - 1 by omega]
      by_cases hquarter : 1024 - r ≤ 256
      · rw [if_pos hquarter, if_neg (by omega)]
      · rw [if_neg hquarter, if_pos (by omega), neg_neg]

/-- The real cosine of an angle in units of `pi / 512`. -/
noncomputable def realCos (m : Nat) : ℝ := Real.cos (Real.pi * m / 512)

theorem realCos_turnsLikeCosine : TurnsLikeCosine realCos where
  wholeTurn m m' j _ hsum := by
    have hm' : (m' : ℝ) = 1024 * j - m := eq_sub_of_add_eq' (by exact_mod_cast hsum)
    rw [realCos, realCos, hm', show Real.pi * (1024 * j - m) / 512 = j * (2 * Real.pi) - Real.pi * m / 512 by ring,
      Real.cos_nat_mul_two_pi_sub]
  quarterTurn m m' j _ hj hsum := by
    have hm' : (m' : ℝ) = 512 * j - m := eq_sub_of_add_eq' (by exact_mod_cast hsum)
    rw [realCos, realCos, hm', show Real.pi * (512 * j - m) / 512 = j * Real.pi - Real.pi * m / 512 by ring,
      Real.cos_nat_mul_pi_sub, Odd.neg_one_pow (Nat.odd_iff.2 hj), neg_one_mul]

/-! ### The fold -/

/-- The angle of the kernel of R180 and R183 for sample `n` and line `k`. -/
def kernelAngle (n k : Nat) : Nat := (2 * n + 129) * (2 * k + 1)

theorem kernelAngle_odd (n k : Nat) : kernelAngle n k % 2 = 1 := by
  rw [kernelAngle, Nat.mul_mod, show (2 * n + 129) % 2 = 1 by omega, show (2 * k + 1) % 2 = 1 by omega]

/-- Sample `n` of the kernel is its place of the DCT-IV, with the sign of the unfolding. -/
theorem TurnsLikeCosine.foldSource {R : Type} [Ring R] {c : Nat → R} (h : TurnsLikeCosine c) {n : Nat} (hn : n < 256) (k : Nat) :
    ((foldSource n).2 : R) * c ((2 * (foldSource n).1 + 1) * (2 * k + 1)) = c (kernelAngle n k) := by
  have hodd : (2 * k + 1) % 2 = 1 := by omega
  have hangle := kernelAngle_odd n k
  unfold Machine.foldSource kernelAngle at *
  split
  · rw [show 2 * (64 + n) + 1 = 2 * n + 129 by omega, Int.cast_one, one_mul]
  · split
    · rw [h.quarterTurn _ ((2 * (191 - n) + 1) * (2 * k + 1)) (2 * k + 1) hangle hodd
        (by rw [← add_mul, show 2 * n + 129 + (2 * (191 - n) + 1) = 512 by omega])]
      push_cast
      rw [neg_one_mul, neg_neg]
    · have hplace : (2 * n + 129) * (2 * k + 1) = (2 * (n - 192) + 1) * (2 * k + 1) + 512 * (2 * k + 1) := by
        rw [← add_mul, show 2 * (n - 192) + 1 + 512 = 2 * n + 129 by omega]
      rw [hplace, h.halfTurn (by rw [Nat.mul_mod, show (2 * (n - 192) + 1) % 2 = 1 by omega, hodd]) hodd]
      push_cast
      rw [neg_one_mul]

theorem foldSource_fst (n : Nat) : (foldSource n).1 = if n < 64 then 64 + n else if n < 192 then 191 - n else n - 192 := by
  simp only [foldSource, apply_ite Prod.fst]

theorem foldSource_lt {n : Nat} (hn : n < 256) : (foldSource n).1 < 128 := by
  rw [foldSource_fst]
  split
  · omega
  · split <;> omega

/-- The two samples that a place of the DCT-IV gathers. -/
theorem foldSource_fiber {j : Nat} (hj : j < 128) :
    (Finset.range 256).filter (fun n => (foldSource n).1 = j) = if j < 64 then {191 - j, 192 + j} else {j - 64, 191 - j} := by
  ext n
  by_cases hlow : j < 64
  all_goals
    simp only [Finset.mem_filter, Finset.mem_range, foldSource_fst, hlow, if_true, if_false, Finset.mem_insert, Finset.mem_singleton]
    split
    · omega
    · split <;> omega

theorem foldForward_length (p : List Int) : (foldForward p).length = 128 := by simp [foldForward]

theorem foldForward_getD (p : List Int) {j : Nat} (hj : j < 128) :
    (foldForward p).getD j 0 = ∑ n ∈ Finset.range 256 with (foldSource n).1 = j, (foldSource n).2 * p.getD n 0 := by
  have hvalue : (foldForward p).getD j 0 =
      if j < 64 then -(p.getD (191 - j) 0) - p.getD (192 + j) 0 else p.getD (j - 64) 0 - p.getD (191 - j) 0 := by
    rw [List.getD_eq_getElem _ _ (by rwa [foldForward_length])]
    simp [foldForward]
  rw [hvalue, foldSource_fiber hj]
  by_cases hlow : j < 64
  · rw [if_pos hlow, if_pos hlow, Finset.sum_pair (by omega)]
    simp only [foldSource, if_neg (show ¬191 - j < 64 by omega), if_pos (show 191 - j < 192 by omega),
      if_neg (show ¬192 + j < 64 by omega), if_neg (show ¬192 + j < 192 by omega)]
    ring
  · rw [if_neg hlow, if_neg hlow, Finset.sum_pair (by omega)]
    simp only [foldSource, if_pos (show j - 64 < 64 by omega), if_neg (show ¬191 - j < 64 by omega),
      if_pos (show 191 - j < 192 by omega)]
    ring

/-- The folded samples' sum is the sum over all samples. -/
theorem TurnsLikeCosine.foldForward {R : Type} [CommRing R] {c : Nat → R} (h : TurnsLikeCosine c) (p : List Int) (k : Nat) :
    ∑ j ∈ Finset.range 128, ((foldForward p).getD j 0 : R) * c ((2 * j + 1) * (2 * k + 1)) =
      ∑ n ∈ Finset.range 256, (p.getD n 0 : R) * c (kernelAngle n k) := by
  have hgather : ∀ j ∈ Finset.range 128, ((Machine.foldForward p).getD j 0 : R) * c ((2 * j + 1) * (2 * k + 1)) =
      ∑ n ∈ Finset.range 256 with (Machine.foldSource n).1 = j, (p.getD n 0 : R) * c (kernelAngle n k) := fun j hj => by
    rw [foldForward_getD p (Finset.mem_range.1 hj), Int.cast_sum, Finset.sum_mul]
    refine Finset.sum_congr rfl fun n hn => ?_
    obtain ⟨hrange, rfl⟩ := Finset.mem_filter.1 hn
    rw [← h.foldSource (Finset.mem_range.1 hrange) k]
    push_cast
    ring
  have hplaces : ∀ n ∈ Finset.range 256, (Machine.foldSource n).1 ∈ Finset.range 128 := fun n hn =>
    Finset.mem_range.2 (foldSource_lt (Finset.mem_range.1 hn))
  rw [Finset.sum_congr rfl hgather, Finset.sum_fiberwise_of_maps_to hplaces]

/-! ### Sums over lists -/

/-- A sum over a list with its places is a sum over the places. -/
theorem sum_zipIdx_map {R : Type} [AddCommMonoid R] {n : Nat} (a : List Int) (ha : a.length = n) (f : Int → Nat → R) :
    (a.zipIdx.map fun p => f p.1 p.2).sum = ∑ k ∈ Finset.range n, f (a.getD k 0) k := by
  subst ha
  rw [Finset.sum_range, ← List.sum_ofFn]
  congr 1
  exact List.ext_getElem (by simp) fun i _ _ => by simp

theorem dctSum_eq_sum {m : Nat} (c : List Int) (hc : c.length = m) (n : Nat) :
    dctSum c n = ∑ k ∈ Finset.range m, c.getD k 0 * cosUnit ((2 * n + 1) * (2 * k + 1)) :=
  sum_zipIdx_map c hc fun a k => a * cosUnit ((2 * n + 1) * (2 * k + 1))

/-- Settles O50: the kernel's angle of a sample is its place's, up to the sign, forward as well as inverse. -/
theorem foldedKernel : Obligations.FoldedKernel := by
  refine ⟨fun x n hn => ?_, fun z k hz hk => ?_⟩
  · rw [dctSum_eq_sum x rfl, sum_zipIdx_map x rfl fun a k => a * cosUnit ((2 * n + 129) * (2 * k + 1)), Finset.mul_sum]
    refine Finset.sum_congr rfl fun k _ => ?_
    have hplace := cosUnit_turnsLikeCosine.foldSource hn k
    rw [kernelAngle, Int.cast_id] at hplace
    rw [← hplace]
    ring
  · rw [dctSum_eq_sum _ (foldForward_length z), sum_zipIdx_map z hz fun a n => a * cosUnit ((2 * n + 129) * (2 * k + 1))]
    have hfold := cosUnit_turnsLikeCosine.foldForward z k
    simp only [Int.cast_id, kernelAngle] at hfold
    rw [← hfold]
    exact Finset.sum_congr rfl fun j _ => by rw [mul_comm (2 * k + 1)]

end Sys2Proof.Machine
end

section
/-! PROOFS. The rounding of a real number to binary32 by order keys (spec/00_scope.md R11): the keys of the patterns are the integers
in a range, a number rounds to key `k` or above when it has passed the midpoint below `k`, and the greatest such key is the
rounding. The integer rounding of `roundUnits` and the exact sums' `reaches` are both this one threshold. -/

namespace Sys2Proof.Machine

/-! ### Order keys -/

/-- The key of the infinity. -/
def infinityKey : Int := 0x7F800000

theorem magOf_lt (w : Word) : magOf w < 2 ^ 31 := Nat.mod_lt _ (by decide)

theorem magOf_withSign (neg : Bool) {mag : Nat} (h : mag < 2 ^ 31) : magOf (withSign neg mag) = mag := by
  unfold magOf withSign
  rw [BitVec.toNat_ofNat]
  split <;> omega

theorem signOf_withSign (neg : Bool) {mag : Nat} (h : mag < 2 ^ 31) : signOf (withSign neg mag) = neg := by
  rw [signOf, withSign, BitVec.toNat_ofNat, Nat.testBit_eq_decide_div_mod_eq]
  cases neg with
  | false => exact decide_eq_false (by rw [if_neg Bool.false_ne_true]; omega)
  | true => exact decide_eq_true (by rw [if_pos rfl]; omega)

theorem orderKey_withSign (neg : Bool) {mag : Nat} (h : mag < 2 ^ 31) :
    orderKey (withSign neg mag) = if neg = true then -(mag : Int) else mag := by
  rw [orderKey, signOf_withSign neg h, magOf_withSign neg h]

theorem orderKey_keyWord {k : Int} (h : k.natAbs < 2 ^ 31) : orderKey (keyWord k) = k := by
  rw [keyWord, orderKey_withSign _ h]
  simp only [decide_eq_true_eq]
  split <;> omega

theorem magOf_eq_natAbs (w : Word) : magOf w = (orderKey w).natAbs := by
  unfold orderKey
  split <;> omega

theorem isFinite_iff (w : Word) : isFinite w = true ↔ (orderKey w).natAbs < 0x7F800000 := by
  simp only [isFinite, decide_eq_true_eq, magOf_eq_natAbs]

theorem isInf_iff (w : Word) : isInf w = true ↔ (orderKey w).natAbs = 0x7F800000 := by
  simp only [isInf, beq_iff_eq, magOf_eq_natAbs]

theorem keyUnits_natCast {p : Nat} (h : p < 2 ^ 31) : keyUnits p = patternUnits p := by
  rw [keyUnits, Int.natAbs_natCast, magUnits_ofNat p h]
  rcases Nat.eq_zero_or_pos p with rfl | hpos
  · rfl
  · rw [Int.sign_eq_one_of_pos (by exact_mod_cast hpos), one_mul]

theorem keyUnits_neg (k : Int) : keyUnits (-k) = -keyUnits k := by
  rw [keyUnits, keyUnits, Int.sign_neg, Int.natAbs_neg, neg_mul]

theorem magUnits_eq_patternUnits (w : Word) : magUnits w = patternUnits (magOf w) := rfl

theorem units_eq_keyUnits (w : Word) : units w = keyUnits (orderKey w) := by
  have hmag : (magUnits w : Int) = keyUnits (magOf w) := by rw [keyUnits_natCast (magOf_lt w), magUnits_eq_patternUnits]
  unfold units orderKey
  rw [hmag]
  split
  · rw [keyUnits_neg]
  · rfl

/-- A greater key is a greater value. -/
theorem keyUnits_lt {a b : Int} (ha : a.natAbs < 2 ^ 31) (hb : b.natAbs < 2 ^ 31) (h : a < b) : keyUnits a < keyUnits b := by
  have hnat : ∀ p q : Nat, q < 2 ^ 31 → p < q → keyUnits p < keyUnits q := fun p q hq hpq => by
    rw [keyUnits_natCast hq, keyUnits_natCast (by omega)]
    exact_mod_cast patternUnits_strictMono hpq
  have hzero : keyUnits (0 : Nat) = 0 := rfl
  obtain ⟨p, rfl | rfl⟩ := a.eq_nat_or_neg <;> obtain ⟨q, rfl | rfl⟩ := b.eq_nat_or_neg
  · exact hnat p q (by omega) (by omega)
  · omega
  · rw [keyUnits_neg]
    rcases Nat.eq_zero_or_pos p with rfl | hp
    · exact (hnat 0 q (by omega) (by omega)).trans_eq' (by rw [hzero, neg_zero])
    · have := hnat 0 p (by omega) hp
      rcases Nat.eq_zero_or_pos q with rfl | hq
      · omega
      · have := hnat 0 q (by omega) hq
        omega
  · rw [keyUnits_neg, keyUnits_neg]
    exact neg_lt_neg (hnat q p (by omega) (by omega))

theorem keyUnits_le {a b : Int} (ha : a.natAbs < 2 ^ 31) (hb : b.natAbs < 2 ^ 31) (h : a ≤ b) : keyUnits a ≤ keyUnits b := by
  rcases h.lt_or_eq with h | rfl
  · exact (keyUnits_lt ha hb h).le
  · exact le_rfl

/-! ### The threshold of a key -/

/-- Twice the midpoint below key `k`. -/
def midUnits (k : Int) : Int := keyUnits (k - 1) + keyUnits k

theorem midUnits_one_sub (k : Int) : midUnits (1 - k) = -midUnits k := by
  rw [midUnits, midUnits, show 1 - k - 1 = -k by ring, show 1 - k = -(k - 1) by ring, keyUnits_neg, keyUnits_neg]
  ring

theorem midUnits_lt {j k : Int} (hj : -2 ^ 31 + 1 < j) (hk : k < 2 ^ 31) (h : j < k) : midUnits j < midUnits k := by
  have := keyUnits_lt (a := j - 1) (b := k - 1) (by omega) (by omega) (by omega)
  have := keyUnits_lt (a := j) (b := k) (by omega) (by omega) h
  unfold midUnits
  omega

theorem midUnits_infinityKey : midUnits infinityKey = (2 ^ 25 - 1) * 2 ^ 253 := by decide +kernel

/-- `y`, in units of `2^-149`, rounds to key `k` or above: it has passed the midpoint below `k`, or lies on it and `k` is even. -/
def RoundsUpTo (y : ℝ) (k : Int) : Prop := midUnits k < 2 * y ∨ (midUnits k = 2 * y ∧ k % 2 = 0)

theorem RoundsUpTo.mono {y y' : ℝ} {k : Int} (h : RoundsUpTo y k) (hy : y ≤ y') : RoundsUpTo y' k := by
  rcases hy.lt_or_eq with hlt | rfl
  · refine .inl ?_
    rcases h with h | ⟨h, -⟩ <;> linarith
  · exact h

theorem RoundsUpTo.anti {y : ℝ} {j k : Int} (h : RoundsUpTo y k) (hj : -2 ^ 31 + 1 < j) (hk : k < 2 ^ 31) (hjk : j ≤ k) :
    RoundsUpTo y j := by
  rcases hjk.lt_or_eq with hlt | rfl
  · have hmid : (midUnits j : ℝ) < midUnits k := by exact_mod_cast midUnits_lt hj hk hlt
    refine .inl ?_
    rcases h with h | ⟨h, -⟩ <;> linarith
  · exact h

/-- Rounding is symmetric. -/
theorem roundsUpTo_neg (y : ℝ) (k : Int) : RoundsUpTo (-y) k ↔ ¬RoundsUpTo y (1 - k) := by
  have hmid : (midUnits (1 - k) : ℝ) = -midUnits k := by exact_mod_cast midUnits_one_sub k
  have hparity : (1 - k) % 2 = 0 ↔ ¬k % 2 = 0 := by omega
  rw [RoundsUpTo, RoundsUpTo, hmid, hparity]
  constructor
  · rintro (h | ⟨h, heven⟩) (h' | ⟨h', hodd⟩)
    · linarith
    · linarith
    · linarith
    · exact hodd heven
  · intro h
    push Not at h
    obtain ⟨hle, htie⟩ := h
    rcases hle.lt_or_eq with hlt | heq
    · exact .inl (by linarith)
    · exact .inr ⟨by linarith, htie heq.symm⟩

/-! ### The rounded key -/

/-- `K` is the key that `y` rounds to: the greatest that `y` reaches, or that of the negative infinity. -/
structure IsRoundedKey (y : ℝ) (K : Int) : Prop where
  lower : -infinityKey ≤ K
  upper : K ≤ infinityKey
  iff_le : ∀ k, -infinityKey < k → k ≤ infinityKey → (RoundsUpTo y k ↔ k ≤ K)

theorem exists_isRoundedKey (y : ℝ) : ∃ K, IsRoundedKey y K := by
  obtain ⟨K, ⟨hupper, hK⟩, hgreatest⟩ := Int.exists_greatest_of_bdd
    (P := fun k => k ≤ infinityKey ∧ (k = -infinityKey ∨ -infinityKey < k ∧ RoundsUpTo y k))
    ⟨infinityKey, fun k hk => hk.1⟩ ⟨-infinityKey, by decide, .inl rfl⟩
  have hlower : -infinityKey ≤ K := hgreatest _ ⟨by decide, .inl rfl⟩
  have hrange : infinityKey = 0x7F800000 := rfl
  refine ⟨K, hlower, hupper, fun k hlo hhi => ⟨fun h => hgreatest k ⟨hhi, .inr ⟨hlo, h⟩⟩, fun h => ?_⟩⟩
  rcases hK with rfl | ⟨-, hK⟩
  · omega
  · exact hK.anti (by omega) (by omega) h

theorem IsRoundedKey.le {y y' : ℝ} {K K' : Int} (h : IsRoundedKey y K) (h' : IsRoundedKey y' K') (hy : y ≤ y') : K ≤ K' := by
  rcases h.lower.eq_or_lt with rfl | hlt
  · exact h'.lower
  · exact (h'.iff_le K hlt h.upper).1 (((h.iff_le K hlt h.upper).2 le_rfl).mono hy)

theorem IsRoundedKey.neg {y : ℝ} {K : Int} (h : IsRoundedKey y K) : IsRoundedKey (-y) (-K) where
  lower := neg_le_neg h.upper
  upper := neg_le.1 h.lower
  iff_le k hlo hhi := by
    rw [roundsUpTo_neg, h.iff_le (1 - k) (by omega) (by omega)]
    omega

/-- The rounding of a natural number is its rounded key. -/
theorem roundUnits_isRoundedKey (m s : Nat) : IsRoundedKey (m / 2 ^ s) (roundUnits m s) where
  lower := le_trans (by decide) (Int.natCast_nonneg _)
  upper := Int.ofNat_le.2 (roundUnits_le_infinity m s)
  iff_le k hlo hhi := by
    have hrange : infinityKey = 0x7F800000 := rfl
    have hscale : (0 : ℝ) < 2 ^ s := by positivity
    rcases le_or_gt k 0 with hk | hk
    · have hmid : midUnits k < 0 := by
        have hone := keyUnits_lt (a := k - 1) (b := 0) (by omega) (by omega) (by omega)
        have hzero := keyUnits_le (a := k) (b := 0) (by omega) (by omega) hk
        rw [show keyUnits 0 = 0 from rfl] at hone hzero
        unfold midUnits
        omega
      have hmid : (midUnits k : ℝ) < 0 := by exact_mod_cast hmid
      have hm : (0 : ℝ) ≤ m / 2 ^ s := by positivity
      exact ⟨fun _ => by omega, fun _ => .inl (by linarith)⟩
    · obtain ⟨p, rfl⟩ : ∃ p : Nat, k = p + 1 := ⟨(k - 1).toNat, by omega⟩
      have hmid : midUnits (p + 1) = ((patternUnits p + patternUnits (p + 1) : ℕ) : ℤ) := by
        rw [midUnits, add_sub_cancel_right, keyUnits_natCast (by omega)]
        have := keyUnits_natCast (p := p + 1) (by omega)
        push_cast at this ⊢
        rw [this]
      have hthreshold := lt_roundUnits_iff m s p (by omega)
      rw [show (p + 1 : Int) ≤ roundUnits m s ↔ p < roundUnits m s by omega, hthreshold, RoundsUpTo, hmid,
        show ((p : Int) + 1) % 2 = 0 ↔ p % 2 = 1 by omega, mul_div_assoc', lt_div_iff₀ hscale, eq_div_iff hscale.ne']
      exact_mod_cast Iff.rfl

theorem roundInt_isRoundedKey (z : Int) (s : Nat) : IsRoundedKey (z / 2 ^ s) (orderKey (roundInt z s)) := by
  have hmag : roundUnits z.natAbs s < 2 ^ 31 := lt_of_le_of_lt (roundUnits_le_infinity _ _) (by decide)
  have habs := roundUnits_isRoundedKey z.natAbs s
  rw [roundInt, orderKey_withSign _ hmag]
  simp only [decide_eq_true_eq]
  split
  · next hneg =>
    have hz : (z : ℝ) / 2 ^ s = -((z.natAbs : ℝ) / 2 ^ s) := by
      rw [← neg_div, Nat.cast_natAbs, abs_of_neg hneg, Int.cast_neg, neg_neg]
    rw [hz]
    exact habs.neg
  · next hpos =>
    rwa [Nat.cast_natAbs, abs_of_nonneg (not_lt.1 hpos)] at habs

/-! ### Nearest, ties to even -/

/-- Of two values the upper one is as near from their midpoint on, and the lower one up to it. -/
theorem abs_sub_le_abs_sub_iff {a b : ℝ} (y : ℝ) (hab : a < b) :
    (|y - b| ≤ |y - a| ↔ a + b ≤ 2 * y) ∧ (|y - a| ≤ |y - b| ↔ 2 * y ≤ a + b) := by
  rw [← sq_le_sq, ← sq_le_sq]
  constructor <;> constructor <;> intro h <;> nlinarith

theorem abs_sub_realOf (y : ℝ) (w : Word) : |y / 2 ^ 149 - realOf w| = |y - keyUnits (orderKey w)| / 2 ^ 149 := by
  rw [realOf, ← units_eq_keyUnits]
  push_cast
  rw [← sub_div, abs_div, abs_of_pos (show (0 : ℝ) < 2 ^ 149 by positivity)]

/-- Every finite value is at least as far from `y` as its rounding, and as far only if the rounding is even. -/
theorem IsRoundedKey.nearest {y : ℝ} {K j : Int} (h : IsRoundedKey y K) (hK : K.natAbs < 0x7F800000) (hj : j.natAbs < 0x7F800000) :
    |y - keyUnits K| ≤ |y - keyUnits j| ∧ (|y - keyUnits K| = |y - keyUnits j| → j = K ∨ K % 2 = 0) := by
  have hrange : infinityKey = 0x7F800000 := rfl
  rcases lt_trichotomy j K with hlt | rfl | hgt
  · have hreached := (h.iff_le K (by omega) h.upper).2 le_rfl
    have hcast : (keyUnits j : ℝ) < keyUnits K := by exact_mod_cast keyUnits_lt (by omega) (by omega) hlt
    have hmid : ((keyUnits j + keyUnits K : ℤ) : ℝ) ≤ midUnits K := by
      have := keyUnits_le (a := j) (b := K - 1) (by omega) (by omega) (by omega)
      exact_mod_cast Int.add_le_add_right this _
    push_cast at hmid
    obtain ⟨hnear, hfar⟩ := abs_sub_le_abs_sub_iff y hcast
    refine ⟨hnear.2 ?_, fun heq => .inr ?_⟩
    · rcases hreached with hr | ⟨hr, -⟩ <;> linarith
    · have := hfar.1 heq.ge
      rcases hreached with hr | ⟨-, heven⟩
      · linarith
      · exact heven
  · exact ⟨le_rfl, fun _ => .inl rfl⟩
  · have hnot : ¬RoundsUpTo y (K + 1) := fun hr => by
      have := (h.iff_le (K + 1) (by omega) (by omega)).1 hr
      omega
    have hcast : (keyUnits K : ℝ) < keyUnits j := by exact_mod_cast keyUnits_lt (by omega) (by omega) hgt
    have hmid : (midUnits (K + 1) : ℝ) ≤ ((keyUnits K + keyUnits j : ℤ) : ℝ) := by
      have := keyUnits_le (a := K + 1) (b := j) (by omega) (by omega) (by omega)
      rw [midUnits, add_sub_cancel_right]
      exact_mod_cast Int.add_le_add_left this _
    push_cast at hmid
    simp only [RoundsUpTo, not_or, not_lt, not_and] at hnot
    obtain ⟨hle, htie⟩ := hnot
    obtain ⟨hfar, hnear⟩ := abs_sub_le_abs_sub_iff y hcast
    refine ⟨hnear.2 (by linarith), fun heq => .inr ?_⟩
    have := htie (by linarith [hfar.1 heq.ge])
    omega

/-- The rounded key is an infinity exactly from the midpoint past the largest finite value on. -/
theorem IsRoundedKey.eq_infinityKey_iff {y : ℝ} {K : Int} (h : IsRoundedKey y K) :
    K = infinityKey ↔ (2 ^ 25 - 1) * 2 ^ 252 ≤ y := by
  have hmid : (midUnits infinityKey : ℝ) = 2 * ((2 ^ 25 - 1) * 2 ^ 252) := by
    rw [midUnits_infinityKey]
    push_cast
    ring
  have hreached := h.iff_le infinityKey (by decide) le_rfl
  have heven : infinityKey % 2 = 0 := by decide
  rw [RoundsUpTo, hmid, mul_lt_mul_iff_right₀ two_pos, mul_right_inj' two_ne_zero, and_iff_left heven, ← le_iff_lt_or_eq] at hreached
  rw [hreached]
  exact ⟨fun hK => hK.ge, fun hle => le_antisymm h.upper hle⟩

theorem IsRoundedKey.eq_neg_infinityKey_iff {y : ℝ} {K : Int} (h : IsRoundedKey y K) :
    K = -infinityKey ↔ y ≤ -((2 ^ 25 - 1) * 2 ^ 252) := by
  rw [eq_neg_iff_add_eq_zero, add_comm, ← sub_neg_eq_add, sub_eq_zero, eq_comm, h.neg.eq_infinityKey_iff, le_neg]

theorem IsRoundedKey.natAbs_lt_iff {y : ℝ} {K : Int} (h : IsRoundedKey y K) :
    K.natAbs < 0x7F800000 ↔ |y| < (2 ^ 25 - 1) * 2 ^ 252 := by
  have hrange : infinityKey = 0x7F800000 := rfl
  have hlo := h.lower
  have hhi := h.upper
  have hneg := h.eq_neg_infinityKey_iff.not
  have hpos := h.eq_infinityKey_iff.not
  rw [not_le] at hneg hpos
  rw [abs_lt, ← hneg, ← hpos]
  omega

theorem overflow_units (y : ℝ) : |y / 2 ^ 149| < (2 ^ 25 - 1) * 2 ^ 103 ↔ |y| < (2 ^ 25 - 1) * 2 ^ 252 := by
  rw [abs_div, abs_of_pos (show (0 : ℝ) < 2 ^ 149 by positivity), div_lt_iff₀ (by positivity), mul_assoc, ← pow_add]

/-- The pattern of the rounded key is the rounding. -/
theorem IsRoundedKey.isRnd32 {y : ℝ} {K : Int} (h : IsRoundedKey y K) : IsRnd32 (y / 2 ^ 149) (keyWord K) := by
  have hrange : infinityKey = 0x7F800000 := rfl
  have hlo := h.lower
  have hhi := h.upper
  have hK : K.natAbs < 2 ^ 31 := by omega
  have hscale : (0 : ℝ) < 2 ^ 149 := by positivity
  have hthreshold : (0 : ℝ) < (2 ^ 25 - 1) * 2 ^ 252 := by norm_num
  by_cases hfinite : K.natAbs < 0x7F800000
  · refine .inl ⟨(overflow_units y).2 (h.natAbs_lt_iff.1 hfinite), by rwa [isFinite_iff, orderKey_keyWord hK], fun p hp => ?_⟩
    obtain ⟨hnear, htie⟩ := h.nearest hfinite ((isFinite_iff p).1 hp)
    rw [abs_sub_realOf, abs_sub_realOf, orderKey_keyWord hK, div_le_div_iff_of_pos_right hscale, div_left_inj' hscale.ne']
    refine ⟨hnear, fun heq => (htie heq).imp (fun hkey => ?_) fun heven => ?_⟩
    · rw [realOf, realOf, units_eq_keyUnits, units_eq_keyUnits, orderKey_keyWord hK, hkey]
    · rw [magOf_eq_natAbs, orderKey_keyWord hK]
      omega
  · refine .inr ⟨not_lt.1 fun hv => hfinite (h.natAbs_lt_iff.2 ((overflow_units y).1 hv)), ?_, ?_⟩
    · rw [isInf_iff, orderKey_keyWord hK]
      omega
    · rw [keyWord, signOf_withSign _ hK, decide_eq_true_eq]
      rcases (show K = infinityKey ∨ K = -infinityKey by omega) with hinf | hinf
      · have hpos : 0 ≤ y / 2 ^ 149 := div_nonneg (hthreshold.le.trans (h.eq_infinityKey_iff.1 hinf)) hscale.le
        exact ⟨by omega, fun hneg => absurd hneg (not_lt.2 hpos)⟩
      · have hy := h.eq_neg_infinityKey_iff.1 hinf
        exact ⟨fun _ => div_neg_of_neg_of_pos (by linarith) hscale, fun _ => by omega⟩

end Sys2Proof.Machine
end

section
/-! PROOFS. The elements of the transform (spec/43_transform.md R180 to R189, R195): the search between the ends of the interval finds
the key that the exact sum rounds to, a rounding lies within R189's tolerance, and what passes the model's test of another
implementation's result lies within it too. -/

namespace Sys2Proof.Machine

/-! ### Zeros -/

theorem realOf_of_magOf_eq_zero {w : Word} (h : magOf w = 0) : realOf w = 0 := by
  rw [magOf_eq_natAbs, Int.natAbs_eq_zero] at h
  rw [realOf, units_eq_keyUnits, h]
  norm_num [keyUnits]

theorem isFinite_of_magOf_eq_zero {w : Word} (h : magOf w = 0) : isFinite w = true := by simp [isFinite, h]

theorem magOf_freeZeroSign (free w : Word) : magOf (freeZeroSign free w) = magOf w := by
  unfold freeZeroSign
  split
  · next h => rw [magOf_withSign _ (by decide), h]
  · rfl

/-- Only a zero takes a free sign. -/
theorem freeZeroSign_cases (free w : Word) :
    freeZeroSign free w = w ∨ (magOf w = 0 ∧ magOf (freeZeroSign free w) = 0) := by
  by_cases h : magOf w = 0
  · exact .inr ⟨h, (magOf_freeZeroSign free w).trans h⟩
  · exact .inl (if_neg h)

theorem IsRnd32.of_zero {v : ℝ} {w w' : Word} (h : IsRnd32 v w) (hw : magOf w = 0) (hw' : magOf w' = 0) : IsRnd32 v w' := by
  have hreal : realOf w' = realOf w := by rw [realOf_of_magOf_eq_zero hw, realOf_of_magOf_eq_zero hw']
  rcases h with ⟨hv, -, hnear⟩ | ⟨-, hinf, -⟩
  · exact .inl ⟨hv, isFinite_of_magOf_eq_zero hw', fun p hp => by rw [hreal, hw']; exact hw ▸ hnear p hp⟩
  · simp [isInf, hw] at hinf

theorem IsTransformResult.of_zero {arith : TransformArith} {v : ℝ} {operands : List Word} {w w' : Word}
    (h : IsTransformResult arith v operands w) (hw : magOf w = 0) (hw' : magOf w' = 0) :
    IsTransformResult arith v operands w' := by
  cases arith with
  | exact => exact IsRnd32.of_zero h hw hw'
  | implementation =>
    unfold IsTransformResult at h ⊢
    simp only at h ⊢
    split
    · next hv => exact IsRnd32.of_zero (by rwa [if_pos hv] at h) hw hw'
    · next hv =>
      rw [if_neg hv, realOf_of_magOf_eq_zero hw] at h
      rw [realOf_of_magOf_eq_zero hw']
      exact ⟨isFinite_of_magOf_eq_zero hw', h.2⟩

theorem IsTransformResult.freeZeroSign {arith : TransformArith} {v : ℝ} {operands : List Word} {w : Word}
    (h : IsTransformResult arith v operands w) (free : Word) : IsTransformResult arith v operands (freeZeroSign free w) := by
  rcases freeZeroSign_cases free w with heq | ⟨hw, hw'⟩
  · rwa [heq]
  · exact h.of_zero hw hw'

/-! ### The search -/

/-- Where `roundSum`'s interval holds the sum, the search finds the key that the sum rounds to. -/
theorem roundSum_eq_keyWord {x : TrigSum} {v e K : Int} (hnear : |(v : ℝ) - 2 ^ cosBits * x.value| ≤ e)
    (hK : IsRoundedKey (x.value / 2 ^ sumShift) K) : roundSum x v e = keyWord K := by
  have hrange : infinityKey = 0x7F800000 := rfl
  obtain ⟨hbelow, habove⟩ := abs_le.1 hnear
  have hscaled : x.value / 2 ^ sumShift = 2 ^ cosBits * x.value / 2 ^ elementShift := by
    rw [show (2 : ℝ) ^ elementShift = 2 ^ cosBits * 2 ^ sumShift from pow_add 2 cosBits sumShift,
      mul_div_mul_left _ _ (by positivity)]
  have hlow := roundInt_isRoundedKey (v - e) elementShift
  have hhigh := roundInt_isRoundedKey (v + e) elementShift
  have hfuel : ∀ lo hi : Int, -infinityKey ≤ lo → hi ≤ infinityKey → hi - lo < 2 ^ 32 := by omega
  refine congrArg keyWord (bisect_correct _ K 32 _ _ (hlow.le hK ?_) (hK.le hhigh ?_) (hfuel _ _ hlow.lower hhigh.upper)
    fun k hlo hhi => ?_)
  · rw [hscaled]
    push_cast
    exact div_le_div_of_nonneg_right (by linarith) (by positivity)
  · rw [hscaled]
    push_cast
    exact div_le_div_of_nonneg_right (by linarith) (by positivity)
  · have hscale : (0 : ℝ) < 2 ^ sumShift := by positivity
    rw [← hK.iff_le k (hlow.lower.trans_lt hlo) (hhi.trans hhigh.upper), x.reaches_iff, RoundsUpTo, midUnits, mul_div_assoc',
      lt_div_iff₀ hscale, eq_div_iff hscale.ne']

theorem roundSum_isRnd32 {x : TrigSum} {v e : Int} (hnear : |(v : ℝ) - 2 ^ cosBits * x.value| ≤ e) :
    IsRnd32 (x.value / 2 ^ (149 + sumShift)) (roundSum x v e) := by
  obtain ⟨K, hK⟩ := exists_isRoundedKey (x.value / 2 ^ sumShift)
  rw [roundSum_eq_keyWord hnear hK, pow_add, mul_comm, ← div_div]
  exact hK.isRnd32

/-! ### The tolerance of another implementation -/

theorem realOf_withSign (neg : Bool) {mag : Nat} (h : mag < 2 ^ 31) :
    realOf (withSign neg mag) = (if neg = true then -1 else 1) * (patternUnits mag / 2 ^ 149) := by
  rw [realOf, units_eq_keyUnits, orderKey_withSign neg h, ← Int.cast_natCast (patternUnits mag), ← keyUnits_natCast h]
  cases neg with
  | false => rw [if_neg Bool.false_ne_true, if_neg Bool.false_ne_true, one_mul]
  | true => rw [if_pos rfl, if_pos rfl, keyUnits_neg, Int.cast_neg, neg_div, neg_one_mul]

/-- Every magnitude in range has a finite pattern just below it. -/
theorem exists_pattern_below {a : ℝ} (h0 : 0 ≤ a) (ha : a < (2 ^ 25 - 1) * 2 ^ 252) :
    ∃ p, p < 0x7F800000 ∧ patternUnits p ≤ a ∧ a - patternUnits p ≤ 1 + a / 2 ^ 23 := by
  obtain ⟨j, q, r, ⟨hq, hj⟩, ⟨hm, hr⟩, -⟩ := roundUnits_binade ⌊a⌋₊ 0
  rw [Nat.add_zero] at hm hr
  have hfloor := Nat.floor_le h0
  have hceil := Nat.lt_floor_add_one a
  rw [hm] at hfloor hceil
  push_cast at hfloor hceil
  have hpattern := patternUnits_binade j q hq.le hj
  have hbelow : (q * 2 ^ j : ℝ) ≤ a := by linarith [Nat.cast_nonneg (α := ℝ) r]
  refine ⟨j * 2 ^ 23 + q, ?_, ?_, ?_⟩
  · have hinfinity : patternUnits 0x7F800000 = 2 ^ 24 * 2 ^ 253 := patternUnits_binade 253 (2 ^ 24) (by omega) (by omega)
    rw [← patternUnits_strictMono.lt_iff_lt, hpattern, hinfinity]
    have hvalue : (q * 2 ^ j : ℝ) < 2 ^ 24 * 2 ^ 253 := by linarith
    exact_mod_cast hvalue
  · rw [hpattern]
    exact_mod_cast hbelow
  · -- a binade's step is one unit, or at most `2^-23` of the value
    have hstep : (r + 1 : ℝ) ≤ 1 + a / 2 ^ 23 := by
      have hr : (r + 1 : ℝ) ≤ 2 ^ j := by exact_mod_cast hr
      rcases hj with rfl | hj
      · linarith [div_nonneg h0 (show (0 : ℝ) ≤ 2 ^ 23 by positivity)]
      · have hj : (2 : ℝ) ^ 23 ≤ q := by exact_mod_cast hj
        have hq : (2 : ℝ) ^ j * 2 ^ 23 ≤ a := by nlinarith [show (0 : ℝ) < 2 ^ j by positivity]
        linarith [(le_div_iff₀ (by positivity)).2 hq]
    rw [hpattern]
    push_cast
    linarith

/-- Every value in range has a finite value within the tolerance. -/
theorem exists_finite_near {v : ℝ} (hv : |v| < (2 ^ 25 - 1) * 2 ^ 103) :
    ∃ p : Word, isFinite p = true ∧ |v - realOf p| ≤ 2⁻¹ ^ 16 * (1 + |v|) := by
  have hrange : |v| * 2 ^ 149 < (2 ^ 25 - 1) * 2 ^ 252 := by linarith
  obtain ⟨p, hp, hbelow, hnear⟩ := exists_pattern_below (by positivity) hrange
  have hmag : p < 2 ^ 31 := by omega
  refine ⟨withSign (decide (v < 0)) p, ?_, ?_⟩
  · simpa [isFinite, magOf_withSign _ hmag] using hp
  · have hsigned : |v - realOf (withSign (decide (v < 0)) p)| = |v| - patternUnits p / 2 ^ 149 := by
      rw [realOf_withSign _ hmag]
      push_cast
      have hle : (patternUnits p : ℝ) / 2 ^ 149 ≤ |v| := (div_le_iff₀ (by positivity)).2 hbelow
      by_cases hneg : v < 0
      · rw [abs_of_neg hneg] at hle ⊢
        simp only [hneg, decide_true, if_true]
        rw [abs_of_nonpos (by linarith)]
        ring
      · rw [abs_of_nonneg (not_lt.1 hneg)] at hle ⊢
        simp only [hneg, decide_false, Bool.false_eq_true, if_false]
        rw [abs_of_nonneg (by linarith)]
        ring
    rw [hsigned]
    have hscaled : (|v| - patternUnits p / 2 ^ 149) * 2 ^ 149 ≤ 2⁻¹ ^ 16 * (1 + |v|) * 2 ^ 149 := by
      rw [sub_mul, div_mul_cancel₀ _ (by positivity)]
      refine hnear.trans ?_
      norm_num
      linarith [abs_nonneg v]
    exact le_of_mul_le_mul_right hscaled (by positivity)

/-- A finite rounding is a result that R189 admits of another implementation. -/
theorem IsRnd32.within_tolerance {v : ℝ} {w : Word} (h : IsRnd32 v w) (hv : |v| < (2 ^ 25 - 1) * 2 ^ 103) :
    isFinite w = true ∧ (realOf w = 0 ∨ 0 < realOf w * v)
      ∧ ∀ m : ℝ, 0 ≤ m → |realOf w - v| ≤ 2⁻¹ ^ 16 * (1 + |v| + m) := by
  rcases h with ⟨-, hfinite, hnear⟩ | ⟨hover, -⟩
  · refine ⟨hfinite, ?_, fun m hm => ?_⟩
    · have hzero := (hnear 0 rfl).1
      rw [realOf_of_magOf_eq_zero (show magOf 0 = 0 from rfl), Rat.cast_zero, sub_zero, ← sq_le_sq] at hzero
      refine or_iff_not_imp_left.2 fun hne => ?_
      have hsq : (0 : ℝ) < realOf w ^ 2 := by positivity
      nlinarith
    · obtain ⟨p, hp, hclose⟩ := exists_finite_near hv
      rw [abs_sub_comm]
      have hslack : (2⁻¹ : ℝ) ^ 16 * (1 + |v|) ≤ 2⁻¹ ^ 16 * (1 + |v| + m) :=
        mul_le_mul_of_nonneg_left (by linarith) (by positivity)
      exact ((hnear p hp).1.trans hclose).trans hslack
  · exact absurd hover (not_le.2 hv)

theorem magUnits_eq_abs_units (w : Word) : (magUnits w : Int) = |units w| := by
  unfold units
  split <;> simp

/-- The largest operand, in units, is at most every bound of the operands. -/
theorem foldl_max_magUnits_le {operands : List Word} {m : ℝ} (h : ∀ x ∈ operands, |(realOf x : ℝ)| ≤ m) {a : Nat}
    (ha : (a : ℝ) ≤ m * 2 ^ 149) : ((operands.foldl (fun m w => max m (magUnits w)) a : ℕ) : ℝ) ≤ m * 2 ^ 149 := by
  induction operands generalizing a with
  | nil => exact ha
  | cons w ws ih =>
    refine ih (fun x hx => h x (List.mem_cons_of_mem _ hx)) ?_
    have hw := h w List.mem_cons_self
    have hmag : (magUnits w : ℝ) = |(units w : ℝ)| := by exact_mod_cast magUnits_eq_abs_units w
    rw [realOf] at hw
    push_cast at hw ⊢
    rw [abs_div, abs_of_pos (show (0 : ℝ) < 2 ^ 149 by positivity), div_le_iff₀ (by positivity), ← hmag] at hw
    exact max_le ha hw

/-- A test of the exact sum by its sign. -/
theorem TrigSum.compare_sign_iff (x : TrigSum) (q t : Int) :
    (0 ≤ x.compare q t ↔ (t : ℝ) ≤ 2 * q * x.value) ∧ (x.compare q t ≤ 0 ↔ 2 * q * x.value ≤ t) := by
  have hsign : ∀ s : SignType, ((0 : Int) ≤ s ↔ 0 ≤ s) ∧ ((s : Int) ≤ 0 ↔ s ≤ 0) := by decide
  rw [x.compare_correct, (hsign _).1, (hsign _).2, sign_nonneg_iff, sign_nonpos_iff, sub_nonneg, sub_nonpos]
  exact ⟨Iff.rfl, Iff.rfl⟩

theorem TrigSum.compare_one_zero (x : TrigSum) : x.compare 1 0 = SignType.sign x.value := by
  rw [x.compare_correct, Int.cast_one, mul_one, Int.cast_zero, sub_zero, sign_mul, sign_pos two_pos, one_mul]

theorem TrigSum.compare_one_zero_mul (x : TrigSum) : ((x.compare 1 0 : ℤ) : ℝ) * x.value = |x.value| := by
  rw [x.compare_one_zero]
  exact_mod_cast sign_mul_self x.value

/-- A result whose sign is that of the sum, which is what R189 asks, has a positive product with it. -/
theorem mul_pos_of_sign_eq {u : Int} {v : ℝ} (hu : u ≠ 0) (h : u.sign = SignType.sign v) : 0 < u * v := by
  rcases lt_or_gt_of_ne hu with hneg | hpos
  · have hv : SignType.sign v = -1 := by
      rw [Int.sign_eq_neg_one_of_neg hneg] at h
      exact (by decide : ∀ s : SignType, (-1 : Int) = s → s = -1) _ h
    exact mul_pos_of_neg_of_neg (by exact_mod_cast hneg) (sign_eq_neg_one_iff.1 hv)
  · have hv : SignType.sign v = 1 := by
      rw [Int.sign_eq_one_of_pos hpos] at h
      exact (by decide : ∀ s : SignType, (1 : Int) = s → s = 1) _ h
    exact mul_pos (by exact_mod_cast hpos) (sign_eq_one_iff.1 hv)

/-- What passes the test of `admissible` meets R189's constraint. -/
theorem admissible_within_tolerance {g : Word} {x : TrigSum} {n : Nat} (h : admissible g x n = true) :
    isFinite g = true ∧ (realOf g = 0 ∨ 0 < realOf g * (x.value / 2 ^ (149 + sumShift)))
      ∧ ∀ m : ℝ, n ≤ m * 2 ^ 149 → |realOf g - x.value / 2 ^ (149 + sumShift)| ≤ 2⁻¹ ^ 16 * (1 + |x.value / 2 ^ (149 + sumShift)| + m) := by
  have habs := x.compare_one_zero_mul
  have hsign := x.compare_one_zero
  simp only [admissible, Bool.and_eq_true, Bool.or_eq_true, decide_eq_true_eq, (x.compare_sign_iff _ _).1,
    (x.compare_sign_iff _ _).2] at h
  obtain ⟨⟨⟨hfinite, hsame⟩, hupper⟩, hlower⟩ := h
  have hscale : (0 : ℝ) < 2 ^ 149 := by positivity
  have hreal : (realOf g : ℝ) = units g / 2 ^ 149 := by rw [realOf]; push_cast; rfl
  refine ⟨hfinite, ?_, fun m hn => ?_⟩
  · refine or_iff_not_imp_left.2 fun hne => ?_
    have hu : units g ≠ 0 := fun hzero => hne (by rw [realOf, hzero]; norm_num)
    have hpos := mul_pos_of_sign_eq hu ((hsame.resolve_left hu).trans hsign)
    rw [hreal, div_mul_div_comm]
    positivity
  · have hshift : (2 : ℝ) ^ (149 + sumShift) = 2 ^ 149 * 2 ^ sumShift := pow_add 2 149 sumShift
    have hshift0 : (0 : ℝ) < 2 ^ sumShift := by positivity
    rw [hreal, hshift]
    set S : ℝ := 2 ^ sumShift
    have hdiff : (units g / 2 ^ 149 - x.value / (2 ^ 149 * S) : ℝ) = (units g * S - x.value) / (2 ^ 149 * S) := by
      rw [sub_div, mul_div_mul_right _ _ hshift0.ne']
    rw [hdiff, abs_div, abs_div, abs_of_pos (show 0 < 2 ^ 149 * S by positivity), div_le_iff₀ (by positivity), abs_le]
    push_cast at hupper hlower
    have hbound : (2 ^ 149 + n : ℝ) * S ≤ (1 + m) * (2 ^ 149 * S) := by
      rw [← mul_assoc]
      exact mul_le_mul_of_nonneg_right (by linarith) hshift0.le
    have hcancel : 2⁻¹ ^ 16 * (1 + |x.value| / (2 ^ 149 * S) + m) * (2 ^ 149 * S)
        = 2⁻¹ ^ 16 * ((1 + m) * (2 ^ 149 * S) + |x.value|) := by
      field_simp
      ring
    rw [hcancel]
    norm_num at hupper hlower ⊢
    constructor <;> linarith

/-! ### An element -/

/-- The choice of another implementation: its own result where that passes the test, and the rounding where not. -/
theorem implementation_isTransformResult {operands : List Word} {x : TrigSum} {r : Word} (g : Word) (hne : operands ≠ [])
    (hround : IsRnd32 (x.value / 2 ^ (149 + sumShift)) r) :
    IsTransformResult .implementation (x.value / 2 ^ (149 + sumShift)) operands
      (if isInf r = true then r
        else if admissible g x (operands.foldl (fun m w => max m (magUnits w)) 0) = true then g else r) := by
  unfold IsTransformResult
  simp only
  split
  · next hover =>
    rcases hround with ⟨hv, -⟩ | hinf
    · exact absurd hover (not_le.2 hv)
    · rw [if_pos hinf.2.1]
      exact .inr hinf
  · next hv =>
    obtain ⟨w, ws, rfl⟩ := List.exists_cons_of_ne_nil hne
    have hnonneg : ∀ m : ℝ, (∀ y ∈ w :: ws, |(realOf y : ℝ)| ≤ m) → 0 ≤ m := fun m hm =>
      (abs_nonneg _).trans (hm w List.mem_cons_self)
    obtain ⟨hroundFinite, hroundSign, hroundNear⟩ := hround.within_tolerance (not_le.1 hv)
    have hnotInf : ¬isInf r = true := fun hinf => by
      have := (isFinite_iff _).1 hroundFinite
      have := (isInf_iff _).1 hinf
      omega
    rw [if_neg hnotInf]
    split
    · next hadmissible =>
      obtain ⟨hgFinite, hgSign, hgNear⟩ := admissible_within_tolerance hadmissible
      refine ⟨hgFinite, hgSign, fun m hm => hgNear m (foldl_max_magUnits_le hm ?_)⟩
      rw [Nat.cast_zero]
      exact mul_nonneg (hnonneg m hm) (by positivity)
    · exact ⟨hroundFinite, hroundSign, fun m hm => hroundNear m (hnonneg m hm)⟩

/-- An element over finite operands is a result that `TRANSFORM_ARITH` admits, when the model's interval holds its sum. -/
theorem element_isTransformResult (arith : TransformArith) (free : Word) (index : Nat) {operands window : List Word} {x : TrigSum}
    {v e : Int} (hne : operands ≠ []) (hoperands : ∀ w ∈ operands, isFinite w = true) (hwindow : ∀ w ∈ window, isFinite w = true)
    (hnear : |(v : ℝ) - 2 ^ cosBits * x.value| ≤ e) :
    IsTransformResult arith (x.value / 2 ^ (149 + sumShift)) operands
      (element arith free index operands window x v e) := by
  have hround := roundSum_isRnd32 hnear
  have hfinite : (operands.all isFinite && window.all isFinite) = true := by
    rw [Bool.and_eq_true, List.all_eq_true, List.all_eq_true]
    exact ⟨hoperands, hwindow⟩
  simp only [element, hfinite, Bool.not_true, Bool.false_eq_true, if_false]
  refine IsTransformResult.freeZeroSign ?_ free
  cases arith with
  | exact => exact hround
  | implementation => exact implementation_isTransformResult _ hne hround

/-! ### The sums -/

/-- A sum over the stored cosines lies within its coefficients' sum of the real one. -/
theorem abs_sum_cosUnit_sub_le {n : Nat} (a : Nat → Int) (angle : Nat → Nat) (hodd : ∀ k, angle k % 2 = 1) :
    |((∑ k ∈ Finset.range n, a k * cosUnit (angle k) : ℤ) : ℝ) - 2 ^ cosBits * ∑ k ∈ Finset.range n, a k * realCos (angle k)|
      ≤ ((∑ k ∈ Finset.range n, |a k| : ℤ) : ℝ) := by
  push_cast
  rw [Finset.mul_sum, ← Finset.sum_sub_distrib]
  refine (Finset.abs_sum_le_sum_abs _ _).trans (Finset.sum_le_sum fun k _ => ?_)
  rw [show (a k * cosUnit (angle k) - 2 ^ cosBits * (a k * realCos (angle k)) : ℝ)
    = a k * (cosUnit (angle k) - 2 ^ cosBits * realCos (angle k)) by ring, abs_mul]
  exact mul_le_of_le_one_right (abs_nonneg _) (cosUnit_near _ (hodd k))

theorem dctError_eq_sum {m : Nat} (c : List Int) (hc : c.length = m) : dctError c = ∑ k ∈ Finset.range m, |c.getD k 0| := by
  rw [← sum_zipIdx_map c hc fun a _ => |a|, dctError]
  conv_lhs => rw [← List.zipIdx_map_fst 0 c, List.map_map]
  rfl

/-- The real sum that the kernel's terms name. -/
theorem value_kernelTerms {m : Nat} (r : Int) (a : List Int) (ha : a.length = m) (angle : Nat → Nat) :
    TrigSum.value ⟨r, kernelTerms a angle⟩ = r + ∑ k ∈ Finset.range m, a.getD k 0 * realCos (angle k) := by
  rw [TrigSum.value, kernelTerms, List.map_map]
  exact congrArg _ (sum_zipIdx_map a ha fun x k => (x : ℝ) * realCos (angle k))

theorem realCos_kernelAngle (n k : Nat) :
    realCos (kernelAngle n k) = Real.cos (Real.pi / 128 * (n + 1 / 2 + 64) * (k + 1 / 2)) := by
  rw [realCos, kernelAngle]
  congr 1
  push_cast
  ring

end Sys2Proof.Machine
end

section
/-! PROOFS. The two blocks of the transform (spec/43_transform.md R180 to R183): the real sum that each element's terms name is the
rule's formula, and the folded sum over the stored cosines lies within the element's bound of it. -/

namespace Sys2Proof.Machine

/-! ### The inverse transform -/

theorem units_zero : units 0 = 0 := by decide

theorem getD_map_units (a : List Word) (k : Nat) : (a.map units).getD k 0 = units (a.getD k 0) := by
  rw [← units_zero, List.getD_map]

theorem realOf_eq_units_div (w : Word) : (realOf w : ℝ) = units w / 2 ^ 149 := by
  rw [realOf]
  push_cast
  rfl

theorem two_pow_shift : (2 : ℝ) ^ (149 + sumShift) = 2 ^ 149 * 2 ^ 149 * 2 ^ 3 := by
  rw [pow_add 2 149 sumShift, show (2 : ℝ) ^ sumShift = 2 ^ 149 * 2 ^ 3 from pow_add 2 149 3, mul_assoc]

theorem inverseBlock_getD (arith : TransformArith) (free : Nat → Word) (win spec carry : List Word) {n : Nat} (hn : n < 256) :
    (inverseBlock arith free win spec carry).getD n 0 =
      inverseElement arith (free n) win spec (dctSums (spec.map units)) (dctError (spec.map units)) n
        (if n < 128 then some (carry.getD n 0) else none) := by
  rw [List.getD_eq_getElem _ _ (by rwa [inverseBlock_length])]
  simp [inverseBlock]

/-- The unfolded sum that an element of the inverse transform scales is the kernel's, in the stored cosines. -/
theorem unfold_dctSums (x : List Int) (hx : x.length = 128) {n : Nat} (hn : n < 256) :
    (foldSource n).2 * (dctSums x).getD (foldSource n).1 0
      = ∑ k ∈ Finset.range 128, x.getD k 0 * cosUnit (kernelAngle n k) := by
  have hplace : (dctSums x).getD (foldSource n).1 0 = dctSum x (foldSource n).1 := by
    rw [List.getD_eq_getElem _ _ (by simpa [dctSums] using foldSource_lt hn)]
    simp [dctSums]
  rw [hplace, foldedKernel.1 x n hn, sum_zipIdx_map x hx fun a k => a * cosUnit ((2 * n + 129) * (2 * k + 1))]
  rfl

/-- The sum of an element of the inverse transform, `w` being its window value and `c` its carry. -/
def inverseSum (w c : Word) (spec : List Word) (n : Nat) : TrigSum :=
  ⟨units c * 2 ^ sumShift, kernelTerms (spec.map fun a => units w * units a) (kernelAngle n)⟩

theorem value_inverseSum (w c : Word) {spec : List Word} (hlen : spec.length = 128) (n : Nat) :
    (inverseSum w c spec n).value = units c * 2 ^ sumShift
      + units w * ∑ k ∈ Finset.range 128, units (spec.getD k 0) * realCos (kernelAngle n k) := by
  have hterm : ∀ k, (spec.map fun a => units w * units a).getD k 0 = units w * units (spec.getD k 0) := fun k => by
    rw [← mul_zero (units w), ← units_zero, List.getD_map (f := fun a => units w * units a)]
  rw [inverseSum, value_kernelTerms (m := 128) _ _ (by rwa [List.length_map])]
  simp only [hterm, Int.cast_mul, Int.cast_pow, Int.cast_ofNat, mul_assoc, ← Finset.mul_sum]

/-- It is the formula of R180 and R182. -/
theorem value_inverseSum_div (w c : Word) {spec : List Word} (hlen : spec.length = 128) (n : Nat) :
    (inverseSum w c spec n).value / 2 ^ (149 + sumShift) = 1 / 8 * realOf w
      * ∑ k ∈ Finset.range 128, realOf (spec.getD k 0) * Real.cos (Real.pi / 128 * (n + 1 / 2 + 64) * (k + 1 / 2)) + realOf c := by
  simp only [← realCos_kernelAngle]
  rw [value_inverseSum w c hlen, div_eq_iff (by positivity)]
  simp only [realOf_eq_units_div, div_mul_eq_mul_div, ← Finset.sum_div]
  rw [two_pow_shift, show (2 : ℝ) ^ sumShift = 2 ^ 149 * 2 ^ 3 from pow_add 2 149 3]
  field_simp
  ring

/-- The model's interval holds it. -/
theorem inverseSum_near (w c : Word) {spec : List Word} (hlen : spec.length = 128) {n : Nat} (hn : n < 256) :
    |((units w * ((foldSource n).2 * (dctSums (spec.map units)).getD (foldSource n).1 0) + units c * 2 ^ elementShift : ℤ) : ℝ)
      - 2 ^ cosBits * (inverseSum w c spec n).value| ≤ ((|units w| * dctError (spec.map units) : ℤ) : ℝ) := by
  have hx : (spec.map units).length = 128 := by rw [List.length_map, hlen]
  have hfold := unfold_dctSums _ hx hn
  have herror := dctError_eq_sum _ hx
  have hsum := abs_sum_cosUnit_sub_le (n := 128) (fun k => units (spec.getD k 0)) (kernelAngle n) (kernelAngle_odd n)
  simp only [getD_map_units] at hfold herror
  rw [hfold, herror, value_inverseSum w c hlen]
  have hfactor (u x y : ℝ) : u * x + units c * 2 ^ elementShift - 2 ^ cosBits * (units c * 2 ^ sumShift + u * y)
      = u * (x - 2 ^ cosBits * y) := by
    rw [show (2 : ℝ) ^ elementShift = 2 ^ cosBits * 2 ^ sumShift from pow_add 2 cosBits sumShift]
    ring
  rw [Int.cast_add, Int.cast_mul, Int.cast_mul, Int.cast_pow, Int.cast_ofNat, hfactor, abs_mul, Int.cast_mul, Int.cast_abs]
  exact mul_le_mul_of_nonneg_left hsum (abs_nonneg _)

theorem inverseElement_isTransformResult (arith : TransformArith) (free : Word) {win spec : List Word} (hlen : spec.length = 128)
    {n : Nat} (hn : n < 256) (carry : Option Word) (hspec : ∀ w ∈ spec, isFinite w = true)
    (hwin : isFinite (win.getD n 0) = true) (hcarry : ∀ w ∈ carry, isFinite w = true) :
    IsTransformResult arith
      (1 / 8 * realOf (win.getD n 0)
          * ∑ k ∈ Finset.range 128, realOf (spec.getD k 0) * Real.cos (Real.pi / 128 * (n + 1 / 2 + 64) * (k + 1 / 2))
        + realOf (carry.getD 0))
      (spec ++ carry.toList)
      (inverseElement arith free win spec (dctSums (spec.map units)) (dctError (spec.map units)) n carry) := by
  rw [← value_inverseSum_div _ _ hlen]
  refine element_isTransformResult arith free n (by simp [List.ne_nil_of_length_eq_add_one hlen]) ?_
    (List.forall_mem_singleton.2 hwin) (inverseSum_near _ _ hlen hn)
  simp only [List.mem_append, Option.mem_toList]
  rintro x (h | h)
  · exact hspec x h
  · exact hcarry x h

/-! ### The forward transform -/

theorem getD_zip_map_units (win z : List Word) {n : Nat} (hwin : n < win.length) (hz : n < z.length) :
    ((win.zip z).map fun q => units q.1 * units q.2).getD n 0 = units (win.getD n 0) * units (z.getD n 0) := by
  rw [List.getD_eq_getElem _ _ (by simpa using ⟨hwin, hz⟩), List.getD_eq_getElem _ _ hwin, List.getD_eq_getElem _ _ hz]
  simp

/-- The windowed samples of R183. -/
def windowed (win z : List Word) : List Int := (win.zip z).map fun q => units q.1 * units q.2

/-- The sum of an element of the forward transform. -/
def forwardSum (p : List Int) (k : Nat) : TrigSum := ⟨0, kernelTerms p fun n => kernelAngle n k⟩

theorem value_forwardSum {p : List Int} (hp : p.length = 256) (k : Nat) :
    (forwardSum p k).value = ∑ n ∈ Finset.range 256, p.getD n 0 * realCos (kernelAngle n k) := by
  rw [forwardSum, value_kernelTerms 0 p hp, Int.cast_zero, zero_add]

/-- It is the formula of R183. -/
theorem value_forwardSum_div {win z : List Word} (hwin : win.length = 256) (hz : z.length = 256) (k : Nat) :
    (forwardSum (windowed win z) k).value / 2 ^ (149 + sumShift) = 1 / 8 * ∑ n ∈ Finset.range 256,
      realOf (win.getD n 0) * realOf (z.getD n 0) * Real.cos (Real.pi / 128 * (n + 1 / 2 + 64) * (k + 1 / 2)) := by
  have hproducts : ∑ n ∈ Finset.range 256, ((windowed win z).getD n 0 : ℝ) * realCos (kernelAngle n k)
      = ∑ n ∈ Finset.range 256, ((units (win.getD n 0) * units (z.getD n 0) : ℤ) : ℝ) * realCos (kernelAngle n k) :=
    Finset.sum_congr rfl fun n hn => by
      have hn := Finset.mem_range.1 hn
      rw [windowed, getD_zip_map_units win z (by rwa [hwin]) (by rwa [hz])]
  simp only [← realCos_kernelAngle]
  rw [value_forwardSum (by simp [windowed, hwin, hz]), hproducts, div_eq_iff (by positivity)]
  simp only [realOf_eq_units_div, Int.cast_mul, div_mul_eq_mul_div, mul_div_assoc', ← Finset.sum_div]
  rw [two_pow_shift]
  field_simp
  ring

/-- The model's interval holds it. -/
theorem forwardSum_near {p : List Int} (hp : p.length = 256) (k : Nat) :
    |(dctSum (foldForward p) k : ℝ) - 2 ^ cosBits * (forwardSum p k).value| ≤ dctError (foldForward p) := by
  have hsum := abs_sum_cosUnit_sub_le (n := 128) (fun j => (foldForward p).getD j 0) (fun j => (2 * j + 1) * (2 * k + 1))
    (fun j => by rw [Nat.mul_mod, show (2 * j + 1) % 2 = 1 by omega, show (2 * k + 1) % 2 = 1 by omega])
  rw [value_forwardSum hp, ← realCos_turnsLikeCosine.foldForward p k, dctSum_eq_sum _ (foldForward_length p),
    dctError_eq_sum _ (foldForward_length p)]
  simpa only [mul_comm (2 * k + 1)] using hsum

theorem forwardBlock_isTransformResult (arith : TransformArith) (free : Nat → Word) {win prev block : List Word}
    (hwinLen : win.length = 256) (hlen : (prev ++ block).length = 256) {k : Nat} (hk : k < 128)
    (hwin : ∀ w ∈ win, isFinite w = true) (hz : ∀ w ∈ prev ++ block, isFinite w = true) :
    IsTransformResult arith
      (1 / 8 * ∑ n ∈ Finset.range 256, realOf (win.getD n 0) * realOf ((prev ++ block).getD n 0)
        * Real.cos (Real.pi / 128 * (n + 1 / 2 + 64) * (k + 1 / 2)))
      (prev ++ block) ((forwardBlock arith free win prev block).getD k 0) := by
  have helement : (forwardBlock arith free win prev block).getD k 0 =
      element arith (free k) (256 + k) (prev ++ block) win (forwardSum (windowed win (prev ++ block)) k)
        (dctSum (foldForward (windowed win (prev ++ block))) k) (dctError (foldForward (windowed win (prev ++ block)))) := by
    rw [List.getD_eq_getElem _ _ (by rwa [forwardBlock_length])]
    simp [forwardBlock, forwardSum, kernelAngle, windowed]
  rw [← value_forwardSum_div hwinLen hlen, helement]
  exact element_isTransformResult arith (free k) (256 + k) (List.ne_nil_of_length_eq_add_one hlen) hz hwin
    (forwardSum_near (by simp only [windowed, List.length_map, List.length_zip, hwinLen, hlen, min_self]) k)

/-- Settles O31, from the interval that the stored cosines give each sum. -/
theorem elementsAreRoundedSums : Obligations.ElementsAreRoundedSums := by
  intro arith free win a b hwinLen ha hb hfinite
  have hwin : ∀ w ∈ win, isFinite w = true := fun w hw => hfinite w (by simp [hw])
  have hspec : ∀ w ∈ a, isFinite w = true := fun w hw => hfinite w (by simp [hw])
  have hz : ∀ w ∈ a ++ b, isFinite w = true := fun w hw => hfinite w (by
    rw [List.append_assoc]
    exact List.mem_append_right _ hw)
  refine ⟨fun n v hn hv => ?_, fun k v hk hv => ?_⟩
  · have hw : isFinite (win.getD n 0) = true := getD_of_forall hwin rfl n
    have hc : isFinite (b.getD n 0) = true := getD_of_forall (fun w hw => hz w (List.mem_append_right _ hw)) rfl n
    rw [inverseBlock_getD arith free win a b hn, hv]
    by_cases hlow : n < 128
    · simp only [hlow, if_true]
      exact inverseElement_isTransformResult arith (free n) ha hn (some (b.getD n 0)) hspec hw (by simpa using hc)
    · simp only [hlow, if_false]
      have hnone := inverseElement_isTransformResult arith (free n) ha hn none hspec hw (by simp)
      rw [Option.getD_none, realOf_of_magOf_eq_zero (w := 0) rfl, Rat.cast_zero] at hnone
      simpa only [Option.toList_none, List.append_nil, add_zero] using hnone
  · rw [hv]
    exact forwardBlock_isTransformResult arith free hwinLen (by simp [ha, hb]) hk hwin hz

end Sys2Proof.Machine
end

section
/-! PROOFS. Commands that run one block after another (spec/30_encoding.md R91, spec/43_transform.md R192): what one block's turn leaves
stands at the end where no other block writes, and it read what stood at the start there. With it the elements of a slot's arrays
after a store (spec/20_memory.md R74), and the places of the blocks of the transform and of PCM. -/

namespace Sys2Proof.Machine

/-! ### Elements of a slot's arrays -/

theorem slotAddr_add (ch : Nat) (array : SlotArray) (i n : Nat) : slotAddr ch array i + n = slotAddr ch array (i + n) :=
  Nat.add_assoc _ _ _

theorem wordAt_congr {s t : State} {a : Nat} (h : ∀ j, j < 4 → t.byte (a + j) = s.byte (a + j)) : t.wordAt a = s.wordAt a := by
  unfold State.wordAt
  rw [h 3 (by omega), h 2 (by omega), h 1 (by omega), show t.byte a = s.byte a from h 0 (by omega)]

theorem halfAt_congr {s t : State} {a : Nat} (h : ∀ j, j < 2 → t.byte (a + j) = s.byte (a + j)) : t.halfAt a = s.halfAt a := by
  unfold State.halfAt
  rw [h 1 (by omega), show t.byte a = s.byte a from h 0 (by omega)]

/-- Equal 16-bit elements are equal byte by byte. -/
theorem byte_eq_of_halfAt_eq {s t : State} {a : Nat} (h : t.halfAt a = s.halfAt a) :
    t.byte a = s.byte a ∧ t.byte (a + 1) = s.byte (a + 1) := by
  unfold State.halfAt at h
  have hhigh := congrArg (BitVec.extractLsb' 8 8) h
  have hlow := congrArg (BitVec.extractLsb' 0 8) h
  simp only [BitVec.extractLsb'_append_eq_left, BitVec.extractLsb'_append_eq_right] at hhigh hlow
  exact ⟨hlow, hhigh⟩

/-- A stored 32-bit element of a slot's array reads back. -/
theorem wordAt_putSlotWords (s : State) {ch i n : Nat} {array : SlotArray} {ws : List Word} (hch : ch < 16)
    (hmask : slotMask array = 0xFF#8) (hn : n < ws.length) (hplace : i + 4 * ws.length ≤ slotArrayBytes array) :
    (s.putWords (slotAddr ch array i) ws).wordAt (slotAddr ch array i + 4 * n) = ws.getD n 0 := by
  rw [List.getD_eq_getElem _ _ hn]
  refine State.wordAt_putWords s _ n ws hn fun j hj => ?_
  rw [slotAddr_add, slotAddr_add, cellMask_slotAddr ch array _ hch (by omega), hmask]

theorem flatMap_halfBytes_getElem (hs : List Half) (i j : Nat) (hi : i < hs.length) (hj : j < 2)
    (h : 2 * i + j < (hs.flatMap halfBytes).length) : (hs.flatMap halfBytes)[2 * i + j] = hs[i].extractLsb' (8 * j) 8 := by
  induction hs generalizing i with
  | nil => simp at hi
  | cons x xs ih =>
    cases i with
    | zero =>
      have hfirst : 2 * 0 + j < (halfBytes x).length := by simpa using hj
      simp only [List.flatMap_cons, List.getElem_append_left hfirst, List.getElem_cons_zero]
      interval_cases j <;> rfl
    | succ i =>
      have hlater : (halfBytes x).length ≤ 2 * (i + 1) + j := by rw [halfBytes_length]; omega
      have hrest : 2 * i + j < (xs.flatMap halfBytes).length := by
        rw [List.flatMap_cons, List.length_append, halfBytes_length] at h
        omega
      simp only [List.flatMap_cons, List.getElem_append_right hlater, List.getElem_cons_succ]
      rw [← ih i (by simpa using hi) hrest]
      congr 1
      rw [halfBytes_length]
      omega

/-- A stored 16-bit element of a slot's array reads back. -/
theorem halfAt_putSlotHalves (s : State) {ch i n : Nat} {array : SlotArray} {hs : List Half} (hch : ch < 16)
    (hmask : slotMask array = 0xFF#8) (hn : n < hs.length) (hplace : i + 2 * hs.length ≤ slotArrayBytes array) :
    (s.putHalves (slotAddr ch array i) hs).halfAt (slotAddr ch array i + 2 * n) = hs.getD n 0 := by
  have hlen := flatMap_halfBytes_length hs
  have hbyte : ∀ j, j < 2 → (s.putHalves (slotAddr ch array i) hs).byte (slotAddr ch array i + 2 * n + j)
      = hs[n].extractLsb' (8 * j) 8 := fun j hj => by
    rw [Nat.add_assoc, State.putHalves_eq, State.byte_putBytes_whole s _ (2 * n + j) _ (by omega)
      (by rw [slotAddr_add, cellMask_slotAddr ch array _ hch (by omega), hmask]), flatMap_halfBytes_getElem hs n j hn hj]
  unfold State.halfAt
  rw [List.getD_eq_getElem _ _ hn, hbyte 1 (by omega), show (s.putHalves (slotAddr ch array i) hs).byte (slotAddr ch array i + 2 * n)
    = _ from hbyte 0 (by omega), BitVec.extractLsb'_append_extractLsb'_eq_extractLsb' (by omega)]
  exact BitVec.extractLsb'_eq_self

/-! ### One turn of an iteration -/

/-- Another block of the iteration writes the byte. `w` says which bytes a block writes. -/
def writtenByOthers (w : Nat → Nat → Nat → Bool) (chans subs : List Nat) (c q a : Nat) : Bool :=
  chans.any fun c' => subs.any fun q' => decide (c' ≠ c ∨ q' ≠ q) && w c' q' a

theorem writtenByOthers_of {w : Nat → Nat → Nat → Bool} {chans subs : List Nat} {c q c' q' : Nat} (hc : c' ∈ chans)
    (hq : q' ∈ subs) (hne : c' ≠ c ∨ q' ≠ q) (a : Nat) (h : w c' q' a = true) : writtenByOthers w chans subs c q a = true :=
  List.any_eq_true.2 ⟨c', hc, List.any_eq_true.2 ⟨q', hq, by rw [h, Bool.and_true, decide_eq_true_eq]; exact hne⟩⟩

theorem not_writtenByOthers {w : Nat → Nat → Nat → Bool} {chans subs : List Nat} {c q a : Nat}
    (h : ∀ c' ∈ chans, ∀ q' ∈ subs, c' ≠ c ∨ q' ≠ q → w c' q' a = false) : writtenByOthers w chans subs c q a = false := by
  rw [← Bool.not_eq_true, writtenByOthers, List.any_eq_true]
  rintro ⟨c', hc, hany⟩
  obtain ⟨q', hq, hother⟩ := List.any_eq_true.1 hany
  rw [Bool.and_eq_true, decide_eq_true_eq] at hother
  exact Bool.false_ne_true ((h c' hc q' hq hother.1).symm.trans hother.2)

/-- An element's turn starts in a state that only the others have changed, and only the others change what it leaves. -/
theorem forEach_turn {s : State} {p p' : Nat → Bool} {f : Nat → State → State} {xs : List Nat} {x : Nat} (hnodup : xs.Nodup)
    (hx : x ∈ xs)
    (hothers : ∀ y ∈ xs, y ≠ x → ∀ m d, StoresWithin p { s with mem := m, draws := d } (f y { s with mem := m, draws := d }))
    (hself : ∀ m d, StoresWithin p' { s with mem := m, draws := d } (f x { s with mem := m, draws := d })) :
    ∃ m d, StoresWithin p s { s with mem := m, draws := d }
      ∧ StoresWithin p (f x { s with mem := m, draws := d }) (forEach xs f s) := by
  obtain ⟨before, later, rfl⟩ := List.append_of_mem hx
  have hnotin := List.nodup_middle.1 hnodup |>.notMem
  have hne : ∀ y, y ∈ before ∨ y ∈ later → y ≠ x := fun y hy heq => hnotin (by rw [← heq]; exact List.mem_append.2 hy)
  have hbefore : StoresWithin p s (forEach before f s) :=
    .forEach before f fun y hy => hothers y (List.mem_append_left _ hy) (hne y (.inl hy))
  obtain ⟨m, d, hstart⟩ := hbefore.rest
  refine ⟨m, d, hstart ▸ hbefore, ?_⟩
  rw [forEach_append, forEach_cons, hstart]
  obtain ⟨m', d', hend⟩ := (hself m d).rest
  rw [hend]
  exact .forEach later f fun y hy => hothers y (List.mem_append_right _ (List.mem_cons_of_mem _ hy)) (hne y (.inr hy))

/-- The same for a block of a channel's subframe. -/
theorem forBlocks_turn {s : State} {w : Nat → Nat → Nat → Bool} {block : Nat → Nat → State → State} {chans subs : List Nat}
    {c q : Nat} (hchans : chans.Nodup) (hsubs : subs.Nodup) (hc : c ∈ chans) (hq : q ∈ subs)
    (hblock : ∀ c ∈ chans, ∀ q ∈ subs, ∀ m d,
      StoresWithin (w c q) { s with mem := m, draws := d } (block c q { s with mem := m, draws := d })) :
    ∃ u : State, u.arith = s.arith ∧ ∀ a, writtenByOthers w chans subs c q a = false →
      u.byte a = s.byte a ∧ (forBlocks block chans subs s).byte a = (block c q u).byte a := by
  obtain ⟨m, d, hbefore, hlater⟩ := forEach_turn (p := writtenByOthers w chans subs c q) (p' := fun _ => true)
    (f := fun ch => forEach subs (block ch)) hchans hc
    (fun c' hc' hne m d => .forEach subs _ fun q' hq' m d =>
      (hblock c' hc' q' hq' m d).mono (writtenByOthers_of hc' hq' (.inl hne)))
    (fun m d => .forEach subs _ fun q' hq' m d => (hblock c hc q' hq' m d).mono fun _ _ => rfl)
  obtain ⟨m', d', hbefore', hlater'⟩ := forEach_turn (s := { s with mem := m, draws := d })
    (p := writtenByOthers w chans subs c q) (p' := w c q) (f := block c) hsubs hq
    (fun q' hq' hne m d => (hblock c hc q' hq' m d).mono (writtenByOthers_of hc hq' (.inr hne))) (fun m d => hblock c hc q hq m d)
  exact ⟨{ s with mem := m', draws := d' }, rfl, fun a ha => ⟨(hbefore.trans hbefore').bytes a ha, (hlater'.trans hlater).bytes a ha⟩⟩

/-! ### The commands that run blocks -/

/-- A command that runs blocks completes when its checks pass, and only its own places have changed. -/
theorem blockCommand_completes {i : Instr} {s u : State} {ch : Nat} {allCh : Bool} (hcfg : cfgOk s = true)
    (hch : ChannelOk s ch allCh) (heffect : effectOf i s = requireCfg s (requireChannel s ch allCh (.ok u)))
    (hframe : StoresWithin (writesByte i s) s u) :
    exec i s = .next (completeOk u) ∧ Completed .none 0 (completeOk u) ∧ FlagsKept s (completeOk u)
      ∧ UnchangedOutside i s (completeOk u) := by
  rw [requireCfg_of_ok s _ hcfg, requireChannel_of_ok s ch allCh _ hch] at heffect
  exact ⟨(exec_next_iff i s _).2 (by rw [heffect]; rfl), completed_completeOk u, flagsKept_completeOk hframe.status,
    (hframe.leavesOutside _).completeOk (writesReg_errInfo i)⟩

theorem channelSet_nodup (s : State) (ch : Nat) (allCh : Bool) : (channelSet s ch allCh).Nodup := by
  cases allCh with
  | true => exact List.nodup_range
  | false => exact List.nodup_singleton ch

theorem subframeSet_nodup (sub : Nat) (allSf : Bool) : (subframeSet sub allSf).Nodup := by
  cases allSf with
  | true => exact List.nodup_range
  | false => exact List.nodup_singleton sub

theorem mem_channelSet_iff (s : State) (ch : Nat) (allCh : Bool) (c : Nat) :
    c ∈ channelSet s ch allCh ↔ Selects s ch allCh c := by cases allCh <;> simp [channelSet, Selects]

theorem mem_subframeSet_iff (sub : Nat) (allSf : Bool) (q : Nat) : q ∈ subframeSet sub allSf ↔ SelectsSub sub allSf q := by
  cases allSf <;> simp [subframeSet, SelectsSub]

/-- Each channel of the set passes the check by itself. -/
theorem channelOk_of_mem {s : State} {ch : Nat} {allCh : Bool} (hch : ChannelOk s ch allCh) {c : Nat}
    (hc : c ∈ channelSet s ch allCh) : ChannelOk s c false := by
  cases allCh with
  | true => exact .inr (List.mem_range.1 hc)
  | false => exact (List.mem_singleton.1 hc) ▸ .inr (by simpa [ChannelOk] using hch)

/-! ### The places of a block -/

/-- The window's bytes (spec/20_memory.md R71). -/
theorem regionOf_win {i : Nat} (h : i < 0x400) : regionOf (winBase + i) = .win i := by
  have heq : winBase + i = 0x20C00 + i := rfl
  generalize winBase + i = a at heq
  unfold regionOf
  rw [if_neg (by omega), if_neg (by omega), if_pos (by omega), if_neg (by omega), if_neg (by omega), if_neg (by omega),
    if_neg (by omega), if_neg (by omega), if_neg (by omega), if_neg (by omega), if_neg (by omega), if_neg (by omega),
    if_neg (by omega), if_neg (by omega), if_neg (by omega), if_neg (by omega), if_pos (by omega), show a - 0x20C00 = i by omega]

theorem inSlot_win {i : Nat} (h : i < 0x400) (p : Nat → SlotArray → Nat → Bool) : inSlot (winBase + i) p = false := by
  unfold inSlot
  rw [regionOf_win h]

/-- The commands of one block of the transform and of PCM. -/
def blockCommands (ch sub : Nat) : List Instr :=
  [.imdct ch false sub false, .mdct ch false sub false, .pcmOut ch false sub false, .pcmIn ch false sub false]

/-- A block writes nothing of the window. -/
theorem blockCommands_win {i : Instr} {ch sub n : Nat} (hi : i ∈ blockCommands ch sub) (hn : n < 0x400) (s : State) :
    writesByte i s (winBase + n) = false := by
  have hwin := inSlot_win hn
  simp only [blockCommands, List.mem_cons, List.not_mem_nil, or_false] at hi
  rcases hi with rfl | rfl | rfl | rfl <;> exact hwin _

/-- A block writes nothing of another channel's slot. -/
theorem blockCommands_slot {i : Instr} {ch sub c n : Nat} {array : SlotArray} (hi : i ∈ blockCommands ch sub) (hne : ch ≠ c)
    (hc : c < 16) (hn : n < slotArrayBytes array) (s : State) : writesByte i s (slotAddr c array n) = false := by
  simp only [blockCommands, List.mem_cons, List.not_mem_nil, or_false] at hi
  rcases hi with rfl | rfl | rfl | rfl <;>
    simp [writesByte, inSlot_slotAddr c array n _ hc hn, channelSet, Ne.symm hne]

/-- The window, or a channel's own slot: what a block reads. -/
inductive ReadByBlock (c : Nat) : Nat → Prop where
  | win {n : Nat} (hn : n < 0x400) : ReadByBlock c (winBase + n)
  | slot (array : SlotArray) {n : Nat} (hn : n < slotArrayBytes array) : ReadByBlock c (slotAddr c array n)

/-- In a command for one subframe no other channel's block writes what a block reads. -/
theorem not_writtenByOthers_of_one_subframe {single : Nat → Nat → Instr} (hsingle : ∀ ch q, single ch q ∈ blockCommands ch q) (s : State)
    (chans : List Nat) {c sub a : Nat} (hc : c < 16) (ha : ReadByBlock c a) :
    writtenByOthers (fun ch q => writesByte (single ch q) s) chans [sub] c sub a = false := by
  refine not_writtenByOthers fun c' _ q' hq' hne => ?_
  have hne : c' ≠ c := hne.resolve_right (not_not.2 (List.mem_singleton.1 hq'))
  cases ha with
  | win hn => exact blockCommands_win (hsingle c' q') hn s
  | slot array hn => exact blockCommands_slot (hsingle c' q') hne hc hn s

/-- No other channel's block writes a byte of a channel's slot, and no other row's block one that is its row's alone. -/
theorem not_writtenByOthers_of_row {single : Nat → Nat → Instr} (hsingle : ∀ ch q, single ch q ∈ blockCommands ch q) (s : State)
    (chans subs : List Nat) {c q n : Nat} {array : SlotArray} (hc : c < 16) (hn : n < slotArrayBytes array)
    (hrow : ∀ q', q' ≠ q → writesByte (single c q') s (slotAddr c array n) = false) :
    writtenByOthers (fun ch q => writesByte (single ch q) s) chans subs c q (slotAddr c array n) = false := by
  refine not_writtenByOthers fun c' _ q' _ hne => ?_
  by_cases hchannel : c' = c
  · exact hchannel ▸ hrow q' (hne.resolve_left (not_not.2 hchannel))
  · exact blockCommands_slot (hsingle c' q') hchannel hc hn s

/-- A block of a command for one subframe: it starts from what stood in its places before the command, and what it leaves there
stands at the end. -/
theorem oneSubframe_turn {single : Nat → Nat → Instr} {block : Nat → Nat → State → State}
    (hsingle : ∀ ch q, single ch q ∈ blockCommands ch q) {s : State} {ch sub : Nat} {allCh : Bool} (hcfg : cfgOk s = true)
    (hch : ChannelOk s ch allCh)
    (hblock : ∀ c, ChannelOk s c false → ∀ m d,
      StoresWithin (writesByte (single c sub) s) { s with mem := m, draws := d } (block c sub { s with mem := m, draws := d }))
    {c : Nat} (hc : c ∈ channelSet s ch allCh) :
    ∃ u : State, u.arith = s.arith ∧ ∀ a, (∀ j, j < 4 → ReadByBlock c (a + j)) →
      u.wordAt a = s.wordAt a ∧ (forBlocks block (channelSet s ch allCh) [sub] s).wordAt a = (block c sub u).wordAt a := by
  obtain ⟨u, harith, hturn⟩ := forBlocks_turn (w := fun ch q => writesByte (single ch q) s) (channelSet_nodup s ch allCh)
    (List.nodup_singleton sub) hc (List.mem_singleton.2 rfl)
    (fun c hc q hq => by
      obtain rfl := List.mem_singleton.1 hq
      exact hblock c (channelOk_of_mem hch hc))
  have hfree := fun a => not_writtenByOthers_of_one_subframe hsingle s (channelSet s ch allCh) (sub := sub) (a := a)
    (channelSet_lt hcfg hch hc)
  exact ⟨u, harith, fun a ha => ⟨wordAt_congr fun j hj => (hturn _ (hfree _ (ha j hj))).1,
    wordAt_congr fun j hj => (hturn _ (hfree _ (ha j hj))).2⟩⟩

/-- The elements that a block reads and writes. -/
theorem readByBlock_win {c k : Nat} (hk : k < 256) : ∀ j, j < 4 → ReadByBlock c (winBase + 4 * k + j) := fun j hj => by
  rw [Nat.add_assoc]
  exact .win (by omega)

theorem readByBlock_slot {c i k : Nat} {array : SlotArray} (hplace : i + 512 ≤ slotArrayBytes array) (hk : k < 128) :
    ∀ j, j < 4 → ReadByBlock c (slotAddr c array i + 4 * k + j) := fun j hj => by
  rw [slotAddr_add, slotAddr_add]
  exact .slot array (by omega)

end Sys2Proof.Machine
end

section
/-! PROOFS. IMDCT and MDCT (spec/43_transform.md R184 to R186, R192): what one block leaves in its arrays, what a spectrum of zeros
gives, and that a command for all subframes is its eight blocks one after another. -/

namespace Sys2Proof.Machine

/-! ### IMDCT -/

theorem State.tick_wordAt (s : State) (a : Nat) : s.tick.wordAt a = s.wordAt a := by
  simp only [State.wordAt, State.tick_byte]

theorem slotAddr_zero_add (ch : Nat) (array : SlotArray) (n : Nat) : slotAddr ch array 0 + n = slotAddr ch array n := by
  rw [slotAddr_add, Nat.zero_add]

theorem imdctBlock_words (s : State) {ch sub : Nat} (hch : ch < 16) (hsub : sub < 8) : ∃ free : Nat → Word, ∀ n, n < 128 →
    (imdctBlock ch sub s).wordAt (tbufAddr ch sub + 4 * n) =
        (inverseBlock s.arith free (s.words winBase 256) (s.words (specRowAddr ch sub) 128)
          (s.words (slotAddr ch .imdctCarry 0) 128)).getD n 0
      ∧ (imdctBlock ch sub s).wordAt (slotAddr ch .imdctCarry (4 * n)) =
        (inverseBlock s.arith free (s.words winBase 256) (s.words (specRowAddr ch sub) 128)
          (s.words (slotAddr ch .imdctCarry 0) 128)).getD (128 + n) 0 := by
  refine ⟨fun n => s.free (if n < 128 then tbufAddr ch sub + 4 * n else slotAddr ch .imdctCarry (4 * (n - 128))), fun n hn => ?_⟩
  generalize hout : inverseBlock s.arith _ _ _ _ = out
  have hlen : out.length = 256 := hout ▸ inverseBlock_length ..
  have hblock : imdctBlock ch sub s =
      ((s.putWords (tbufAddr ch sub) (out.take 128)).putWords (slotAddr ch .imdctCarry 0) (out.drop 128)).tick := by
    rw [← hout]
    rfl
  have htake : (out.take 128).length = 128 := by rw [List.length_take, hlen, min_eq_left (by omega)]
  have hdrop : (out.drop 128).length = 128 := by rw [List.length_drop, hlen]
  rw [hblock, State.tick_wordAt, State.tick_wordAt]
  constructor
  · have hafter : slotAddr ch .imdctCarry 0 + ((out.drop 128).flatMap wordBytes).length ≤ tbufAddr ch sub + 4 * n := by
      rw [flatMap_wordBytes_length, hdrop]
      simp only [tbufAddr, slotAddr, slotArrayOffset]
      omega
    calc _ = (s.putWords (tbufAddr ch sub) (out.take 128)).wordAt (tbufAddr ch sub + 4 * n) := by
          rw [State.putWords_eq _ (slotAddr ch .imdctCarry 0), State.wordAt_putBytes_outside _ _ _ _ (.inr hafter)]
      _ = (out.take 128).getD n 0 :=
          wordAt_putSlotWords s hch rfl (by rwa [htake]) (by rw [htake]; simp only [slotArrayBytes]; omega)
      _ = out.getD n 0 := by simp [List.getD_eq_getElem?_getD, hn]
  · have hcarry := wordAt_putSlotWords (s.putWords (tbufAddr ch sub) (out.take 128)) (array := .imdctCarry) (i := 0)
      (ws := out.drop 128) (n := n) hch rfl (by rwa [hdrop]) (by rw [hdrop]; decide)
    rw [slotAddr_zero_add] at hcarry
    refine hcarry.trans ?_
    simp [List.getD_eq_getElem?_getD, List.getElem?_drop]

theorem completeOk_wordAt (s : State) (a : Nat) : (completeOk s).wordAt a = s.wordAt a := by
  simp only [State.wordAt, completeOk_byte]

theorem words_congr {s u : State} {base n : Nat} (h : ∀ k, k < n → u.wordAt (base + 4 * k) = s.wordAt (base + 4 * k)) :
    u.words base n = (List.range n).map fun k => s.wordAt (base + 4 * k) := by
  rw [State.words_eq_map]
  exact List.map_congr_left fun k hk => h k (List.mem_range.1 hk)

/-- Settles O52: a block's turn reads and leaves its channel's arrays as if it ran alone. -/
theorem imdctTransformsBlock : Obligations.ImdctTransformsBlock := by
  intro s ch allCh sub allSf hcfg hch hsub
  obtain ⟨hexec, hcompleted, hflags, hplaces⟩ :=
    blockCommand_completes (i := .imdct ch allCh sub allSf) hcfg hch rfl (imdct_frame hcfg hch hsub)
  refine ⟨_, hexec, hcompleted, hflags, hplaces, fun c hc hallSf => ?_⟩
  subst hallSf
  have hc := (mem_channelSet_iff s ch allCh c).2 hc
  obtain ⟨u, harith, hturn⟩ := oneSubframe_turn (single := fun ch q => .imdct ch false q false) (block := imdctBlock) (sub := sub)
    (fun _ _ => by simp [blockCommands]) hcfg hch
    (fun c hc m d => imdct_frame (s := { s with mem := m, draws := d }) hcfg hc hsub) hc
  have hcarry : 0 + 512 ≤ slotArrayBytes .imdctCarry := by decide
  have htbuf : 512 * sub + 512 ≤ slotArrayBytes .tbuf := by simp only [slotArrayBytes]; omega
  have hspec : 512 * sub + 512 ≤ slotArrayBytes .spec := by simp only [slotArrayBytes]; omega
  obtain ⟨free, hblock⟩ := imdctBlock_words u (channelSet_lt hcfg hch hc) hsub
  refine ⟨free, fun n hn => ?_⟩
  obtain ⟨hout, hnext⟩ := hblock n hn
  rw [harith, words_congr fun k hk => (hturn _ (readByBlock_win hk)).1,
    words_congr (base := specRowAddr c sub) fun k hk => (hturn _ (readByBlock_slot hspec hk)).1,
    words_congr (base := slotAddr c .imdctCarry 0) fun k hk => (hturn _ (readByBlock_slot hcarry hk)).1] at hout hnext
  rw [completeOk_wordAt, completeOk_wordAt]
  have hcarryTurn := (hturn _ (readByBlock_slot hcarry hn)).2
  simp only [slotAddr_zero_add] at hout hnext hcarryTurn
  exact ⟨(hturn _ (readByBlock_slot htbuf hn)).2.trans hout, hcarryTurn.trans hnext⟩

/-! ### A spectrum of zeros -/

theorem getD_map_range {α : Type} (f : Nat → α) {n k : Nat} (hk : k < n) (d : α) : ((List.range n).map f).getD k d = f k := by
  rw [List.getD_eq_getElem _ _ (by simpa using hk)]
  simp

theorem abs_realOf_lt {w : Word} (h : isFinite w = true) : |(realOf w : ℝ)| < (2 ^ 25 - 1) * 2 ^ 103 := by
  have hmag : magOf w ≤ 0x7F7FFFFF := by
    simp only [isFinite, decide_eq_true_eq] at h
    omega
  have hlargest : patternUnits 0x7F7FFFFF = (2 ^ 24 - 1) * 2 ^ 253 := patternUnits_binade 253 (2 ^ 24 - 1) (by omega) (by omega)
  have hmono := (patternUnits_strictMono.monotone hmag).trans_eq hlargest
  have hunits : |(units w : ℝ)| = patternUnits (magOf w) := by
    rw [← magUnits_eq_patternUnits]
    exact_mod_cast (magUnits_eq_abs_units w).symm
  have hle : (patternUnits (magOf w) : ℝ) ≤ ((2 ^ 24 - 1) * 2 ^ 253 : ℕ) := Nat.cast_le.2 hmono
  norm_num at hle
  rw [realOf_eq_units_div, abs_div, abs_of_pos (show (0 : ℝ) < 2 ^ 149 by positivity), div_lt_iff₀ (by positivity), hunits]
  norm_num
  linarith

/-- A finite value is its own rounding. -/
theorem IsRnd32.realOf_eq {c w : Word} (h : IsRnd32 (realOf c) w) (hc : isFinite c = true) : realOf w = realOf c := by
  rcases h with ⟨-, -, hnear⟩ | ⟨hover, -⟩
  · have hzero := (hnear c hc).1
    rw [sub_self, abs_zero] at hzero
    have heq := sub_eq_zero.1 (abs_nonpos_iff.1 hzero)
    exact_mod_cast heq.symm
  · exact absurd hover (not_le.2 (abs_realOf_lt hc))

theorem orderKey_eq_of_realOf_eq {v w : Word} (h : realOf v = realOf w) : orderKey v = orderKey w := by
  have hrange : ∀ x : Word, (orderKey x).natAbs < 2 ^ 31 := fun x => magOf_eq_natAbs x ▸ magOf_lt x
  have hunits : keyUnits (orderKey v) = keyUnits (orderKey w) := by
    rw [← units_eq_keyUnits, ← units_eq_keyUnits]
    rw [realOf, realOf, div_left_inj' (by positivity)] at h
    exact_mod_cast h
  rcases lt_trichotomy (orderKey v) (orderKey w) with hlt | heq | hgt
  · exact absurd hunits (keyUnits_lt (hrange v) (hrange w) hlt).ne
  · exact heq
  · exact absurd hunits (keyUnits_lt (hrange w) (hrange v) hgt).ne'

theorem signOf_eq_decide {w : Word} (hw : magOf w ≠ 0) : signOf w = decide (orderKey w < 0) := by
  unfold orderKey
  split
  · next h => rw [h, eq_comm, decide_eq_true_eq]; omega
  · next h => rw [Bool.eq_false_iff.2 h, eq_comm, decide_eq_false_iff_not]; omega

/-- A pattern other than a zero is known by its order key. -/
theorem eq_of_orderKey_eq {v w : Word} (h : orderKey v = orderKey w) (hw : magOf w ≠ 0) : v = w := by
  have hmag : magOf v = magOf w := by rw [magOf_eq_natAbs, h, ← magOf_eq_natAbs]
  have hsign : signOf v = signOf w := by rw [signOf_eq_decide (hmag ▸ hw), signOf_eq_decide hw, h]
  simp only [signOf, Nat.testBit_eq_decide_div_mod_eq, decide_eq_decide] at hsign
  unfold magOf at hmag
  refine BitVec.eq_of_toNat_eq ?_
  have := v.isLt
  have := w.isLt
  omega

/-- The exact element of a spectrum of zeros is the rounding of the old carry, or of zero past the block. -/
theorem inverseBlock_of_zero_spectrum {win spec carry : List Word} (free : Nat → Word) (hwinLen : win.length = 256)
    (hspecLen : spec.length = 128) (hcarryLen : carry.length = 128) (hfinite : ∀ x ∈ win ++ spec ++ carry, isFinite x = true)
    (hzero : ∀ k, k < 128 → magOf (spec.getD k 0) = 0) {n : Nat} (hn : n < 256) :
    IsRnd32 (realOf (if n < 128 then carry.getD n 0 else 0)) ((inverseBlock .exact free win spec carry).getD n 0) := by
  have hvalue : (realOf (if n < 128 then carry.getD n 0 else 0) : ℝ) = 1 / 8 * realOf (win.getD n 0)
      * ∑ k ∈ Finset.range 128, realOf (spec.getD k 0) * Real.cos (Real.pi / 128 * (n + 1 / 2 + 64) * (k + 1 / 2))
        + (if n < 128 then (realOf (carry.getD n 0) : ℝ) else 0) := by
    rw [Finset.sum_eq_zero fun k hk => by
      rw [realOf_of_magOf_eq_zero (hzero k (Finset.mem_range.1 hk)), Rat.cast_zero, zero_mul], mul_zero, zero_add]
    split
    · rfl
    · rw [realOf_of_magOf_eq_zero (w := 0) rfl, Rat.cast_zero]
  exact (elementsAreRoundedSums .exact free win spec carry hwinLen hspecLen hcarryLen hfinite).1 n _ hn hvalue

/-- Settles O53, from the roundings of the old carry and of zero. -/
theorem zeroSpectrumEmitsCarry : Obligations.ZeroSpectrumEmitsCarry := by
  intro s ch sub hcfg hch hsub hexact hwin hcarry hspec
  obtain ⟨t, hexec, -, -, -, hwords⟩ := imdctTransformsBlock s ch false sub false hcfg (.inr hch) hsub
  obtain ⟨free, hfree⟩ := hwords ch rfl rfl
  refine ⟨t, hexec, fun n hn => ?_⟩
  obtain ⟨hout, hnext⟩ := hfree n hn
  rw [hexact] at hout hnext
  have hround := fun n (hn : n < 256) => inverseBlock_of_zero_spectrum (win := (List.range 256).map fun k => s.wordAt (winBase + 4 * k))
    (spec := (List.range 128).map fun k => s.wordAt (specRowAddr ch sub + 4 * k))
    (carry := (List.range 128).map fun k => s.wordAt (slotAddr ch .imdctCarry (4 * k))) free (by simp) (by simp) (by simp)
    (by
      simp only [List.mem_append, List.mem_map, List.mem_range]
      rintro x ((⟨k, hk, rfl⟩ | ⟨k, hk, rfl⟩) | ⟨k, hk, rfl⟩)
      · exact hwin k hk
      · exact isFinite_of_magOf_eq_zero (hspec k hk)
      · exact hcarry k hk)
    (fun k hk => by rw [getD_map_range _ hk]; exact hspec k hk) hn
  have hemitted := hround n (by omega)
  rw [if_pos hn, ← hout, getD_map_range _ hn] at hemitted
  have hkept := hround (128 + n) (by omega)
  rw [if_neg (by omega), ← hnext] at hkept
  have hkey := orderKey_eq_of_realOf_eq (hemitted.realOf_eq (hcarry n hn))
  refine ⟨eq_of_orderKey_eq hkey, fun hzero => ?_, ?_⟩
  · rwa [magOf_eq_natAbs, hkey, ← magOf_eq_natAbs]
  · rw [magOf_eq_natAbs, orderKey_eq_of_realOf_eq (hkept.realOf_eq rfl)]
    rfl

/-! ### MDCT -/

theorem mdctBlock_words (s : State) {ch sub : Nat} (hch : ch < 16) (hsub : sub < 8) : ∃ free : Nat → Word, ∀ n, n < 128 →
    (mdctBlock ch sub s).wordAt (slotAddr ch .mdctPrev (4 * n)) = (s.words (tbufAddr ch sub) 128).getD n 0
      ∧ (mdctBlock ch sub s).wordAt (specRowAddr ch sub + 4 * n) =
        (forwardBlock s.arith free (s.words winBase 256) (s.words (slotAddr ch .mdctPrev 0) 128)
          (s.words (tbufAddr ch sub) 128)).getD n 0 := by
  refine ⟨fun k => s.free (specRowAddr ch sub + 4 * k), fun n hn => ?_⟩
  generalize hout : forwardBlock s.arith _ _ _ _ = out
  generalize hsamples : s.words (tbufAddr ch sub) 128 = samples at hout
  have hlen : out.length = 128 := hout ▸ forwardBlock_length ..
  have hsamplesLen : samples.length = 128 := hsamples ▸ State.words_length ..
  have hblock : mdctBlock ch sub s =
      ((s.putWords (specRowAddr ch sub) out).putWords (slotAddr ch .mdctPrev 0) samples).tick := by
    rw [← hout, ← hsamples]
    rfl
  rw [hblock, State.tick_wordAt, State.tick_wordAt]
  constructor
  · have hprev := wordAt_putSlotWords (s.putWords (specRowAddr ch sub) out) (array := .mdctPrev) (i := 0) (ws := samples) (n := n)
      hch rfl (by rwa [hsamplesLen]) (by rw [hsamplesLen]; decide)
    rwa [slotAddr_zero_add] at hprev
  · have hafter : slotAddr ch .mdctPrev 0 + (samples.flatMap wordBytes).length ≤ specRowAddr ch sub + 4 * n := by
      rw [flatMap_wordBytes_length, hsamplesLen]
      simp only [specRowAddr, slotAddr, slotArrayOffset]
      omega
    rw [State.putWords_eq _ (slotAddr ch .mdctPrev 0), State.wordAt_putBytes_outside _ _ _ _ (.inr hafter)]
    exact wordAt_putSlotWords s hch rfl (by rwa [hlen]) (by rw [hlen]; simp only [slotArrayBytes]; omega)

/-- Settles O54: a block's turn reads and leaves its channel's arrays as if it ran alone. -/
theorem mdctTransformsBlock : Obligations.MdctTransformsBlock := by
  intro s ch allCh sub allSf hcfg hch hsub
  obtain ⟨hexec, hcompleted, hflags, hplaces⟩ :=
    blockCommand_completes (i := .mdct ch allCh sub allSf) hcfg hch rfl (mdct_frame hcfg hch hsub)
  refine ⟨_, hexec, hcompleted, hflags, hplaces, fun c hc hallSf => ?_⟩
  subst hallSf
  have hc := (mem_channelSet_iff s ch allCh c).2 hc
  obtain ⟨u, harith, hturn⟩ := oneSubframe_turn (single := fun ch q => .mdct ch false q false) (block := mdctBlock) (sub := sub)
    (fun _ _ => by simp [blockCommands]) hcfg hch
    (fun c hc m d => mdct_frame (s := { s with mem := m, draws := d }) hcfg hc hsub) hc
  have hprev : 0 + 512 ≤ slotArrayBytes .mdctPrev := by decide
  have htbuf : 512 * sub + 512 ≤ slotArrayBytes .tbuf := by simp only [slotArrayBytes]; omega
  have hspec : 512 * sub + 512 ≤ slotArrayBytes .spec := by simp only [slotArrayBytes]; omega
  obtain ⟨free, hblock⟩ := mdctBlock_words u (channelSet_lt hcfg hch hc) hsub
  refine ⟨free, fun n hn => ?_⟩
  obtain ⟨hnext, hout⟩ := hblock n hn
  rw [words_congr (base := tbufAddr c sub) fun k hk => (hturn _ (readByBlock_slot htbuf hk)).1] at hnext hout
  rw [harith, words_congr fun k hk => (hturn _ (readByBlock_win hk)).1,
    words_congr (base := slotAddr c .mdctPrev 0) fun k hk => (hturn _ (readByBlock_slot hprev hk)).1] at hout
  rw [completeOk_wordAt, completeOk_wordAt]
  have hprevTurn := (hturn _ (readByBlock_slot hprev hn)).2
  simp only [slotAddr_zero_add] at hout hprevTurn
  exact ⟨(hprevTurn.trans hnext).trans (getD_map_range _ hn _), (hturn _ (readByBlock_slot hspec hn)).2.trans hout⟩

/-! ### One command for all subframes -/

theorem completeOk_words (s : State) (a n : Nat) : (completeOk s).words a n = s.words a n := by
  simp only [State.words, completeOk_bytes]

theorem completeOk_free (s : State) (site : Nat) : (completeOk s).free site = s.free site := rfl

theorem completeOk_putWords (s : State) (a : Nat) (ws : List Word) :
    (completeOk s).putWords a ws = completeOk (s.putWords a ws) := rfl

theorem completeOk_tick (s : State) : (completeOk s).tick = completeOk s.tick := rfl

/-- A block does not look at what completion writes. -/
theorem imdctBlock_completeOk (ch sub : Nat) (s : State) : imdctBlock ch sub (completeOk s) = completeOk (imdctBlock ch sub s) := by
  simp only [imdctBlock, completeOk_words, completeOk_arith, completeOk_free, completeOk_putWords, completeOk_tick]

theorem mdctBlock_completeOk (ch sub : Nat) (s : State) : mdctBlock ch sub (completeOk s) = completeOk (mdctBlock ch sub s) := by
  simp only [mdctBlock, completeOk_words, completeOk_arith, completeOk_free, completeOk_putWords, completeOk_tick]

/-- A block command of one channel completes its blocks when its checks pass. -/
theorem exec_blocks {i : Instr} {s u : State} {ch : Nat} (hcfg : cfgOk s = true) (hch : ch < chCount s)
    (heffect : effectOf i s = requireCfg s (requireChannel s ch false (.ok u))) : exec i s = .next (completeOk u) := by
  rw [exec_next_iff, heffect, requireCfg_of_ok s _ hcfg, requireChannel_of_ok s ch false _ (.inr hch)]
  rfl

section OneCommand

variable {single : Nat → Instr} {block : Nat → State → State} {ch : Nat}
  (heffect : ∀ q s, effectOf (single q) s = requireCfg s (requireChannel s ch false (.ok (block q s))))
  (hstores : ∀ q s, StoresWithin (fun _ => true) s (block q s))
  (hcompleteOk : ∀ q s, block q (completeOk s) = completeOk (block q s))

include heffect hstores hcompleteOk

/-- Commands of one block each, from a completed state, complete the blocks one after another. -/
theorem runCommands_completed (qs : List Nat) : ∀ s, cfgOk s = true → ch < chCount s →
    runCommands (qs.map single) (completeOk s) = some (completeOk (forEach qs block s)) := by
  induction qs with
  | nil => exact fun _ _ _ => rfl
  | cons q qs ih =>
    intro s hcfg hch
    have hstep : exec (single q) (completeOk s) = .next (completeOk (block q s)) := by
      rw [exec_blocks (s := completeOk s) hcfg hch (heffect q _), hcompleteOk]
      rfl
    rw [List.map_cons, runCommands, hstep, forEach_cons]
    obtain ⟨m, d, hblock⟩ := (hstores q s).rest
    rw [hblock]
    exact ih _ hcfg hch

/-- The same from any state, for at least one block. -/
theorem runCommands_blocks (q : Nat) (qs : List Nat) {s : State} (hcfg : cfgOk s = true) (hch : ch < chCount s) :
    runCommands ((q :: qs).map single) s = some (completeOk (forEach (q :: qs) block s)) := by
  rw [List.map_cons, runCommands, exec_blocks hcfg hch (heffect q s), forEach_cons]
  obtain ⟨m, d, hblock⟩ := (hstores q s).rest
  rw [hblock]
  exact runCommands_completed heffect hstores hcompleteOk qs _ hcfg hch

theorem oneCommand_eq_runCommands {i : Instr} {s : State} (hcfg : cfgOk s = true) (hch : ch < chCount s)
    (hall : effectOf i s = requireCfg s (requireChannel s ch false (.ok (forEach (List.range 8) block s)))) :
    ∃ t, exec i s = .next t ∧ runCommands ((List.range 8).map single) s = some t :=
  ⟨_, exec_blocks hcfg hch hall, runCommands_blocks heffect hstores hcompleteOk 0 [1, 2, 3, 4, 5, 6, 7] hcfg hch⟩

end OneCommand

/-- A command of one channel runs its blocks over that channel alone. -/
theorem forBlocks_one (block : Nat → Nat → State → State) (s : State) (ch : Nat) (subs : List Nat) :
    forBlocks block (channelSet s ch false) subs s = forEach subs (block ch) s := rfl

theorem forBlocks_single (block : Nat → Nat → State → State) (s : State) (ch q : Nat) :
    forBlocks block (channelSet s ch false) (subframeSet q false) s = block ch q s := rfl

/-- Settles O55: each single command is one block, and completion between blocks changes nothing that a block reads. -/
theorem eightSubframesAreOneCommand : Obligations.EightSubframesAreOneCommand := fun s ch hcfg hch =>
  ⟨oneCommand_eq_runCommands (single := fun q => .imdct ch false q false) (block := imdctBlock ch)
      (fun q s => by rw [effectOf, forBlocks_single])
      (fun q _ => imdctBlock_storesWithin ch q (fun _ _ _ => rfl) fun _ _ => rfl) (imdctBlock_completeOk ch) hcfg hch
      (by rw [effectOf, forBlocks_one, subframeSet, if_pos rfl]),
    oneCommand_eq_runCommands (single := fun q => .mdct ch false q false) (block := mdctBlock ch)
      (fun q s => by rw [effectOf, forBlocks_single])
      (fun q _ => mdctBlock_storesWithin ch q (fun _ _ _ => rfl) fun _ _ => rfl) (mdctBlock_completeOk ch) hcfg hch
      (by rw [effectOf, forBlocks_one, subframeSet, if_pos rfl])⟩

end Sys2Proof.Machine
end

section
/-! PROOFS. PCM conversion (spec/43_transform.md R190, R191): a sample's value is an exact multiple of `2^-15`, so rounding keeps it,
and the floor of PCM_OUT brings it back; each block's turn reads and leaves its own row. -/

namespace Sys2Proof.Machine

/-! ### A sample -/

theorem floor_realOf (w : Word) : ⌊realOf w * 32768 + 1 / 2⌋ = (units w * 2 ^ 16 + 2 ^ 149) / 2 ^ 150 := by
  have hquotient : realOf w * 32768 + 1 / 2 = ((units w * 2 ^ 16 + 2 ^ 149 : ℤ) : ℚ) / ((2 ^ 150 : ℕ) : ℚ) := by
    rw [realOf]
    push_cast
    field_simp
    ring
  rw [hquotient, Rat.floor_intCast_div_natCast]
  rfl

theorem toInt_ofInt_pcmOfFinite (w : Word) : (BitVec.ofInt 16 (pcmOfFinite w)).toInt = pcmOfFinite w := by
  rw [BitVec.toInt_ofInt, pcmOfFinite, clampInt]
  exact Int.bmod_eq_of_le (by omega) (by omega)

theorem pcmSample_of_finite (x : Word) {w : Word} (h : isFinite w = true) : pcmSample x w = BitVec.ofInt 16 (pcmOfFinite w) := by
  have hmag : magOf w < 0x7F800000 := by simpa [isFinite] using h
  have hnan : ¬isNaN w = true := by simp only [isNaN, decide_eq_true_eq]; omega
  have hinf : ¬isInf w = true := by simp only [isInf, beq_iff_eq]; omega
  rw [pcmSample, if_neg hnan, if_neg hinf]

/-- A number of at most 24 bits, scaled by a power of two, has a pattern, which is its rounding. -/
theorem patternUnits_roundUnits {m e : Nat} (hm : m < 2 ^ 24) (he : e ≤ 253) :
    patternUnits (roundUnits (m * 2 ^ e) 0) = m * 2 ^ e ∧ roundUnits (m * 2 ^ e) 0 < 0x7F800000 := by
  obtain ⟨j, q, r, ⟨hq, hj⟩, ⟨hvalue, hr⟩, hround⟩ := roundUnits_binade (m * 2 ^ e) 0
  rw [Nat.add_zero] at hvalue hr hround
  have hje : j ≤ e := by
    by_contra hlt
    have hpow : 2 ^ (e + 1) ≤ 2 ^ j := Nat.pow_le_pow_right two_pos (by omega)
    have hlow : 2 ^ 23 * 2 ^ (e + 1) ≤ q * 2 ^ j := Nat.mul_le_mul (by omega) hpow
    have hhigh : m * 2 ^ e < 2 ^ 24 * 2 ^ e := Nat.mul_lt_mul_of_pos_right hm (by positivity)
    rw [pow_succ] at hlow
    omega
  have hdvd : 2 ^ j ∣ m * 2 ^ e := (Nat.pow_dvd_pow 2 hje).mul_left m
  obtain rfl : r = 0 := by
    rw [hvalue, Nat.dvd_add_right (Nat.dvd_mul_left _ _)] at hdvd
    exact Nat.eq_zero_of_dvd_of_lt hdvd hr
  have hpattern := patternUnits_binade j q hq.le hj
  have hlt : j * 2 ^ 23 + q < 0x7F800000 := by
    have hinfinity : patternUnits 0x7F800000 = 2 ^ 24 * 2 ^ 253 := patternUnits_binade 253 (2 ^ 24) (by omega) (by omega)
    rw [← patternUnits_strictMono.lt_iff_lt, hpattern, hinfinity]
    calc q * 2 ^ j = m * 2 ^ e := by omega
      _ < 2 ^ 24 * 2 ^ e := Nat.mul_lt_mul_of_pos_right hm (by positivity)
      _ ≤ 2 ^ 24 * 2 ^ 253 := Nat.mul_le_mul_left _ (Nat.pow_le_pow_right two_pos he)
  have hpos : 0 < 2 ^ j := by positivity
  rw [if_neg (by omega), Nat.add_zero, min_eq_left hlt.le] at hround
  rw [hround, hpattern]
  exact ⟨by omega, hlt⟩

/-- `i2f(q) * 2^-15` is exact (spec/00_scope.md R11). -/
theorem i2fScaled_exact {q : Int} (hq : q.natAbs < 2 ^ 24) :
    isFinite (i2fScaled q 15) = true ∧ realOf (i2fScaled q 15) = q / 32768 := by
  have habs : (q * 2 ^ (149 - 15)).natAbs = q.natAbs * 2 ^ 134 := by rw [Int.natAbs_mul]; rfl
  obtain ⟨hvalue, hlt⟩ := patternUnits_roundUnits hq (e := 134) (by omega)
  have hmag : roundUnits (q.natAbs * 2 ^ 134) 0 < 2 ^ 31 := by omega
  rw [i2fScaled, roundInt, habs]
  refine ⟨?_, ?_⟩
  · rw [isFinite, magOf_withSign _ hmag, decide_eq_true_eq]
    exact hlt
  · rw [realOf_withSign _ hmag, hvalue]
    have hneg : q * 2 ^ (149 - 15) < 0 ↔ q < 0 := by
      rw [← not_le, ← not_le, mul_nonneg_iff_of_pos_right (by positivity)]
    simp only [decide_eq_true_eq, hneg]
    rw [Nat.cast_mul, Nat.cast_natAbs]
    split
    · next hq => rw [abs_of_neg hq]; push_cast; ring
    · next hq => rw [abs_of_nonneg (not_lt.1 hq)]; push_cast; ring

/-- PCM_OUT's rounding brings an exact sample back. -/
theorem pcmSample_i2fScaled (x : Word) (q : Half) : pcmSample x (i2fScaled q.toInt 15) = q := by
  have hlo := BitVec.le_toInt q
  have hhi := BitVec.toInt_lt (x := q)
  obtain ⟨hfinite, hreal⟩ := i2fScaled_exact (q := q.toInt) (by omega)
  have hfloor : ⌊realOf (i2fScaled q.toInt 15) * 32768 + 1 / 2⌋ = q.toInt := by
    rw [hreal, div_mul_cancel₀ _ (by norm_num), Int.floor_eq_iff]
    constructor <;> linarith
  rw [pcmSample_of_finite x hfinite, pcmOfFinite, ← floor_realOf, hfloor, clampInt, max_eq_left (by omega), min_eq_left (by omega),
    BitVec.ofInt_toInt]

/-! ### PCM_OUT -/

theorem State.tick_halfAt (s : State) (a : Nat) : s.tick.halfAt a = s.halfAt a := by
  simp only [State.halfAt, State.tick_byte]

theorem completeOk_halfAt (s : State) (a : Nat) : (completeOk s).halfAt a = s.halfAt a := by
  simp only [State.halfAt, completeOk_byte]

theorem pcmOutBlock_half (s : State) {ch sub n : Nat} (hch : ch < 16) (hsub : sub < 8) (hn : n < 128) :
    ∃ x, (pcmOutBlock ch sub s).halfAt (pcmAddr ch sub + 2 * n) = pcmSample x (s.wordAt (tbufAddr ch sub + 4 * n)) := by
  refine ⟨s.free (pcmAddr ch sub + 2 * n), ?_⟩
  rw [pcmOutBlock, State.tick_halfAt, pcmAddr, halfAt_putSlotHalves s hch rfl (by simpa using hn)
    (by simp only [List.length_map, List.length_zipIdx, State.words_length, slotArrayBytes]; omega),
    List.getD_eq_getElem _ _ (by simpa using hn)]
  simp [State.words_eq_map]

theorem pcmOut_half {s : State} {ch sub : Nat} {allCh allSf : Bool} (hcfg : cfgOk s = true) (hch : ChannelOk s ch allCh)
    (hsub : sub < 8) {c q n : Nat} (hc : c ∈ channelSet s ch allCh) (hq : q ∈ subframeSet sub allSf) (hn : n < 128) :
    ∃ x, (forBlocks pcmOutBlock (channelSet s ch allCh) (subframeSet sub allSf) s).halfAt (pcmAddr c q + 2 * n)
      = pcmSample x (s.wordAt (tbufAddr c q + 4 * n)) := by
  have hslot := channelSet_lt hcfg hch hc
  have hrow := subframeSet_lt hsub hq
  obtain ⟨u, -, hturn⟩ := forBlocks_turn (s := s) (w := fun ch q => writesByte (.pcmOut ch false q false) s) (block := pcmOutBlock)
    (channelSet_nodup s ch allCh) (subframeSet_nodup sub allSf) hc hq fun c hc q hq m d =>
      pcmOut_frame (s := { s with mem := m, draws := d }) hcfg (channelOk_of_mem hch hc) (subframeSet_lt hsub hq)
  have hfree := fun array i => not_writtenByOthers_of_row (single := fun ch q => .pcmOut ch false q false)
    (fun _ _ => by simp [blockCommands]) s (channelSet s ch allCh) (subframeSet sub allSf) (q := q) (n := i) (array := array) hslot
  have htbuf : u.wordAt (tbufAddr c q + 4 * n) = s.wordAt (tbufAddr c q + 4 * n) := wordAt_congr fun j hj => by
    have hi : 512 * q + 4 * n + j < slotArrayBytes .tbuf := by simp only [slotArrayBytes]; omega
    rw [tbufAddr, slotAddr_add, slotAddr_add]
    exact (hturn _ (hfree .tbuf _ hi fun q' _ => writesByte_slotAddr hslot hi (by simp [commandArrays]) s)).1
  have hpcm : (forBlocks pcmOutBlock (channelSet s ch allCh) (subframeSet sub allSf) s).halfAt (pcmAddr c q + 2 * n)
      = (pcmOutBlock c q u).halfAt (pcmAddr c q + 2 * n) := halfAt_congr fun j hj => by
    have hi : 256 * q + 2 * n + j < slotArrayBytes .pcm := by simp only [slotArrayBytes]; omega
    have hother : ∀ q', q' ≠ q → (256 * q + 2 * n + j) / 256 ≠ q' := by omega
    rw [pcmAddr, slotAddr_add, slotAddr_add]
    refine (hturn _ (hfree .pcm _ hi fun q' hq' => ?_)).2
    simp [writesByte, inSlot_slotAddr c .pcm _ _ hslot hi, subframeSet, hother q' hq']
  obtain ⟨x, hx⟩ := pcmOutBlock_half u hslot hrow hn
  exact ⟨x, by rw [hpcm, hx, htbuf]⟩

/-- Settles O56, from the sample that each block's turn stores. -/
theorem pcmOutRounds : Obligations.PcmOutRounds := by
  intro s ch allCh sub allSf hcfg hch hsub
  obtain ⟨hexec, hcompleted, hflags, hplaces⟩ :=
    blockCommand_completes (i := .pcmOut ch allCh sub allSf) hcfg hch rfl (pcmOut_frame hcfg hch hsub)
  refine ⟨_, hexec, hcompleted, hflags, hplaces, fun c q n hc hq hn => ?_⟩
  obtain ⟨x, hx⟩ := pcmOut_half hcfg hch hsub ((mem_channelSet_iff s ch allCh c).2 hc) ((mem_subframeSet_iff sub allSf q).2 hq) hn
  rw [completeOk_halfAt, hx]
  refine ⟨fun hfinite => ?_, fun hinf => ?_, fun hinf => ?_⟩
  · rw [pcmSample_of_finite x hfinite, toInt_ofInt_pcmOfFinite, pcmOfFinite, floor_realOf]
  · rw [hinf]
    rfl
  · rw [hinf]
    rfl

/-! ### PCM_IN -/

theorem pcmInBlock_word (s : State) {ch sub n : Nat} (hch : ch < 16) (hsub : sub < 8) (hn : n < 128) :
    (pcmInBlock ch sub s).wordAt (tbufAddr ch sub + 4 * n) = i2fScaled (s.halfAt (pcmAddr ch sub + 2 * n)).toInt 15 := by
  rw [pcmInBlock, tbufAddr, wordAt_putSlotWords s hch rfl (by simpa using hn)
    (by simp only [List.length_map, State.halves_length, slotArrayBytes]; omega), List.getD_eq_getElem _ _ (by simpa using hn)]
  simp [State.halves_eq_map]

theorem pcmIn_word {s : State} {ch sub : Nat} {allCh allSf : Bool} (hcfg : cfgOk s = true) (hch : ChannelOk s ch allCh)
    (hsub : sub < 8) {c q n : Nat} (hc : c ∈ channelSet s ch allCh) (hq : q ∈ subframeSet sub allSf) (hn : n < 128) :
    (forBlocks pcmInBlock (channelSet s ch allCh) (subframeSet sub allSf) s).wordAt (tbufAddr c q + 4 * n)
      = i2fScaled (s.halfAt (pcmAddr c q + 2 * n)).toInt 15 := by
  have hslot := channelSet_lt hcfg hch hc
  have hrow := subframeSet_lt hsub hq
  obtain ⟨u, -, hturn⟩ := forBlocks_turn (s := s) (w := fun ch q => writesByte (.pcmIn ch false q false) s) (block := pcmInBlock)
    (channelSet_nodup s ch allCh) (subframeSet_nodup sub allSf) hc hq fun c hc q hq m d =>
      pcmIn_frame (s := { s with mem := m, draws := d }) hcfg (channelOk_of_mem hch hc) (subframeSet_lt hsub hq)
  have hfree := fun array i => not_writtenByOthers_of_row (single := fun ch q => .pcmIn ch false q false)
    (fun _ _ => by simp [blockCommands]) s (channelSet s ch allCh) (subframeSet sub allSf) (q := q) (n := i) (array := array) hslot
  have hpcm : u.halfAt (pcmAddr c q + 2 * n) = s.halfAt (pcmAddr c q + 2 * n) := halfAt_congr fun j hj => by
    have hi : 256 * q + 2 * n + j < slotArrayBytes .pcm := by simp only [slotArrayBytes]; omega
    rw [pcmAddr, slotAddr_add, slotAddr_add]
    exact (hturn _ (hfree .pcm _ hi fun q' _ => writesByte_slotAddr hslot hi (by simp [commandArrays]) s)).1
  have htbuf : (forBlocks pcmInBlock (channelSet s ch allCh) (subframeSet sub allSf) s).wordAt (tbufAddr c q + 4 * n)
      = (pcmInBlock c q u).wordAt (tbufAddr c q + 4 * n) := wordAt_congr fun j hj => by
    have hi : 512 * q + 4 * n + j < slotArrayBytes .tbuf := by simp only [slotArrayBytes]; omega
    have hother : ∀ q', q' ≠ q → (512 * q + 4 * n + j) / 512 ≠ q' := by omega
    rw [tbufAddr, slotAddr_add, slotAddr_add]
    refine (hturn _ (hfree .tbuf _ hi fun q' hq' => ?_)).2
    simp [writesByte, inSlot_slotAddr c .tbuf _ _ hslot hi, subframeSet, hother q' hq']
  rw [htbuf, pcmInBlock_word u hslot hrow hn, hpcm]

/-- In PCM_OUT after PCM_IN every sample of a selected row is what it was. -/
theorem pcmOut_half_of_pcmIn {s t : State} {ch sub : Nat} {allCh allSf : Bool} (hcfg : cfgOk t = true) (hch : ChannelOk t ch allCh)
    (hsub : sub < 8) {c q n : Nat} (hc : c ∈ channelSet t ch allCh) (hq : q ∈ subframeSet sub allSf) (hn : n < 128)
    (hin : t.wordAt (tbufAddr c q + 4 * n) = i2fScaled (s.halfAt (pcmAddr c q + 2 * n)).toInt 15) :
    (forBlocks pcmOutBlock (channelSet t ch allCh) (subframeSet sub allSf) t).halfAt (pcmAddr c q + 2 * n)
      = s.halfAt (pcmAddr c q + 2 * n) := by
  obtain ⟨x, hx⟩ := pcmOut_half hcfg hch hsub hc hq hn
  rw [hx, hin, pcmSample_i2fScaled]

/-- Settles O57: the stored values are exact, and PCM_OUT rounds each back to its sample. -/
theorem pcmInIsExact : Obligations.PcmInIsExact := by
  intro s ch allCh sub allSf hcfg hch hsub
  have hframe := pcmIn_frame (allSf := allSf) hcfg hch hsub
  obtain ⟨hexec, hcompleted, hflags, hplaces⟩ := blockCommand_completes (i := .pcmIn ch allCh sub allSf) hcfg hch rfl hframe
  have hin := fun c q n hc hq hn => pcmIn_word (allSf := allSf) (c := c) (q := q) (n := n) hcfg hch hsub hc hq hn
  obtain ⟨m, d, hstored⟩ := hframe.rest
  rw [hstored] at hexec hcompleted hflags hplaces hin
  generalize ht : completeOk { s with mem := m, draws := d } = t at hexec hcompleted hflags hplaces
  have hword : ∀ c q n, c ∈ channelSet s ch allCh → q ∈ subframeSet sub allSf → n < 128 →
      t.wordAt (tbufAddr c q + 4 * n) = i2fScaled (s.halfAt (pcmAddr c q + 2 * n)).toInt 15 := fun c q n hc hq hn => by
    rw [← ht, completeOk_wordAt, hin c q n hc hq hn]
  have hcfg' : cfgOk t = true := ht ▸ hcfg
  have hch' : ChannelOk t ch allCh := ht ▸ hch
  have hset : channelSet t ch allCh = channelSet s ch allCh := ht ▸ rfl
  obtain ⟨hexecOut, -, -, hplacesOut, -⟩ :=
    blockCommand_completes (i := .pcmOut ch allCh sub allSf) hcfg' hch' rfl (pcmOut_frame (allSf := allSf) hcfg' hch' hsub)
  refine ⟨t, hexec, hcompleted, hflags, hplaces, fun c q n hc hq hn => ?_, _, hexecOut, fun c i hc hi => ?_⟩
  · have hlo := BitVec.le_toInt (s.halfAt (pcmAddr c q + 2 * n))
    have hhi := BitVec.toInt_lt (x := s.halfAt (pcmAddr c q + 2 * n))
    rw [hword c q n ((mem_channelSet_iff s ch allCh c).2 hc) ((mem_subframeSet_iff sub allSf q).2 hq) hn]
    exact i2fScaled_exact (by omega)
  · by_cases hselected : c ∈ channelSet t ch allCh ∧ i / 256 ∈ subframeSet sub allSf
    · obtain ⟨hmem, hrow⟩ := hselected
      have hn : i % 256 / 2 < 128 := by omega
      obtain ⟨hlow, hhigh⟩ := byte_eq_of_halfAt_eq
        (pcmOut_half_of_pcmIn hcfg' hch' hsub hmem hrow hn (hword c _ _ (hset ▸ hmem) hrow hn))
      rw [pcmAddr, slotAddr_add] at hlow hhigh
      rw [slotAddr_add] at hhigh
      rw [completeOk_byte]
      rcases Nat.mod_two_eq_zero_or_one i with heven | hodd
      · rwa [show 256 * (i / 256) + 2 * (i % 256 / 2) = i by omega] at hlow
      · rwa [show 256 * (i / 256) + 2 * (i % 256 / 2) + 1 = i by omega] at hhigh
    · have hnotOut : writesByte (.pcmOut ch allCh sub allSf) t (slotAddr c .pcm i) = false := by
        simp only [writesByte, inSlot_slotAddr c .pcm i _ hc hi]
        simp only [not_and] at hselected
        simpa using hselected
      rw [hplacesOut _ hnotOut]
      exact hplaces.1 _ (writesByte_slotAddr hc hi (by simp [commandArrays]) s)

end Sys2Proof.Machine
end

section
/-! PROOFS. Scale-factor sections: what PACK writes at a delta width is read back in the length that its cost says, and the width
that PACK chooses is the cheapest (spec/44_bitstream.md R209, R226, R227). -/

namespace Sys2Proof.Machine

/-! ### Writing and reading a section -/

/-- The scale factors after `prev` as delta-coded codes: one that a delta of `d` bits cannot say is written raw (R227). -/
def deltaForms (d : Nat) : Nat → List Nat → List (Nat × Bool)
  | _, [] => []
  | prev, x :: rest => (x, decide (2 ^ (d - 1) - 1 < ((x : Int) - prev).natAbs)) :: deltaForms d x rest

@[simp] theorem deltaForms_map_fst (d prev : Nat) (f : List Nat) : (deltaForms d prev f).map Prod.fst = f := by
  induction f generalizing prev with
  | nil => rfl
  | cons x f ih => rw [deltaForms, List.map_cons, ih]

@[simp] theorem deltaForms_length (d prev : Nat) (f : List Nat) : (deltaForms d prev f).length = f.length := by
  rw [← List.length_map (f := Prod.fst), deltaForms_map_fst]

/-- A delta that its width can say, in offset binary (R204). -/
theorem toNat_delta_add_offset {d prev x : Nat} (h : ((x : Int) - prev).natAbs ≤ 2 ^ (d - 1) - 1) :
    ((x : Int) - prev + (2 ^ (d - 1) - 1)).toNat = x + (2 ^ (d - 1) - 1) - prev := by
  have hcast : (2 : Int) ^ (d - 1) = ((2 ^ (d - 1) : Nat) : Int) := by push_cast; rfl
  rw [hcast]
  have hpos : 0 < 2 ^ (d - 1) := by positivity
  omega

theorem deltaFields_eq_deltaSectionBits (d prev : Nat) (f : List Nat) :
    deltaFields d (prev :: f) = deltaSectionBits d 6 prev (deltaForms d prev f) := by
  induction f generalizing prev with
  | nil => rfl
  | cons x f ih =>
    rw [deltaFields, deltaForms, deltaSectionBits, ih]
    by_cases h : ((x : Int) - prev).natAbs ≤ 2 ^ (d - 1) - 1
    · simp only [if_pos h, toNat_delta_add_offset h, h.not_gt, decide_false, Bool.false_eq_true, if_false]
    · simp only [if_neg h, Nat.lt_of_not_le h, decide_true, if_true]

theorem deltaForms_codable {d : Nat} (hd : 1 ≤ d) (prev : Nat) {f : List Nat} (hf : ∀ x ∈ f, x < 64) :
    DeltaSectionCodable d 63 prev (deltaForms d prev f) := by
  induction f generalizing prev with
  | nil => trivial
  | cons x f ih =>
    obtain ⟨hx, hf⟩ := List.forall_mem_cons.1 hf
    refine ⟨by omega, fun hdelta => ?_, ih x hf⟩
    have hpow : 2 ^ d = 2 * 2 ^ (d - 1) := (mul_pow_sub_one (by omega) 2).symm
    have hsmall : ((x : Int) - prev).natAbs ≤ 2 ^ (d - 1) - 1 := by simpa using hdelta
    have hpos : 0 < 2 ^ (d - 1) := by positivity
    omega

/-- At a delta width the first scale factor is raw and the others are delta-coded after it (R209). -/
theorem readScaleFactors_delta {d x : Nat} (hd : 1 ≤ d) (hd5 : d ≤ 5) (hx : x < 64) (n pos : Nat) (rest : List Bool) :
    readScaleFactors (n + 1) ⟨pos, bitsOf 3 d ++ (bitsOf 6 x ++ rest)⟩
      = (readDeltas d 6 63 .sfRange n x >>= fun l => pure (d, padBands (x :: l))) ⟨pos + 9, rest⟩ := by
  rw [readScaleFactors, reader_bind_of_ok (readUint_bitsOf (by omega) pos _), if_neg (by omega), if_neg (by omega)]
  exact reader_bind_of_ok (readUint_bitsOf (by omega) _ rest) _

/-- The section of a delta width: the width, the first scale factor, the delta-coded codes (R227). -/
theorem sfBits_delta {d : Nat} (hd : 1 ≤ d) (hd5 : d ≤ 5) (x : Nat) (f : List Nat) :
    sfBits d (x :: f) = bitsOf 3 d ++ (bitsOf 6 x ++ deltaSectionBits d 6 x (deltaForms d x f)) := by
  rw [sfBits, if_neg (by omega), if_neg (by omega), List.headD_cons, deltaFields_eq_deltaSectionBits]

theorem sfCost_delta {d : Nat} (hd : 1 ≤ d) (hd5 : d ≤ 5) (x : Nat) (f : List Nat) :
    sfCost d (x :: f) = 9 + (deltaSectionBits d 6 x (deltaForms d x f)).length := by
  rw [← sfBits_length, sfBits_delta hd hd5, List.length_append, List.length_append, bitsOf_length, bitsOf_length, ← Nat.add_assoc]

/-- A section written at a width of 1 to 6 is read back. -/
theorem readScaleFactors_sfBits {d : Nat} {f : List Nat} (hd : 1 ≤ d) (hd6 : d ≤ 6) (hne : f ≠ []) (hf : ∀ x ∈ f, x < 64)
    (pos : Nat) (rest : List Bool) :
    readScaleFactors f.length ⟨pos, sfBits d f ++ rest⟩ = .ok ((d, padBands f), ⟨pos + sfCost d f, rest⟩) := by
  rcases Nat.lt_or_ge 5 d with hraw | hdelta
  · obtain rfl : d = 6 := by omega
    have hread := readMany_bitsOf (n := 6) hf (pos + 3) rest
    rw [sfBits, if_neg (by decide), if_pos rfl, sfCost, if_neg (by decide), if_pos rfl, List.append_assoc, readScaleFactors,
      reader_bind_of_ok (readUint_bitsOf (by decide) pos _), if_neg (by decide), if_pos (by decide), reader_bind_of_ok hread,
      ← Nat.add_assoc]
    rfl
  · obtain ⟨x, f, rfl⟩ := List.exists_cons_of_ne_nil hne
    obtain ⟨hx, hf⟩ := List.forall_mem_cons.1 hf
    have hread := readDeltas_deltaSectionBits (raw := 6) (code := .sfRange) (by decide) (deltaForms_codable hd x hf) (pos + 9) rest
    rw [deltaForms_length, deltaForms_map_fst] at hread
    rw [sfBits_delta hd hdelta, sfCost_delta hd hdelta, List.append_assoc, List.append_assoc, List.length_cons,
      readScaleFactors_delta hd hdelta hx, reader_bind_of_ok hread, ← Nat.add_assoc]
    rfl

/-- Settles O39: the delta-coded part is the section that `readDeltas` reads back. -/
theorem scaleFactorRoundTrip : Obligations.ScaleFactorRoundTrip := fun d f pos rest hd hd6 hne _ hf =>
  ⟨sfBits_length d f, readScaleFactors_sfBits hd hd6 hne hf pos rest⟩

/-! ### The delta width -/

/-- The search for something strictly cheaper than the best so far. -/
def cheapestFrom (cost : Nat → Nat) (best : Nat) (ds : List Nat) : Nat :=
  ds.foldl (fun best d => if cost d < cost best then d else best) best

theorem cheapestFrom_cons (cost : Nat → Nat) (best d : Nat) (ds : List Nat) :
    cheapestFrom cost best (d :: ds) = cheapestFrom cost (if cost d < cost best then d else best) ds := rfl

/-- Among rising candidates the search ends with the first of the cheapest. -/
theorem cheapestFrom_first (cost : Nat → Nat) {best : Nat} {ds : List Nat} (hsorted : (best :: ds).Pairwise (· < ·)) :
    cheapestFrom cost best ds ∈ best :: ds ∧ ∀ d ∈ best :: ds, cost (cheapestFrom cost best ds) ≤ cost d
      ∧ (cost (cheapestFrom cost best ds) = cost d → cheapestFrom cost best ds ≤ d) := by
  induction ds generalizing best with
  | nil => simp [cheapestFrom]
  | cons d ds ih =>
    obtain ⟨hbest, hsorted⟩ := List.pairwise_cons.1 hsorted
    have hlt := hbest d List.mem_cons_self
    rw [cheapestFrom_cons]
    split
    · next hcheaper =>
      obtain ⟨hmem, hleast⟩ := ih hsorted
      have hd := hleast d List.mem_cons_self
      exact ⟨List.mem_cons_of_mem _ hmem, List.forall_mem_cons.2 ⟨by omega, hleast⟩⟩
    · next hkept =>
      obtain ⟨hmem, hleast⟩ := ih (List.pairwise_cons.2
        ⟨fun x hx => hbest x (List.mem_cons_of_mem _ hx), (List.pairwise_cons.1 hsorted).2⟩)
      obtain ⟨hfirst, hlater⟩ := List.forall_mem_cons.1 hleast
      refine ⟨?_, List.forall_mem_cons.2 ⟨hfirst, List.forall_mem_cons.2 ⟨by omega, hlater⟩⟩⟩
      exact List.mem_cons.2 ((List.mem_cons.1 hmem).imp_right (List.mem_cons_of_mem d))

theorem chooseDelta_eq_cheapestFrom {f : List Nat} (h : ∃ x ∈ f, x ≠ 0) :
    chooseDelta f = cheapestFrom (fun d => sfCost d f) 1 [2, 3, 4, 5, 6] :=
  if_neg (by simpa using h)

/-- Where some scale factor is not 0, the width is 1 to 6 and the first of the cheapest (R226). -/
theorem chooseDelta_cheapest {f : List Nat} (h : ∃ x ∈ f, x ≠ 0) :
    chooseDelta f ∈ [1, 2, 3, 4, 5, 6]
      ∧ ∀ d ∈ [1, 2, 3, 4, 5, 6],
          sfCost (chooseDelta f) f ≤ sfCost d f ∧ (sfCost (chooseDelta f) f = sfCost d f → chooseDelta f ≤ d) := by
  rw [chooseDelta_eq_cheapestFrom h]
  exact cheapestFrom_first (fun d => sfCost d f) (by decide)

theorem chooseDelta_eq_zero_iff (f : List Nat) : chooseDelta f = 0 ↔ ∀ x ∈ f, x = 0 := by
  refine ⟨fun h => ?_, fun h => by rw [chooseDelta, if_pos (by simpa using h)]⟩
  by_contra hne
  have hmem := (chooseDelta_cheapest (f := f) (by simpa using hne)).1
  simp [h] at hmem

/-- Settles O41, from the search for the cheapest width. -/
theorem deltaWidthIsCheapest : Obligations.DeltaWidthIsCheapest := fun f => by
  refine ⟨chooseDelta_eq_zero_iff f, fun h => ?_⟩
  obtain ⟨hmem, hleast⟩ := chooseDelta_cheapest h
  have hrange : ∀ d, d ∈ [1, 2, 3, 4, 5, 6] ↔ 1 ≤ d ∧ d ≤ 6 := fun d => by
    simp only [List.mem_cons, List.not_mem_nil, or_false]
    omega
  obtain ⟨hlow, hhigh⟩ := (hrange _).1 hmem
  exact ⟨hlow, hhigh, fun d hd hd6 => hleast d ((hrange d).2 ⟨hd, hd6⟩)⟩

end Sys2Proof.Machine
end

section
/-! PROOFS. What UNPACK reads lies in its ranges, and a reading that meets an error meets it within the frame
(spec/44_bitstream.md R201, R209 to R217). -/

namespace Sys2Proof.Machine

/-! ### Ranges -/

theorem readEach_yields_forall₂ {α β : Type} {f : β → Reader α} {R : β → α → Prop} (xs : List β)
    (h : ∀ x ∈ xs, Yields (f x) (R x)) : Yields (readEach f xs) (List.Forall₂ R xs) := by
  induction xs with
  | nil => exact .pure .nil
  | cons x xs ih =>
    obtain ⟨hx, hxs⟩ := List.forall_mem_cons.1 h
    exact hx.bind fun a ha => (ih hxs).bind fun l hl => .pure (.cons ha hl)

/-- Delta-coded values lie within their sum's bounds, raw ones within their field (R209, R210). -/
theorem readDeltas_yields_le {code : ErrCode} {w raw top : Nat} (hcode : code ∈ [.sync, .sfRange, .intensityRange, .overrun])
    (hraw : 2 ^ raw = top + 1) (n : Nat) : ∀ prev, Yields (readDeltas w raw top code n prev) (fun l => ∀ x ∈ l, x ≤ top) := by
  induction n with
  | zero => exact fun _ => .pure (by simp)
  | succ n ih =>
    have hrest : ∀ v ≤ top, Yields (do let rest ← readDeltas w raw top code n v; pure (v :: rest)) (fun l => ∀ x ∈ l, x ≤ top) :=
      fun v hv => (ih v).bind fun l hl => .pure (List.forall_mem_cons.2 ⟨hv, hl⟩)
    exact fun prev => Yields.cursorPos.bind fun pos _ => (Yields.readUint w).bind fun u _ =>
      .ite (fun _ => (Yields.readUint raw).bind fun v hv => hrest v (by omega)) fun _ =>
        .ite (fun _ => (Yields.failAt (P := fun v => v ≤ top) pos hcode).bind hrest) fun hsum => hrest _ (by omega)

theorem padBands_forall {P : Nat → Prop} {xs : List Nat} (h : ∀ x ∈ xs, P x) (h0 : P 0) : ∀ x ∈ padBands xs, P x := by
  simp only [padBands, List.forall_mem_append]
  exact ⟨h, fun x hx => (List.eq_of_mem_replicate hx) ▸ h0⟩

theorem readScaleFactors_yields_lt (n : Nat) : Yields (readScaleFactors n) (fun x => x.1 < 8 ∧ ∀ v ∈ x.2, v < 64) := by
  refine (Yields.readUint 3).bind fun d hd => .ite (fun _ => .pure ⟨hd, padBands_forall (by simp) (by decide)⟩)
    fun _ => .ite (fun _ => ?_) fun _ => ?_
  · exact ((Yields.readUint 6).readMany n).bind fun f ⟨_, hf⟩ => .pure ⟨hd, padBands_forall hf (by decide)⟩
  · cases n with
    | zero => exact .pure ⟨hd, padBands_forall (by simp) (by decide)⟩
    | succ k =>
      refine (Yields.readUint 6).bind fun x hx => (readDeltas_yields_le (by simp) (by decide) k x).bind fun f hf =>
        .pure ⟨hd, padBands_forall (List.forall_mem_cons.2 ⟨hx, fun v hv => ?_⟩) (by decide)⟩
      exact Nat.lt_succ_of_le (hf v hv)

theorem readIntensity_yields_lt (ver : Nat) : Yields (readIntensity ver) (fun x => ∀ v ∈ x, v < 16) := by
  refine .ite (fun _ => ((Yields.readUint 4).readMany 8).mono fun _ h => h.2) fun _ => ?_
  refine (Yields.readUint 4).bind fun i0 hi0 => .ite (fun _ => .pure (by decide)) fun _ => ?_
  refine (Yields.readUint 2).bind fun q _ => .ite (fun _ => ?_) fun _ => ?_
  · exact ((Yields.readUint 4).readMany 7).bind fun l hl => .pure (List.forall_mem_cons.2 ⟨hi0, hl.2⟩)
  · exact (readDeltas_yields_le (by simp) (by decide) 7 i0).bind fun l hl =>
      .pure (List.forall_mem_cons.2 ⟨hi0, fun v hv => Nat.lt_succ_of_le (hl v hv)⟩)

theorem readHfr_yields_lt (s : State) (ch : Nat) : Yields (readHfr s ch) (fun x => ∀ v ∈ x, v < 64) := by
  refine .ite (fun _ => ((Yields.readUint 6).readMany _).bind fun g hg => .pure ?_) fun _ => .pure (by decide)
  exact List.forall_mem_append.2 ⟨hg.2, fun v hv => (List.eq_of_mem_replicate hv) ▸ by decide⟩

/-- The side information of a channel lies in its ranges (R217). -/
structure SideInfo.InRange (x : SideInfo) : Prop where
  dbits : x.dbits < 8
  sf : ∀ v ∈ x.sf, v < 64
  intensity : ∀ v ∈ x.intensity, v < 16
  hfr : ∀ v ∈ x.hfr, v < 64

theorem readSide_yields_inRange (s : State) (ch : Nat) : Yields (readSide s ch) SideInfo.InRange :=
  (readScaleFactors_yields_lt _).bind fun ⟨d, sf⟩ ⟨hd, hsf⟩ =>
    have hrest : ∀ intensity : List Nat, (∀ v ∈ intensity, v < 16) →
        Yields (do let hfr ← readHfr s ch; pure ⟨d, sf, intensity, hfr⟩) SideInfo.InRange := fun _ hintensity =>
      (readHfr_yields_lt s ch).bind fun _ hhfr => .pure ⟨hd, hsf, hintensity, hhfr⟩
    .ite (fun _ => (readIntensity_yields_lt _).bind hrest) fun _ => hrest _ (by decide)

/-- Every entry of the code tables lies in its resolution's range (spec/30_encoding.md R111, R113). -/
theorem codeTable_inRange {r : Nat} (hr : r ≤ 7) (i : Nat) : coefInRange r ((codeTable r).getD i (0, 0)).2 = true := by
  have htable : ∀ r : Fin 8, ∀ e ∈ codeTable r, coefInRange r e.2 = true := by decide
  exact getD_of_forall (P := fun e : Nat × Int => coefInRange r e.2 = true) (htable ⟨r, by omega⟩)
    (decide_eq_true (Nat.zero_le _)) i

theorem coefInRange_zero (r : Nat) : coefInRange r 0 = true := decide_eq_true (Nat.zero_le _)

theorem readCoef_yields_inRange (r : Nat) : Yields (readCoef r) (fun v => coefInRange r v = true) := by
  refine .ite (fun _ => .pure (coefInRange_zero r)) fun _ => .ite (fun hr => ?_) fun hr => ?_
  · exact (Yields.peekUint _).bind fun p _ => (Yields.readUint _).bind fun _ _ => .pure (codeTable_inRange hr p)
  · refine (Yields.readUint _).bind fun m hm => .ite (fun _ => .pure (coefInRange_zero r)) fun _ =>
      (Yields.readUint 1).bind fun sgn _ => .pure ?_
    simp only [coefInRange, maxAbs, if_neg hr, decide_eq_true_eq]
    split <;> omega

/-- What was read of a frame: the side information of each channel, the resolutions derived from it, and for each subframe the
coefficients of each channel's coded bands, all in their ranges. -/
structure Frame.ReadFrom (s : State) (f : Frame) : Prop where
  count : f.side.length = chCount s
  side : ∀ x ∈ f.side, x.InRange
  res : f.res = f.side.zipIdx.map (fun p => resolutions s f.noise f.eval p.2 p.1.sf)
  coefs : ∀ row ∈ f.coefs, List.Forall₂
    (fun p xs => List.Forall₂ (fun r v => coefInRange r v = true) (p.1.take (coded s p.2)) xs) f.res.zipIdx row

theorem readFrame_yields_readFrom (s : State) : Yields (readFrame s) (Frame.ReadFrom s) :=
  readHeader_yields.bind fun ⟨_, _⟩ _ =>
    (Yields.readEach _ fun ch _ => readSide_yields_inRange s ch).bind fun _ ⟨hcount, hside⟩ =>
      (Yields.readMany (readEach_yields_forall₂ _ fun _ _ => readEach_yields_forall₂ _ fun r _ => readCoef_yields_inRange r) 8).bind
        fun _ ⟨_, hrows⟩ => .pure ⟨by simpa using hcount, hside, rfl, hrows⟩

/-! ### Errors -/

/-- Reading the frame of `n` bits, the reader stays within it, its errors too. -/
def StaysWithin {α : Type} (n : Nat) (r : Reader α) : Prop :=
  ∀ c, c.pos + c.rest.length = n → match r c with
    | .ok (_, c') => c'.pos + c'.rest.length = n
    | .error e => e.pos ≤ n

namespace StaysWithin

variable {α β : Type} {n : Nat} {r : Reader α}

theorem pure (a : α) : StaysWithin n (pure a : Reader α) := fun _ h => h

theorem bind {k : α → Reader β} (h : StaysWithin n r) (hk : ∀ a, StaysWithin n (k a)) : StaysWithin n (r >>= k) := fun c hc => by
  have hr := h c hc
  cases hread : r c with
  | error e =>
    rw [hread] at hr
    rw [reader_bind_of_error hread]
    exact hr
  | ok p =>
    rw [hread] at hr
    rw [reader_bind_of_ok hread]
    exact hk p.1 p.2 hr

/-- The position that a reader notes lies within the frame. -/
theorem cursorPos_bind {k : Nat → Reader β} (hk : ∀ q ≤ n, StaysWithin n (k q)) : StaysWithin n (cursorPos >>= k) := fun c hc =>
  hk c.pos (by omega) c hc

theorem ite {b : Prop} [Decidable b] {r' : Reader α} (h : StaysWithin n r) (h' : StaysWithin n r') :
    StaysWithin n (if b then r else r') := by
  split
  · exact h
  · exact h'

theorem failAt (code : ErrCode) {q : Nat} (hq : q ≤ n) : StaysWithin n (failAt code q : Reader α) := fun _ _ => hq

theorem peekUint (k : Nat) : StaysWithin n (peekUint k) := fun _ h => h

theorem readUint (k : Nat) : StaysWithin n (readUint k) := fun c hc => by
  rcases readUint_cases k c with ⟨hk, hr⟩ | ⟨-, hr⟩ <;> rw [hr]
  · simp only [List.length_drop]
    omega
  · exact Nat.le_of_add_right_le hc.le

theorem readMany (h : StaysWithin n r) (count : Nat) : StaysWithin n (readMany r count) := by
  induction count with
  | zero => exact pure _
  | succ count ih => exact h.bind fun _ => ih.bind fun _ => pure _

theorem readEach {f : β → Reader α} (h : ∀ x, StaysWithin n (f x)) (xs : List β) : StaysWithin n (readEach f xs) := by
  induction xs with
  | nil => exact pure _
  | cons x xs ih => exact (h x).bind fun _ => ih.bind fun _ => pure _

theorem readDeltas (w raw top : Nat) (code : ErrCode) (count : Nat) :
    ∀ prev, StaysWithin n (readDeltas w raw top code count prev) := by
  induction count with
  | zero => exact fun _ => pure _
  | succ count ih =>
    have hrest : ∀ v, StaysWithin n (do let rest ← Machine.readDeltas w raw top code count v; Pure.pure (v :: rest)) :=
      fun v => (ih v).bind fun _ => pure _
    exact fun _ => cursorPos_bind fun _ hq => (readUint w).bind fun _ =>
      ite ((readUint raw).bind hrest) (ite ((failAt code hq).bind hrest) (hrest _))

end StaysWithin

theorem readScaleFactors_staysWithin (n count : Nat) : StaysWithin n (readScaleFactors count) := by
  refine (StaysWithin.readUint 3).bind fun d => .ite (.pure _) <|
    .ite (((StaysWithin.readUint 6).readMany _).bind fun _ => .pure _) ?_
  cases count with
  | zero => exact .pure _
  | succ k => exact (StaysWithin.readUint 6).bind fun _ => (StaysWithin.readDeltas _ _ _ _ _ _).bind fun _ => .pure _

theorem readIntensity_staysWithin (n ver : Nat) : StaysWithin n (readIntensity ver) :=
  .ite ((StaysWithin.readUint 4).readMany 8) <| (StaysWithin.readUint 4).bind fun _ => .ite (.pure _) <|
    (StaysWithin.readUint 2).bind fun _ => .ite (((StaysWithin.readUint 4).readMany 7).bind fun _ => .pure _)
      ((StaysWithin.readDeltas _ _ _ _ _ _).bind fun _ => .pure _)

theorem readSide_staysWithin (n : Nat) (s : State) (ch : Nat) : StaysWithin n (readSide s ch) := by
  have hhfr : StaysWithin n (readHfr s ch) := .ite (((StaysWithin.readUint 6).readMany _).bind fun _ => .pure _) (.pure _)
  exact (readScaleFactors_staysWithin n _).bind fun _ =>
    .ite ((readIntensity_staysWithin n _).bind fun _ => hhfr.bind fun _ => .pure _) (hhfr.bind fun _ => .pure _)

theorem readCoef_staysWithin (n r : Nat) : StaysWithin n (readCoef r) :=
  .ite (.pure _) <| .ite ((StaysWithin.peekUint _).bind fun _ => (StaysWithin.readUint _).bind fun _ => .pure _) <|
    (StaysWithin.readUint _).bind fun _ => .ite (.pure _) ((StaysWithin.readUint 1).bind fun _ => .pure _)

theorem readFrame_staysWithin (n : Nat) (s : State) : StaysWithin n (readFrame s) := by
  have hheader : StaysWithin n readHeader := (StaysWithin.readUint 16).bind fun _ => .ite (.failAt _ (Nat.zero_le n)) <|
    (StaysWithin.readUint 9).bind fun _ => (StaysWithin.readUint 7).bind fun _ => .pure _
  exact hheader.bind fun _ => (StaysWithin.readEach (readSide_staysWithin n s) _).bind fun _ =>
    (StaysWithin.readMany (.readEach (fun _ => .readEach (readCoef_staysWithin n) _) _) 8).bind fun _ => .pure _

/-- An error that UNPACK meets lies within the frame (R201, R214). -/
theorem readFrame_error_pos_le {s : State} {e : BitError} (h : readFrame s (frameCursor s) = .error e) : e.pos ≤ frameBits s := by
  have hwithin := readFrame_staysWithin (frameBits s) s (frameCursor s) (by rw [frameCursor, frameBitList_length, Nat.zero_add])
  rwa [h] at hwithin

end Sys2Proof.Machine
end

section
/-! PROOFS. What UNPACK leaves: the registers of the frame it read and the arrays of its channels, or its error
(spec/44_bitstream.md R209 to R217). -/

namespace Sys2Proof.Machine

/-! ### Registers -/

theorem frameHdrWord_toNat {noise eval : Nat} (hnoise : noise < 2 ^ 9) (heval : eval < 2 ^ 7) :
    (frameHdrWord noise eval).toNat = noise + eval * 2 ^ 16 := by
  rw [frameHdrWord, BitVec.toNat_ofNat, Nat.mod_eq_of_lt (by omega)]

/-- The two fields of `FRAME_HDR` (spec/10_state.md R35). -/
theorem field_frameHdrWord {noise eval : Nat} (hnoise : noise < 2 ^ 9) (heval : eval < 2 ^ 7) :
    field (frameHdrWord noise eval) 0 9 = noise ∧ field (frameHdrWord noise eval) 16 7 = eval := by
  simp only [field, frameHdrWord_toNat hnoise heval, Nat.shiftRight_eq_div_pow]
  omega

theorem deltaCodes_lt (codes : List Nat) : codes.foldr (fun d acc => d % 8 + 16 * acc) 0 < 16 ^ codes.length := by
  induction codes with
  | nil => simp
  | cons d codes ih =>
    rw [List.foldr_cons, List.length_cons, Nat.pow_succ]
    omega

/-- Each nibble of the codes' number holds one code (spec/10_state.md R39). -/
theorem deltaCodes_nibble (codes : List Nat) (i : Nat) :
    (codes.foldr (fun d acc => d % 8 + 16 * acc) 0 >>> (4 * i)) % 8 = codes.getD i 0 % 8 := by
  induction codes generalizing i with
  | nil => simp
  | cons d codes ih =>
    cases i with
    | zero =>
      rw [List.foldr_cons, List.getD_cons_zero, Nat.mul_zero, Nat.shiftRight_zero]
      omega
    | succ i =>
      have hrest : (d % 8 + 16 * codes.foldr (fun d acc => d % 8 + 16 * acc) 0) >>> 4
          = codes.foldr (fun d acc => d % 8 + 16 * acc) 0 := by
        rw [Nat.shiftRight_eq_div_pow]
        omega
      rw [List.foldr_cons, List.getD_cons_succ, Nat.mul_succ, Nat.add_comm (4 * i), Nat.shiftRight_add, hrest, ih]

theorem field_deltaWord {codes : List Nat} (h : codes.length ≤ 8) (i : Nat) :
    field (deltaWord codes) (4 * i) 3 = codes.getD i 0 % 8 := by
  have hlt : codes.foldr (fun d acc => d % 8 + 16 * acc) 0 < 2 ^ 32 :=
    (deltaCodes_lt codes).trans_le ((Nat.pow_le_pow_right (by decide) h).trans (by decide))
  rw [field, deltaWord, BitVec.toNat_ofNat, Nat.mod_eq_of_lt hlt]
  exact deltaCodes_nibble codes i

/-- The two delta-bits registers as the codes of sixteen channels (spec/10_state.md R39). -/
theorem deltaBits_of_words {t : State} {codes : List Nat} (h0 : t.deltaBits0 = deltaWord (codes.take 8))
    (h1 : t.deltaBits1 = deltaWord ((codes.drop 8).take 8)) {ch : Nat} (hch : ch < 16) :
    deltaBits t ch = codes.getD ch 0 % 8 := by
  have hget : ∀ n, n < 8 → ∀ l : List Nat, (l.take 8).getD n 0 = l.getD n 0 := fun n hn l => by
    simp [List.getD_eq_getElem?_getD, hn]
  unfold deltaBits
  split
  · next hlow => rw [h0, field_deltaWord (List.length_take_le _ _), hget _ hlow]
  · next hhigh =>
    rw [h1, field_deltaWord (List.length_take_le _ _), hget _ (by omega)]
    simp [List.getD_eq_getElem?_getD, show 8 + (ch - 8) = ch by omega]

/-- `BITPOS` and `BITS_LEFT` as numbers, wherever the cursor can end (R216, R232). -/
theorem withBitPos_toNat_toInt {p : Nat} (hp : p < 2 ^ 20) (s : State) :
    (withBitPos p s).bitPos.toNat = p ∧ (withBitPos p s).bitsLeft.toInt = (frameBits s : Int) - p := by
  have hbits := frameBits_lt s
  refine ⟨?_, BitVec.toInt_ofInt_eq_self (by decide) ?_ ?_⟩
  · rw [withBitPos_bitPos, BitVec.toNat_ofNat, Nat.mod_eq_of_lt (by omega)]
  · rw [show (-2 ^ (32 - 1) : Int) = -2147483648 by decide]
    omega
  · rw [show (2 ^ (32 - 1) : Int) = 2147483648 by decide]
    omega

/-- `FRAME_HDR` written (R213). -/
def withFrameHdr (w : Word) (s : State) : State := { s with frameHdr := w }

theorem withFrameHdr_cfgFrame (w : Word) (s : State) : (withFrameHdr w s).cfgFrame = s.cfgFrame := rfl

theorem withFrameHdr_byte (w : Word) (s : State) (a : Nat) : (withFrameHdr w s).byte a = s.byte a := rfl

theorem withBitPos_bitsLeft_congr (p : Nat) {s t : State} (h : frameBits t = frameBits s) :
    (withBitPos p t).bitsLeft = (withBitPos p s).bitsLeft := congrArg (fun n : Nat => BitVec.ofInt 32 ((n : Int) - p)) h

/-- The registers that UNPACK and PACK write last, after their loop over the channels: `BITS_LEFT` is that of the state before the
loop. -/
theorem bitstreamEnd_bitsLeft (valid empty : Bool) (p : Nat) (codes : List Nat) {s t : State} (h : t.cfgFrame = s.cfgFrame) :
    (withValidity valid empty (withBitPos p (withDeltaBits codes t))).bitsLeft = (withBitPos p s).bitsLeft :=
  withBitPos_bitsLeft_congr p (t := withDeltaBits codes t) (congrArg (fun w => 8 * field w 0 16) h)

/-- The same registers leave RAM alone. -/
theorem bitstreamEnd_byte (valid empty : Bool) (p : Nat) (codes : List Nat) (t : State) (a : Nat) :
    (withValidity valid empty (withBitPos p (withDeltaBits codes t))).byte a = t.byte a := rfl

/-! ### Stores into a slot's arrays -/

/-- A byte stored in a slot keeps the bits of the elements of the array it lies in. -/
theorem byte_putBytes_slot (s : State) {ch j k : Nat} {array first : SlotArray} {bs : List Byte} (hch : ch < 16)
    (hj : j < slotArrayBytes array) (hplace : slotArrayOffset array + j = slotArrayOffset first + k) (hk : k < bs.length) :
    (s.putBytes (slotAddr ch first 0) bs).byte (slotAddr ch array j) = bs[k] &&& slotMask array := by
  have haddr : slotAddr ch first 0 + k = slotAddr ch array j := by
    simp only [slotAddr]
    omega
  have hstored := State.byte_putBytes_inside s (slotAddr ch first 0) k bs hk
  rwa [haddr, cellMask_slotAddr ch array j hch hj, if_neg (by cases array <;> decide)] at hstored

/-- A number stored in a slot reads back when it fits the elements of the array it lies in. -/
theorem numAt_putBytes_slot (s : State) {ch j k w : Nat} {array first : SlotArray} {ns : List Nat} (hch : ch < 16)
    (hj : j < slotArrayBytes array) (hplace : slotArrayOffset array + j = slotArrayOffset first + k) (hk : k < ns.length)
    (hw : w ≤ 8) (hmask : slotMask array = BitVec.ofNat 8 (2 ^ w - 1)) (hfits : ns.getD k 0 < 2 ^ w) :
    (s.putBytes (slotAddr ch first 0) (numBytes ns)).numAt (slotAddr ch array j) = ns.getD k 0 := by
  have hpow : 2 ^ w ≤ 2 ^ 8 := Nat.pow_le_pow_right (by decide) hw
  have hbyte : (numBytes ns)[k]'(by simpa using hk) = BitVec.ofNat 8 (ns.getD k 0) := by simp [numBytes, hk]
  rw [State.numAt, byte_putBytes_slot s hch hj hplace (by simpa using hk), hbyte, hmask, BitVec.toNat_and, BitVec.toNat_ofNat,
    BitVec.toNat_ofNat, Nat.mod_eq_of_lt (by omega), Nat.mod_eq_of_lt (by omega), Nat.and_two_pow_sub_one_of_lt_two_pow hfits]

theorem numAt_congr {s t : State} {a : Nat} (h : t.byte a = s.byte a) : t.numAt a = s.numAt a := congrArg BitVec.toNat h

/-- A store into a later array of the slot leaves the numbers before it. -/
theorem numAt_putBytes_later (s : State) {ch j : Nat} {array first : SlotArray} {bs : List Byte}
    (h : slotArrayOffset array + j < slotArrayOffset first) :
    (s.putBytes (slotAddr ch first 0) bs).numAt (slotAddr ch array j) = s.numAt (slotAddr ch array j) :=
  numAt_congr (State.byte_putBytes_outside s _ _ bs (.inl (by simp only [slotAddr]; omega)))

/-- Each slot's turn, which stays within the slot, leaves there what stands there at the end. -/
theorem forEach_slot_turn {f : Nat → State → State} {n : Nat} (hn : n ≤ 16)
    (hf : ∀ c < n, ∀ u, StoresWithin (fun a => inSlot a fun c' _ _ => decide (c' = c)) u (f c u)) (s : State) {ch : Nat}
    (hch : ch < n) :
    ∃ u, ∀ array i, i < slotArrayBytes array →
      (forEach (List.range n) f s).byte (slotAddr ch array i) = (f ch u).byte (slotAddr ch array i) := by
  obtain ⟨m, d, -, hlater⟩ := forEach_turn (s := s) (p := fun a => inSlot a fun c' _ _ => decide (c' ≠ ch)) (f := f)
    List.nodup_range (List.mem_range.2 hch)
    (fun c hc hne m d => (hf c (List.mem_range.1 hc) _).mono fun a ha => inSlot_mono (fun c' _ _ hc' => by
      simp only [decide_eq_true_eq] at hc' ⊢
      omega) ha)
    fun m d => hf ch hch _
  refine ⟨_, fun array i hi => hlater.bytes _ ?_⟩
  rw [inSlot_slotAddr ch array i _ (by omega) hi]
  simp

/-! ### One channel -/

/-- The arrays of a channel hold what was read of it (R216). -/
structure Frame.StoredIn (f : Frame) (ch : Nat) (t : State) : Prop where
  sf : ∀ b, b < 128 → t.numAt (slotAddr ch .sf b) = ((f.side.map SideInfo.sf).getD ch []).getD b 0
  res : ∀ b, b < 128 → t.numAt (slotAddr ch .res b) = (f.res.getD ch []).getD b 0
  intensity : ∀ k, k < 8 → t.numAt (slotAddr ch .intensity k) = ((f.side.map SideInfo.intensity).getD ch []).getD k 0
  hfr : ∀ k, k < 8 → t.numAt (slotAddr ch .hfrScale k) = ((f.side.map SideInfo.hfr).getD ch []).getD k 0
  qspec : ∀ q b, q < 8 → b < 128 →
    t.halfAt (slotAddr ch .qspec (2 * (128 * q + b))) = BitVec.ofInt 16 (((f.coefs.getD q []).getD ch []).getD b 0)

theorem Frame.StoredIn.congr {f : Frame} {ch : Nat} {s t : State} (h : f.StoredIn ch s)
    (hbytes : ∀ array i, i < slotArrayBytes array → t.byte (slotAddr ch array i) = s.byte (slotAddr ch array i)) :
    f.StoredIn ch t where
  sf b hb := (numAt_congr (hbytes .sf b hb)).trans (h.sf b hb)
  res b hb := (numAt_congr (hbytes .res b hb)).trans (h.res b hb)
  intensity k hk := (numAt_congr (hbytes .intensity k hk)).trans (h.intensity k hk)
  hfr k hk := (numAt_congr (hbytes .hfrScale k hk)).trans (h.hfr k hk)
  qspec q b hq hb := (halfAt_congr fun j hj => by
    rw [slotAddr_add]
    exact hbytes .qspec _ (by simp only [slotArrayBytes]; omega)).trans (h.qspec q b hq hb)

/-- A place in pieces of equal length. -/
theorem getElem?_flatMap_of_length {α β : Type} {g : α → List β} {n : Nat} {l : List α} (hlen : ∀ x ∈ l, (g x).length = n)
    (i : Nat) {j : Nat} (hj : j < n) : (l.flatMap g)[n * i + j]? = l[i]?.bind fun x => (g x)[j]? := by
  induction l generalizing i with
  | nil => simp
  | cons x l ih =>
    obtain ⟨hx, hl⟩ := List.forall_mem_cons.1 hlen
    cases i with
    | zero =>
      rw [List.flatMap_cons, List.getElem?_append_left (by omega)]
      simp
    | succ i =>
      rw [List.flatMap_cons, List.getElem?_append_right (by rw [Nat.mul_succ]; omega), hx,
        show n * (i + 1) + j - n = n * i + j by rw [Nat.mul_succ]; omega, ih hl, List.getElem?_cons_succ]

/-- A row's coefficient, 0 above the coded bands (R216). -/
theorem coefRow_getElem? (xs : List Int) {b : Nat} (hlen : xs.length ≤ 128) (hb : b < 128) :
    (coefRow xs)[b]? = some (BitVec.ofInt 16 (xs.getD b 0)) := by
  unfold coefRow
  rcases Nat.lt_or_ge b xs.length with hcoded | habove
  · rw [List.getElem?_append_left (by simpa using hcoded), List.getD_eq_getElem _ _ hcoded]
    simp [hcoded]
  · rw [List.getElem?_append_right (by simpa using habove), List.getD_eq_default _ _ habove]
    simp only [List.length_map, List.getElem?_replicate]
    rw [if_pos (by omega)]
    rfl

theorem Frame.StoredIn.completeOk {f : Frame} {ch : Nat} {s : State} (h : f.StoredIn ch s) : f.StoredIn ch (completeOk s) :=
  h.congr fun _ _ _ => completeOk_byte _ _

section Channel

variable {f : Frame} (hf : f.Fits) {ch : Nat}

include hf

theorem coefs_getD_length_le (row : List (List Int)) (hrow : row ∈ f.coefs) : (row.getD ch []).length ≤ 128 :=
  getD_of_forall (P := fun x : List Int => x.length ≤ 128) (d := []) (hf.rows row hrow) (by simp) ch

/-- The image of `QSPEC` element by element (R216). -/
theorem coefs_flatMap_getD {q b : Nat} (hq : q < 8) (hb : b < 128) :
    (f.coefs.flatMap fun row => coefRow (row.getD ch [])).getD (128 * q + b) 0
      = BitVec.ofInt 16 (((f.coefs.getD q []).getD ch []).getD b 0) := by
  have hrows : ∀ row ∈ f.coefs, (coefRow (row.getD ch [])).length = 128 := fun row hrow => by
    have hlen := coefs_getD_length_le hf (ch := ch) row hrow
    simp only [coefRow, List.length_append, List.length_map, List.length_replicate]
    omega
  have hplace : q < f.coefs.length := hf.subframes.symm ▸ hq
  rw [List.getD_eq_getElem?_getD, getElem?_flatMap_of_length hrows q hb, List.getElem?_eq_getElem hplace, Option.bind_some,
    coefRow_getElem? _ (coefs_getD_length_le hf _ (List.getElem_mem hplace)) hb, Option.getD_some, List.getD_eq_getElem _ _ hplace]

/-- One channel's turn leaves what was read of it, when that fits the arrays' elements. -/
theorem storeFrameChannel_storedIn (hch : ch < 16) (hplace : ch < f.side.length) (hside : ∀ x ∈ f.side, x.InRange)
    (hreslen : (f.res.getD ch []).length = 128) (hres : ∀ b, (f.res.getD ch []).getD b 0 < 2 ^ 4) (s : State) :
    f.StoredIn ch (storeFrameChannel f ch s) := by
  obtain ⟨hsflen, hintlen, hhfrlen⟩ := hf.side _ (List.getElem_mem hplace)
  obtain ⟨-, hsf, hint, hhfr⟩ := hside _ (List.getElem_mem hplace)
  have hsideget : f.side.getD ch ⟨0, [], [], []⟩ = f.side[ch] := List.getD_eq_getElem _ _ hplace
  have hcodes : numBytes f.side[ch].intensity ++ numBytes f.side[ch].hfr = numBytes (f.side[ch].intensity ++ f.side[ch].hfr) := by
    simp [numBytes]
  have hmap {α : Type} (g : SideInfo → List α) : (f.side.map g).getD ch [] = g f.side[ch] := by
    rw [List.getD_eq_getElem _ _ (by simpa using hplace), List.getElem_map]
  simp only [storeFrameChannel, hsideget, hcodes, State.putHalves_eq]
  constructor
  · intro b hb
    rw [hmap, numAt_putBytes_later _ (by simp only [slotArrayOffset]; omega),
      numAt_putBytes_later _ (by simp only [slotArrayOffset]; omega),
      numAt_putBytes_later _ (by simp only [slotArrayOffset]; omega)]
    exact numAt_putBytes_slot (w := 6) s hch hb rfl (by omega) (by decide) rfl (getD_of_forall hsf (by decide) b)
  · intro b hb
    rw [numAt_putBytes_later _ (by simp only [slotArrayOffset]; omega),
      numAt_putBytes_later _ (by simp only [slotArrayOffset]; omega)]
    exact numAt_putBytes_slot (w := 4) _ hch hb rfl (by omega) (by decide) rfl (hres b)
  · intro k hk
    have hget : (f.side[ch].intensity ++ f.side[ch].hfr).getD k 0 = f.side[ch].intensity.getD k 0 :=
      List.getD_append _ _ _ _ (by omega)
    rw [hmap, numAt_putBytes_later _ (by simp only [slotArrayOffset]; omega), ← hget]
    exact numAt_putBytes_slot (w := 4) _ hch hk rfl (by rw [List.length_append]; omega) (by decide) rfl
      (hget ▸ getD_of_forall hint (by decide) k)
  · intro k hk
    have hget : (f.side[ch].intensity ++ f.side[ch].hfr).getD (8 + k) 0 = f.side[ch].hfr.getD k 0 := by
      rw [List.getD_append_right _ _ _ _ (by omega), hintlen, Nat.add_sub_cancel_left]
    rw [hmap, numAt_putBytes_later _ (by simp only [slotArrayOffset]; omega), ← hget]
    exact numAt_putBytes_slot (w := 6) _ hch hk (by simp only [slotArrayOffset]; omega) (by rw [List.length_append]; omega)
      (by decide) rfl (hget ▸ getD_of_forall hhfr (by decide) k)
  · intro q b hq hb
    have hplaces : slotAddr ch .qspec (2 * (128 * q + b)) = slotAddr ch .qspec 0 + 2 * (128 * q + b) := by
      rw [slotAddr_add, Nat.zero_add]
    have hlen := hf.coefs_length ch
    rw [hplaces, ← State.putHalves_eq, halfAt_putSlotHalves _ hch rfl (by omega) (by simp only [slotArrayBytes]; omega),
      coefs_flatMap_getD hf hq hb]

end Channel

/-! ### The frame -/

theorem forall₂_getD {α β : Type} {R : α → β → Prop} {xs : List α} {ys : List β} (h : List.Forall₂ R xs ys) {x : α} {y : β}
    (hd : R x y) (i : Nat) : R (xs.getD i x) (ys.getD i y) := by
  induction h generalizing i with
  | nil => exact hd
  | cons hxy _ ih =>
    cases i with
    | zero => exact hxy
    | succ i => exact ih i

namespace Frame.ReadFrom

variable {s : State} {f : Frame} (hf : f.ReadFrom s)

include hf

/-- The resolutions of a channel are those of its scale factors (R206, R216). -/
theorem res_getD {ch : Nat} (hch : ch < chCount s) :
    f.res.getD ch [] = resolutions s f.noise f.eval ch ((f.side.map SideInfo.sf).getD ch []) := by
  have hplace : ch < f.side.length := hf.count.symm ▸ hch
  rw [hf.res, List.getD_eq_getElem _ _ (by simpa using hplace), List.getD_eq_getElem _ _ (by simpa using hplace)]
  simp

/-- Every coefficient lies in the range of its band's resolution (R113, R212). -/
theorem coef_inRange (q ch b : Nat) :
    coefInRange ((f.res.getD ch []).getD b 0) (((f.coefs.getD q []).getD ch []).getD b 0) = true := by
  refine getD_of_forall (P := fun row : List (List Int) =>
    coefInRange ((f.res.getD ch []).getD b 0) ((row.getD ch []).getD b 0) = true) (fun row hrow => ?_) (coefInRange_zero _) q
  have hpair : (f.res.zipIdx.getD ch ([], ch)).1 = f.res.getD ch [] := by
    simp only [List.getD_eq_getElem?_getD, List.getElem?_zipIdx]
    cases f.res[ch]? <;> rfl
  have hcells := forall₂_getD (hf.coefs row hrow) (x := ([], ch)) (y := []) (by simp) ch
  rw [hpair] at hcells
  rcases Nat.lt_or_ge b ((row.getD ch []).length) with hcoded | habove
  · have hcell := forall₂_getD hcells (coefInRange_zero 0) b
    rw [← hcells.length_eq, List.length_take] at hcoded
    rw [List.getD_eq_getElem?_getD, List.getElem?_take_of_lt (by omega), ← List.getD_eq_getElem?_getD] at hcell
    exact hcell
  · rw [List.getD_eq_default _ _ habove]
    exact coefInRange_zero _

end Frame.ReadFrom

section Stored

variable {s : State} {f : Frame} {n : Nat}

variable (s f n) in
theorem storeFrame_frameHdr : (storeFrame f n s).frameHdr = frameHdrWord f.noise f.eval := rfl

variable (s f n) in
theorem storeFrame_status_empty : (storeFrame f n s).status.empty = f.side.all fun x => x.dbits == 0 := List.all_map

variable (s f n) in
theorem storeFrame_status_valid : (storeFrame f n s).status.valid
    = validResult ((frameBits s : Int) - n) (storeFrame f n s).status.empty f.noise := rfl

variable (s f n) in
theorem storeFrame_bitPos : (storeFrame f n s).bitPos = (withBitPos n s).bitPos := rfl

variable (s f n) in
/-- The loop over the channels changes no register (R216). -/
theorem storeFrame_bitsLeft : (storeFrame f n s).bitsLeft = (withBitPos n s).bitsLeft :=
  bitstreamEnd_bitsLeft _ _ n _ (t := withFrameHdr (frameHdrWord f.noise f.eval) _) <|
    (withFrameHdr_cfgFrame _ _).trans <| forEach_view State.cfgFrame _ _ (fun ch _ t => by
      simp only [storeFrameChannel, State.putHalves_eq, State.putBytes_cfgFrame]) s

variable (s f n) in
theorem storeFrame_byte (a : Nat) :
    (storeFrame f n s).byte a = (forEach (List.range (chCount s)) (storeFrameChannel f) s).byte a :=
  (bitstreamEnd_byte _ _ n _ (withFrameHdr (frameHdrWord f.noise f.eval) _) a).trans (withFrameHdr_byte _ _ a)

/-- What UNPACK read fits the arrays it is stored in, and stands there at the end (R216, R217). -/
theorem storeFrame_storedIn (hcfg : cfgOk s = true) (hmem : s.mem.wf) (hfits : f.Fits) (hf : f.ReadFrom s) {ch : Nat}
    (hch : ch < chCount s) : f.StoredIn ch (storeFrame f n s) := by
  obtain ⟨-, hcount, -⟩ := cfgOk_bounds s hcfg
  have hslot : ch < 16 := by omega
  obtain ⟨u, hu⟩ := forEach_slot_turn hcount (f := storeFrameChannel f) (fun c hc u =>
    storeFrameChannel_storesWithin (fun array _ i hi => by simp [inSlot_slotAddr c array i _ (by omega) hi]) hfits) s hch
  refine (storeFrameChannel_storedIn hfits hslot (hf.count.symm ▸ hch) hf.side ?_ (fun b => ?_) u).congr
    fun array i hi => (storeFrame_byte s f n _).trans (hu array i hi)
  · rw [hf.res_getD hch, resolutions_length]
  · rw [hf.res_getD hch]
    exact getD_of_forall (P := (· < 2 ^ 4)) (fun r hr => Nat.lt_succ_of_le (resolutions_le hmem _ _ _ _ r hr)) (by decide) b

end Stored

/-- A coefficient in its resolution's range is a 16-bit value (spec/30_encoding.md R113). -/
theorem toInt_ofInt_of_coefInRange {r : Nat} {v : Int} (hr : r ≤ 15) (hv : coefInRange r v = true) :
    (BitVec.ofInt 16 v).toInt = v := by
  have hmax : ∀ r : Fin 16, maxAbs r ≤ 2047 := by decide
  have hv : v.natAbs ≤ maxAbs r := by simpa [coefInRange] using hv
  have hbound : maxAbs r ≤ 2047 := hmax ⟨r, by omega⟩
  refine BitVec.toInt_ofInt_eq_self (by decide) ?_ ?_
  · rw [show (-2 ^ (16 - 1) : Int) = -32768 by decide]
    omega
  · rw [show (2 ^ (16 - 1) : Int) = 32768 by decide]
    omega

/-! ### UNPACK completes -/

theorem effectOf_unpack {s : State} (hcfg : cfgOk s = true) (hframe : frameOk s = true) : effectOf .unpack s = unpackBody s :=
  (requireCfg_of_ok s _ hcfg).trans (requireFrame_of_ok s _ hframe)

theorem unpackBody_of_ok {s : State} {f : Frame} {c : Cursor} (h : readFrame s (frameCursor s) = .ok (f, c)) :
    unpackBody s = .ok (storeFrame f c.pos s) := by rw [unpackBody, h]

theorem unpackBody_of_error {s : State} {e : BitError} (h : readFrame s (frameCursor s) = .error e) :
    unpackBody s = .error e.code (BitVec.ofNat 32 e.pos) (unpackFailed s) := by rw [unpackBody, h]

/-- Settles O42, from what `storeFrame` leaves in the registers and in each channel's arrays. -/
theorem unpackStoresFrame : Obligations.UnpackStoresFrame := by
  intro s f c hcfg hframe hread hmem
  obtain ⟨hfits, hend⟩ := readFrame_ok hcfg hread
  have hf := ((readFrame_yields_readFrom s).ok hread).1
  obtain ⟨-, hcount, -⟩ := cfgOk_bounds s hcfg
  obtain ⟨hexec, hcompleted, hplaces⟩ := exec_of_ok rfl ((effectOf_unpack hcfg hframe).trans (unpackBody_of_ok hread))
  obtain ⟨hnoise, heval⟩ := field_frameHdrWord hfits.noise hfits.eval
  obtain ⟨hpos, hleft⟩ := withBitPos_toNat_toInt (hend.trans_lt (frameBits_lt s)) s
  refine ⟨_, hexec, hcompleted, hplaces, storeFrame_crcOk f c.pos s, hnoise, heval, ?_, ?_, storeFrame_status_empty s f c.pos,
    storeFrame_status_valid s f c.pos, fun ch hch => ?_, fun ch hch => ?_⟩
  · exact (congrArg BitVec.toNat (storeFrame_bitPos s f c.pos)).trans hpos
  · exact (congrArg BitVec.toInt (storeFrame_bitsLeft s f c.pos)).trans hleft
  · refine (deltaBits_of_words (codes := f.side.map SideInfo.dbits) rfl rfl hch).trans ?_
    split
    · next hlow =>
      have hplace : ch < (f.side.map SideInfo.dbits).length := by simpa [hf.count] using hlow
      refine Nat.mod_eq_of_lt (getD_of_forall (P := (· < 8)) (fun d hd => ?_) (by decide) ch)
      obtain ⟨x, hx, rfl⟩ := List.mem_map.1 hd
      exact (hf.side x hx).dbits
    · next hhigh => rw [List.getD_eq_default _ _ (by simpa [hf.count] using hhigh)]
  · have hstored := (storeFrame_storedIn (n := c.pos) hcfg hmem hfits hf hch).completeOk
    refine ⟨hstored.sf, fun b hb => (hstored.res b hb).trans (by rw [hf.res_getD hch]), hstored.intensity, hstored.hfr,
      fun q b hq hb => ?_⟩
    rw [hstored.qspec q b hq hb]
    refine toInt_ofInt_of_coefInRange ?_ (hf.coef_inRange q ch b)
    rw [hf.res_getD hch]
    exact getD_of_forall (P := (· ≤ 15)) (resolutions_le hmem _ _ _ _) (by decide) b

/-- A command without error has passed its checks of the configuration. -/
theorem config_of_err_eq_false {i : Instr} (hcfg : requiresCfg i = true) (hframe : requiresFrame i = true) {s t : State}
    (h : exec i s = .next t) (herr : t.status.err = false) : cfgOk s = true ∧ frameOk s = true := by
  rw [exec_next_iff] at h
  by_contra hbad
  rw [not_and_or, Bool.not_eq_true, Bool.not_eq_true] at hbad
  rw [effectOf_of_badConfig (hbad.imp (⟨hcfg, ·⟩) (⟨hframe, ·⟩))] at h
  simp [h, complete] at herr

/-- An UNPACK without error has read a whole frame. -/
theorem unpack_ok_of_err_eq_false {s t : State} (h : exec .unpack s = .next t) (herr : t.status.err = false) :
    cfgOk s = true ∧ ∃ f c, readFrame s (frameCursor s) = .ok (f, c) ∧ t = completeOk (storeFrame f c.pos s) := by
  obtain ⟨hcfg, hframe⟩ := config_of_err_eq_false rfl rfl h herr
  rw [exec_next_iff, effectOf_unpack hcfg hframe] at h
  cases hread : readFrame s (frameCursor s) with
  | error e =>
    rw [unpackBody_of_error hread] at h
    simp [h, complete] at herr
  | ok p => exact ⟨hcfg, p.1, p.2, rfl, by rw [h, unpackBody_of_ok hread]; rfl⟩

/-- Settles O44: what stands in the arrays was read, and every reader answers within its range. -/
theorem unpackValuesInRange : Obligations.UnpackValuesInRange := by
  intro s t hmem hexec herr ch hch
  obtain ⟨hcfg, f, c, hread, rfl⟩ := unpack_ok_of_err_eq_false hexec herr
  have hf := ((readFrame_yields_readFrom s).ok hread).1
  have hstored := (storeFrame_storedIn (n := c.pos) hcfg hmem (readFrame_ok hcfg hread).1 hf hch).completeOk
  have hside {w : Nat} {g : SideInfo → List Nat} (hg : ∀ x : SideInfo, x.InRange → ∀ v ∈ g x, v ≤ w) (k : Nat) :
      ((f.side.map g).getD ch []).getD k 0 ≤ w := by
    refine getD_of_forall (P := (· ≤ w)) (getD_of_forall (P := fun l : List Nat => ∀ v ∈ l, v ≤ w) (fun l hl => ?_) (by simp) ch)
      (Nat.zero_le w) k
    obtain ⟨x, hx, rfl⟩ := List.mem_map.1 hl
    exact hg x (hf.side x hx)
  have hres (b : Nat) : (f.res.getD ch []).getD b 0 ≤ 15 := by
    rw [hf.res_getD hch]
    exact getD_of_forall (P := (· ≤ 15)) (resolutions_le hmem _ _ _ _) (by decide) b
  refine ⟨fun b hb => ⟨?_, ?_⟩, fun k hk => ⟨?_, ?_⟩, fun q b hq hb => ?_⟩
  · exact (hstored.sf b hb).trans_le (hside (fun x hx v hv => Nat.le_of_lt_succ (hx.sf v hv)) b)
  · exact (hstored.res b hb).trans_le (hres b)
  · exact (hstored.intensity k hk).trans_le (hside (fun x hx v hv => Nat.le_of_lt_succ (hx.intensity v hv)) k)
  · exact (hstored.hfr k hk).trans_le (hside (fun x hx v hv => Nat.le_of_lt_succ (hx.hfr v hv)) k)
  · have hcoef := hf.coef_inRange q ch b
    rw [hstored.res b hb, hstored.qspec q b hq hb, toInt_ofInt_of_coefInRange (hres b) hcoef]
    exact hcoef

/-! ### UNPACK fails -/

theorem bytesToBits_append (a b : List Byte) : bytesToBits (a ++ b) = bytesToBits a ++ bytesToBits b := List.flatMap_append

/-- The first bits of a legal frame are those of its first two bytes. -/
theorem frameBitList_two_bytes {s : State} (hframe : frameOk s = true) :
    frameBitList s = bitsOf 8 (s.byte frameBufBase).toNat ++ bitsOf 8 (s.byte (frameBufBase + 1)).toNat
      ++ bytesToBits (s.bytes (frameBufBase + 2) (frameBytes s - 2)) := by
  have hmin := (frameOk_iff s).1 hframe
  have hbytes := State.bytes_append s frameBufBase 2 (frameBytes s - 2)
  rw [show 2 + (frameBytes s - 2) = frameBytes s by omega] at hbytes
  rw [frameBitList, hbytes, bytesToBits_append]
  exact congrArg (· ++ _) (by simp [State.bytes_eq_map, List.range_succ, bytesToBits])

/-- A frame with another sync word is SYNC at position 0 (R213). -/
theorem readFrame_sync {s : State} (hframe : frameOk s = true)
    (h : s.byte frameBufBase ≠ 0xFF ∨ s.byte (frameBufBase + 1) ≠ 0xFF) : readFrame s (frameCursor s) = .error ⟨.sync, 0⟩ := by
  have hfirst := (s.byte frameBufBase).isLt
  have hsecond := (s.byte (frameBufBase + 1)).isLt
  have hne : (s.byte frameBufBase).toNat * 2 ^ 8 + (s.byte (frameBufBase + 1)).toNat ≠ 0xFFFF := by
    have hbyte : ∀ b : Byte, b ≠ 0xFF → b.toNat ≠ 255 := fun b hb heq => hb (BitVec.eq_of_toNat_eq heq)
    rcases h with h | h <;> have := hbyte _ h <;> omega
  have hread := readUint_append (bitsOf 8 (s.byte frameBufBase).toNat ++ bitsOf 8 (s.byte (frameBufBase + 1)).toNat) 0
    (bytesToBits (s.bytes (frameBufBase + 2) (frameBytes s - 2)))
  rw [valueOf_append, valueOf_bitsOf _ _ hfirst, valueOf_bitsOf _ _ hsecond, ← frameBitList_two_bytes hframe] at hread
  simp only [List.length_append, bitsOf_length] at hread
  refine reader_bind_of_error ?_ _
  rw [readHeader, frameCursor, reader_bind_of_ok hread, if_pos hne]
  rfl

/-- An UNPACK that meets an error completes with it (R214, R281, R283). -/
theorem unpack_of_error {s : State} (hcfg : cfgOk s = true) (hframe : frameOk s = true) {e : BitError}
    (h : readFrame s (frameCursor s) = .error e) :
    ∃ t, exec .unpack s = .next t ∧ Completed e.code (BitVec.ofNat 32 e.pos) t ∧ t.status.valid = false
      ∧ t.status.crcOk = s.status.crcOk ∧ UnchangedOutside .unpack s t := by
  have heffect := (effectOf_unpack hcfg hframe).trans (unpackBody_of_error h)
  have hplaces := complete_effectOf_frame (i := .unpack) rfl s
  rw [heffect] at hplaces
  refine ⟨raiseError e.code (BitVec.ofNat 32 e.pos) (unpackFailed s), (exec_next_iff _ s _).2 (by rw [heffect]; rfl),
    ⟨rfl, rfl, rfl, ?_, rfl, rfl⟩, rfl, rfl, hplaces⟩
  exact (bne_iff_ne.2 (readFrame_error hcfg h)).symm

/-- A scale factor's delta whose sum leaves 0 to 63 is SF_RANGE at the delta's field (R209). -/
theorem readScaleFactors_out_of_range {d n u : Nat} {f : List Nat} (hd : 1 ≤ d) (hd5 : d ≤ 5) (hne : f ≠ [])
    (hf : ∀ x ∈ f, x < 64) (hn : f.length < n) (hu : u < 2 ^ d - 1)
    (hout : f.getLastD 0 + u < 2 ^ (d - 1) - 1 ∨ 63 + (2 ^ (d - 1) - 1) < f.getLastD 0 + u) (pos : Nat) (rest : List Bool) :
    readScaleFactors n ⟨pos, sfBits d f ++ (bitsOf d u ++ rest)⟩ = .error ⟨.sfRange, pos + sfCost d f⟩ := by
  obtain ⟨x, f, rfl⟩ := List.exists_cons_of_ne_nil hne
  obtain ⟨m, rfl⟩ := Nat.exists_eq_add_of_lt (Nat.zero_lt_of_lt hn)
  obtain ⟨hx, hf⟩ := List.forall_mem_cons.1 hf
  rw [List.length_cons] at hn
  have herror := readDeltas_section_out_of_range (raw := 6) (n := m) (code := .sfRange) (by decide) (deltaForms_codable hd x hf) hu
    (by rwa [deltaForms_map_fst]) (by rw [deltaForms_length]; omega) (pos + 9) rest
  rw [sfBits_delta hd hd5, sfCost_delta hd hd5, List.append_assoc, List.append_assoc, Nat.zero_add,
    readScaleFactors_delta hd hd5 hx, reader_bind_of_error herror, Nat.add_assoc]

/-- Settles O43: the errors of the readers, completed. -/
theorem unpackErrors_holds : Obligations.UnpackErrors := by
  refine ⟨fun s hcfg hframe => ⟨fun e hread => ?_, fun hsync => ?_⟩, fun n c e => ?_,
    fun d n u pos f rest hd hd5 hne hf hn hu hout => ?_⟩
  · obtain ⟨t, hexec, hcompleted, hvalid, hcrc, hplaces⟩ := unpack_of_error hcfg hframe hread
    have hpos := readFrame_error_pos_le hread
    have hlt := frameBits_lt s
    refine ⟨(readFrame_yields hcfg).error hread, hpos, t, hexec, hcompleted, ?_, hvalid, hcrc, hplaces⟩
    obtain ⟨-, -, -, -, -, hinfo⟩ := hcompleted
    rw [hinfo, BitVec.toNat_ofNat, Nat.mod_eq_of_lt (by omega)]
  · exact unpack_of_error hcfg hframe (readFrame_sync hframe hsync)
  · rcases readUint_cases n c with ⟨hn, hread⟩ | ⟨hn, hread⟩ <;> rw [hread]
    · simp [hn.not_gt]
    · simp [hn, eq_comm]
  · rw [List.append_assoc]
    exact readScaleFactors_out_of_range hd hd5 hne hf hn hu hout pos rest

end Sys2Proof.Machine
end

section
/-! PROOFS. The values PACK cannot code: its checks in order are a search by the number of the value, so the error is that of the
first (spec/44_bitstream.md R231, spec/60_exceptions.md R282). -/

namespace Sys2Proof.Machine

/-! ### Searches -/

theorem findSome?_congr_mem {α β : Type} {f g : α → Option β} {l : List α} (h : ∀ x ∈ l, f x = g x) :
    l.findSome? f = l.findSome? g := by
  induction l with
  | nil => rfl
  | cons x l ih =>
    obtain ⟨hx, hl⟩ := List.forall_mem_cons.1 h
    rw [List.findSome?_cons, List.findSome?_cons, hx, ih hl]

/-- A search of `m` rows of `k` each. -/
theorem findSome?_range_mul {α : Type} (f : Nat → Option α) (m k : Nat) :
    (List.range (k * m)).findSome? f = (List.range m).findSome? fun i => (List.range k).findSome? fun j => f (k * i + j) := by
  induction m with
  | zero => rfl
  | succ m ih =>
    rw [Nat.mul_succ, List.range_add, List.findSome?_append, ih, List.range_succ, List.findSome?_append, List.findSome?_map]
    simp only [List.findSome?_cons, List.findSome?_nil, Function.comp_def]
    cases (List.range k).findSome? fun j => f (k * m + j) <;> rfl

/-- A search whose last places find nothing. -/
theorem findSome?_range_of_le {α : Type} {f : Nat → Option α} {n m : Nat} (hnm : n ≤ m) (h : ∀ i, n ≤ i → i < m → f i = none) :
    (List.range m).findSome? f = (List.range n).findSome? f := by
  obtain ⟨k, rfl⟩ := Nat.exists_eq_add_of_le hnm
  have hlast : ((List.range k).map (n + ·)).findSome? f = none := List.findSome?_eq_none_iff.2 fun i hi => by
    obtain ⟨j, hj, rfl⟩ := List.mem_map.1 hi
    exact h _ (Nat.le_add_right n j) (Nat.add_lt_add_left (List.mem_range.1 hj) n)
  rw [List.range_add, List.findSome?_append, hlast, Option.or_none]

/-- A search that finds its first place. -/
theorem findSome?_range_of_first {α : Type} {f : Nat → Option α} {n m : Nat} {a : α} (hn : n < m) (ha : f n = some a)
    (hfirst : ∀ i, i < n → f i = none) : (List.range m).findSome? f = some a := by
  obtain ⟨k, rfl⟩ := Nat.exists_eq_add_of_lt hn
  have hbefore : (List.range n).findSome? f = none := List.findSome?_eq_none_iff.2 fun i hi => hfirst i (List.mem_range.1 hi)
  rw [Nat.add_assoc, List.range_add, List.findSome?_append, hbefore, Option.none_or, List.range_succ_eq_map]
  simp [ha]

theorem zipIdx_map_range {α : Type} (g : Nat → α) (n : Nat) :
    ((List.range n).map g).zipIdx = (List.range n).map fun i => (g i, i) :=
  List.ext_getElem (by simp) fun i h1 h2 => by simp

/-! ### The numbers of the values -/

theorem toNat_append_add {m n : Nat} (x : BitVec m) (y : BitVec n) : (x ++ y).toNat = x.toNat * 2 ^ n + y.toNat := by
  rw [BitVec.toNat_append, ← Nat.shiftLeft_add_eq_or_of_lt y.isLt, Nat.shiftLeft_eq]

/-- `ERR_INFO` of a channel's intensity codes (R282). -/
theorem packProblemInfo_intensity {ch : Nat} (hch : ch < 16) : packProblemInfo (1025 * ch) = codeRangeInfo 3 ch 0 0 := by
  refine BitVec.eq_of_toNat_eq ?_
  rw [packProblemInfo, if_pos (by omega), show 1025 * ch / 1025 = ch by omega, codeRangeInfo]
  simp only [toNat_append_add, BitVec.toNat_ofNat]
  omega

/-- The channel, subframe and band of a coefficient's number. -/
theorem coef_number {ch sub b : Nat} (hsub : sub < 8) (hb : b < 128) :
    (1025 * ch + (1 + (128 * sub + b))) / 1025 = ch ∧ (1025 * ch + (1 + (128 * sub + b))) % 1025 = 1 + (128 * sub + b)
      ∧ (128 * sub + b) / 128 = sub ∧ (128 * sub + b) % 128 = b := by
  have hplace : 128 * sub + b < 1024 := by omega
  refine ⟨?_, ?_, by omega, by omega⟩ <;> generalize 128 * sub + b = j at hplace ⊢ <;> omega

/-- `ERR_INFO` of a coefficient (R282). -/
theorem packProblemInfo_coef {ch sub b : Nat} (hch : ch < 16) (hsub : sub < 8) (hb : b < 128) :
    packProblemInfo (1025 * ch + (1 + (128 * sub + b))) = codeRangeInfo 5 ch sub b := by
  obtain ⟨hchannel, hplace, hrow, hband⟩ := coef_number (ch := ch) hsub hb
  refine BitVec.eq_of_toNat_eq ?_
  rw [packProblemInfo, hchannel, hplace, if_neg (by omega), Nat.add_sub_cancel_left, hrow, hband, codeRangeInfo]
  simp only [toNat_append_add, BitVec.toNat_ofNat, show ch % 2 ^ 4 = ch by omega, show sub % 2 ^ 3 = sub by omega,
    show b % 2 ^ 7 = b by omega]
  omega

theorem packProblem_intensity {s : State} {ch : Nat} (hch : ch < chCount s) :
    PackProblem s (1025 * ch) ↔ 0x0300 ≤ version s ∧ role s ch = .stereoSecondary
      ∧ (∃ k, k < 8 ∧ s.numAt (slotAddr ch .intensity k) ≠ 7) ∧ s.numAt (slotAddr ch .intensity 0) = 15 := by
  rw [PackProblem, if_pos (by omega), show 1025 * ch / 1025 = ch by omega]
  exact and_iff_right hch

theorem packProblem_coef {s : State} {ch sub b : Nat} (hch : ch < chCount s) (hsub : sub < 8) (hb : b < 128) :
    PackProblem s (1025 * ch + (1 + (128 * sub + b))) ↔ b < coded s ch
      ∧ coefInRange ((resolutions s (noiseOf s) (evalOf s) ch (s.nums (slotAddr ch .sf 0) 128)).getD b 0)
          (s.halfAt (slotAddr ch .qspec (2 * (128 * sub + b)))).toInt = false := by
  obtain ⟨hchannel, hplace, -, hband⟩ := coef_number (ch := ch) hsub hb
  rw [PackProblem, hchannel, hplace, if_neg (by omega), Nat.add_sub_cancel_left, hband]
  exact and_iff_right hch

open Classical in
/-- What the search finds at a number: the `ERR_INFO` of that value, if PACK cannot code it. -/
noncomputable def packProblemAt (s : State) (n : Nat) : Option Word := if PackProblem s n then some (packProblemInfo n) else none

/-! ### The checks -/

theorem intensityCodes_eq_map (s : State) (ch : Nat) :
    intensityCodes s ch = (List.range 8).map fun k => s.numAt (slotAddr ch .intensity k) := by
  rw [intensityCodes, State.nums_eq_map]
  exact List.map_congr_left fun k _ => by rw [slotAddr_add, Nat.zero_add]

/-- A channel's coefficients of a subframe, element by element (R225). -/
theorem packChannel_row (s : State) {ch sub : Nat} (hsub : sub < 8) :
    (packChannel s ch).coefs.getD sub []
      = (List.range (coded s ch)).map fun b => (s.halfAt (slotAddr ch .qspec (2 * (128 * sub + b)))).toInt := by
  have hrow : (packChannel s ch).coefs.getD sub [] = (s.halves (slotAddr ch .qspec (256 * sub)) (coded s ch)).map BitVec.toInt := by
    simp [packChannel, hsub]
  rw [hrow, State.halves_eq_map, List.map_map]
  refine List.map_congr_left fun b _ => ?_
  rw [Function.comp_apply, slotAddr_add, show 256 * sub + 2 * b = 2 * (128 * sub + b) by omega]

theorem packChannel_coefs (s : State) (ch : Nat) :
    (packChannel s ch).coefs = (List.range 8).map fun sub => (packChannel s ch).coefs.getD sub [] := by
  refine List.ext_getElem (by simp [packChannel]) fun i h1 h2 => ?_
  rw [List.getElem_map, List.getElem_range, List.getD_eq_getElem _ _ h1]

/-- The check of the intensity codes is the search's first place in the channel (R231). -/
theorem intensity_check_iff {s : State} {ch : Nat} (hch : ch < chCount s) :
    (role s ch = .stereoSecondary ∧ Config.v3 ≤ version s ∧ ((intensityCodes s ch).all fun x => x == 7) = false
      ∧ (intensityCodes s ch).headD 0 = 15) ↔ PackProblem s (1025 * ch) := by
  have hall : ((intensityCodes s ch).all fun x => x == 7) = false ↔ ∃ k, k < 8 ∧ s.numAt (slotAddr ch .intensity k) ≠ 7 := by
    rw [intensityCodes_eq_map, ← Bool.not_eq_true]
    simp
  have hhead : (intensityCodes s ch).headD 0 = s.numAt (slotAddr ch .intensity 0) := by
    rw [intensityCodes_eq_map]
    rfl
  rw [hall, hhead, packProblem_intensity hch]
  exact and_left_comm

/-- The checks of a channel's coefficients are the search's other places in the channel (R231). -/
theorem coef_check_eq_findSome? {s : State} (hcfg : cfgOk s = true) {ch : Nat} (hch : ch < chCount s) :
    ((packChannel s ch).coefs.zipIdx.findSome? fun row => row.1.zipIdx.findSome? fun v =>
      if coefInRange ((packChannel s ch).res.getD v.2 0) v.1 then none else some (codeRangeInfo 5 ch row.2 v.2))
      = (List.range (128 * 8)).findSome? fun j => packProblemAt s (1025 * ch + (1 + j)) := by
  obtain ⟨-, hcount, -⟩ := cfgOk_bounds s hcfg
  obtain ⟨-, hcoded⟩ := coded_le s ch hcfg
  rw [findSome?_range_mul, packChannel_coefs, zipIdx_map_range, List.findSome?_map]
  refine findSome?_congr_mem fun sub hsub => ?_
  have hsub := List.mem_range.1 hsub
  have hplace (b : Nat) (hb : b < 128) := packProblem_coef (s := s) hch hsub hb
  rw [Function.comp_apply, packChannel_row s hsub, zipIdx_map_range, List.findSome?_map,
    findSome?_range_of_le hcoded fun b hb hb' => ?_]
  · refine findSome?_congr_mem fun b hb => ?_
    have hb := List.mem_range.1 hb
    have hproblem := hplace b (by omega)
    rw [Function.comp_apply, packProblemAt, packProblemInfo_coef (by omega) hsub (by omega)]
    by_cases hrange : coefInRange ((packChannel s ch).res.getD b 0)
        (s.halfAt (slotAddr ch .qspec (2 * (128 * sub + b)))).toInt = true
    · rw [if_pos hrange, if_neg fun h => Bool.false_ne_true ((hproblem.1 h).2.symm.trans hrange)]
    · rw [if_neg hrange, if_pos (hproblem.2 ⟨hb, Bool.eq_false_iff.2 hrange⟩)]
  · exact if_neg fun h => hb.not_gt ((hplace b hb').1 h).1

/-- PACK's checks are the search for the first value that cannot be coded (R231). -/
theorem packCheck_eq_findSome? {s : State} (hcfg : cfgOk s = true) :
    packCheck s (packChannels s) = (List.range (1025 * chCount s)).findSome? (packProblemAt s) := by
  obtain ⟨-, hcount, -⟩ := cfgOk_bounds s hcfg
  rw [packCheck, packChannels_zipIdx, List.findSome?_map, findSome?_range_mul]
  refine findSome?_congr_mem fun ch hch => ?_
  have hch := List.mem_range.1 hch
  have hplaces : List.range 1025 = List.range 1 ++ (List.range (128 * 8)).map (1 + ·) :=
    (congrArg List.range (by decide : 1025 = 1 + 128 * 8)).trans List.range_add
  have hfirst : (List.range 1).findSome? (fun j => packProblemAt s (1025 * ch + j)) = packProblemAt s (1025 * ch) := by
    simp [List.range_succ]
  rw [hplaces, List.findSome?_append, List.findSome?_map, hfirst, Function.comp_apply, packCheckChannel,
    coef_check_eq_findSome? hcfg hch, packProblemAt, packProblemInfo_intensity (by omega)]
  by_cases hproblem : PackProblem s (1025 * ch)
  · rw [if_pos hproblem, if_pos ((intensity_check_iff hch).2 hproblem)]
    rfl
  · rw [if_neg hproblem, if_neg (mt (intensity_check_iff hch).1 hproblem), Option.none_or]
    rfl

/-- The first value that cannot be coded is the one that the checks report. -/
theorem packCheck_of_first {s : State} (hcfg : cfgOk s = true) {n : Nat} (hn : PackProblem s n)
    (hfirst : ∀ m, m < n → ¬PackProblem s m) : packCheck s (packChannels s) = some (packProblemInfo n) := by
  have hch : n / 1025 < chCount s := hn.1
  rw [packCheck_eq_findSome? hcfg]
  exact findSome?_range_of_first (by omega) (if_pos hn) fun m hm => if_neg (hfirst m hm)

theorem packCheck_eq_none_iff {s : State} (hcfg : cfgOk s = true) :
    packCheck s (packChannels s) = none ↔ ∀ n, ¬PackProblem s n := by
  rw [packCheck_eq_findSome? hcfg, List.findSome?_eq_none_iff]
  refine ⟨fun h n hn => ?_, fun h n _ => if_neg (h n)⟩
  have hch : n / 1025 < chCount s := hn.1
  have hnone := h n (List.mem_range.2 (by omega))
  rw [packProblemAt, if_pos hn] at hnone
  contradiction

end Sys2Proof.Machine
end

section
/-! PROOFS. What PACK leaves: the derived values, the registers and the frame, or its error (spec/44_bitstream.md R225 to R233). -/

namespace Sys2Proof.Machine

/-! ### The configuration -/

/-- The configuration registers are the same (spec/10_state.md R24 to R28). -/
structure SameConfig (s t : State) : Prop where
  stream : t.cfgStream = s.cfgStream
  frame : t.cfgFrame = s.cfgFrame
  bands : t.cfgBands = s.cfgBands
  res : t.cfgRes = s.cfgRes
  roles : t.cfgRoles = s.cfgRoles

/-- No command writes the configuration. -/
theorem UnchangedOutside.sameConfig {i : Instr} {s t : State} (h : UnchangedOutside i s t) : SameConfig s t := by
  obtain ⟨-, hregs, -⟩ := h
  have hconfig : ∀ r ∈ [Reg.cfgStream, .cfgFrame, .cfgBands, .cfgRes, .cfgRoles], writesReg i r = false := by
    cases i <;> simp [writesReg]
  exact ⟨hregs .cfgStream (by decide) (hconfig _ (by simp)), hregs .cfgFrame (by decide) (hconfig _ (by simp)),
    hregs .cfgBands (by decide) (hconfig _ (by simp)), hregs .cfgRes (by decide) (hconfig _ (by simp)),
    hregs .cfgRoles (by decide) (hconfig _ (by simp))⟩

namespace SameConfig

variable {s t : State} (h : SameConfig s t)

include h

theorem cfgOk : cfgOk t = cfgOk s := cfgOk_congr h.stream h.bands h.res h.roles

theorem frameBytes : frameBytes t = frameBytes s := congrArg (field · 0 16) h.frame

theorem frameBits : frameBits t = frameBits s := congrArg (8 * ·) h.frameBytes

theorem frameOk : frameOk t = frameOk s := by rw [Machine.frameOk, Machine.frameOk, h.frameBytes]

theorem chCount : chCount t = chCount s := congrArg (field · 0 5) h.stream

theorem version : version t = version s := congrArg (field · 16 16) h.stream

theorem role (ch : Nat) : role t ch = role s ch := congrArg (fun w => roleOfField (field w (2 * ch) 2)) h.roles

theorem baseBands : baseBands t = baseBands s := congrArg (field · 0 8) h.bands

theorem stereoBands : stereoBands t = stereoBands s := congrArg (field · 8 8) h.bands

theorem hfrBands : hfrBands t = hfrBands s := congrArg (field · 16 8) h.bands

theorem bandsPerGroup : bandsPerGroup t = bandsPerGroup s := congrArg (field · 24 8) h.bands

theorem minRes : minRes t = minRes s := congrArg (field · 0 4) h.res

theorem maxRes : maxRes t = maxRes s := congrArg (field · 4 4) h.res

theorem coded (ch : Nat) : coded t ch = coded s ch := by
  simp only [Machine.coded, h.role, h.baseBands, h.stereoBands]

theorem hfrGroups : hfrGroups t = hfrGroups s := by simp only [Machine.hfrGroups, h.hfrBands, h.bandsPerGroup]

theorem hfrCoded (ch : Nat) : hfrCoded t ch = hfrCoded s ch := by
  simp only [Machine.hfrCoded, h.role, h.hfrGroups, h.version]

end SameConfig

/-! ### Bits and bytes -/

/-- A bit sequence is the bits of its value (R8). -/
theorem bitsOf_valueOf (bits : List Bool) : bitsOf bits.length (valueOf bits) = bits := by
  induction bits using List.reverseRecOn with
  | nil => rfl
  | append_singleton bits b ih =>
    have hhalf : (2 * valueOf bits + b.toNat) / 2 = valueOf bits := by
      have := b.toNat_le
      omega
    have hlast : (2 * valueOf bits + b.toNat).testBit 0 = b := by cases b <;> simp [Nat.testBit_zero]
    rw [List.length_append, List.length_singleton, bitsOf_succ, valueOf_concat, hhalf, hlast, ih]

/-- The bytes of whole bytes' bits have those bits (R8). -/
theorem bytesToBits_bitsToBytes (bits : List Bool) (h : bits.length % 8 = 0) : bytesToBits (bitsToBytes bits) = bits := by
  induction bits using bitsToBytes.induct with
  | case1 b7 b6 b5 b4 b3 b2 b1 b0 rest ih =>
    have hbyte := bitsOf_valueOf [b7, b6, b5, b4, b3, b2, b1, b0]
    have hlt := valueOf_lt [b7, b6, b5, b4, b3, b2, b1, b0]
    simp only [List.length_cons, List.length_nil] at h hbyte hlt
    rw [bitsToBytes, bytesToBits, List.flatMap_cons, BitVec.toNat_ofNat, Nat.mod_eq_of_lt hlt, hbyte]
    exact congrArg ([b7, b6, b5, b4, b3, b2, b1, b0] ++ ·) (ih (by omega))
  | case2 bits hshort =>
    have hbytes := bitsToBytes_length bits
    have hnil : bitsToBytes bits = [] := by rw [bitsToBytes]; exact hshort
    rw [hnil, List.length_nil] at hbytes
    rw [hnil, List.length_eq_zero_iff.1 (by omega : bits.length = 0)]
    rfl

/-- Bytes stored in the frame buffer read back. -/
theorem bytes_putBytes_frameBuf (s : State) {bs : List Byte} (h : bs.length ≤ 0x10000) :
    (s.putBytes frameBufBase bs).bytes frameBufBase bs.length = bs := by
  refine List.ext_getElem (State.bytes_length _ _ _) fun i h1 h2 => ?_
  have hstored := byte_putBytes_frameBuf s 0 i bs h2 (by omega)
  simp only [Nat.zero_add, Nat.add_zero] at hstored
  simpa [State.bytes_eq_map] using hstored

/-! ### The end of a PACK -/

section Stored

variable (s : State) (dry : Bool) (cs : List PackChannel)

theorem packStore_bitPos : (packStore dry cs s).bitPos = (withBitPos (contentLength s cs) s).bitPos := rfl

/-- The loop over the channels changes no register (R232). -/
theorem packStore_bitsLeft : (packStore dry cs s).bitsLeft = (withBitPos (contentLength s cs) s).bitsLeft := by
  have hstart : (if dry = true then s else writeFrame cs s).cfgFrame = s.cfgFrame := by cases dry <;> rfl
  exact bitstreamEnd_bitsLeft _ _ _ _ (t := forEach _ _ _) ((forEach_view State.cfgFrame _ _ (fun ch _ t => by
    simp only [storeResolutions, State.putBytes_cfgFrame]) _).trans hstart)

theorem packStore_byte (a : Nat) : (packStore dry cs s).byte a
    = (forEach (List.range (chCount s)) (storeResolutions cs) (if dry = true then s else writeFrame cs s)).byte a :=
  bitstreamEnd_byte _ _ _ _ _ a

theorem packStore_status_empty : (packStore dry cs s).status.empty = (cs.map PackChannel.delta).all fun d => d == 0 := rfl

theorem packStore_status_valid : (packStore dry cs s).status.valid
    = (packFits s (contentLength s cs)
        && validResult ((frameBits s : Int) - contentLength s cs) (packStore dry cs s).status.empty (noiseOf s)) := rfl

end Stored

theorem nums_take (s : State) (base : Nat) {n m : Nat} (h : n ≤ m) : (s.nums base m).take n = s.nums base n := by
  rw [State.nums_eq_map, State.nums_eq_map, ← List.map_take, List.take_range, min_eq_left h]

theorem packChannels_getD (s : State) {ch : Nat} (hch : ch < chCount s) (d : PackChannel) :
    (packChannels s).getD ch d = packChannel s ch := by
  rw [List.getD_eq_getElem _ _ (by simpa [packChannels] using hch)]
  simp [packChannels]

/-- The delta width of a channel is chosen for its coded bands (R226). -/
theorem packChannel_delta {s : State} (hcfg : cfgOk s = true) (ch : Nat) :
    (packChannel s ch).delta = chooseDelta (s.nums (slotAddr ch .sf 0) (coded s ch)) :=
  congrArg chooseDelta (nums_take s _ (coded_le s ch hcfg).2)

theorem packChannels_map_delta (s : State) :
    (packChannels s).map PackChannel.delta = (List.range (chCount s)).map fun ch => (packChannel s ch).delta := by
  rw [packChannels, List.map_map]
  rfl

/-- The delta-bits code of each channel (R226, R232). -/
theorem packStore_deltaBits {s : State} (hcfg : cfgOk s = true) (dry : Bool) {ch : Nat} (hch : ch < 16) :
    deltaBits (packStore dry (packChannels s) s) ch
      = if ch < chCount s then chooseDelta (s.nums (slotAddr ch .sf 0) (coded s ch)) else 0 := by
  have hword : deltaBits (packStore dry (packChannels s) s) ch = ((packChannels s).map PackChannel.delta).getD ch 0 % 8 :=
    deltaBits_of_words rfl rfl hch
  rw [hword, packChannels_map_delta]
  split
  · next hlow =>
    have hle := chooseDelta_le (s.nums (slotAddr ch .sf 0) (coded s ch))
    rw [List.getD_eq_getElem _ _ (by simpa using hlow), List.getElem_map, List.getElem_range, packChannel_delta hcfg,
      Nat.mod_eq_of_lt (by omega)]
  · next hhigh => rw [List.getD_eq_default _ _ (by simpa using hhigh)]

/-- `EMPTY`: every delta-bits code is 0 (R232). -/
theorem packStore_empty_iff {s : State} (hcfg : cfgOk s = true) (dry : Bool) :
    (packStore dry (packChannels s) s).status.empty = true
      ↔ ∀ ch, ch < chCount s → deltaBits (packStore dry (packChannels s) s) ch = 0 := by
  obtain ⟨-, hcount, -⟩ := cfgOk_bounds s hcfg
  have hcode (ch : Nat) (hch : ch < chCount s) : deltaBits (packStore dry (packChannels s) s) ch = (packChannel s ch).delta := by
    rw [packStore_deltaBits hcfg dry (by omega), if_pos hch, packChannel_delta hcfg]
  rw [packStore_status_empty, packChannels_map_delta, List.all_map, List.all_eq_true]
  simp only [List.mem_range, Function.comp_apply, beq_iff_eq]
  exact forall₂_congr fun ch hch => by rw [hcode ch hch]

/-- Every channel's derived resolutions stand in its `RES` (R232). -/
theorem packStore_res {s : State} (hcfg : cfgOk s = true) (hmem : s.mem.wf) (dry : Bool) {ch b : Nat} (hch : ch < chCount s)
    (hb : b < 128) : (packStore dry (packChannels s) s).numAt (slotAddr ch .res b)
      = (resolutions s (noiseOf s) (evalOf s) ch (s.nums (slotAddr ch .sf 0) 128)).getD b 0 := by
  obtain ⟨-, hcount, -⟩ := cfgOk_bounds s hcfg
  have hlen := resolutions_length s (noiseOf s) (evalOf s)
  have hres (c : Nat) (hc : c < chCount s) : ((packChannels s).getD c ⟨[], [], 0, [], []⟩).res
      = resolutions s (noiseOf s) (evalOf s) c (s.nums (slotAddr c .sf 0) 128) := by rw [packChannels_getD s hc, packChannel]
  obtain ⟨u, hu⟩ := forEach_slot_turn hcount (f := storeResolutions (packChannels s)) (fun c hc u =>
    StoresWithin.putSlot c .res 0 _ fun i _ hi => by
      rw [numBytes_length, hres c hc, hlen] at hi
      simp [inSlot_slotAddr c .res i _ (by omega) (by simp only [slotArrayBytes]; omega)])
    (if dry = true then s else writeFrame (packChannels s) s) hch
  rw [numAt_congr ((packStore_byte s dry _ _).trans (hu .res b hb)), storeResolutions, hres ch hch]
  exact numAt_putBytes_slot (w := 4) u (by omega) hb rfl (by rw [hlen]; exact hb) (by decide) rfl
    (getD_of_forall (P := (· < 2 ^ 4)) (fun r hr => Nat.lt_succ_of_le (resolutions_le hmem _ _ _ _ r hr)) (by decide) b)

/-! ### The frame -/

/-- The loop over the channels leaves the frame buffer alone. -/
theorem packStore_frame_byte {s : State} (hcfg : cfgOk s = true) (dry : Bool) {i : Nat} (hi : i < 0x10000) :
    (packStore dry (packChannels s) s).byte (frameBufBase + i)
      = (if dry = true then s else writeFrame (packChannels s) s).byte (frameBufBase + i) := by
  rw [packStore_byte]
  refine (storeResolutions_frame hcfg true _).bytes _ ?_
  simp [writesByte, inSlot, regionOf_frameBuf i hi]

theorem writeFrame_byte (cs : List PackChannel) (s : State) (a : Nat) :
    (writeFrame cs s).byte a = (s.putBytes frameBufBase (frameBody s cs ++ crcBytes (crc16 (frameBody s cs)))).byte a := rfl

/-- The frame that a PACK writes: its body, then the CRC of the body (R232). -/
theorem packStore_frame_bytes {s : State} (hcfg : cfgOk s = true) (hframe : frameOk s = true)
    (hfits : packFits s (contentLength s (packChannels s)) = true) :
    (packStore false (packChannels s) s).bytes frameBufBase (frameBytes s)
      = frameBody s (packChannels s) ++ crcBytes (crc16 (frameBody s (packChannels s))) := by
  have hlt := frameBytes_lt s
  have hmin := (frameOk_iff s).1 hframe
  have hlen : (frameBody s (packChannels s) ++ crcBytes (crc16 (frameBody s (packChannels s)))).length = frameBytes s := by
    rw [List.length_append, frameBody_length hfits]
    simp only [crcBytes, List.length_cons, List.length_nil]
    omega
  have hstored := bytes_putBytes_frameBuf s (bs := frameBody s (packChannels s) ++ crcBytes (crc16 (frameBody s (packChannels s))))
    (by omega)
  rw [hlen] at hstored
  rw [← hstored, State.bytes_eq_map, State.bytes_eq_map]
  refine List.map_congr_left fun i hi => ?_
  have hi := List.mem_range.1 hi
  rw [packStore_frame_byte hcfg false (by omega), if_neg Bool.false_ne_true, writeFrame_byte]

/-- The body's bits: the content and the zero padding (spec/30_encoding.md R115). -/
theorem bytesToBits_frameBody {s : State} (hfits : packFits s (contentLength s (packChannels s)) = true) :
    bytesToBits (frameBody s (packChannels s)) = contentBits s (packChannels s)
      ++ List.replicate (8 * (frameBytes s - 2) - contentLength s (packChannels s)) false := by
  have hfits : (contentLength s (packChannels s) + 7) / 8 ≤ frameBytes s - 2 := by simpa [packFits] using hfits
  have hlen := contentBits_length s
  rw [← hlen] at hfits ⊢
  refine bytesToBits_bitsToBytes _ ?_
  rw [List.length_append, List.length_replicate]
  omega

/-- The bytes before the CRC are the body. -/
theorem packStore_body_bytes {s : State} (hcfg : cfgOk s = true) (hframe : frameOk s = true)
    (hfits : packFits s (contentLength s (packChannels s)) = true) :
    (packStore false (packChannels s) s).bytes frameBufBase (frameBytes s - 2) = frameBody s (packChannels s) := by
  have hmin := (frameOk_iff s).1 hframe
  have hall := packStore_frame_bytes hcfg hframe hfits
  have hsplit := State.bytes_append (packStore false (packChannels s) s) frameBufBase (frameBytes s - 2) 2
  rw [show frameBytes s - 2 + 2 = frameBytes s by omega, hall] at hsplit
  exact (List.append_inj_left hsplit (by rw [frameBody_length hfits, State.bytes_length])).symm

/-! ### PACK completes -/

theorem effectOf_pack {s : State} (hcfg : cfgOk s = true) (hframe : frameOk s = true) (dry : Bool) :
    effectOf (.pack dry) s = packBody dry s := (requireCfg_of_ok s _ hcfg).trans (requireFrame_of_ok s _ hframe)

theorem packBody_of_ok {s : State} {dry : Bool} (hcheck : packCheck s (packChannels s) = none)
    (hfits : dry = true ∨ packFits s (contentLength s (packChannels s)) = true) :
    packBody dry s = .ok (packStore dry (packChannels s) s) := by
  have hfits : ¬(!dry && !packFits s (contentLength s (packChannels s))) = true := by
    rcases hfits with h | h <;> simp [h]
  simp only [packBody, hcheck, if_neg hfits]

theorem packBody_of_codeRange {s : State} (dry : Bool) {info : Word} (hcheck : packCheck s (packChannels s) = some info) :
    packBody dry s = .error .codeRange info (packFailed s) := by simp only [packBody, hcheck]

theorem packBody_of_full {s : State} (hcheck : packCheck s (packChannels s) = none)
    (hfull : packFits s (contentLength s (packChannels s)) = false) :
    packBody false s = .error .frameFull (BitVec.ofNat 32 (contentLength s (packChannels s))) (packFailed s) := by
  simp [packBody, hcheck, hfull]

/-- Settles O45: what `packStore` leaves, and the search that the checks are. -/
theorem packOutcomes : Obligations.PackOutcomes := by
  refine ⟨fun s dry hmem hcfg hframe hcheck hroom => ?_,
    fun s dry hcfg hframe => ⟨fun n hn hfirst => ?_, fun hnone hdry hlong => ?_⟩⟩
  · have hroom : dry = true ∨ packFits s (contentLength s (packChannels s)) = true := hroom.imp_right decide_eq_true
    have hmin := (frameOk_iff s).1 hframe
    obtain ⟨hexec, hcompleted, hplaces⟩ :=
      exec_of_ok rfl ((effectOf_pack hcfg hframe dry).trans (packBody_of_ok hcheck hroom))
    obtain ⟨hpos, hleft⟩ := withBitPos_toNat_toInt (contentLength_lt hcfg hmem) s
    rw [← packStore_bitsLeft s dry] at hleft
    refine ⟨_, hexec, hcompleted, hplaces, packStore_crcOk dry _ s, hpos, hleft, ?_, ?_, fun ch hch => ?_, fun ch b hch hb => ?_,
      fun hdry => ?_⟩
    · exact packStore_empty_iff hcfg dry
    · exact (packStore_status_valid s dry _).trans (by rw [← hleft]; rfl)
    · exact packStore_deltaBits hcfg dry hch
    · exact packStore_res hcfg hmem dry hch hb
    · subst hdry
      have hfits := hroom.resolve_left Bool.false_ne_true
      refine ⟨?_, ?_⟩
      · rw [← State.bytes_eq_map, completeOk_bytes, packStore_body_bytes hcfg hframe hfits, completeOk_crcValue, packStore_crcValue]
      · rw [frameBitList, hplaces.sameConfig.frameBytes, completeOk_bytes, packStore_frame_bytes hcfg hframe hfits,
          bytesToBits_append, bytesToBits_frameBody hfits, completeOk_crcValue, packStore_crcValue]
        simp
  · rw [exec_eq_finish_effectOf, effectOf_pack hcfg hframe, packBody_of_codeRange dry (packCheck_of_first hcfg hn hfirst)]
    rfl
  · subst hdry
    have hfull : packFits s (contentLength s (packChannels s)) = false := decide_eq_false hlong.not_ge
    rw [exec_eq_finish_effectOf, effectOf_pack hcfg hframe, packBody_of_full ((packCheck_eq_none_iff hcfg).2 hnone) hfull]
    rfl

end Sys2Proof.Machine
end

section
/-! PROOFS. Reading a written frame: every section that PACK writes is read back by its reader, and so is the whole content
(spec/44_bitstream.md R209 to R216, R226 to R232). -/

namespace Sys2Proof.Machine

/-! ### One rule for each reader combinator -/

/-- On these bits, whatever follows, the reader answers the value and takes exactly the bits. -/
def Decodes {α : Type} (r : Reader α) (bits : List Bool) (a : α) : Prop :=
  ∀ pos rest, r ⟨pos, bits ++ rest⟩ = .ok (a, ⟨pos + bits.length, rest⟩)

namespace Decodes

variable {α β γ : Type} {r : Reader α} {bits bits' : List Bool} {a : α}

theorem pure (a : α) : Decodes (pure a : Reader α) [] a := fun _ _ => rfl

theorem bind {k : α → Reader β} {b : β} (h : Decodes r bits a) (hk : Decodes (k a) bits' b) :
    Decodes (r >>= k) (bits ++ bits') b := fun pos rest => by
  rw [List.append_assoc, reader_bind_of_ok (h pos _), hk, List.length_append, Nat.add_assoc]

/-- A read whose value is only used. -/
theorem map (h : Decodes r bits a) (g : α → β) : Decodes (r >>= fun x => Pure.pure (g x)) bits (g a) := fun pos rest => by
  rw [reader_bind_of_ok (h pos rest)]
  rfl

theorem readUint {n v : Nat} (h : v < 2 ^ n) : Decodes (readUint n) (bitsOf n v) v := fun pos rest => by
  rw [readUint_bitsOf h, bitsOf_length]

theorem readEach {f : β → Reader α} {g : γ → β} {code : γ → List Bool} {value : γ → α} {xs : List γ}
    (h : ∀ x ∈ xs, Decodes (f (g x)) (code x) (value x)) : Decodes (readEach f (xs.map g)) (xs.flatMap code) (xs.map value) := by
  induction xs with
  | nil => exact pure _
  | cons x xs ih =>
    obtain ⟨hx, hxs⟩ := List.forall_mem_cons.1 h
    exact hx.bind ((ih hxs).map _)

theorem readMany {code : γ → List Bool} {value : γ → α} {xs : List γ} (h : ∀ x ∈ xs, Decodes r (code x) (value x)) :
    Decodes (readMany r xs.length) (xs.flatMap code) (xs.map value) := by
  induction xs with
  | nil => exact pure _
  | cons x xs ih =>
    obtain ⟨hx, hxs⟩ := List.forall_mem_cons.1 h
    exact hx.bind ((ih hxs).map _)

/-- Raw fields. -/
theorem readFields {n : Nat} {xs : List Nat} (h : ∀ x ∈ xs, x < 2 ^ n) :
    Decodes (Machine.readMany (Machine.readUint n) xs.length) (xs.flatMap (bitsOf n)) xs := by
  simpa using readMany (value := id) fun x hx => readUint (h x hx)

end Decodes

/-! ### Scale factors -/

/-- In canonical memory a number in a slot fits its array's elements (spec/10_state.md R51 to R54). -/
theorem numAt_slot_lt {s : State} (hmem : s.mem.wf) {ch i w : Nat} {array : SlotArray} (hch : ch < 16)
    (hi : i < slotArrayBytes array) (hw : w ≤ 8) (hmask : slotMask array = BitVec.ofNat 8 (2 ^ w - 1)) :
    s.numAt (slotAddr ch array i) < 2 ^ w := by
  have hpow : 2 ^ w ≤ 2 ^ 8 := Nat.pow_le_pow_right (by decide) hw
  have hpos : 0 < 2 ^ w := by positivity
  have hcell := cellMask_slotAddr ch array i hch hi
  have hbyte := State.byte_masked s (slotAddr ch array i) hmem (by rw [hcell]; cases array <;> decide)
  rw [State.numAt, ← hbyte, hcell, hmask, BitVec.toNat_and, BitVec.toNat_ofNat, Nat.mod_eq_of_lt (by omega)]
  exact Nat.and_lt_two_pow _ (by omega)

theorem nums_slot_lt {s : State} (hmem : s.mem.wf) {ch n w : Nat} {array : SlotArray} (hch : ch < 16)
    (hn : n ≤ slotArrayBytes array) (hw : w ≤ 8) (hmask : slotMask array = BitVec.ofNat 8 (2 ^ w - 1)) :
    ∀ x ∈ s.nums (slotAddr ch array 0) n, x < 2 ^ w := by
  intro x hx
  rw [State.nums_eq_map] at hx
  obtain ⟨i, hi, rfl⟩ := List.mem_map.1 hx
  have hi := List.mem_range.1 hi
  rw [slotAddr_add, Nat.zero_add]
  exact numAt_slot_lt hmem hch (by omega) hw hmask

theorem padBands_of_zero {f : List Nat} (hlen : f.length ≤ 128) (h : ∀ x ∈ f, x = 0) : padBands f = padBands [] := by
  rw [padBands, padBands, List.eq_replicate_of_mem h, List.length_replicate, ← List.replicate_add]
  simp [hlen]

/-- Scale factors are read back at the width that PACK chooses, also when all are 0 (R209, R226, R227). -/
theorem decodes_scaleFactors {f : List Nat} (hlen : f.length ≤ 128) (hf : ∀ x ∈ f, x < 64) :
    Decodes (readScaleFactors f.length) (sfBits (chooseDelta f) f) (chooseDelta f, padBands f) := by
  by_cases hzero : ∀ x ∈ f, x = 0
  · rw [(chooseDelta_eq_zero_iff f).2 hzero, padBands_of_zero hlen hzero]
    exact (Decodes.readUint (by decide)).bind (.pure _)
  · have hne : f ≠ [] := by rintro rfl; exact hzero (by simp)
    obtain ⟨hlow, hhigh, -⟩ := (deltaWidthIsCheapest f).2 (by simpa using hzero)
    exact fun pos rest => by rw [readScaleFactors_sfBits hlow hhigh hne hf, sfBits_length]

/-! ### Intensity -/

/-- The intensity codes that PACK can code are read back (R210, R228). -/
theorem decodes_intensity {ver : Nat} {codes : List Nat} (hlen : codes.length = 8) (hcodes : ∀ x ∈ codes, x < 16)
    (hcodable : Config.v3 ≤ ver → (codes.all fun x => x == 7) = false → codes.headD 0 ≠ 15) :
    Decodes (readIntensity ver) (intensityBits ver codes) codes := by
  intro pos rest
  unfold intensityBits
  split
  · next hver => rw [readIntensity_raw hver hlen hcodes, flatMap_bitsOf_length, hlen]
  · next hver =>
    have hver := Nat.le_of_not_lt hver
    split
    · next hall =>
      have hsevens : codes = List.replicate 8 7 := hlen ▸ List.eq_replicate_of_mem (by simpa using hall)
      rw [readIntensity_default hver, hsevens]
      rfl
    · next hall =>
      obtain ⟨x, codes, rfl⟩ := List.exists_cons_of_length_eq_add_one hlen
      obtain ⟨hx, hcodes⟩ := List.forall_mem_cons.1 hcodes
      have hhead : x ≠ 15 := hcodable hver (by simpa using hall)
      have htail : codes.length = 7 := by simpa using hlen
      have hread := (((intensityForms ver pos rest).2 hver).2 x (by omega)).1 codes htail hcodes
      rw [List.headD_cons, List.tail_cons, hread]
      simp only [List.length_append, bitsOf_length, flatMap_bitsOf_length, htail]

/-! ### Coefficients -/

/-- A row of coefficients in their resolutions' ranges is read back (R212, R230). -/
theorem decodes_row {res : List Nat} {row : List Int} (h : List.Forall₂ (fun r v => r ≤ 15 ∧ coefInRange r v = true) res row) :
    Decodes (readEach readCoef res) (rowBits res row) row := by
  induction h with
  | nil => exact .pure _
  | cons hcoef _ ih =>
    refine .bind (fun pos rest => ?_) (ih.map _)
    rw [(coefficientRoundTrip _ _ pos rest hcoef.1 hcoef.2).2, coefBits_length]

/-- Only the coded bands of a row are written. -/
theorem rowBits_take (res : List Nat) (row : List Int) : rowBits (res.take row.length) row = rowBits res row := by
  induction row generalizing res with
  | nil => simp [rowBits]
  | cons v row ih =>
    cases res with
    | nil => rfl
    | cons r res => exact congrArg (coefBits r v ++ ·) (ih res)

end Sys2Proof.Machine
end

section
/-! PROOFS. UNPACK right after PACK: what PACK wrote of a frame is what UNPACK reads of it (spec/44_bitstream.md R235). -/

namespace Sys2Proof.Machine

/-! ### The frame that PACK writes -/

/-- The side information of a channel that PACK writes (R225 to R229). -/
def packedSide (s : State) (ch : Nat) : SideInfo where
  dbits := (packChannel s ch).delta
  sf := padBands (packChannel s ch).sf
  intensity := if role s ch = .stereoSecondary then intensityCodes s ch else List.replicate 8 0
  hfr :=
    if hfrCoded s ch then s.nums (slotAddr ch .hfrScale 0) (hfrGroups s) ++ List.replicate (8 - hfrGroups s) 0
    else List.replicate 8 0

/-- The frame that PACK writes, as UNPACK reads it. -/
def packedFrame (s : State) : Frame where
  noise := noiseOf s
  eval := evalOf s
  side := (List.range (chCount s)).map (packedSide s)
  res := (List.range (chCount s)).map fun ch => (packChannel s ch).res
  coefs := (List.range 8).map fun sub => (List.range (chCount s)).map fun ch => (packChannel s ch).coefs.getD sub []

/-! ### One channel -/

/-- The side information is read section by section (R209 to R211, R216). -/
theorem readSide_eq (s : State) (ch : Nat) :
    readSide s ch = readScaleFactors (coded s ch) >>= fun x =>
      (if role s ch = .stereoSecondary then readIntensity (version s) else pure (List.replicate 8 0)) >>= fun intensity =>
        readHfr s ch >>= fun hfr => pure ⟨x.1, x.2, intensity, hfr⟩ := by
  unfold readSide
  refine congrArg _ (funext fun ⟨d, sf⟩ => ?_)
  dsimp only
  split <;> rfl

/-- A StereoSecondary channel has intensity codes, another channel HFR codes or none (R228, R229). -/
theorem packChannel_extra (s : State) (ch : Nat) :
    (packChannel s ch).extra
      = (if role s ch = .stereoSecondary then intensityBits (version s) (intensityCodes s ch) else [])
        ++ if hfrCoded s ch then (s.nums (slotAddr ch .hfrScale 0) (hfrGroups s)).flatMap (bitsOf 6) else [] := by
  rw [packChannel, extraBits]
  split
  · next hrole => simp [hfrCoded, hrole]
  · rfl

theorem resolutions_congr {s : State} {noise eval ch : Nat} {sf sf' : List Nat}
    (h : ∀ b, b < coded s ch → sf.getD b 0 = sf'.getD b 0) : resolutions s noise eval ch sf = resolutions s noise eval ch sf' := by
  simp only [resolutions]
  refine List.map_congr_left fun b _ => ?_
  split
  · next hb => rw [h b hb]
  · rfl

section Written

variable {s : State} (hcfg : cfgOk s = true) {ch : Nat}

include hcfg

variable (ch) in
theorem packChannel_sf_length : (packChannel s ch).sf.length = coded s ch := by
  obtain ⟨-, hcoded⟩ := coded_le s ch hcfg
  simp [packChannel, hcoded]

variable (ch) in
/-- The scale factors that are written: those of the coded bands, 0 above (R225). -/
theorem packedSide_sf_getD (b : Nat) :
    (packedSide s ch).sf.getD b 0 = if b < coded s ch then s.numAt (slotAddr ch .sf b) else 0 := by
  have hlen := packChannel_sf_length hcfg ch
  have hsf : (packChannel s ch).sf = s.nums (slotAddr ch .sf 0) (coded s ch) := nums_take s _ (coded_le s ch hcfg).2
  have hpad : (packedSide s ch).sf = padBands (packChannel s ch).sf := rfl
  rw [hpad, padBands]
  split
  · next hb =>
    rw [List.getD_append _ _ _ _ (by omega), hsf, State.nums_eq_map, List.getD_eq_getElem _ _ (by simpa using hb), List.getElem_map,
      List.getElem_range, slotAddr_add, Nat.zero_add]
  · next hb =>
    rw [List.getD_append_right _ _ _ _ (by omega)]
    exact getD_of_forall (P := (· = 0)) (fun _ => List.eq_of_mem_replicate) rfl _

variable (ch) in
/-- The resolutions that UNPACK derives are those that PACK derived: both read the coded bands' scale factors only (R206). -/
theorem resolutions_packedSide : resolutions s (noiseOf s) (evalOf s) ch (packedSide s ch).sf = (packChannel s ch).res := by
  obtain ⟨-, hcoded⟩ := coded_le s ch hcfg
  refine resolutions_congr fun b hb => ?_
  rw [packedSide_sf_getD hcfg, if_pos hb, State.nums_eq_map, List.getD_eq_getElem _ _ (by simp; omega), List.getElem_map,
    List.getElem_range, slotAddr_add, Nat.zero_add]

variable (hmem : s.mem.wf) (hcheck : packCheck s (packChannels s) = none) (hch : ch < chCount s)

include hmem hcheck hch

theorem decodes_side : Decodes (readSide s ch) (sfBits (packChannel s ch).delta (packChannel s ch).sf ++ (packChannel s ch).extra)
    (packedSide s ch) := by
  obtain ⟨-, hcount, -, hgroups, -⟩ := cfgOk_bounds s hcfg
  have hslot : ch < 16 := by omega
  have hsf : ∀ x ∈ (packChannel s ch).sf, x < 64 := fun x hx =>
    nums_slot_lt (w := 6) (n := 128) hmem hslot le_rfl (by decide) rfl x (List.mem_of_mem_take hx)
  have hfactors := decodes_scaleFactors (by rw [packChannel_sf_length hcfg]; exact (coded_le s ch hcfg).2) hsf
  rw [packChannel_sf_length hcfg] at hfactors
  have hintensity : Decodes
      (if role s ch = .stereoSecondary then readIntensity (version s) else pure (List.replicate 8 0))
      (if role s ch = .stereoSecondary then intensityBits (version s) (intensityCodes s ch) else [])
      (packedSide s ch).intensity := by
    rw [packedSide]
    split
    · next hrole =>
      exact decodes_intensity (State.nums_length s _ _) (nums_slot_lt (w := 4) (n := 8) hmem hslot le_rfl (by decide) rfl)
        fun hver hall hhead =>
          (packCheck_eq_none_iff hcfg).1 hcheck _ ((intensity_check_iff hch).1 ⟨hrole, hver, hall, hhead⟩)
    · exact .pure _
  have hhfr : Decodes (readHfr s ch)
      (if hfrCoded s ch then (s.nums (slotAddr ch .hfrScale 0) (hfrGroups s)).flatMap (bitsOf 6) else [])
      (packedSide s ch).hfr := by
    rw [readHfr, packedSide]
    split
    · have hfields := (Decodes.readFields (nums_slot_lt (w := 6) (n := hfrGroups s) (array := .hfrScale) hmem hslot hgroups
        (by decide) rfl)).map fun g => g ++ List.replicate (8 - g.length) 0
      rwa [State.nums_length] at hfields
    · exact .pure _
  rw [readSide_eq, packChannel_extra]
  exact hfactors.bind (hintensity.bind (hhfr.map _))

theorem decodes_coefs {sub : Nat} (hsub : sub < 8) :
    Decodes (readEach readCoef ((packChannel s ch).res.take (coded s ch)))
      (rowBits (packChannel s ch).res ((packChannel s ch).coefs.getD sub [])) ((packChannel s ch).coefs.getD sub []) := by
  obtain ⟨-, hcoded⟩ := coded_le s ch hcfg
  have hreslen : (packChannel s ch).res.length = 128 := resolutions_length _ _ _ _ _
  rw [packChannel_row s hsub, ← rowBits_take, List.length_map, List.length_range]
  refine decodes_row (List.forall₂_iff_get.2 ⟨by simp; omega, fun b h1 h2 => ⟨?_, ?_⟩⟩)
  · exact resolutions_le hmem _ _ _ _ _ (List.mem_of_mem_take (List.getElem_mem h1))
  · have hb : b < coded s ch := by simpa using h2
    have hrange : coefInRange ((packChannel s ch).res.getD b 0)
        (s.halfAt (slotAddr ch .qspec (2 * (128 * sub + b)))).toInt ≠ false := fun hout =>
      (packCheck_eq_none_iff hcfg).1 hcheck _ ((packProblem_coef hch hsub (by omega)).2 ⟨hb, hout⟩)
    rw [List.getD_eq_getElem _ _ (by omega)] at hrange
    simpa using hrange

end Written

/-! ### The frame -/

/-- The whole content is read back (R232, R235). -/
theorem decodes_content {s : State} (hcfg : cfgOk s = true) (hmem : s.mem.wf) (hcheck : packCheck s (packChannels s) = none) :
    Decodes (readFrame s) (contentBits s (packChannels s)) (packedFrame s) := by
  have hheader : Decodes readHeader (bitsOf 16 0xFFFF ++ (bitsOf 9 (noiseOf s) ++ bitsOf 7 (evalOf s))) (noiseOf s, evalOf s) :=
    (Decodes.readUint (by decide)).bind ((Decodes.readUint (field_lt _ _ _)).bind ((Decodes.readUint (field_lt _ _ _)).map _))
  have hside : Decodes (readEach (readSide s) (List.range (chCount s)))
      ((packChannels s).flatMap fun c => sfBits c.delta c.sf ++ c.extra) (packedFrame s).side := by
    have hchannels := Decodes.readEach (f := readSide s) (g := id) (value := packedSide s)
      (code := fun ch => sfBits (packChannel s ch).delta (packChannel s ch).sf ++ (packChannel s ch).extra)
      fun ch hch => decodes_side hcfg hmem hcheck (List.mem_range.1 hch)
    rwa [List.map_id, ← List.flatMap_map (f := packChannel s) (fun c => sfBits c.delta c.sf ++ c.extra)] at hchannels
  have hres : (packedFrame s).side.zipIdx.map (fun p => resolutions s (noiseOf s) (evalOf s) p.2 p.1.sf) = (packedFrame s).res := by
    rw [packedFrame, zipIdx_map_range, List.map_map]
    exact List.map_congr_left fun ch _ => resolutions_packedSide hcfg ch
  have hcoefs : Decodes
      (readMany (readEach (fun p => readEach readCoef (p.1.take (coded s p.2))) (packedFrame s).res.zipIdx) 8)
      ((List.range 8).flatMap fun sub => (packChannels s).flatMap fun c => rowBits c.res (c.coefs.getD sub []))
      (packedFrame s).coefs := by
    refine Decodes.readMany (xs := List.range 8)
      (value := fun sub => (List.range (chCount s)).map fun ch => (packChannel s ch).coefs.getD sub []) fun sub hsub => ?_
    rw [packedFrame, zipIdx_map_range, packChannels, List.flatMap_map]
    exact Decodes.readEach fun ch hch => decodes_coefs hcfg hmem hcheck (List.mem_range.1 hch) (List.mem_range.1 hsub)
  have hcontent : contentBits s (packChannels s)
      = (bitsOf 16 0xFFFF ++ (bitsOf 9 (noiseOf s) ++ bitsOf 7 (evalOf s)))
        ++ (((packChannels s).flatMap fun c => sfBits c.delta c.sf ++ c.extra)
          ++ (List.range 8).flatMap fun sub => (packChannels s).flatMap fun c => rowBits c.res (c.coefs.getD sub [])) := by
    simp only [contentBits, List.append_assoc]
  rw [hcontent]
  refine hheader.bind (hside.bind ?_)
  rw [hres]
  exact hcoefs.map _

end Sys2Proof.Machine
end

section
/-! PROOFS. UNPACK in the state that PACK leaves (spec/44_bitstream.md R235). -/

namespace Sys2Proof.Machine

/-! ### The state that PACK leaves -/

/-- A PACK without error could code its values, and one that is not dry had room for them. -/
theorem pack_ok_of_err_eq_false {s t : State} (h : exec (.pack false) s = .next t) (herr : t.status.err = false) :
    cfgOk s = true ∧ frameOk s = true ∧ packCheck s (packChannels s) = none
      ∧ packFits s (contentLength s (packChannels s)) = true ∧ t = completeOk (packStore false (packChannels s) s) := by
  obtain ⟨hcfg, hframe⟩ := config_of_err_eq_false rfl rfl h herr
  rw [exec_next_iff, effectOf_pack hcfg hframe] at h
  cases hcheck : packCheck s (packChannels s) with
  | some info =>
    rw [packBody_of_codeRange false hcheck] at h
    simp [h, complete] at herr
  | none =>
    cases hfits : packFits s (contentLength s (packChannels s)) with
    | false =>
      rw [packBody_of_full hcheck hfits] at h
      simp [h, complete] at herr
    | true => exact ⟨hcfg, hframe, rfl, rfl, by rw [h, packBody_of_ok hcheck (.inr hfits)]; rfl⟩

theorem regionOf_ath {i : Nat} (hi : i < 128) : regionOf (athBase + i) = .ath i := by
  have heq : athBase + i = 0x20000 + i := rfl
  generalize athBase + i = a at heq
  unfold regionOf
  rw [if_neg (by omega), if_neg (by omega), if_pos (by omega), if_pos (by omega), show a - 0x20000 = i by omega]

theorem nums_congr {s t : State} {base n : Nat} (h : ∀ i, i < n → t.byte (base + i) = s.byte (base + i)) :
    t.nums base n = s.nums base n := by
  rw [State.nums_eq_map, State.nums_eq_map]
  exact List.map_congr_left fun i hi => numAt_congr (h i (List.mem_range.1 hi))

/-- PACK leaves the tables that the resolutions are derived from. -/
theorem nums_tables_after_pack {s t : State} {dry : Bool} (h : UnchangedOutside (.pack dry) s t) :
    t.nums athBase 128 = s.nums athBase 128 ∧ t.nums resCurveBase 59 = s.nums resCurveBase 59 := by
  obtain ⟨hbytes, -⟩ := h
  exact ⟨nums_congr fun i hi => hbytes _ (by simp [writesByte, inSlot, inFrameBuf, regionOf_ath hi]),
    nums_congr fun i hi => hbytes _ (by simp [writesByte, inSlot, inFrameBuf, regionOf_resCurve hi])⟩

/-- What UNPACK reads depends on the configuration, the two tables and the frame's bits. -/
theorem readFrame_congr {s t : State} (hconfig : SameConfig s t) (hath : t.nums athBase 128 = s.nums athBase 128)
    (hcurve : t.nums resCurveBase 59 = s.nums resCurveBase 59) : readFrame t = readFrame s := by
  have hside : readSide t = readSide s := funext fun ch => by
    simp only [readSide, readHfr, hconfig.coded, hconfig.role, hconfig.version, hconfig.hfrCoded, hconfig.hfrGroups]
  have hres : resolutions t = resolutions s := by
    funext noise eval ch sf
    simp only [resolutions, resolve, hath, hcurve, hconfig.coded, hconfig.version, hconfig.minRes, hconfig.maxRes]
  have hcoded : coded t = coded s := funext hconfig.coded
  simp only [readFrame, hside, hres, hcoded, hconfig.chCount]

/-- UNPACK reads the frame that PACK wrote, up to the content's end (R235). -/
theorem readFrame_packStore {s : State} (hcfg : cfgOk s = true) (hframe : frameOk s = true) (hmem : s.mem.wf)
    (hcheck : packCheck s (packChannels s) = none) (hfits : packFits s (contentLength s (packChannels s)) = true)
    (hplaces : UnchangedOutside (.pack false) s (completeOk (packStore false (packChannels s) s))) :
    ∃ rest, readFrame (completeOk (packStore false (packChannels s) s))
      (frameCursor (completeOk (packStore false (packChannels s) s)))
        = .ok (packedFrame s, ⟨contentLength s (packChannels s), rest⟩) := by
  obtain ⟨hath, hcurve⟩ := nums_tables_after_pack hplaces
  obtain ⟨rest, hbits⟩ : ∃ rest, frameBitList (completeOk (packStore false (packChannels s) s))
      = contentBits s (packChannels s) ++ rest :=
    ⟨_, by rw [frameBitList, hplaces.sameConfig.frameBytes, completeOk_bytes, packStore_frame_bytes hcfg hframe hfits,
      bytesToBits_append, bytesToBits_frameBody hfits, List.append_assoc]⟩
  refine ⟨rest, ?_⟩
  rw [readFrame_congr hplaces.sameConfig hath hcurve, frameCursor, hbits, decodes_content hcfg hmem hcheck, contentBits_length,
    Nat.zero_add]

/-! ### The restored values -/

/-- A register whose reserved bits are 0 is the word of its two fields (spec/10_state.md R35). -/
theorem frameHdrWord_of_fields {s : State} (h : RegistersInFields s) : frameHdrWord (noiseOf s) (evalOf s) = s.frameHdr := by
  have hmasked : s.frameHdr &&& 0x007F01FF#32 = s.frameHdr := h .frameHdr
  have hword := s.frameHdr.isLt
  have hsplit := and_fields 16 (s.frameHdr.toNat % 2 ^ 16) (s.frameHdr.toNat / 2 ^ 16) (2 ^ 9 - 1) (2 ^ 7 - 1) (by omega) (by omega)
  have htoNat := congrArg BitVec.toNat hmasked
  rw [BitVec.toNat_and] at htoNat
  rw [show s.frameHdr.toNat % 2 ^ 16 + s.frameHdr.toNat / 2 ^ 16 * 2 ^ 16 = s.frameHdr.toNat by omega,
    show 2 ^ 9 - 1 + (2 ^ 7 - 1) * 2 ^ 16 = (0x007F01FF#32 : Word).toNat by decide, htoNat, Nat.and_two_pow_sub_one_eq_mod,
    Nat.and_two_pow_sub_one_eq_mod] at hsplit
  refine BitVec.eq_of_toNat_eq ?_
  rw [noiseOf, evalOf, frameHdrWord_toNat (field_lt _ _ _) (field_lt _ _ _), field, field, Nat.shiftRight_zero,
    Nat.shiftRight_eq_div_pow]
  omega

section Restored

variable {s u : State} {ch : Nat} (hch : ch < chCount s) (h : (packedFrame s).StoredIn ch u)

include hch h

theorem restored_sf (hcfg : cfgOk s = true) {b : Nat} (hb : b < 128) :
    u.numAt (slotAddr ch .sf b) = if b < coded s ch then s.numAt (slotAddr ch .sf b) else 0 := by
  have hside : ((packedFrame s).side.map SideInfo.sf).getD ch [] = (packedSide s ch).sf := by
    rw [packedFrame, List.map_map, getD_map_range _ hch]
    rfl
  rw [h.sf b hb, hside, packedSide_sf_getD hcfg]

theorem restored_intensity (hrole : role s ch = .stereoSecondary) {k : Nat} (hk : k < 8) :
    u.numAt (slotAddr ch .intensity k) = s.numAt (slotAddr ch .intensity k) := by
  have hside : ((packedFrame s).side.map SideInfo.intensity).getD ch [] = intensityCodes s ch := by
    rw [packedFrame, List.map_map, getD_map_range _ hch]
    exact if_pos hrole
  rw [h.intensity k hk, hside, intensityCodes_eq_map, getD_map_range _ hk]

theorem restored_hfr {k : Nat} (hk : k < 8) : u.numAt (slotAddr ch .hfrScale k) =
    if role s ch ≠ .stereoSecondary ∧ version s < 0x0300 ∧ k < hfrGroups s then s.numAt (slotAddr ch .hfrScale k) else 0 := by
  have hside : ((packedFrame s).side.map SideInfo.hfr).getD ch [] = (packedSide s ch).hfr := by
    rw [packedFrame, List.map_map, getD_map_range _ hch]
    rfl
  have hzero (n k : Nat) : (List.replicate n 0).getD k 0 = 0 :=
    getD_of_forall (P := (· = 0)) (fun _ => List.eq_of_mem_replicate) rfl k
  rw [h.hfr k hk, hside, packedSide]
  by_cases hcoded : hfrCoded s ch = true
  · obtain ⟨hrole, -, hver⟩ : role s ch ≠ .stereoSecondary ∧ 0 < hfrGroups s ∧ version s < 0x0300 := of_decide_eq_true hcoded
    simp only [if_pos hcoded]
    rcases Nat.lt_or_ge k (hfrGroups s) with hgroup | habove
    · rw [if_pos ⟨hrole, hver, hgroup⟩, List.getD_append _ _ _ _ (by rwa [State.nums_length]), State.nums_eq_map,
        getD_map_range _ hgroup, slotAddr_add, Nat.zero_add]
    · rw [if_neg fun hall => habove.not_gt hall.2.2, List.getD_append_right _ _ _ _ (by rwa [State.nums_length]), hzero]
  · simp only [if_neg hcoded]
    rw [hzero, if_neg fun hall => hcoded (decide_eq_true ⟨hall.1, Nat.zero_lt_of_lt hall.2.2, hall.2.1⟩)]

theorem restored_qspec {q b : Nat} (hq : q < 8) (hb : b < 128) : u.halfAt (slotAddr ch .qspec (2 * (128 * q + b))) =
    if b < coded s ch then s.halfAt (slotAddr ch .qspec (2 * (128 * q + b))) else 0 := by
  have hrow : ((packedFrame s).coefs.getD q []).getD ch [] = (packChannel s ch).coefs.getD q [] := by
    rw [packedFrame, getD_map_range _ hq, getD_map_range _ hch]
  rw [h.qspec q b hq hb, hrow, packChannel_row s hq]
  split
  · next hcoded => rw [getD_map_range _ hcoded, BitVec.ofInt_toInt]
  · next habove =>
    rw [List.getD_eq_default _ _ (by simpa using habove)]
    rfl

end Restored

/-! ### UNPACK after PACK -/

/-- UNPACK leaves the frame alone. -/
theorem bytes_frame_after_unpack {t u : State} (h : UnchangedOutside .unpack t u) {n : Nat} (hn : n ≤ 0x10000) :
    u.bytes frameBufBase n = t.bytes frameBufBase n := by
  obtain ⟨hbytes, -⟩ := h
  rw [State.bytes_eq_map, State.bytes_eq_map]
  refine List.map_congr_left fun i hi => hbytes _ ?_
  have hi := List.mem_range.1 hi
  simp [writesByte, inSlot, regionOf_frameBuf i (by omega)]

/-- A frame that ends with the CRC of its body checks (spec/41_crc.md R154). -/
theorem crcCheck_of_frame {u : State} (hframe : frameOk u = true) {body : List Byte} (hlen : body.length = frameBytes u - 2)
    (hbytes : u.bytes frameBufBase (frameBytes u) = body ++ crcBytes (crc16 body)) :
    ∃ v, exec .crcCheck u = .next v ∧ v.status.crcOk = true := by
  have hmin := (frameOk_iff u).1 hframe
  have hsplit := State.bytes_append u frameBufBase (frameBytes u - 2) 2
  rw [show frameBytes u - 2 + 2 = frameBytes u by omega, hbytes] at hsplit
  obtain ⟨hbody, hcrc⟩ := List.append_inj hsplit (by rw [hlen, State.bytes_length])
  refine ⟨_, (exec_next_iff _ u _).2 (by rw [effectOf_crcCheck hframe]), ?_⟩
  exact beq_iff_eq.2 (by rw [frameCrc, ← hbody, hcrc])

/-- UNPACK of a frame that can be read completes and stores what it read. -/
theorem unpack_of_read {t : State} (hcfg : cfgOk t = true) (hframe : frameOk t = true) (hmem : MemCanonical t) {f : Frame}
    {n : Nat} {rest : List Bool} (hread : readFrame t (frameCursor t) = .ok (f, ⟨n, rest⟩)) :
    exec .unpack t = .next (completeOk (storeFrame f n t)) ∧ UnchangedOutside .unpack t (completeOk (storeFrame f n t))
      ∧ ∀ ch, ch < chCount t → f.StoredIn ch (completeOk (storeFrame f n t)) := by
  obtain ⟨hexec, -, hunpacked⟩ := exec_of_ok rfl ((effectOf_unpack hcfg hframe).trans (unpackBody_of_ok hread))
  exact ⟨hexec, hunpacked, fun ch hch =>
    (storeFrame_storedIn hcfg hmem (readFrame_ok hcfg hread).1 ((readFrame_yields_readFrom _).ok hread).1 hch).completeOk⟩

/-- The state that UNPACK leaves after a PACK. -/
def unpackedAfterPack (s t : State) : State := completeOk (storeFrame (packedFrame s) (contentLength s (packChannels s)) t)

/-- UNPACK after a PACK without error completes, with the frame that PACK wrote in the channels' arrays; the frame itself is as PACK
left it. -/
theorem unpack_after_pack {s t : State} (hmem : s.mem.wf) (hpack : exec (.pack false) s = .next t) (herr : t.status.err = false) :
    SameConfig s t ∧ exec .unpack t = .next (unpackedAfterPack s t)
      ∧ (∀ ch, ch < chCount s → (packedFrame s).StoredIn ch (unpackedAfterPack s t))
      ∧ ∃ v, exec .crcCheck (unpackedAfterPack s t) = .next v ∧ v.status.crcOk = true := by
  obtain ⟨hcfg, hframe, hcheck, hfits, rfl⟩ := pack_ok_of_err_eq_false hpack herr
  obtain ⟨-, -, hplaces⟩ := exec_of_ok rfl ((effectOf_pack hcfg hframe false).trans (packBody_of_ok hcheck (.inr hfits)))
  obtain ⟨rest, hread⟩ := readFrame_packStore hcfg hframe hmem hcheck hfits hplaces
  have htmem : MemCanonical (completeOk (packStore false (packChannels s) s)) := packStore_canonical hmem false _
  have hwritten := packStore_frame_bytes hcfg hframe hfits
  rw [← completeOk_bytes] at hwritten
  generalize completeOk (packStore false (packChannels s) s) = t at hplaces hread htmem hwritten ⊢
  have hconfig := hplaces.sameConfig
  have htframe := hconfig.frameOk.trans hframe
  obtain ⟨hexec, hunpacked, hstored⟩ := unpack_of_read (hconfig.cfgOk.trans hcfg) htframe htmem hread
  rw [hconfig.chCount] at hstored
  rw [unpackedAfterPack]
  generalize completeOk (storeFrame (packedFrame s) (contentLength s (packChannels s)) t) = u at hexec hunpacked hstored ⊢
  have hbytes := hunpacked.sameConfig.frameBytes.trans hconfig.frameBytes
  have hlt := frameBytes_lt s
  refine ⟨hconfig, hexec, hstored, crcCheck_of_frame (hunpacked.sameConfig.frameOk.trans htframe)
    (by rw [frameBody_length hfits, hbytes]) ?_⟩
  rw [hbytes, bytes_frame_after_unpack hunpacked (by omega), hwritten]

/-- UNPACK reads the delta-bits codes that PACK wrote (R226). -/
theorem packedFrame_dbits (s : State) : (packedFrame s).side.map SideInfo.dbits = (packChannels s).map PackChannel.delta := by
  rw [packedFrame, List.map_map, packChannels_map_delta]
  rfl

section Registers

variable {s t : State} (ht : t = completeOk (packStore false (packChannels s) s))

include ht

theorem deltaBits_after_pack : (unpackedAfterPack s t).deltaBits0 = t.deltaBits0
    ∧ (unpackedAfterPack s t).deltaBits1 = t.deltaBits1 := by
  rw [ht]
  exact ⟨congrArg (fun codes : List Nat => deltaWord (codes.take 8)) (packedFrame_dbits s),
    congrArg (fun codes : List Nat => deltaWord ((codes.drop 8).take 8)) (packedFrame_dbits s)⟩

theorem bitPos_after_pack : (unpackedAfterPack s t).bitPos = t.bitPos := by
  refine (storeFrame_bitPos t (packedFrame s) _).trans ?_
  rw [ht]
  exact (packStore_bitPos s false _).symm

theorem bitsLeft_after_pack (hconfig : SameConfig s t) : (unpackedAfterPack s t).bitsLeft = t.bitsLeft := by
  refine (storeFrame_bitsLeft t _ _).trans ((withBitPos_bitsLeft_congr _ hconfig.frameBits).trans ?_)
  rw [ht]
  exact (packStore_bitsLeft s false _).symm

theorem empty_after_pack : (unpackedAfterPack s t).status.empty = t.status.empty := by
  have hcodes := congrArg (fun codes : List Nat => codes.all fun d => d == 0) (packedFrame_dbits s)
  exact Eq.trans hcodes (by rw [ht]; rfl)

/-- Content that fits leaves `VALID` to the bits left, the codes and the noise, in PACK as in UNPACK (R215, R232). -/
theorem valid_after_pack (hconfig : SameConfig s t) (hfits : packFits s (contentLength s (packChannels s)) = true) :
    (unpackedAfterPack s t).status.valid = t.status.valid := by
  have hempty : (storeFrame (packedFrame s) (contentLength s (packChannels s)) t).status.empty = _ := empty_after_pack ht
  refine (storeFrame_status_valid t _ _).trans ?_
  rw [hempty, hconfig.frameBits, ht]
  refine Eq.trans ?_ (packStore_status_valid s false (packChannels s)).symm
  rw [hfits, Bool.true_and]
  rfl

end Registers

/-- Settles O46: the frame that PACK wrote is read back, and what was read is stored. -/
theorem packUnpackRoundTrip : Obligations.PackUnpackRoundTrip := by
  intro s t hmem hfields hpack herr
  obtain ⟨hcfg, -, -, hfits, ht⟩ := pack_ok_of_err_eq_false hpack herr
  obtain ⟨hconfig, hexec, hstored, v, hcrcExec, hcrc⟩ := unpack_after_pack hmem hpack herr
  obtain ⟨hdelta0, hdelta1⟩ := deltaBits_after_pack ht
  refine ⟨_, v, hexec, rfl, frameHdrWord_of_fields hfields,
    fun ch b hch hb => ⟨restored_sf hch (hstored ch hch) hcfg hb, ?_⟩,
    fun ch k hch hk hrole => restored_intensity hch (hstored ch hch) hrole hk,
    fun ch k hch hk => restored_hfr hch (hstored ch hch) hk,
    fun ch q b hch hq hb => restored_qspec hch (hstored ch hch) hq hb,
    hdelta0, hdelta1, bitPos_after_pack ht, bitsLeft_after_pack ht hconfig, empty_after_pack ht,
    valid_after_pack ht hconfig hfits, hcrcExec, hcrc⟩
  have hres : (packedFrame s).res.getD ch [] = (packChannel s ch).res := by rw [packedFrame, getD_map_range _ hch]
  rw [(hstored ch hch).res b hb, hres, ht]
  exact (packStore_res hcfg hmem false hch hb).symm

end Sys2Proof.Machine
end

section
/-! PROOFS. `SPEC` by its rows (spec/10_state.md R50, R56): what a change of some rows leaves of the rest of RAM, one row's turn
in an iteration over channels and subframes, and elements stored in a row. -/

namespace Sys2Proof.Machine

/-! ### Rows -/

/-- The offset lies in a row of `SPEC` that `rows` names by its channel and subframe. -/
def inSpec (rows : Nat → Nat → Bool) (a : Nat) : Bool := inSlot a fun c array i => array == .spec && rows c (i / 512)

@[simp] theorem inSpec_slotAddr {c i : Nat} {array : SlotArray} (rows : Nat → Nat → Bool) (hc : c < 16)
    (hi : i < slotArrayBytes array) : inSpec rows (slotAddr c array i) = (array == .spec && rows c (i / 512)) :=
  inSlot_slotAddr c array i _ hc hi

@[simp] theorem inSpec_spec {c i : Nat} (rows : Nat → Nat → Bool) (hc : c < 16) (hi : i < 4096) :
    inSpec rows (slotAddr c .spec i) = rows c (i / 512) := (inSpec_slotAddr rows hc hi).trans (by simp)

theorem inSpec_mono {rows rows' : Nat → Nat → Bool} (h : ∀ c q, rows c q = true → rows' c q = true) {a : Nat}
    (ha : inSpec rows a = true) : inSpec rows' a = true :=
  inSlot_mono (fun c array i hi => by
    rw [Bool.and_eq_true] at hi ⊢
    exact ⟨hi.1, h c _ hi.2⟩) ha

/-- The slots start at 0x40000 (spec/20_memory.md R71). -/
theorem inSlot_below_slots {a : Nat} (ha : a < 0x40000) (p : Nat → SlotArray → Nat → Bool) : inSlot a p = false := by
  have hregion : ∀ c array i, regionOf a ≠ .slot c array i := fun c array i => by
    unfold regionOf
    rw [if_pos ha]
    repeat refine iteInduction (motive := (· ≠ Region.slot c array i)) (fun _ => nofun) fun _ => ?_
    nofun
  unfold inSlot
  split
  · next c array i h => exact absurd h (hregion c array i)
  · rfl

theorem specAddr_add (c q b k : Nat) : specAddr c q b + 4 * k = specAddr c q (b + k) := by
  rw [specAddr, specAddr, slotAddr_add]
  congr 1
  omega

/-! ### What is kept outside some rows -/

theorem SameConfig.totalBands {s t : State} (h : SameConfig s t) : totalBands t = totalBands s := by
  simp only [Machine.totalBands, h.baseBands, h.stereoBands, h.hfrBands]

namespace StoresWithin

variable {rows : Nat → Nat → Bool} {s t : State}

theorem sameConfig {p : Nat → Bool} (h : StoresWithin p s t) : SameConfig s t := by
  obtain ⟨m, d, rfl⟩ := h.rest
  exact ⟨rfl, rfl, rfl, rfl, rfl⟩

theorem byte_otherArray (h : StoresWithin (inSpec rows) s t) {c i : Nat} {array : SlotArray} (hc : c < 16)
    (hi : i < slotArrayBytes array) (harray : array ≠ .spec) : t.byte (slotAddr c array i) = s.byte (slotAddr c array i) :=
  h.bytes _ (by simp [hc, hi, harray])

theorem numAt_otherArray (h : StoresWithin (inSpec rows) s t) {c i : Nat} {array : SlotArray} (hc : c < 16)
    (hi : i < slotArrayBytes array) (harray : array ≠ .spec) : t.numAt (slotAddr c array i) = s.numAt (slotAddr c array i) :=
  numAt_congr (h.byte_otherArray hc hi harray)

theorem halfAt_qspec (h : StoresWithin (inSpec rows) s t) {c q b : Nat} (hc : c < 16) (hq : q < 8) (hb : b < 128) :
    t.halfAt (slotAddr c .qspec (2 * (128 * q + b))) = s.halfAt (slotAddr c .qspec (2 * (128 * q + b))) :=
  halfAt_congr fun j hj => by
    rw [slotAddr_add]
    exact h.byte_otherArray hc (by simp only [slotArrayBytes]; omega) (by decide)

theorem wordAt_below_slots (h : StoresWithin (inSpec rows) s t) {a : Nat} (ha : a + 4 ≤ 0x40000) : t.wordAt a = s.wordAt a :=
  wordAt_congr fun _ _ => h.bytes _ (inSlot_below_slots (by omega) _)

theorem wordAt_specAddr (h : StoresWithin (inSpec rows) s t) {c q b : Nat} (hc : c < 16) (hq : q < 8) (hb : b < 128)
    (hrow : rows c q = false) : t.wordAt (specAddr c q b) = s.wordAt (specAddr c q b) :=
  wordAt_congr fun j hj => h.bytes _ (by
    rw [specAddr, slotAddr_add, inSpec_slotAddr rows hc (by simp only [slotArrayBytes]; omega),
      show (4 * (128 * q + b) + j) / 512 = q by omega, hrow, Bool.and_false])

end StoresWithin

/-! ### A row's turn -/

/-- In an iteration over channels that each run their subframes, a row's turn starts from what stood in the row before the
command, and what it leaves in the row stands at the end. `u` is the state the channel's turn starts in, `v` the row's; `own`
names the channels whose rows the turn writes. -/
theorem specRow_turn {s : State} {own : Nat → Bool} {f : Nat → State → State} {row : State → Nat → State → State}
    {xs qs : List Nat} {x q : Nat} (hxs : xs.Nodup) (hx : x ∈ xs) (hqs : qs.Nodup) (hq : q ∈ qs)
    (hothers : ∀ y ∈ xs, y ≠ x → ∀ m d,
      StoresWithin (inSpec fun c _ => !own c) { s with mem := m, draws := d } (f y { s with mem := m, draws := d }))
    (hself : ∀ m d, StoresWithin (fun _ => false)
      (forEach qs (row { s with mem := m, draws := d }) { s with mem := m, draws := d }) (f x { s with mem := m, draws := d }))
    (hrow : ∀ u, ∀ q' ∈ qs, ∀ m d, StoresWithin (inSpec fun c r => own c && r == q') { s with mem := m, draws := d }
      (row u q' { s with mem := m, draws := d })) :
    ∃ u v, StoresWithin (inSpec fun c _ => !own c) s u ∧ StoresWithin (inSpec fun c r => !(own c && r == q)) s v
      ∧ StoresWithin (inSpec fun c r => !(own c && r == q)) (row u q v) (forEach xs f s) := by
  have hforeign : ∀ c r : Nat, (!own c) = true → (!(own c && r == q)) = true := fun c r h => by
    rw [Bool.not_eq_true'] at h
    rw [h, Bool.false_and, Bool.not_false]
  obtain ⟨m, d, hbefore, hafter⟩ := forEach_turn hxs hx hothers fun m d =>
    (StoresWithin.forEach (p := fun _ => true) (s := { s with mem := m, draws := d }) qs _ fun q' hq' m' d' =>
      (hrow _ q' hq' m' d').mono fun _ _ => rfl).trans
      ((hself m d).mono fun _ _ => rfl)
  obtain ⟨m', d', hbefore', hafter'⟩ := forEach_turn (s := { s with mem := m, draws := d })
    (p := inSpec fun c r => !(own c && r == q)) (f := row { s with mem := m, draws := d }) hqs hq
    (fun q' hq' hne m' d' => (hrow _ q' hq' m' d').mono fun _ => inSpec_mono fun c r h => by
      have hother : r = q' := by
        rw [Bool.and_eq_true] at h
        exact eq_of_beq h.2
      simp [hother, hne])
    (hrow _ q hq)
  exact ⟨_, _, hbefore, (hbefore.mono fun _ => inSpec_mono hforeign).trans hbefore',
    (hafter'.trans ((hself m d).mono fun _ h => absurd h Bool.false_ne_true)).trans
      (hafter.mono fun _ => inSpec_mono hforeign)⟩

/-! ### Elements stored in a row -/

/-- A stored element of a row reads back. -/
theorem wordAt_putSpecRow (s : State) {c q b k : Nat} {ws : List Word} (hc : c < 16) (hk : k < ws.length)
    (hplace : 128 * q + b + ws.length ≤ 1024) :
    (s.putWords (specAddr c q b) ws).wordAt (specAddr c q (b + k)) = ws.getD k 0 := by
  rw [← specAddr_add]
  exact wordAt_putSlotWords s hc rfl hk (by simp only [slotArrayBytes]; omega)

/-- A store of elements leaves those of other rows and other bands. -/
theorem wordAt_putSpecRow_outside (s : State) {c q b c' q' b' : Nat} {ws : List Word}
    (h : specAddr c' q' b' + 4 ≤ specAddr c q b ∨ specAddr c q b + 4 * ws.length ≤ specAddr c' q' b') :
    (s.putWords (specAddr c q b) ws).wordAt (specAddr c' q' b') = s.wordAt (specAddr c' q' b') := by
  rw [State.putWords_eq]
  exact State.wordAt_putBytes_outside s _ _ _ (by rwa [flatMap_wordBytes_length])

/-- Element by element, what a command reads of an array of small numbers. -/
theorem nums_getD (s : State) {base n k : Nat} (hk : k < n) : (s.nums base n).getD k 0 = s.numAt (base + k) := by
  rw [State.nums_eq_map, getD_map_range _ hk]

theorem words_getD (s : State) {base n k : Nat} (hk : k < n) : (s.words base n).getD k 0 = s.wordAt (base + 4 * k) := by
  rw [State.words_eq_map, getD_map_range _ hk]

end Sys2Proof.Machine
end

section
/-! PROOFS. DEQUANT (spec/45_spectral.md R250, R251): every operand is finite and no factor overflows, so no product is a NaN and
none depends on a free value; each channel's turn writes its own `SPEC`. -/

namespace Sys2Proof.Machine

/-! ### Products of finite values -/

theorem mul32_of_finite (free : Word) {a b : Word} (ha : isFinite a = true) (hb : isFinite b = true) :
    mul32 free a b = withSign (xor (signOf a) (signOf b)) (roundUnits (magUnits a * magUnits b) 149) := by
  have hnan : ∀ w, isFinite w = true → isNaN w = false ∧ isInf w = false := fun w hw => by
    have hmag : magOf w < 0x7F800000 := of_decide_eq_true hw
    exact ⟨decide_eq_false (by omega), beq_eq_false_iff_ne.2 (by omega)⟩
  simp [mul32, hnan a ha, hnan b hb]

theorem mul32_free_irrelevant (free free' : Word) {a b : Word} (ha : isFinite a = true) (hb : isFinite b = true) :
    mul32 free a b = mul32 free' a b := by rw [mul32_of_finite free ha hb, mul32_of_finite free' ha hb]

/-- A product below the midpoint past the largest finite value is finite (spec/00_scope.md R11). -/
theorem isFinite_mul32 (free : Word) {a b : Word} (ha : isFinite a = true) (hb : isFinite b = true)
    (h : magUnits a * magUnits b < (2 ^ 25 - 1) * 2 ^ 252 * 2 ^ 149) : isFinite (mul32 free a b) = true := by
  have hround : roundUnits (magUnits a * magUnits b) 149 < 0x7F800000 :=
    lt_of_le_of_ne (roundUnits_le_infinity _ _) fun heq => absurd h (not_lt.2 ((roundUnits_eq_infinity_iff _ _).1 heq))
  rw [mul32_of_finite free ha hb, isFinite, magOf_withSign _ (by omega)]
  exact decide_eq_true hround

theorem isFinite_i2f {q : Int} (hq : q.natAbs < 2 ^ 24) : isFinite (i2f q) = true := by
  have habs : (q * 2 ^ (149 - 0)).natAbs = q.natAbs * 2 ^ 149 := by rw [Int.natAbs_mul]; rfl
  obtain ⟨-, hround⟩ := patternUnits_roundUnits hq (e := 149) (by omega)
  rw [i2f, i2fScaled, roundInt, habs, isFinite, magOf_withSign _ (by omega)]
  exact decide_eq_true hround

/-! ### The factors -/

/-- A pattern without a sign bit up to the first of a binade is finite, and of at most that pattern's magnitude. -/
theorem finite_of_pattern_le {n e : Nat} (he : e ≤ 252) (hn : n ≤ (e + 1) * 2 ^ 23) :
    isFinite (BitVec.ofNat 32 n) = true ∧ magUnits (BitVec.ofNat 32 n) ≤ 2 ^ (e + 23) := by
  have hlt : n < 2 ^ 31 := by omega
  have hmag : magOf (BitVec.ofNat 32 n) = n := by simp only [magOf, BitVec.toNat_ofNat]; omega
  refine ⟨by rw [isFinite, hmag]; exact decide_eq_true (by omega), ?_⟩
  calc magUnits (BitVec.ofNat 32 n) = patternUnits n := magUnits_ofNat n hlt
    _ ≤ patternUnits (e * 2 ^ 23 + 2 ^ 23) := patternUnits_strictMono.monotone (by omega)
    _ = 2 ^ (e + 23) := by rw [patternUnits_binade e (2 ^ 23) (by omega) (.inr le_rfl), ← pow_add, Nat.add_comm]

theorem rowEntry_le {rows : List (List Nat)} {n : Nat} (h : ∀ row ∈ rows, ∀ v ∈ row, v ≤ n) (i : Nat) :
    rowEntry rows i ≤ n := by
  have hrow := getD_of_forall (P := fun row : List Nat => ∀ v ∈ row, v ≤ n) (d := []) h (by simp) (i / 8)
  exact getD_of_forall (P := (· ≤ n)) hrow (Nat.zero_le n) _

/-- `DEQ_SCALE` stays below 16 (spec/10_state.md R44). -/
theorem deqScale_finite (i : Nat) : isFinite (deqScale i) = true ∧ magUnits (deqScale i) ≤ 2 ^ 153 :=
  finite_of_pattern_le (e := 130) (by omega) (rowEntry_le (by decide) i)

/-- `DEQ_RANGE` stays below 1 (spec/10_state.md R45). -/
theorem deqRange_finite (i : Nat) : isFinite (deqRange i) = true ∧ magUnits (deqRange i) ≤ 2 ^ 149 :=
  finite_of_pattern_le (e := 126) (by omega) (rowEntry_le (by decide) i)

theorem isFinite_dequantFactor (free : Word) (i j : Nat) : isFinite (mul32 free (deqScale i) (deqRange j)) = true := by
  obtain ⟨hscale, hscaleUnits⟩ := deqScale_finite i
  obtain ⟨hrange, hrangeUnits⟩ := deqRange_finite j
  refine isFinite_mul32 free hscale hrange (lt_of_le_of_lt (Nat.mul_le_mul hscaleUnits hrangeUnits) ?_)
  norm_num

/-- No product of DEQUANT depends on a free value. -/
theorem dequantProduct_eq (x y x' y' : Word) (q : Half) (i j : Nat) :
    mul32 x (i2f q.toInt) (mul32 y (deqScale i) (deqRange j)) = mul32 x' (i2f q.toInt) (mul32 y' (deqScale i) (deqRange j)) := by
  have hlo := BitVec.le_toInt q
  have hhi := BitVec.toInt_lt (x := q)
  have hcoef : isFinite (i2f q.toInt) = true := isFinite_i2f (by omega)
  rw [mul32_free_irrelevant y y' (deqScale_finite i).1 (deqRange_finite j).1]
  exact mul32_free_irrelevant x x' hcoef (isFinite_dequantFactor y' i j)

/-! ### One channel -/

theorem dequantFactors_eq_map (s : State) (ch : Nat) : dequantFactors s ch =
    (List.range 128).map fun b => mul32 0 (deqScale (s.numAt (slotAddr ch .sf b))) (deqRange (s.numAt (slotAddr ch .res b))) := by
  simp only [dequantFactors, State.nums_eq_map, slotAddr_zero_add, List.zip_map', List.map_map]
  rfl

theorem dequantRow_getElem? (s : State) {ch q b : Nat} (hb : b < 128) :
    (dequantRow s ch q (dequantFactors s ch))[b]? =
      some (mul32 (s.free (specAddr ch q b)) (i2f (s.halfAt (slotAddr ch .qspec (2 * (128 * q + b)))).toInt)
        (mul32 0 (deqScale (s.numAt (slotAddr ch .sf b))) (deqRange (s.numAt (slotAddr ch .res b))))) := by
  have hplace : slotAddr ch .qspec (256 * q) + 2 * b = slotAddr ch .qspec (2 * (128 * q + b)) := by
    rw [slotAddr_add]
    congr 1
    omega
  rw [dequantRow, dequantFactors_eq_map, State.halves_eq_map, List.zip_map', ← hplace]
  simp [hb]

theorem dequantChannel_word (s : State) {ch q b : Nat} (hch : ch < 16) (hq : q < 8) (hb : b < 128) (x y : Word) :
    (dequantChannel ch s).wordAt (specAddr ch q b) =
      mul32 x (i2f (s.halfAt (slotAddr ch .qspec (2 * (128 * q + b)))).toInt)
        (mul32 y (deqScale (s.numAt (slotAddr ch .sf b))) (deqRange (s.numAt (slotAddr ch .res b)))) := by
  have hlen : ((List.range 8).flatMap fun sub => dequantRow s ch sub (dequantFactors s ch)).length = 1024 := by
    simp [List.length_flatMap]
  have hplace : specAddr ch q b = specAddr ch 0 (0 + (128 * q + b)) := by simp only [specAddr]; congr 1; omega
  rw [dequantChannel, State.tick_wordAt, hplace, wordAt_putSpecRow s hch (by rw [hlen]; omega) (by rw [hlen]),
    List.getD_eq_getElem?_getD, getElem?_flatMap_of_length (fun _ _ => dequantRow_length s ch _) q hb, List.getElem?_range hq,
    Option.bind_some, dequantRow_getElem? s hb, Option.getD_some]
  exact dequantProduct_eq ..

/-! ### The command -/

/-- Settles O47: a channel's turn reads its coefficients, scale factors and resolutions, which no turn writes. -/
theorem dequantScales : Obligations.DequantScales := by
  intro s ch allCh hcfg hch
  obtain ⟨hexec, hcompleted, hflags, hplaces⟩ :=
    blockCommand_completes (i := .dequant ch allCh) hcfg hch rfl (dequantBody_frame hcfg hch)
  refine ⟨_, hexec, hcompleted, hflags, hplaces, fun c hc q b hq hb x y => ?_⟩
  have hmem := (mem_channelSet_iff s ch allCh c).2 hc
  have hslot := channelSet_lt hcfg hch hmem
  obtain ⟨m, d, hbefore, hafter⟩ := forEach_turn (s := s) (p := inSpec fun c' _ => decide (c' ≠ c)) (f := dequantChannel)
    (channelSet_nodup s ch allCh) hmem
    (fun c' hc' hne m d => dequantChannel_storesWithin c' fun i hi => by
      simp [channelSet_lt hcfg hch hc', hi, hne])
    (p' := fun _ => true) (fun m d => dequantChannel_storesWithin c fun _ _ => rfl)
  rw [completeOk_wordAt, dequantBody, hafter.wordAt_specAddr hslot hq hb (by simp), dequantChannel_word _ hslot hq hb x y,
    hbefore.halfAt_qspec hslot hq hb, hbefore.numAt_otherArray hslot hb (by decide),
    hbefore.numAt_otherArray hslot hb (by decide)]

end Sys2Proof.Machine
end

section
/-! PROOFS. HFR_RECON (spec/45_spectral.md R252 to R254): the loop's pairs are an initial range, each row's turn reads its own low
bands, and the bands that the footprint leaves out are kept. -/

namespace Sys2Proof.Machine

/-! ### The pairs -/

theorem range_takeWhile_lt (n k : Nat) : ((List.range n).takeWhile fun j => decide (j < k)) = List.range (min n k) := by
  rcases le_total n k with hall | hsome
  · rw [min_eq_left hall, List.takeWhile_eq_self_iff]
    exact fun j hj => decide_eq_true ((List.mem_range.1 hj).trans_le hall)
  · obtain ⟨e, rfl⟩ := Nat.exists_eq_add_of_le hsome
    rw [min_eq_right hsome, List.range_add, List.takeWhile_append_of_pos fun j hj => decide_eq_true (List.mem_range.1 hj)]
    cases e <;> simp [List.range_succ_eq_map]

/-- The loop of R252 runs the pairs up to the first that lies at `TOTAL` or whose mirror passes band 0. -/
theorem hfrSteps_eq_range (s : State) : hfrSteps s = List.range (min (hfrGroups s * bandsPerGroup s)
    (min (totalBands s - (baseBands s + stereoBands s)) (baseBands s + stereoBands s))) := by
  rw [← range_takeWhile_lt, hfrSteps]
  congr 1
  funext j
  rw [decide_eq_decide]
  omega

theorem hfrSteps_congr {s t : State} (h : SameConfig s t) : hfrSteps t = hfrSteps s := by
  simp only [hfrSteps_eq_range, h.hfrGroups, h.bandsPerGroup, h.totalBands, h.baseBands, h.stereoBands]

/-- The ratio that a channel's turn reads, by the code of the pair's group and the mirror's scale factor (R252): no turn writes
what it depends on. -/
theorem hfrRatioOf_of_storesWithin {s u : State} {rows : Nat → Nat → Bool} (h : StoresWithin (inSpec rows) s u)
    (hmem : s.mem.wf) {ch j : Nat} (hch : ch < 16) (hgroup : j / bandsPerGroup s < 8)
    (hlow : baseBands s + stereoBands s - 1 - j < 128) :
    hfrRatioOf u ch j = s.wordAt (hfrRatioBase + 4 * (s.numAt (slotAddr ch .hfrScale (j / bandsPerGroup s)) + 64
      - s.numAt (slotAddr ch .sf (baseBands s + stereoBands s - 1 - j)))) := by
  have hscale := numAt_slot_lt (w := 6) (array := .hfrScale) hmem hch hgroup (by decide) rfl
  have hbase : hfrRatioBase = 0x20800 := rfl
  rw [hfrRatioOf, h.sameConfig.bandsPerGroup, h.sameConfig.baseBands, h.sameConfig.stereoBands, nums_getD u hgroup,
    nums_getD u hlow, slotAddr_zero_add, slotAddr_zero_add, h.numAt_otherArray (array := .hfrScale) hch hgroup (by decide),
    h.numAt_otherArray (array := .sf) hch hlow (by decide), words_getD u (by omega), h.wordAt_below_slots (by omega)]

/-! ### One row -/

theorem hfrSubframe_top (s : State) {ch q : Nat} (ratios : List Word) (hch : ch < 16) (hq : q < 8) :
    (hfrSubframe ch ratios q s).wordAt (specAddr ch q 127) = 0 :=
  wordAt_putSpecRow _ (b := 127) (k := 0) hch Nat.zero_lt_one (by simp only [List.length_singleton]; omega)

/-- The bands read lie below the bands written, so a pair reads what stood in its mirror when the row's turn started. -/
theorem hfrSubframe_word {s v : State} (h : SameConfig s v) {ch q j : Nat} (ratios : List Word) (hch : ch < 16) (hq : q < 8)
    (htotal : totalBands s ≤ 128) (hj : j < hfrGroups s * bandsPerGroup s)
    (hbelow : baseBands s + stereoBands s + j < totalBands s) (hmirror : j + 1 ≤ baseBands s + stereoBands s)
    (htop : baseBands s + stereoBands s + j ≠ 127) :
    ∃ x, (hfrSubframe ch ratios q v).wordAt (specAddr ch q (baseBands s + stereoBands s + j)) =
      mul32 x (v.wordAt (specAddr ch q (baseBands s + stereoBands s - 1 - j))) (ratios.getD j 0) := by
  have hlen : j < min (hfrGroups s * bandsPerGroup s)
    (min (totalBands s - (baseBands s + stereoBands s)) (baseBands s + stereoBands s)) := by omega
  refine ⟨v.free (specAddr ch q (baseBands s + stereoBands s + j)), ?_⟩
  rw [hfrSubframe, wordAt_putSpecRow_outside _ (.inl (by simp only [specAddr, slotAddr]; omega)), h.baseBands, h.stereoBands,
    hfrSteps_congr h, hfrSteps_eq_range, wordAt_putSpecRow v hch (by simpa using hlen)
      (by simp only [List.length_map, List.length_range]; omega),
    getD_map_range _ hlen, words_getD v (by omega), specAddr_add, Nat.zero_add]

/-! ### The command -/

/-- HFR_RECON at a version that carries its codes completes, and only its own places have changed. -/
theorem hfrRecon_completes {s : State} {ch : Nat} {allCh : Bool} (hcfg : cfgOk s = true) (hch : ChannelOk s ch allCh)
    (hver : 0 < hfrGroups s → version s < 0x0300) :
    exec (.hfrRecon ch allCh) s = .next (completeOk (hfrBody (channelSet s ch allCh) s))
      ∧ Completed .none 0 (completeOk (hfrBody (channelSet s ch allCh) s))
      ∧ FlagsKept s (completeOk (hfrBody (channelSet s ch allCh) s))
      ∧ UnchangedOutside (.hfrRecon ch allCh) s (completeOk (hfrBody (channelSet s ch allCh) s)) := by
  refine blockCommand_completes hcfg hch ?_ (hfrBody_frame hcfg hch)
  have hsupported : hfrUnsupported s = false := decide_eq_false fun h => absurd (hver h.1) (not_lt.2 h.2)
  simp [effectOf, requireHfrVersion, hsupported]

/-- A row's turn in HFR_RECON, with the ratios of the state its channel's turn starts in. -/
theorem hfrRow_turn {s : State} {ch : Nat} {allCh : Bool} (hcfg : cfgOk s = true) (hch : ChannelOk s ch allCh) {c q : Nat}
    (hc : c ∈ channelSet s ch allCh) (hrole : role s c ≠ .stereoSecondary) (hgroups : 0 < hfrGroups s) (hq : q < 8) :
    ∃ u v, StoresWithin (inSpec fun c' _ => !decide (c' = c)) s u
      ∧ StoresWithin (inSpec fun c' r => !(decide (c' = c) && r == q)) s v
      ∧ StoresWithin (inSpec fun c' r => !(decide (c' = c) && r == q)) (hfrSubframe c ((hfrSteps s).map (hfrRatioOf u c)) q v)
          (hfrBody (channelSet s ch allCh) s) := by
  obtain ⟨-, -, htotal, -⟩ := cfgOk_bounds s hcfg
  rw [hfrBody, if_neg (Nat.pos_iff_ne_zero.1 hgroups)]
  refine specRow_turn (row := fun u => hfrSubframe c ((hfrSteps s).map (hfrRatioOf u c)))
    (channelSet_nodup s ch allCh) hc List.nodup_range (List.mem_range.2 hq) (fun c' hc' hne m d => ?_) (fun m d => ?_)
    fun u q' hq' m d => ?_
  · exact hfrChannel_storesWithin c' htotal fun _ i hi _ => by simp [channelSet_lt hcfg hch hc', hi, hne]
  · have hkept : role { s with mem := m, draws := d } c ≠ .stereoSecondary := hrole
    rw [hfrChannel, if_neg hkept]
    exact (StoresWithin.refl _ _).tick
  · refine hfrSubframe_storesWithin c _ q' htotal fun i hi _ => ?_
    have := List.mem_range.1 hq'
    rw [inSpec_spec _ (channelSet_lt hcfg hch hc) (by omega)]
    simp [hi]

/-- The words of the rows of a channel that is not skipped. -/
theorem hfrBody_words {s : State} {ch : Nat} {allCh : Bool} (hmem : s.mem.wf) (hcfg : cfgOk s = true)
    (hch : ChannelOk s ch allCh) {c q : Nat} (hc : c ∈ channelSet s ch allCh) (hrole : role s c ≠ .stereoSecondary)
    (hgroups : 0 < hfrGroups s) (hq : q < 8) :
    (hfrBody (channelSet s ch allCh) s).wordAt (specAddr c q 127) = 0
      ∧ ∀ j, j < hfrGroups s * bandsPerGroup s → baseBands s + stereoBands s + j < totalBands s →
          j + 1 ≤ baseBands s + stereoBands s → baseBands s + stereoBands s + j ≠ 127 →
          ∃ x : Word, (hfrBody (channelSet s ch allCh) s).wordAt (specAddr c q (baseBands s + stereoBands s + j)) =
            mul32 x (s.wordAt (specAddr c q (baseBands s + stereoBands s - 1 - j)))
              (s.wordAt (hfrRatioBase + 4 * (s.numAt (slotAddr c .hfrScale (j / bandsPerGroup s)) + 64
                - s.numAt (slotAddr c .sf (baseBands s + stereoBands s - 1 - j))))) := by
  obtain ⟨-, -, htotal, hgroupCount, -⟩ := cfgOk_bounds s hcfg
  have hslot := channelSet_lt hcfg hch hc
  obtain ⟨u, v, hchannel, hbefore, hafter⟩ := hfrRow_turn hcfg hch hc hrole hgroups hq
  refine ⟨(hafter.wordAt_specAddr hslot hq (by omega) (by simp)).trans (hfrSubframe_top v _ hslot hq),
    fun j hj hbelow hmirror htop => ?_⟩
  have hlow : baseBands s + stereoBands s - 1 - j < 128 := by omega
  have hgroup : j / bandsPerGroup s < 8 := (Nat.div_lt_of_lt_mul (Nat.mul_comm _ _ ▸ hj)).trans_le hgroupCount
  obtain ⟨x, hx⟩ :=
    hfrSubframe_word hbefore.sameConfig ((hfrSteps s).map (hfrRatioOf u c)) hslot hq htotal hj hbelow hmirror htop
  refine ⟨x, ?_⟩
  rw [hafter.wordAt_specAddr hslot hq (by omega) (by simp), hx, hbefore.wordAt_specAddr hslot hq hlow (by simp),
    hfrSteps_eq_range, getD_map_range _ (by omega), hfrRatioOf_of_storesWithin hchannel hmem hslot hgroup hlow]

/-- Settles O48: the kept bands are the ones that the footprint leaves out, and a row's turn gives the others. -/
theorem hfrMirrorsBands : Obligations.HfrMirrorsBands := by
  intro s ch allCh hmem hcfg hch hver
  obtain ⟨hexec, hcompleted, hflags, hplaces⟩ := hfrRecon_completes hcfg hch hver
  refine ⟨_, hexec, hcompleted, hflags, hplaces, fun hnone a => ?_, fun c hc hgroups => ?_⟩
  · rw [completeOk_byte, hfrBody, if_pos hnone]
  have hc := (mem_channelSet_iff s ch allCh c).2 hc
  have hslot := channelSet_lt hcfg hch hc
  obtain ⟨hbytes, -⟩ := hplaces
  refine ⟨fun hrole i hi => hbytes _ ?_, fun hrole q hq => ?_⟩
  · simp [writesByte, inSlot_slotAddr c .spec i _ hslot hi, hrole]
  · obtain ⟨htop, hmirrored⟩ := hfrBody_words hmem hcfg hch hc hrole hgroups hq
    refine ⟨(completeOk_wordAt _ _).trans htop, fun b hb hkept => wordAt_congr fun k hk => hbytes _ ?_,
      fun j hj hbelow hlow hne => by rw [completeOk_wordAt]; exact hmirrored j hj hbelow hlow hne⟩
    have hband : (4 * (128 * q + b) + k) / 4 % 128 = b := by omega
    have hunwritten : hfrWritesBand s b = false := decide_eq_false (by omega)
    rw [specAddr, slotAddr_add, writesByte, inSlot_slotAddr c .spec _ _ hslot (by simp only [slotArrayBytes]; omega),
      hband, hunwritten, decide_eq_false (p := b = 127) (by omega), Bool.or_false, Bool.and_false]

end Sys2Proof.Machine
end

section
/-! PROOFS. ISTEREO (spec/45_spectral.md R255, R256): pairs do not overlap, so a row's turn reads the primary's old value and the
secondary's code as they stood before the command. -/

namespace Sys2Proof.Machine

/-! ### One row of a pair -/

theorem getD_zipIdx_map {α β : Type} (g : α × Nat → β) {l : List α} {k : Nat} (hk : k < l.length) (d : β) (e : α) :
    (l.zipIdx.map g).getD k d = g (l.getD k e, k) := by
  rw [List.getD_eq_getElem _ _ (by simpa using hk), List.getD_eq_getElem _ _ hk]
  simp

/-- The ratio that a row's turn reads, by the secondary's code (R255). -/
theorem istereoRatio_eq (s : State) {c q : Nat} (hcode : s.numAt (slotAddr c .intensity q) < 16) :
    (s.words intRatioBase 16).getD ((s.nums (slotAddr c .intensity q) 1).headD 0) 0
      = s.wordAt (intRatioBase + 4 * s.numAt (slotAddr c .intensity q)) := by
  have hhead : (s.nums (slotAddr c .intensity q) 1).headD 0 = s.numAt (slotAddr c .intensity q) := by simp [State.nums_eq_map]
  rw [hhead, words_getD s hcode]

theorem istereoSubframe_words {s v : State} (h : SameConfig s v) {p q b : Nat} (hp : p + 1 < 16) (hq : q < 8)
    (htotal : totalBands s ≤ 128) (hlo : baseBands s ≤ b) (hhi : b < totalBands s)
    (hcode : v.numAt (slotAddr (p + 1) .intensity q) < 16) :
    ∃ x y z, (istereoSubframe p q v).wordAt (specAddr p q b) = mul32 x (v.wordAt (specAddr p q b))
        (v.wordAt (intRatioBase + 4 * v.numAt (slotAddr (p + 1) .intensity q)))
      ∧ (istereoSubframe p q v).wordAt (specAddr (p + 1) q b) = mul32 y (v.wordAt (specAddr p q b))
        (sub32 z (v.wordAt (intRatioBase + 4 * v.numAt (slotAddr (p + 1) .intensity q))) two32) := by
  obtain ⟨k, rfl⟩ := Nat.exists_eq_add_of_le hlo
  have hold : (v.words (specAddr p q (baseBands s)) (totalBands s - baseBands s)).getD k 0
      = v.wordAt (specAddr p q (baseBands s + k)) := by rw [words_getD v (by omega), specAddr_add]
  have hlen : (v.words (specAddr p q (baseBands s)) (totalBands s - baseBands s)).length = totalBands s - baseBands s := by simp
  refine ⟨v.free (specAddr p q (baseBands s + k)), v.free (specAddr (p + 1) q (baseBands s + k)), v.free (siteRatio p q), ?_⟩
  simp only [istereoSubframe, State.tick_wordAt, h.baseBands, h.totalBands, istereoRatio_eq v hcode]
  generalize v.words (specAddr p q (baseBands s)) (totalBands s - baseBands s) = old at hold hlen
  have hmapped : ∀ g : Word × Nat → Word, (old.zipIdx.map g).length = totalBands s - baseBands s := fun g => by
    rw [List.length_map, List.length_zipIdx, hlen]
  constructor
  · rw [wordAt_putSpecRow _ (by omega) (by rw [hmapped]; omega) (by rw [hmapped]; omega), getD_zipIdx_map _ (by omega) 0 0, hold]
  · rw [wordAt_putSpecRow_outside _ (.inr (by rw [hmapped]; simp only [specAddr, slotAddr]; omega)),
      wordAt_putSpecRow _ hp (by rw [hmapped]; omega) (by rw [hmapped]; omega), getD_zipIdx_map _ (by omega) 0 0, hold]

/-! ### The command -/

/-- Two pairs of a legal configuration share no channel (spec/10_state.md R30). -/
theorem pairs_disjoint {s : State} (hcfg : cfgOk s = true) {p p' c : Nat} (hp : p < chCount s) (hp' : p' < chCount s)
    (hrole : role s p = .stereoPrimary) (hrole' : role s p' = .stereoPrimary) (hne : p' ≠ p) (hc : c = p' ∨ c = p' + 1) :
    ¬(c = p ∨ c = p + 1) := by
  obtain ⟨-, hsecond⟩ := primary_has_secondary s p hcfg hp hrole
  obtain ⟨-, hsecond'⟩ := primary_has_secondary s p' hcfg hp' hrole'
  have hafter : p' ≠ p + 1 := fun h => by simp [h, hsecond] at hrole'
  have hbefore : p' + 1 ≠ p := fun h => by simp [h, hrole] at hsecond'
  omega

/-- A row's turn in ISTEREO. -/
theorem istereoRow_turn {s : State} {sub : Nat} {allSf : Bool} (hcfg : cfgOk s = true) (hsub : sub < 8) {p q : Nat}
    (hp : p < chCount s) (hrole : role s p = .stereoPrimary) (hq : q ∈ subframeSet sub allSf) :
    ∃ v, StoresWithin (inSpec fun c r => !(decide (c = p ∨ c = p + 1) && r == q)) s v
      ∧ StoresWithin (inSpec fun c r => !(decide (c = p ∨ c = p + 1) && r == q)) (istereoSubframe p q v)
          (istereoBody (subframeSet sub allSf) s) := by
  obtain ⟨-, hcount, htotal, -⟩ := cfgOk_bounds s hcfg
  obtain ⟨-, v, -, hbefore, hafter⟩ := specRow_turn (s := s) (own := fun c => decide (c = p ∨ c = p + 1))
    (f := istereoChannel (subframeSet sub allSf)) (row := fun _ => istereoSubframe p) List.nodup_range (List.mem_range.2 hp)
    (subframeSet_nodup sub allSf) hq
    (fun p' hp' hne m d => istereoChannel_storesWithin _ p' htotal fun hrole' c hc i hi _ => by
      have hp' := List.mem_range.1 hp'
      obtain ⟨hpair, -⟩ := primary_has_secondary s p' hcfg hp' hrole'
      have := subframeSet_lt hsub hi
      rw [inSpec_spec _ (by omega) (by omega), decide_eq_false (pairs_disjoint hcfg hp hp' hrole hrole' hne hc), Bool.not_false])
    (fun m d => by
      have hkept : role { s with mem := m, draws := d } p = .stereoPrimary := hrole
      rw [istereoChannel, if_pos hkept]
      exact .refl _ _)
    (fun _ q' hq' m d => istereoSubframe_storesWithin p q' htotal fun c hc i hi _ => by
      obtain ⟨hpair, -⟩ := primary_has_secondary s p hcfg hp hrole
      have := subframeSet_lt hsub hq'
      rw [inSpec_spec _ (by omega) (by omega), decide_eq_true hc, hi, beq_self_eq_true, Bool.and_self])
  exact ⟨v, hbefore, hafter⟩

/-- Settles O49: a pair's row is written by its own turn alone. -/
theorem istereoRescalesPairs : Obligations.IstereoRescalesPairs := by
  intro s sub allSf hmem hcfg hsub
  have hframe := istereoBody_frame (allSf := allSf) hcfg hsub
  refine ⟨_, (exec_next_iff _ s _).2 (by rw [effectOf, requireCfg_of_ok s _ hcfg]; rfl), completed_completeOk _,
    flagsKept_completeOk hframe.status, (hframe.leavesOutside _).completeOk (writesReg_errInfo _),
    fun p hp hrole q b hq hlo hhi => ?_⟩
  obtain ⟨-, hcount, htotal, -⟩ := cfgOk_bounds s hcfg
  obtain ⟨hpair, -⟩ := primary_has_secondary s p hcfg hp hrole
  have hq := (mem_subframeSet_iff sub allSf q).2 hq
  have hrow := subframeSet_lt hsub hq
  obtain ⟨v, hbefore, hafter⟩ := istereoRow_turn hcfg hsub hp hrole hq
  have hcode : s.numAt (slotAddr (p + 1) .intensity q) < 2 ^ 4 :=
    numAt_slot_lt (array := .intensity) hmem (by omega) hrow (by decide) rfl
  have hcodeKept := hbefore.numAt_otherArray (c := p + 1) (array := .intensity) (by omega) hrow (by decide)
  have hbase : intRatioBase = 0x20600 := rfl
  obtain ⟨x, y, z, hprimary, hsecondary⟩ := istereoSubframe_words hbefore.sameConfig (p := p) (by omega) hrow htotal hlo hhi
    (by omega)
  rw [hcodeKept, hbefore.wordAt_specAddr (by omega) hrow (by omega) (by simp), hbefore.wordAt_below_slots (by omega)]
    at hprimary hsecondary
  exact ⟨x, y, z,
    by rw [completeOk_wordAt, hafter.wordAt_specAddr (by omega) hrow (by omega) (by simp), hprimary],
    by rw [completeOk_wordAt, hafter.wordAt_specAddr (by omega) hrow (by omega) (by simp), hsecondary]⟩

end Sys2Proof.Machine
end

section
/-! PROOFS. DECODE_FRAME (spec/46_composite.md R270, R271): each stage after UNPACK is a command of its own that cannot fail and does
not look at what completion writes, so completing between the stages changes nothing; and what a failed frame leaves. -/

namespace Sys2Proof.Machine

/-! ### Completion between the stages -/

theorem SameConfig.trans {s t u : State} (h : SameConfig s t) (h' : SameConfig t u) : SameConfig s u :=
  ⟨h'.stream.trans h.stream, h'.frame.trans h.frame, h'.bands.trans h.bands, h'.res.trans h.res, h'.roles.trans h.roles⟩

theorem sameConfig_completeOk (s : State) : SameConfig s (completeOk s) := ⟨rfl, rfl, rfl, rfl, rfl⟩

theorem SameConfig.of_completeOk {s t : State} (h : SameConfig s (completeOk t)) : SameConfig s t :=
  ⟨h.stream, h.frame, h.bands, h.res, h.roles⟩

theorem SameConfig.hfrUnsupported {s t : State} (h : SameConfig s t) : hfrUnsupported t = hfrUnsupported s := by
  rw [Machine.hfrUnsupported, Machine.hfrUnsupported, h.hfrGroups, h.version]

theorem completeOk_nums (s : State) (a n : Nat) : (completeOk s).nums a n = s.nums a n := rfl

theorem completeOk_halves (s : State) (a n : Nat) : (completeOk s).halves a n = s.halves a n := rfl

theorem completeOk_putHalves (s : State) (a : Nat) (hs : List Half) :
    (completeOk s).putHalves a hs = completeOk (s.putHalves a hs) := rfl

/-- An iteration of changes that do not look at what completion writes does not look at it either. -/
theorem forEach_commute_completeOk {f : Nat → State → State} (h : ∀ x, Function.Commute (f x) completeOk) (xs : List Nat) :
    Function.Commute (forEach xs f) completeOk := by
  induction xs with
  | nil => exact fun _ => rfl
  | cons x xs ih => exact fun s => (congrArg (forEach xs f) (h x s)).trans (ih (f x s))

theorem forBlocks_commute_completeOk {block : Nat → Nat → State → State}
    (h : ∀ ch sub, Function.Commute (block ch sub) completeOk) (chans subs : List Nat) :
    Function.Commute (forBlocks block chans subs) completeOk :=
  forEach_commute_completeOk (fun ch => forEach_commute_completeOk (h ch) subs) chans

theorem dequantChannel_commute_completeOk (ch : Nat) : Function.Commute (dequantChannel ch) completeOk := fun s => by
  simp only [dequantChannel, dequantFactors, dequantRow, completeOk_nums, completeOk_halves, completeOk_free, completeOk_putWords,
    completeOk_tick]

theorem hfrSteps_completeOk (s : State) : hfrSteps (completeOk s) = hfrSteps s := rfl

theorem hfrRatioOf_completeOk (s : State) : hfrRatioOf (completeOk s) = hfrRatioOf s := rfl

theorem hfrSubframe_commute_completeOk (ch : Nat) (ratios : List Word) (sub : Nat) :
    Function.Commute (hfrSubframe ch ratios sub) completeOk := fun s => by
  have hconfig := sameConfig_completeOk s
  simp only [hfrSubframe, hfrSteps_completeOk, hconfig.baseBands, hconfig.stereoBands, completeOk_words, completeOk_free,
    completeOk_putWords]

theorem hfrChannel_commute_completeOk (ch : Nat) : Function.Commute (hfrChannel ch) completeOk := fun s => by
  unfold hfrChannel
  rw [(sameConfig_completeOk s).role, hfrSteps_completeOk, hfrRatioOf_completeOk]
  split
  · rfl
  · rw [forEach_commute_completeOk (hfrSubframe_commute_completeOk ch _), completeOk_tick]

theorem hfrBody_commute_completeOk (chans : List Nat) : Function.Commute (hfrBody chans) completeOk := fun s => by
  unfold hfrBody
  rw [(sameConfig_completeOk s).hfrGroups]
  split
  · rfl
  · exact forEach_commute_completeOk hfrChannel_commute_completeOk chans s

theorem istereoSubframe_commute_completeOk (p sub : Nat) : Function.Commute (istereoSubframe p sub) completeOk := fun s => by
  have hconfig := sameConfig_completeOk s
  simp only [istereoSubframe, hconfig.baseBands, hconfig.totalBands, completeOk_nums, completeOk_words, completeOk_free,
    completeOk_putWords, completeOk_tick]

theorem istereoChannel_commute_completeOk (subs : List Nat) (p : Nat) :
    Function.Commute (istereoChannel subs p) completeOk := fun s => by
  unfold istereoChannel
  rw [(sameConfig_completeOk s).role]
  split
  · exact forEach_commute_completeOk (istereoSubframe_commute_completeOk p) subs s
  · rfl

theorem istereoBody_commute_completeOk (subs : List Nat) : Function.Commute (istereoBody subs) completeOk := fun s => by
  unfold istereoBody
  rw [(sameConfig_completeOk s).chCount]
  exact forEach_commute_completeOk (istereoChannel_commute_completeOk subs) _ s

theorem pcmOutBlock_commute_completeOk (ch sub : Nat) : Function.Commute (pcmOutBlock ch sub) completeOk := fun s => by
  simp only [pcmOutBlock, completeOk_words, completeOk_free, completeOk_putHalves, completeOk_tick]

/-! ### The stages as commands -/

/-- Under the checks that DECODE_FRAME makes, the command completes with the stage over every channel; the stage does not look at
what completion writes. -/
structure RunsStage (i : Instr) (stage : List Nat → State → State) : Prop where
  wellFormed : i.wellFormed = true
  effect : ∀ s, cfgOk s = true → hfrUnsupported s = false → effectOf i s = .ok (stage (List.range (chCount s)) s)
  completion : ∀ chans, Function.Commute (stage chans) completeOk

/-- The stages of DECODE_FRAME after UNPACK, each with its command (R270). -/
def stageCommands : List (Instr × (List Nat → State → State)) :=
  [(.dequant 0 true, dequantBody), (.hfrRecon 0 true, hfrBody), (.istereo 0 true, fun _ => istereoBody (List.range 8)),
    (.imdct 0 true 0 true, fun chans => forBlocks imdctBlock chans (List.range 8)),
    (.pcmOut 0 true 0 true, fun chans => forBlocks pcmOutBlock chans (List.range 8))]

/-- Run the stages of a list over a set of channels. -/
def runStages (stages : List (Instr × (List Nat → State → State))) (chans : List Nat) (s : State) : State :=
  stages.foldl (fun t x => x.2 chans t) s

theorem decodeStages_eq_runStages (s : State) : decodeStages s = runStages stageCommands (List.range (chCount s)) s := rfl

theorem requireHfrVersion_of_supported (s : State) (k : Effect) (h : hfrUnsupported s = false) : requireHfrVersion s k = k := by
  simp [requireHfrVersion, h]

/-- Over every channel, a per-channel command checks only the configuration (R30, R92). -/
theorem requireAllChannels_of_ok (s : State) (k : Effect) (hcfg : cfgOk s = true) :
    requireCfg s (requireChannel s 0 true k) = k :=
  (requireCfg_of_ok s _ hcfg).trans (requireChannel_of_ok s 0 true k (.inl rfl))

theorem runsStage_of_mem_stageCommands : ∀ x ∈ stageCommands, RunsStage x.1 x.2 := by
  simp only [stageCommands, List.forall_mem_cons, List.not_mem_nil, false_implies, implies_true, and_true]
  exact ⟨⟨rfl, fun s hcfg _ => requireAllChannels_of_ok s _ hcfg, forEach_commute_completeOk dequantChannel_commute_completeOk⟩,
    ⟨rfl, fun s hcfg hver => (requireAllChannels_of_ok s _ hcfg).trans (requireHfrVersion_of_supported s _ hver),
      hfrBody_commute_completeOk⟩,
    ⟨rfl, fun s hcfg _ => requireCfg_of_ok s _ hcfg, fun _ => istereoBody_commute_completeOk _⟩,
    ⟨rfl, fun s hcfg _ => requireAllChannels_of_ok s _ hcfg,
      fun chans => forBlocks_commute_completeOk imdctBlock_completeOk chans _⟩,
    ⟨rfl, fun s hcfg _ => requireAllChannels_of_ok s _ hcfg,
      fun chans => forBlocks_commute_completeOk pcmOutBlock_commute_completeOk chans _⟩⟩

/-- A stage's command, run from a completed state, completes with the stage and leaves the configuration. -/
theorem RunsStage.exec_completeOk {i : Instr} {stage : List Nat → State → State} (h : RunsStage i stage) {s : State}
    (hcfg : cfgOk s = true) (hver : hfrUnsupported s = false) :
    exec i (completeOk s) = .next (completeOk (stage (List.range (chCount s)) s))
      ∧ SameConfig s (stage (List.range (chCount s)) s) := by
  have hconfig := sameConfig_completeOk s
  have heffect := h.effect (completeOk s) (hconfig.cfgOk.trans hcfg) (hconfig.hfrUnsupported.trans hver)
  rw [hconfig.chCount, h.completion] at heffect
  obtain ⟨hexec, -, hplaces⟩ := exec_of_ok h.wellFormed heffect
  exact ⟨hexec, (hconfig.trans hplaces.sameConfig).of_completeOk.of_completeOk⟩

/-- The commands of stages, run one after another from a completed state, complete with the stages over its channels. -/
theorem runCommands_stages {stages : List (Instr × (List Nat → State → State))} (h : ∀ x ∈ stages, RunsStage x.1 x.2) {s : State}
    (hcfg : cfgOk s = true) (hver : hfrUnsupported s = false) :
    runCommands (stages.map Prod.fst) (completeOk s) = some (completeOk (runStages stages (List.range (chCount s)) s)) := by
  induction stages generalizing s with
  | nil => rfl
  | cons x stages ih =>
    obtain ⟨hx, hrest⟩ := List.forall_mem_cons.1 h
    obtain ⟨hexec, hconfig⟩ := hx.exec_completeOk hcfg hver
    have hlater := ih hrest (hconfig.cfgOk.trans hcfg) (hconfig.hfrUnsupported.trans hver)
    rw [hconfig.chCount] at hlater
    rw [List.map_cons, runCommands, hexec]
    exact hlater

/-! ### A frame that unpacks -/

section Unpacked

variable {s : State} {f : Frame} {c : Cursor} (hcfg : cfgOk s = true) (hframe : frameOk s = true)
  (hver : 0 < hfrGroups s → version s < 0x0300) (hread : readFrame s (frameCursor s) = .ok (f, c))

include hver in
theorem hfrUnsupported_eq_false : hfrUnsupported s = false :=
  decide_eq_false fun ⟨hgroups, hlate⟩ => absurd (hver hgroups) (not_lt.2 hlate)

include hcfg hframe hread in
theorem exec_unpack_of_ok : exec .unpack s = .next (completeOk (storeFrame f c.pos s)) ∧ SameConfig s (storeFrame f c.pos s) := by
  obtain ⟨hexec, -, hplaces⟩ := exec_of_ok rfl ((effectOf_unpack hcfg hframe).trans (unpackBody_of_ok hread))
  exact ⟨hexec, hplaces.sameConfig.of_completeOk⟩

include hcfg hframe hver hread in
/-- When the frame unpacks, DECODE_FRAME goes on if UNPACK set `VALID` (R270). -/
theorem effectOf_decodeFrame_of_ok : effectOf .decodeFrame s
    = (requireValid (storeFrame f c.pos s)).andThen fun t => .ok (decodeStages t) := by
  rw [effectOf, decodeFrameEffect, requireCfg_of_ok s _ hcfg, requireFrame_of_ok s _ hframe,
    requireHfrVersion_of_supported s _ (hfrUnsupported_eq_false hver), unpackBody_of_ok hread, Effect.andThen_ok]

end Unpacked

theorem requireValid_of_valid {s : State} (h : s.status.valid = true) : requireValid s = .ok s := if_pos h

theorem requireValid_of_invalid {s : State} (h : s.status.valid = false) : requireValid s = .error .invalid s.bitPos s := by
  rw [requireValid, h]
  rfl

/-- `VALID` after UNPACK, from what it read (R215). -/
theorem storeFrame_valid_eq (s : State) (f : Frame) (n : Nat) : (storeFrame f n s).status.valid
    = validResult ((frameBits s : Int) - n) (f.side.all fun x => x.dbits == 0) f.noise := by
  rw [storeFrame_status_valid, storeFrame_status_empty]

/-- Settles O59: UNPACK's state is valid, and from there each stage is its command. -/
theorem decodeFrameIsItsStages : Obligations.DecodeFrameIsItsStages := by
  intro s f c hcfg hframe hver hread hvalid
  rw [← storeFrame_valid_eq] at hvalid
  have heffect : effectOf .decodeFrame s = .ok (decodeStages (storeFrame f c.pos s)) := by
    rw [effectOf_decodeFrame_of_ok hcfg hframe hver hread, requireValid_of_valid hvalid, Effect.andThen_ok]
  obtain ⟨hexec, hcompleted, hplaces⟩ := exec_of_ok rfl heffect
  refine ⟨_, hexec, hcompleted, hplaces, ?_⟩
  obtain ⟨hunpack, hconfig⟩ := exec_unpack_of_ok hcfg hframe hread
  rw [runCommands, hunpack, decodeStages_eq_runStages]
  exact runCommands_stages runsStage_of_mem_stageCommands (hconfig.cfgOk.trans hcfg)
    (hconfig.hfrUnsupported.trans (hfrUnsupported_eq_false hver))

/-! ### A frame that fails -/

/-- Settles O60: the signal arrays are none of UNPACK's places; an invalid frame ends in UNPACK's state, with another completion. -/
theorem failedDecodeKeepsSignal : Obligations.FailedDecodeKeepsSignal := by
  refine ⟨fun s t hexec herr ch array i hch hi harray => ?_, fun s f c hcfg hframe hver hread hinvalid => ?_⟩
  · have hother : array ∉ commandArrays .unpack := by rcases harray with rfl | rfl | rfl | rfl | rfl <;> decide
    exact byte_of_error hexec herr _ (writesByte_slotAddr hch hi hother s)
  · rw [← storeFrame_valid_eq] at hinvalid
    obtain ⟨hunpack, -⟩ := exec_unpack_of_ok hcfg hframe hread
    refine ⟨raiseError .invalid (storeFrame f c.pos s).bitPos (storeFrame f c.pos s), _, (exec_next_iff _ s _).2 ?_, hunpack,
      ⟨rfl, rfl, rfl, rfl, rfl, rfl⟩, hinvalid, rfl, rfl, fun r hstatus hinfo => ?_⟩
    · rw [effectOf_decodeFrame_of_ok hcfg hframe hver hread, requireValid_of_invalid hinvalid]
      rfl
    · rw [regValue_raiseError _ _ _ r hstatus hinfo, regValue_completeOk _ r hstatus hinfo]

end Sys2Proof.Machine
end

section
/-! PROOFS. Completion (spec/60_exceptions.md R281, R284): what it leaves of the registers that no command writes, and the errors
each command can end with; a completing step is the pending command's execution. -/

namespace Sys2Proof.Machine

/-! ### Registers that no command writes -/

/-- A command that writes no register but `ERR_INFO` changes RAM alone before it completes, wherever its operands point. -/
theorem effectOf_storesRam {i : Instr} (h : ∀ r, writesReg i r = (r == .errInfo)) (s : State) :
    (effectOf i s).Leaves (StoresWithin (fun _ => true) s) := by
  have hrefl : StoresWithin (fun _ => true) s s := .refl _ s
  cases i with
  | nop => exact hrefl
  | resetOvl ch allCh => exact .forEach _ _ fun c _ _ _ => clearOverlap_storesWithin c fun _ _ => ⟨rfl, rfl⟩
  | decrypt | encrypt => exact leaves_requireFrame hrefl fun _ => (substituteFrame_frame s _).mono fun _ _ => rfl
  | keygen0 | keygen1 | keygen56 => exact absurd (h .keyType) (by decide)
  | crcCalc | crcGen | crcCheck => exact absurd (h .crcValue) (by decide)
  | unpack | decodeFrame => exact absurd (h .bitPos) (by decide)
  | pack dry => exact absurd (h .bitPos) Bool.noConfusion
  | dequant ch allCh =>
    exact leaves_requireCfg hrefl fun _ => leaves_requireChannel hrefl fun _ =>
      .forEach _ _ fun c _ _ _ => dequantChannel_storesWithin c fun _ _ => rfl
  | hfrRecon ch allCh =>
    exact leaves_requireCfg hrefl fun hcfg => leaves_requireChannel hrefl fun hch =>
      leaves_requireHfrVersion hrefl ((hfrBody_frame hcfg hch).mono fun _ _ => rfl)
  | istereo sub allSf =>
    refine leaves_requireCfg hrefl fun hcfg => .forEach _ _ fun c _ _ _ => ?_
    obtain ⟨-, -, htotal, -⟩ := cfgOk_bounds s hcfg
    exact istereoChannel_storesWithin _ c htotal fun _ _ _ _ _ _ => rfl
  | imdct ch allCh sub allSf =>
    exact leaves_requireCfg hrefl fun _ => leaves_requireChannel hrefl fun _ =>
      .forBlocks _ _ _ fun c _ q _ _ _ => imdctBlock_storesWithin c q (fun _ _ _ => rfl) fun _ _ => rfl
  | mdct ch allCh sub allSf =>
    exact leaves_requireCfg hrefl fun _ => leaves_requireChannel hrefl fun _ =>
      .forBlocks _ _ _ fun c _ q _ _ _ => mdctBlock_storesWithin c q (fun _ _ _ => rfl) fun _ _ => rfl
  | pcmOut ch allCh sub allSf =>
    exact leaves_requireCfg hrefl fun _ => leaves_requireChannel hrefl fun _ =>
      .forBlocks _ _ _ fun c _ q _ _ _ => pcmOutBlock_storesWithin c q fun _ _ _ => rfl
  | pcmIn ch allCh sub allSf =>
    exact leaves_requireCfg hrefl fun _ => leaves_requireChannel hrefl fun _ =>
      .forBlocks _ _ _ fun c _ q _ _ _ => pcmInBlock_storesWithin c q fun _ _ _ => rfl

/-- A command with operands that can be out of their fields writes no register but `ERR_INFO`. -/
theorem writesReg_of_not_wellFormed {i : Instr} (h : i.wellFormed = false) (r : Reg) : writesReg i r = (r == .errInfo) := by
  cases i <;> first | rfl | exact absurd h (by simp [Instr.wellFormed])

/-- `CMD` and `CTRL` are as before (spec/10_state.md R23, R33). -/
def KeepsCmdAndCtrl (s t : State) : Prop := t.cmd = s.cmd ∧ t.ctrl = s.ctrl

/-- No command writes `CMD` or `CTRL`. -/
theorem effectOf_keepsCmdAndCtrl (i : Instr) (s : State) : (effectOf i s).Leaves (KeepsCmdAndCtrl s) := by
  cases hwf : i.wellFormed with
  | true =>
    have hcmd : writesReg i .cmd = false := by cases i <;> first | rfl | exact Bool.and_false _
    have hctrl : writesReg i .ctrl = false := by cases i <;> first | rfl | exact Bool.and_false _
    exact (effectOf_frame hwf s).mono fun t ⟨_, hregs, _⟩ =>
      ⟨hregs .cmd (by decide) hcmd, hregs .ctrl (by decide) hctrl⟩
  | false =>
    refine (effectOf_storesRam (writesReg_of_not_wellFormed hwf) s).mono fun t h => ?_
    obtain ⟨m, d, rfl⟩ := h.rest
    exact ⟨rfl, rfl⟩

theorem exec_keepsCmdAndCtrl {i : Instr} {s t : State} (h : exec i s = .next t) : KeepsCmdAndCtrl s t := by
  obtain rfl := (exec_next_iff i s t).1 h
  exact (effectOf_keepsCmdAndCtrl i s).complete (fun _ hs => hs) fun _ _ _ _ hs => hs

/-! ### The errors of each command -/

/-- The errors that a command can end with (spec/30_encoding.md R92; spec/44_bitstream.md R234; spec/46_composite.md R271). -/
def commandErrors : Instr → List ErrCode
  | .nop | .resetOvl _ _ | .keygen0 | .keygen1 | .keygen56 | .crcCalc => []
  | .decrypt | .encrypt | .crcGen | .crcCheck | .istereo _ _ => [.badConfig]
  | .dequant _ _ | .imdct _ _ _ _ | .mdct _ _ _ _ | .pcmOut _ _ _ _ | .pcmIn _ _ _ _ => [.badConfig, .badChannel]
  | .hfrRecon _ _ => [.badConfig, .badChannel, .unsupported]
  | .unpack => [.badConfig, .sync, .sfRange, .intensityRange, .overrun]
  | .pack dry => .badConfig :: .codeRange :: if dry then [] else [.frameFull]
  | .decodeFrame => [.badConfig, .unsupported, .sync, .sfRange, .intensityRange, .overrun, .invalid]

/-- The validity check adds INVALID to the errors of what comes before it (spec/46_composite.md R271). -/
theorem andThen_requireValid_code_cases (e : Effect) :
    (e.andThen requireValid).code = e.code ∨ (e.andThen requireValid).code = .invalid := by
  cases e with
  | ok t =>
    rw [Effect.andThen_ok, requireValid_code]
    split
    · exact .inl rfl
    · exact .inr rfl
  | error code info t => exact .inl rfl

theorem effectOf_code_mem (i : Instr) (s : State) : (effectOf i s).code ∈ ErrCode.none :: commandErrors i := by
  cases i with
  | nop | resetOvl | keygen0 | keygen1 | keygen56 | crcCalc => exact List.mem_cons_self
  | decrypt | encrypt | crcGen | crcCheck =>
    simp only [effectOf, crcGenEffect, crcCheckEffect, requireFrame_code]
    split <;> simp [commandErrors]
  | dequant | hfrRecon | istereo | imdct | mdct | pcmOut | pcmIn =>
    simp only [effectOf, requireCfg_code, requireChannel_code, requireHfrVersion_code]
    split_ifs <;> simp [commandErrors]
  | pack dry =>
    simp only [effectOf, requireCfg_code, requireFrame_code, packBody_code]
    split_ifs <;> simp_all [commandErrors]
  | unpack =>
    simp only [effectOf, requireCfg_code, requireFrame_code]
    split_ifs with hcfg
    · have hunpack := unpackBody_code hcfg
      simp only [List.mem_cons, List.not_mem_nil, or_false, commandErrors] at hunpack ⊢
      tauto
    all_goals simp [commandErrors]
  | decodeFrame =>
    simp only [effectOf, decodeFrameEffect, requireCfg_code, requireFrame_code, requireHfrVersion_code, andThen_ok_code]
    split_ifs with hcfg
    · simp [commandErrors]
    · have hunpack := unpackBody_code hcfg
      rcases andThen_requireValid_code_cases (unpackBody s) with hcode | hcode <;> rw [hcode]
      · simp only [List.mem_cons, List.not_mem_nil, or_false, commandErrors] at hunpack ⊢
        tauto
      · simp [commandErrors]
    all_goals simp [commandErrors]

/-! ### What completion leaves -/

/-- No command runs. -/
def Idle (s : State) : Prop := s.pending = none ∧ s.status.busy = false

theorem complete_idle (e : Effect) : Idle (complete e) := by cases e <;> exact ⟨rfl, rfl⟩

theorem complete_done (e : Effect) : (complete e).status.done = true := by cases e <;> rfl

/-- Without an error completion leaves 0 in `ERR_INFO` and `ERR_CODE` (spec/60_exceptions.md R284; log 20). -/
theorem complete_of_err_eq_false {e : Effect} (h : (complete e).status.err = false) :
    (complete e).errInfo = 0 ∧ (complete e).status.errCode = .none := by
  cases e with
  | ok s => exact ⟨rfl, rfl⟩
  | error code info s => contradiction

/-- Settles O7: completion's own fields, the registers that no command writes, and the error codes command by command. -/
theorem completionProtocol : Obligations.CompletionProtocol := by
  intro i s t h
  obtain ⟨hcmd, hctrl⟩ := exec_keepsCmdAndCtrl h
  obtain rfl := (exec_next_iff i s t).1 h
  obtain ⟨hpending, hbusy⟩ := complete_idle (effectOf i s)
  have hcode := effectOf_code_mem i s
  rw [← errCode_complete] at hcode
  refine ⟨hpending, hbusy, complete_done _, hcmd, hctrl, complete_of_err_eq_false, fun herr => ?_, ?_⟩
  · exact (errCode_complete _).trans_ne (code_ne_none_of_leaves (effectOf_keepsCmdAndCtrl i s) herr)
  · cases i with
    | nop | resetOvl | keygen0 | keygen1 | keygen56 | crcCalc => exact List.mem_singleton.1 hcode
    | pack dry =>
      cases dry with
      | false => simpa [commandErrors, or_assoc] using hcode
      | true => exact .inl hcode
    | _ => exact hcode

/-! ### The completing step -/

/-- Settles O5, from the step's own equation. -/
theorem stepRunsDecodedCommand : Obligations.StepRunsDecodedCommand := fun _ _ _ => step_of_decode?

end Sys2Proof.Machine
end

section
/-! PROOFS. The host's writes of `CMD`, `STATUS` and `CTRL`, idle and while a command runs, and the interrupt output
(spec/60_exceptions.md R284, R287, R289, R290; spec/70_reset_and_hazards.md R311). -/

namespace Sys2Proof.Machine

/-! ### Writes of one register -/

theorem irq_eq (s : State) : irq s = (s.ctrl.getLsbD 0 && s.status.done) := rfl

theorem irq_of_not_done {s : State} (h : s.status.done = false) : irq s = false := by rw [irq_eq, h, Bool.and_false]

/-- A word written to a register's offset is a write of that register. -/
theorem busWrite_of_regAt {offset : Nat} {r : Reg} (hr : regAt offset = some r) (s : State) (v : Word) :
    busWrite s offset 4 v = .ok (writeReg offset v s) := by
  obtain ⟨hoffset, hlegal⟩ := accessLegal_of_regAt hr
  simp [busWrite, hlegal, hoffset]

theorem busWrite_cmd_of_idle {s : State} (hbusy : s.status.busy = false) (w : Word) :
    busWrite s 0x000C 4 w = .ok (accept w s) := by
  rw [busWrite_of_regAt (r := .cmd) rfl]
  exact congrArg Except.ok (if_neg (by simp [hbusy]))

theorem busWrite_status (s : State) (v : Word) :
    busWrite s 0x0008 4 v = .ok { s with status := statusWriteOneToClear s.status v } := busWrite_of_regAt rfl s v

/-- A 1 written to `SOFT_RESET` resets, whatever else the write says (spec/10_state.md R23; log 17). -/
theorem busWrite_ctrl_reset {v : Word} (hv : v.getLsbD 1 = true) (s : State) : busWrite s 0x0004 4 v = .ok s.resetAgain := by
  rw [busWrite_of_regAt (r := .ctrl) rfl]
  exact congrArg Except.ok (if_pos hv)

theorem busWrite_ctrl_irqEnable {v : Word} (hv : v.getLsbD 1 = false) (s : State) :
    busWrite s 0x0004 4 v = .ok { s with ctrl := v &&& 1 } := by
  rw [busWrite_of_regAt (r := .ctrl) rfl]
  exact congrArg Except.ok (if_neg fun h => Bool.noConfusion (hv.symm.trans h))

/-- Settles O20: acceptance writes `CMD`, `STATUS` and the engine's own state. -/
theorem commandAcceptance : Obligations.CommandAcceptance := fun s w hbusy =>
  ⟨accept w s, busWrite_cmd_of_idle hbusy w, rfl, rfl, rfl, rfl, rfl, rfl, ⟨rfl, rfl, rfl, rfl⟩, rfl, rfl,
    fun r hstatus hcmd => regValue_accept w s r hstatus hcmd⟩

/-- Settles O24: the write's state is the one that the hardware reset leaves. -/
theorem softReset : Obligations.SoftReset := fun s _ hv =>
  ⟨s.resetAgain, busWrite_ctrl_reset hv s, rfl, rfl, rfl, rfl, irq_of_not_done rfl⟩

/-! ### Writes while a command runs -/

theorem regAt_eq_status {offset : Nat} (h : regAt offset = some .status) : offset = 0x0008 := by
  unfold regAt at h
  split at h <;> first | rfl | simp at h

/-- While a command runs a register write that is not of `CTRL` or `STATUS` only sets `CONFLICT` (spec/60_exceptions.md R289,
R290; log 16). -/
theorem writeReg_of_busy {s : State} (hbusy : s.status.busy = true) {offset : Nat} (hctrl : offset ≠ 0x0004)
    (hstatus : offset ≠ 0x0008) (v : Word) : writeReg offset v s = setConflict s := by
  rcases writeReg_cases offset v s with ⟨-, hidle, -⟩ | ⟨-, e⟩ | ⟨hr, -⟩ | ⟨hr, -⟩ | ⟨-, e⟩ | ⟨-, -, hidle, -⟩
  · simp [hbusy] at hidle
  · rw [e, writeCmd, if_pos hbusy]
  · exact absurd (regAt_eq_ctrl hr) hctrl
  · exact absurd (regAt_eq_status hr) hstatus
  · exact e
  · simp [hbusy] at hidle

theorem writeRam_of_busy {s : State} (hbusy : s.status.busy = true) (offset n : Nat) (v : Word) :
    writeRam offset n v s = setConflict s := if_pos hbusy

theorem busWrite_of_busy {s : State} (hbusy : s.status.busy = true) {offset n : Nat} (hlegal : accessLegal offset n = true)
    (hctrl : offset ≠ 0x0004) (hstatus : offset ≠ 0x0008) (v : Word) : busWrite s offset n v = .ok (setConflict s) := by
  rcases busWrite_cases s offset n v with ⟨-, -, e⟩ | ⟨-, -, e⟩ | ⟨hillegal, -⟩
  · rw [e, writeReg_of_busy hbusy hctrl hstatus]
  · rw [e, writeRam_of_busy hbusy]
  · simp [hlegal] at hillegal

/-- Settles O21, from what each register's write does while a command runs. -/
theorem busyWritesRefused : Obligations.BusyWritesRefused := fun s hbusy =>
  ⟨fun w => busWrite_of_busy hbusy (by decide) (by decide) (by decide) w,
    fun _ _ v hlegal hctrl hstatus => busWrite_of_busy hbusy hlegal hctrl hstatus v,
    busWrite_status s, fun _ hv => busWrite_ctrl_irqEnable hv s⟩

/-! ### The interrupt output -/


/-- A completion leaves the interrupt at `IRQ_EN`, with or without an error (spec/60_exceptions.md R287). -/
theorem irq_of_completion {i : Instr} {s t : State} (h : exec i s = .next t) : irq t = s.ctrl.getLsbD 0 := by
  obtain ⟨-, -, hdone, -, hctrl, -⟩ := completionProtocol i s t h
  rw [irq_eq, hdone, hctrl, Bool.and_true]

/-- A write of `CTRL` leaves the interrupt at what it wrote to `IRQ_EN`, when the command is done and the write resets nothing. -/
theorem irq_of_busWrite_ctrl {s t : State} {v : Word} (h : busWrite s 0x0004 4 v = .ok t) :
    irq t = (v.getLsbD 0 && !v.getLsbD 1 && s.status.done) := by
  cases hv : v.getLsbD 1 with
  | true =>
    obtain rfl := Except.ok.inj ((busWrite_ctrl_reset hv s).symm.trans h)
    simp [irq_eq]
  | false =>
    obtain rfl := Except.ok.inj ((busWrite_ctrl_irqEnable hv s).symm.trans h)
    simp [irq_eq]

/-- Settles O23, cause by cause. -/
theorem interruptOutput : Obligations.InterruptOutput := by
  refine ⟨irq_eq, fun _ _ _ => irq_of_completion, fun s t w hbusy h => ?_, fun s t v h => ?_,
    fun _ _ _ => irq_of_busWrite_ctrl, fun s => irq_of_not_done rfl, fun s => rfl⟩
  · obtain rfl := Except.ok.inj ((busWrite_cmd_of_idle hbusy w).symm.trans h)
    exact irq_of_not_done rfl
  · obtain rfl := Except.ok.inj ((busWrite_status s v).symm.trans h)
    exact (Bool.and_assoc _ _ _).symm

end Sys2Proof.Machine
end

section
/-! PROOFS. Every running command ends (spec/70_reset_and_hazards.md R327, R293): each host operation that lands while it runs
uses up one of the queue and one of the accesses that may land, and leaves the command running unless it resets the machine (log 2). -/

namespace Sys2Proof.Machine

/-! ### A host operation while a command runs -/

/-- From `s` to `t` the pending command, its `BUSY`, the queue and the count of accesses are the same. -/
def SameRun (s t : State) : Prop :=
  t.pending = s.pending ∧ t.status.busy = s.status.busy ∧ t.inbox = s.inbox ∧ t.busyFor = s.busyFor

theorem SameRun.refl (s : State) : SameRun s s := ⟨rfl, rfl, rfl, rfl⟩

theorem setConflict_sameRun (s : State) : SameRun s (setConflict s) := ⟨rfl, rfl, rfl, rfl⟩

theorem respond_sameRun (b : BusResponse) (s : State) : SameRun s (respond b s) := ⟨rfl, rfl, rfl, rfl⟩

theorem writeReg_sameRun_or_idle {s : State} (hbusy : s.status.busy = true) (offset : Nat) (v : Word) :
    SameRun s (writeReg offset v s) ∨ Idle (writeReg offset v s) := by
  rcases writeReg_cases offset v s with ⟨-, -, e⟩ | ⟨-, e⟩ | ⟨-, e⟩ | ⟨-, e⟩ | ⟨-, e⟩ | ⟨-, -, hidle, -⟩
  · exact .inl (e.symm ▸ .refl s)
  · rw [e, writeCmd, if_pos hbusy]
    exact .inl (setConflict_sameRun s)
  · rw [e]
    unfold writeCtrl
    dsimp only
    split
    · exact .inr ⟨rfl, rfl⟩
    · exact .inl ⟨rfl, rfl, rfl, rfl⟩
  · rw [e]
    exact .inl ⟨rfl, rfl, rfl, rfl⟩
  · exact .inl (e.symm ▸ setConflict_sameRun s)
  · simp [hbusy] at hidle

/-- While a command runs a host operation leaves it running, or a reset abandons it (spec/60_exceptions.md R293). -/
theorem hostOp_sameRun_or_idle {s : State} (hbusy : s.status.busy = true) (op : HostOp) :
    SameRun s (hostOp op s) ∨ Idle (hostOp op s) := by
  cases op with
  | read offset n =>
    obtain ⟨b, e⟩ := hostOp_read offset n s
    exact .inl (e.symm ▸ respond_sameRun b s)
  | write offset n v =>
    rcases busWrite_cases s offset n v with ⟨-, -, e⟩ | ⟨-, -, e⟩ | ⟨-, e⟩ <;> simp only [hostOp, e]
    · exact writeReg_sameRun_or_idle hbusy offset v
    · rw [writeRam_of_busy hbusy]
      exact .inl (setConflict_sameRun s)
    · exact .inl (respond_sameRun .fault s)
  | wait => exact .inl (.refl s)
  | hardReset => exact .inr ⟨rfl, rfl⟩

/-! ### Steps of a run -/

theorem run_succ_of_step {s t : State} (h : step s = .next t) (n : Nat) :
    Sys2Proof.core.run (n + 1) s = Sys2Proof.core.run n t := by
  have hcore : Sys2Proof.core.step s = .next t := h
  simp only [Host.Core.run, hcore]

theorem run_one_of_step {s t : State} (h : step s = .next t) : Sys2Proof.core.run 1 s = .next t := run_succ_of_step h 0

/-- The step in which a command completes ends its run, be its word a command or not. -/
theorem step_of_completesNow {s : State} {w : Word} (hpending : s.pending = some w) (hnow : completesNow s = true) :
    ∃ t, step s = .next t ∧ Idle t := by
  rcases step_cases s with ⟨-, hidle | hlater⟩ | ⟨_, i, -, -, -, hstep⟩ | ⟨_, -, -, -, hstep⟩
  · simp [hidle] at hpending
  · simp [hlater] at hnow
  · exact ⟨_, hstep.trans (exec_eq_finish_effectOf i s), complete_idle _⟩
  · exact ⟨_, hstep, rfl, rfl⟩

/-- While a command runs on, the host has an operation left and an access left to make. -/
theorem inbox_of_completesNow_eq_false {s : State} (h : completesNow s = false) :
    ∃ op rest, s.inbox = op :: rest ∧ s.busyFor ≠ 0 := by
  unfold completesNow at h
  split at h
  · contradiction
  · contradiction
  · next hwait hempty =>
    cases hinbox : s.inbox with
    | nil => contradiction
    | cons op rest => exact ⟨op, rest, rfl, by simpa using h⟩

/-- Settles O6, by induction on the host operations still queued. -/
theorem everyCommandEnds : Obligations.EveryCommandEnds := by
  intro s w hpending hbusy
  induction hinbox : s.inbox generalizing s with
  | nil =>
    obtain ⟨t, hstep, hidle⟩ := step_of_completesNow hpending (by simp [completesNow, hinbox])
    exact ⟨1, t, Nat.le_refl _, Nat.le_add_left _ _, run_one_of_step hstep, hidle⟩
  | cons op rest ih =>
    cases hnow : completesNow s with
    | true =>
      obtain ⟨t, hstep, hidle⟩ := step_of_completesNow hpending hnow
      exact ⟨1, t, Nat.le_add_left _ _, Nat.le_add_left _ _, run_one_of_step hstep, hidle⟩
    | false =>
      have hstep : step s = .next (hostOp op { s with inbox := rest, busyFor := s.busyFor - 1 }) := by
        simp [step, hpending, hnow, hostStep, hinbox]
      obtain ⟨-, -, -, hleft⟩ := inbox_of_completesNow_eq_false hnow
      rcases hostOp_sameRun_or_idle (s := { s with inbox := rest, busyFor := s.busyFor - 1 }) hbusy op with
        ⟨hsame, hrunning, hqueue, hcount⟩ | hidle
      · obtain ⟨n, t, hops, haccesses, hrun, hidle⟩ := ih _ (hsame.trans hpending) (hrunning.trans hbusy) hqueue
        have hcount : (hostOp op { s with inbox := rest, busyFor := s.busyFor - 1 }).busyFor = s.busyFor - 1 := hcount
        exact ⟨n + 1, t, Nat.succ_le_succ hops, by omega, (run_succ_of_step hstep n).trans hrun, hidle⟩
      · exact ⟨1, _, Nat.le_add_left _ _, Nat.le_add_left _ _, run_one_of_step hstep, hidle⟩

end Sys2Proof.Machine
end

section
/-! PROOFS. Reset (spec/70_reset_and_hazards.md R310, R313): what it leaves in the registers and at each place of the RAM, and what
the commands do then. -/

namespace Sys2Proof.Machine

/-! ### RAM that nothing has written since a reset -/

/-- Where the spec gives the reset contents, an unlisted byte has them (R310). -/
theorem byte_of_mem_nil {t : State} (hmem : t.mem = []) {a : Nat} {v : Byte} (h : resetByte? a = some v) : t.byte a = v := by
  simp [State.byte, Memory.byteAt, unlistedByte, hmem, h]

/-- An element is told by its four bytes (spec/20_memory.md R74). -/
theorem wordAt_of_bytes {t : State} {a : Nat} {w : Word} (h : ∀ j, j < 4 → t.byte (a + j) = w.extractLsb' (8 * j) 8) :
    t.wordAt a = w := by
  rw [State.wordAt, h 3 (by decide), h 2 (by decide), h 1 (by decide), show t.byte a = _ from h 0 (by decide)]
  exact List.head_eq_of_cons_eq (bytesToWords_flatMap [w])

/-- The bytes of a table's image are the image's words (spec/20_memory.md R74). -/
theorem wordAt_of_tableBytes {t : State} {table : Nat → Word} {base i : Nat}
    (h : ∀ j, j < 4 → t.byte (base + 4 * i + j) = tableByte table (4 * i + j)) : t.wordAt (base + 4 * i) = table i := by
  refine wordAt_of_bytes fun j hj => ?_
  rw [h j hj, tableByte, show (4 * i + j) / 4 = i by omega, show (4 * i + j) % 4 = j by omega]

theorem regionOf_intRatio {i : Nat} (h : i < 0x40) : regionOf (intRatioBase + i) = .intRatio i := by
  have heq : intRatioBase + i = 0x20600 + i := rfl
  generalize intRatioBase + i = a at heq
  unfold regionOf
  rw [if_neg (by omega), if_neg (by omega), if_pos (by omega), if_neg (by omega), if_neg (by omega), if_neg (by omega),
    if_neg (by omega), if_neg (by omega), if_neg (by omega), if_neg (by omega), if_neg (by omega), if_pos (by omega),
    show a - 0x20600 = i by omega]

theorem regionOf_hfrRatio {i : Nat} (h : i < 0x200) : regionOf (hfrRatioBase + i) = .hfrRatio i := by
  have heq : hfrRatioBase + i = 0x20800 + i := rfl
  generalize hfrRatioBase + i = a at heq
  unfold regionOf
  rw [if_neg (by omega), if_neg (by omega), if_pos (by omega), if_neg (by omega), if_neg (by omega), if_neg (by omega),
    if_neg (by omega), if_neg (by omega), if_neg (by omega), if_neg (by omega), if_neg (by omega), if_neg (by omega),
    if_neg (by omega), if_pos (by omega), show a - 0x20800 = i by omega]

section Unwritten

variable {t : State} (hmem : t.mem = [])

include hmem

theorem keyTables_of_mem_nil {i : Nat} (hi : i < 256) : t.decAt i = i ∧ t.encAt i = i := by
  have hdec : t.byte (keyDecBase + i) = BitVec.ofNat 8 i :=
    byte_of_mem_nil hmem (by simp only [resetByte?, regionOf_keyDec i hi])
  have henc : t.byte (keyEncBase + i) = BitVec.ofNat 8 i :=
    byte_of_mem_nil hmem (by simp only [resetByte?, regionOf_keyEnc i hi])
  simp [State.decAt, State.encAt, State.numAt, hdec, henc, hi]

theorem deqScale_of_mem_nil {i : Nat} (hi : i < 64) : t.wordAt (0x20400 + 4 * i) = deqScale i :=
  wordAt_of_tableBytes fun j hj => byte_of_mem_nil hmem (by
    rw [resetByte?, regionOf_deqScale (by omega) (by omega), show 0x20400 + 4 * i + j - 0x20400 = 4 * i + j by omega])

theorem deqRange_of_mem_nil {i : Nat} (hi : i < 16) : t.wordAt (0x20500 + 4 * i) = deqRange i :=
  wordAt_of_tableBytes fun j hj => byte_of_mem_nil hmem (by
    rw [resetByte?, regionOf_deqRange (by omega) (by omega), show 0x20500 + 4 * i + j - 0x20500 = 4 * i + j by omega])

theorem win_of_mem_nil {i : Nat} (hi : i < 256) : t.wordAt (winBase + 4 * i) = winInit i :=
  wordAt_of_tableBytes fun j hj => byte_of_mem_nil hmem (by rw [resetByte?, Nat.add_assoc, regionOf_win (by omega)])

theorem intRatio_of_mem_nil {i : Nat} (hi : i < 16) : t.wordAt (intRatioBase + 4 * i) = intRatioInit i :=
  wordAt_of_tableBytes fun j hj => byte_of_mem_nil hmem (by rw [resetByte?, Nat.add_assoc, regionOf_intRatio (by omega)])

theorem hfrRatio_of_mem_nil {i : Nat} (hi : i < 128) : t.wordAt (hfrRatioBase + 4 * i) = hfrRatioInit i :=
  wordAt_of_tableBytes fun j hj => byte_of_mem_nil hmem (by rw [resetByte?, Nat.add_assoc, regionOf_hfrRatio (by omega)])

theorem resCurve_of_mem_nil {i : Nat} (hi : i < 59) : t.byte (resCurveBase + i) = (Config.resCurveInit i).setWidth 8 := by
  simp [State.byte, Memory.byteAt, unlistedByte, hmem, resetByte?, openResetByte, regionOf_resCurve hi]

theorem overlapCleared_of_mem_nil {ch : Nat} (hch : ch < 16) : OverlapCleared ch t := fun n hn => by
  have hzero : ∀ j, (0 : Word).extractLsb' (8 * j) 8 = 0 := fun j => BitVec.extractLsb'_zero
  constructor <;> refine wordAt_of_bytes fun j hj => (byte_of_mem_nil hmem ?_).trans (hzero j).symm
  · rw [slotAddr_add, resetByte?, regionOf_slotAddr ch .imdctCarry _ hch (by simp only [slotArrayBytes]; omega)]
  · rw [slotAddr_add, resetByte?, regionOf_slotAddr ch .mdctPrev _ hch (by simp only [slotArrayBytes]; omega)]

theorem byte_masked_of_mem_nil {a : Nat} (ha : cellMask a ≠ 0) : t.byte a &&& cellMask a = t.byte a :=
  State.byte_masked t a (by rw [hmem]; exact reset_mem_wf) ha

end Unwritten

/-! ### The state after a reset -/

theorem regValue_reset (r : Reg) :
    regValue State.reset r = if r = .id then 0x48434507 else if r = .cfgRes then 0x000000F0 else 0 := by
  cases r <;> decide +kernel

theorem regValue_resetAgain (s : State) (r : Reg) : regValue s.resetAgain r = regValue State.reset r := by cases r <;> rfl

/-- Settles O25, for the reset state and every reset: the registers one by one, and the unwritten RAM. -/
theorem hardwareReset : Obligations.HardwareReset := by
  intro s t h
  have hmem : t.mem = [] := by rcases h with rfl | rfl <;> rfl
  have hregs : ∀ r, regValue t r = regValue State.reset r := by
    rcases h with rfl | rfl
    · exact regValue_resetAgain s
    · exact fun _ => rfl
  have hpending : t.pending = none := by rcases h with rfl | rfl <;> rfl
  have hdone : t.status.done = false := by rcases h with rfl | rfl <;> rfl
  exact ⟨fun r => (hregs r).trans (regValue_reset r), hpending, irq_of_not_done hdone, fun _ => keyTables_of_mem_nil hmem,
    fun _ => deqScale_of_mem_nil hmem, fun _ => deqRange_of_mem_nil hmem, fun _ => resCurve_of_mem_nil hmem,
    fun _ => win_of_mem_nil hmem, fun _ => intRatio_of_mem_nil hmem, fun _ => hfrRatio_of_mem_nil hmem,
    fun _ n hch hn => overlapCleared_of_mem_nil hmem hch n hn, fun _ => byte_masked_of_mem_nil hmem⟩

theorem reset_keyTablesInverse : KeyTablesInverse State.reset := (keyTablesInverse_iff _).2 fun i hi => by
  obtain ⟨hdec, henc⟩ := keyTables_of_mem_nil (t := State.reset) rfl hi
  simp only [hdec, henc, and_self]

/-- Settles O15, invariant by invariant. -/
theorem invariantsAtReset : Obligations.InvariantsAtReset :=
  ⟨reset_mem_wf, reset_registersInFields, reset_keyTablesInverse, .inl rfl, rfl, fun h => Bool.noConfusion h,
    iff_of_true rfl rfl⟩

/-! ### Commands after a reset -/

theorem resetAgain_sameConfig (s : State) : SameConfig State.reset s.resetAgain := ⟨rfl, rfl, rfl, rfl, rfl⟩

/-- Settles O26: with neither check holding, a command ends with BAD_CONFIG unless it requires neither. -/
theorem commandsAfterReset : Obligations.CommandsAfterReset := by
  intro s h
  have hconfig : SameConfig State.reset s := by
    rcases h with rfl | ⟨u, rfl⟩
    · exact ⟨rfl, rfl, rfl, rfl, rfl⟩
    · exact resetAgain_sameConfig u
  have hcfg : cfgOk s = false := hconfig.cfgOk.trans (by decide +kernel)
  have hframe : frameOk s = false := hconfig.frameOk.trans (by decide +kernel)
  refine ⟨hconfig.chCount, hconfig.frameBytes, hcfg, hframe, fun i => ⟨_, exec_eq_finish_effectOf i s, ?_⟩⟩
  rw [errCode_complete]
  cases i with
  | nop | resetOvl | keygen0 | keygen1 | keygen56 | crcCalc => rfl
  | decrypt | encrypt | crcGen | crcCheck => rw [effectOf_of_badConfig (.inr ⟨rfl, hframe⟩), Effect.code]
  | _ => rw [effectOf_of_badConfig (.inl ⟨rfl, hcfg⟩), Effect.code]

end Sys2Proof.Machine
end

section
/-! PROOFS. Channels do not interact (spec/43_transform.md R192, R193; spec/60_exceptions.md R294; log 24): two states that agree
outside a slot go on agreeing there, because no stage of a command on another channel reads the slot. -/

namespace Sys2Proof.Machine

/-! ### Agreement outside a slot -/

/-- The offset lies outside slot `d` (spec/10_state.md R50). -/
def OutsideSlot (d a : Nat) : Prop := ¬(slotAddr d .sf 0 ≤ a ∧ a < slotAddr d .sf 0 + 0x4000)

theorem outsideSlot_of_lt {d a : Nat} (h : a < 0x40000) : OutsideSlot d a := by
  simp only [OutsideSlot, slotAddr]
  omega

theorem outsideSlot_slotAddr {ch d i : Nat} {array : SlotArray} (hne : ch ≠ d) (hi : slotArrayOffset array + i < 0x4000) :
    OutsideSlot d (slotAddr ch array i) := by
  simp only [OutsideSlot, slotAddr, show slotArrayOffset .sf = 0 from rfl]
  omega

/-- The states differ at most in what the RAM holds in slot `d`. -/
structure AgreeOutsideSlot (d : Nat) (s u : State) : Prop where
  rest : u = { s with mem := u.mem }
  bytes : ∀ a, OutsideSlot d a → u.byte a = s.byte a

namespace AgreeOutsideSlot

variable {d : Nat} {s u : State}

section Reads

variable (h : AgreeOutsideSlot d s u)

include h

theorem sameConfig : SameConfig s u := by
  rw [h.rest]
  exact ⟨rfl, rfl, rfl, rfl, rfl⟩

theorem epoch : u.epoch = s.epoch := by rw [h.rest]

theorem arith : u.arith = s.arith := by rw [h.rest]

/-- Both states draw the same free values (log 24). -/
theorem free : u.free = s.free := by
  rw [h.rest]
  rfl

theorem bytes_eq {base n : Nat} (hplace : ∀ j, j < n → OutsideSlot d (base + j)) : u.bytes base n = s.bytes base n := by
  rw [State.bytes_eq_map, State.bytes_eq_map]
  exact List.map_congr_left fun j hj => h.bytes _ (hplace j (List.mem_range.1 hj))

/-- What lies below the slots reads alike. -/
theorem words_below {base n : Nat} (hplace : base + 4 * n ≤ 0x40000) : u.words base n = s.words base n :=
  congrArg bytesToWords (h.bytes_eq fun j hj => outsideSlot_of_lt (by omega))

/-- What lies in another slot reads alike. -/
theorem bytes_slot {ch i n : Nat} {array : SlotArray} (hne : ch ≠ d) (hplace : slotArrayOffset array + i + n ≤ 0x4000) :
    u.bytes (slotAddr ch array i) n = s.bytes (slotAddr ch array i) n :=
  h.bytes_eq fun j hj => by
    rw [slotAddr_add]
    exact outsideSlot_slotAddr hne (by omega)

theorem words_slot {ch i n : Nat} {array : SlotArray} (hne : ch ≠ d) (hplace : slotArrayOffset array + i + 4 * n ≤ 0x4000) :
    u.words (slotAddr ch array i) n = s.words (slotAddr ch array i) n := congrArg bytesToWords (h.bytes_slot hne hplace)

theorem halves_slot {ch i n : Nat} {array : SlotArray} (hne : ch ≠ d) (hplace : slotArrayOffset array + i + 2 * n ≤ 0x4000) :
    u.halves (slotAddr ch array i) n = s.halves (slotAddr ch array i) n := congrArg bytesToHalves (h.bytes_slot hne hplace)

theorem nums_slot {ch i n : Nat} {array : SlotArray} (hne : ch ≠ d) (hplace : slotArrayOffset array + i + n ≤ 0x4000) :
    u.nums (slotAddr ch array i) n = s.nums (slotAddr ch array i) n :=
  congrArg (List.map BitVec.toNat) (h.bytes_slot hne hplace)

end Reads

/-! ### The same changes of both states -/

/-- A store of the same bytes leaves the same there, whatever was there before. -/
theorem putBytes (h : AgreeOutsideSlot d s u) (base : Nat) (bs : List Byte) :
    AgreeOutsideSlot d (s.putBytes base bs) (u.putBytes base bs) where
  rest := by rw [h.rest]; rfl
  bytes a ha := by
    by_cases hin : base ≤ a ∧ a < base + bs.length
    · obtain ⟨i, rfl⟩ := Nat.exists_eq_add_of_le hin.1
      rw [State.byte_putBytes_inside _ _ _ _ (by omega), State.byte_putBytes_inside _ _ _ _ (by omega), h.epoch]
    · rw [State.byte_putBytes_outside _ _ _ _ (by omega), State.byte_putBytes_outside _ _ _ _ (by omega), h.bytes a ha]

theorem putWords (h : AgreeOutsideSlot d s u) (base : Nat) (ws : List Word) :
    AgreeOutsideSlot d (s.putWords base ws) (u.putWords base ws) := h.putBytes base _

theorem putHalves (h : AgreeOutsideSlot d s u) (base : Nat) (xs : List Half) :
    AgreeOutsideSlot d (s.putHalves base xs) (u.putHalves base xs) := h.putBytes base _

theorem tick (h : AgreeOutsideSlot d s u) : AgreeOutsideSlot d s.tick u.tick where
  rest := by rw [h.rest]; rfl
  bytes := h.bytes

theorem completeOk (h : AgreeOutsideSlot d s u) : AgreeOutsideSlot d (completeOk s) (completeOk u) where
  rest := by rw [h.rest]; rfl
  bytes := h.bytes

theorem raiseError (h : AgreeOutsideSlot d s u) (code : ErrCode) (info : Word) :
    AgreeOutsideSlot d (raiseError code info s) (raiseError code info u) where
  rest := by rw [h.rest]; rfl
  bytes := h.bytes

end AgreeOutsideSlot

/-- A stage that keeps agreement, whatever the two states are. -/
def KeepsAgreement (d : Nat) (f : State → State) : Prop :=
  ∀ s u, AgreeOutsideSlot d s u → AgreeOutsideSlot d (f s) (f u)

theorem forEach_keepsAgreement {d : Nat} {xs : List Nat} {f : Nat → State → State} (h : ∀ x ∈ xs, KeepsAgreement d (f x)) :
    KeepsAgreement d (forEach xs f) := by
  induction xs with
  | nil => exact fun _ _ hagree => hagree
  | cons x xs ih =>
    exact fun s u hagree => ih (fun y hy => h y (List.mem_cons_of_mem x hy)) _ _ (h x List.mem_cons_self s u hagree)

theorem forBlocks_keepsAgreement {d : Nat} {block : Nat → Nat → State → State} {chans subs : List Nat}
    (h : ∀ c ∈ chans, ∀ q ∈ subs, KeepsAgreement d (block c q)) : KeepsAgreement d (forBlocks block chans subs) :=
  forEach_keepsAgreement fun c hc => forEach_keepsAgreement fun q hq => h c hc q hq

/-! ### The stages -/

section Stages

variable {ch d : Nat} (hne : ch ≠ d)

include hne

theorem imdctBlock_keepsAgreement {sub : Nat} (hsub : sub < 8) : KeepsAgreement d (imdctBlock ch sub) := fun s u h => by
  simp only [imdctBlock, specRowAddr, h.arith, h.free, h.words_below (base := winBase) (n := 256) (by decide),
    h.words_slot (array := .spec) (i := 512 * sub) (n := 128) hne (by simp only [slotArrayOffset]; omega),
    h.words_slot (array := .imdctCarry) (i := 0) (n := 128) hne (by decide)]
  exact ((h.putWords _ _).putWords _ _).tick

theorem mdctBlock_keepsAgreement {sub : Nat} (hsub : sub < 8) : KeepsAgreement d (mdctBlock ch sub) := fun s u h => by
  simp only [mdctBlock, tbufAddr, h.arith, h.free, h.words_below (base := winBase) (n := 256) (by decide),
    h.words_slot (array := .tbuf) (i := 512 * sub) (n := 128) hne (by simp only [slotArrayOffset]; omega),
    h.words_slot (array := .mdctPrev) (i := 0) (n := 128) hne (by decide)]
  exact ((h.putWords _ _).putWords _ _).tick

theorem pcmOutBlock_keepsAgreement {sub : Nat} (hsub : sub < 8) : KeepsAgreement d (pcmOutBlock ch sub) := fun s u h => by
  simp only [pcmOutBlock, tbufAddr, h.free,
    h.words_slot (array := .tbuf) (i := 512 * sub) (n := 128) hne (by simp only [slotArrayOffset]; omega)]
  exact (h.putHalves _ _).tick

theorem pcmInBlock_keepsAgreement {sub : Nat} (hsub : sub < 8) : KeepsAgreement d (pcmInBlock ch sub) := fun s u h => by
  simp only [pcmInBlock, pcmAddr,
    h.halves_slot (array := .pcm) (i := 256 * sub) (n := 128) hne (by simp only [slotArrayOffset]; omega)]
  exact h.putWords _ _

theorem dequantRow_of_agree {s u : State} (h : AgreeOutsideSlot d s u) {sub : Nat} (hsub : sub < 8) (factors : List Word) :
    dequantRow u ch sub factors = dequantRow s ch sub factors := by
  simp only [dequantRow, h.free,
    h.halves_slot (array := .qspec) (i := 256 * sub) (n := 128) hne (by simp only [slotArrayOffset]; omega)]

theorem dequantChannel_keepsAgreement : KeepsAgreement d (dequantChannel ch) := fun s u h => by
  have hfactors : dequantFactors u ch = dequantFactors s ch := by
    simp only [dequantFactors, h.nums_slot (array := .sf) (i := 0) (n := 128) hne (by decide),
      h.nums_slot (array := .res) (i := 0) (n := 128) hne (by decide)]
  have hrows : (List.range 8).flatMap (fun sub => dequantRow u ch sub (dequantFactors u ch))
      = (List.range 8).flatMap (fun sub => dequantRow s ch sub (dequantFactors s ch)) := by
    rw [hfactors]
    exact List.flatMap_congr fun sub hsub => dequantRow_of_agree hne h (List.mem_range.1 hsub) _
  simp only [dequantChannel, hrows]
  exact (h.putWords _ _).tick

/-- The ratios read the slot's scale codes and scale factors, and the ratio table. -/
theorem hfrRatioOf_of_agree {s u : State} (h : AgreeOutsideSlot d s u) : hfrRatioOf u ch = hfrRatioOf s ch := by
  funext j
  simp only [hfrRatioOf, h.sameConfig.baseBands, h.sameConfig.stereoBands, h.sameConfig.bandsPerGroup,
    h.words_below (base := hfrRatioBase) (n := 128) (by decide), h.nums_slot (array := .hfrScale) (i := 0) (n := 8) hne (by decide),
    h.nums_slot (array := .sf) (i := 0) (n := 128) hne (by decide)]

theorem hfrSubframe_keepsAgreement (ratios : List Word) {sub : Nat} (hsub : sub < 8) :
    KeepsAgreement d (hfrSubframe ch ratios sub) := fun s u h => by
  have hbase : baseBands s < 2 ^ 8 := field_lt _ _ _
  have hstereo : stereoBands s < 2 ^ 8 := field_lt _ _ _
  simp only [hfrSubframe, specAddr, h.free, h.sameConfig.baseBands, h.sameConfig.stereoBands, hfrSteps_congr h.sameConfig,
    h.words_slot (array := .spec) (i := 4 * (128 * sub + 0)) (n := baseBands s + stereoBands s) hne
      (by simp only [slotArrayOffset]; omega)]
  exact (h.putWords _ _).putWords _ _

theorem hfrChannel_keepsAgreement : KeepsAgreement d (hfrChannel ch) := fun s u h => by
  simp only [hfrChannel, h.sameConfig.role, hfrSteps_congr h.sameConfig, hfrRatioOf_of_agree hne h]
  split
  · exact h
  · exact (forEach_keepsAgreement
      (fun sub hsub => hfrSubframe_keepsAgreement hne _ (List.mem_range.1 hsub)) s u h).tick

end Stages

/-! ### Effects -/

/-- The effects end alike, in states that agree outside slot `d`. -/
def Effect.Agree (d : Nat) : Effect → Effect → Prop
  | .ok s, .ok u => AgreeOutsideSlot d s u
  | .error code info s, .error code' info' u => code = code' ∧ info = info' ∧ AgreeOutsideSlot d s u
  | _, _ => False

theorem AgreeOutsideSlot.ok {d : Nat} {s u : State} (h : AgreeOutsideSlot d s u) : (Effect.ok s).Agree d (.ok u) := h

theorem Effect.Agree.complete {d : Nat} {e k : Effect} (h : e.Agree d k) : AgreeOutsideSlot d (complete e) (complete k) := by
  cases e <;> cases k
  case ok.ok s u => exact AgreeOutsideSlot.completeOk h
  case error.error code info s code' info' u =>
    obtain ⟨rfl, rfl, hagree⟩ := h
    exact hagree.raiseError code info
  all_goals exact h.elim

section Checks

variable {d : Nat} {s u : State} {e k : Effect} (h : AgreeOutsideSlot d s u) (hk : e.Agree d k)

include h hk

theorem agree_requireCfg : (requireCfg s e).Agree d (requireCfg u k) := by
  unfold requireCfg
  rw [h.sameConfig.cfgOk]
  split
  · exact hk
  · exact ⟨rfl, rfl, h⟩

theorem agree_requireChannel (ch : Nat) (allCh : Bool) : (requireChannel s ch allCh e).Agree d (requireChannel u ch allCh k) := by
  unfold requireChannel
  rw [badChannel, badChannel, h.sameConfig.chCount]
  split
  · exact ⟨rfl, rfl, h⟩
  · exact hk

theorem agree_requireHfrVersion : (requireHfrVersion s e).Agree d (requireHfrVersion u k) := by
  unfold requireHfrVersion
  rw [h.sameConfig.hfrUnsupported]
  split
  · exact ⟨rfl, rfl, h⟩
  · exact hk

end Checks

/-- The commands on one channel that the statement is about (spec/43_transform.md R192, R193). -/
def channelCommands (ch sub : Nat) (allSf : Bool) : List Instr :=
  [.dequant ch false, .hfrRecon ch false, .imdct ch false sub allSf, .mdct ch false sub allSf, .pcmOut ch false sub allSf,
    .pcmIn ch false sub allSf]

/-- From states that agree outside slot `d`, a command on another channel has effects that do. -/
theorem effectOf_agree {d ch sub : Nat} {allSf : Bool} {s u : State} (h : AgreeOutsideSlot d s u) (hne : ch ≠ d) (hsub : sub < 8)
    {i : Instr} (hi : i ∈ channelCommands ch sub allSf) : (effectOf i s).Agree d (effectOf i u) := by
  have hstage {f : State → State} (hkeep : KeepsAgreement d f) :
      (requireCfg s (requireChannel s ch false (.ok (f s)))).Agree d (requireCfg u (requireChannel u ch false (.ok (f u)))) :=
    agree_requireCfg h (agree_requireChannel h (hkeep s u h).ok ch false)
  have hblocks {block : Nat → Nat → State → State} (hkeep : ∀ q, q < 8 → KeepsAgreement d (block ch q)) :
      KeepsAgreement d (forBlocks block [ch] (subframeSet sub allSf)) :=
    forBlocks_keepsAgreement fun c hc q hq => List.mem_singleton.1 hc ▸ hkeep q (subframeSet_lt hsub hq)
  simp only [channelCommands, List.mem_cons, List.not_mem_nil, or_false] at hi
  rcases hi with rfl | rfl | rfl | rfl | rfl | rfl
  · exact hstage (dequantChannel_keepsAgreement hne)
  · refine agree_requireCfg h (agree_requireChannel h (agree_requireHfrVersion h ?_) ch false)
    unfold hfrBody
    rw [h.sameConfig.hfrGroups]
    split
    · exact h
    · exact hfrChannel_keepsAgreement hne s u h
  · exact hstage (hblocks fun _ => imdctBlock_keepsAgreement hne)
  · exact hstage (hblocks fun _ => mdctBlock_keepsAgreement hne)
  · exact hstage (hblocks fun _ => pcmOutBlock_keepsAgreement hne)
  · exact hstage (hblocks fun _ => pcmInBlock_keepsAgreement hne)

/-- Settles O58: the two effects agree outside the slot, and completion keeps it so. -/
theorem channelsDoNotInteract : Obligations.ChannelsDoNotInteract := by
  intro s u ch d sub allSf _ _ hne _ hsub hrest hbytes i hi
  have hagree := (effectOf_agree ⟨hrest, hbytes⟩ hne hsub (allSf := allSf) hi).complete
  exact ⟨_, _, exec_eq_finish_effectOf i s, exec_eq_finish_effectOf i u, hagree.bytes⟩

end Sys2Proof.Machine
end
